-- ==== Sys2Proof/Word.lean ====
section
/-! DEFINITION. The byte of the station links and the 16-bit word of their payload fields (spec/11, R190). -/

namespace Sys2Proof

/-- One byte of a frame (R179). -/
abbrev Byte := BitVec 8

/-- One 16-bit payload field, or one raw count of a position channel (R190, R55). -/
abbrev Word := BitVec 16

end Sys2Proof
end

