-- ==== Sys2Proof/Config.lean ====
section
/-! DEFINITION. What is fixed for the part: the free values the manual leaves open, and the bound on one
command's cascade of messages between blocks. -/

namespace Sys2Proof

/-- FREE VALUE (log 5). Which of several events that fall together in one instant is taken first: the manual
allows either order (R22, R123, R139, R147, R154, R169, R173, R192). It has no body, so no proof can rest on
a choice; `State.fresh` counts the choices made. -/
opaque Config.freeOrder : Nat → Nat

/-- FREE VALUE (log 44). The word that stands in a 16-bit signed report field for a number outside its range, which only
a skew above 32767 or below -32768 can be: the manual does not say (R58, R190). It has no body. -/
opaque Config.wideSigned : Int → BitVec 16

/-- How many messages between blocks one command delivers at most before it ends (log 3). -/
def Config.cascadeBound : Nat := 4096

end Sys2Proof
end

