-- ==== Sys2Proof/Syntax.lean ====
section
/-! DEFINITION. The commands of the part: one constructor for each row of spec/opcode_table.json, with the
row's operands, and the names those operands need. -/

namespace Sys2Proof

/-- The two operator stations, each on its own link (spec/00 section 1.2). -/
inductive Station where
  | bridge
  | deck
  deriving DecidableEq, Repr

/-- The three axes, in member order (R1). -/
inductive Axis where
  | vis
  | rmp
  | inr
  deriving DecidableEq, Repr

/-- The three lock groups, in member order (R1). -/
inductive Group where
  | vlk
  | rlk
  | icl
  deriving DecidableEq, Repr

/-- The six members: axes first, then lock groups (R1). -/
inductive Member where
  | axis (a : Axis)
  | lock (g : Group)
  deriving DecidableEq, Repr

/-- The two pump units (R124). -/
inductive UnitId where
  | u1
  | u2
  deriving DecidableEq, Repr

/-- The two discrete inputs of a pump unit (R124). -/
inductive UnitInput where
  | pressureOk
  | motorTrip
  deriving DecidableEq, Repr

/-- What one position channel gives at a control period expiry (R55): a raw count and an error indication. -/
structure ChannelSample where
  raw   : Word
  error : Bool
  deriving DecidableEq, Repr

/-- The commands. A station request carries the station whose link it arrives at, its TAG and its payload
bytes as received (R183); a filtered input event carries the value delivered (R173); an event of a timer or
a clock names its owner. -/
inductive Instr where
  /-- POWER_ON_RESET (R178): the reset pin. -/
  | powerOnReset
  /-- CLAIM (R142). -/
  | claim (st : Station) (tag : Byte) (payload : List Byte)
  /-- YIELD (R143). -/
  | yieldAuthority (st : Station) (tag : Byte) (payload : List Byte)
  /-- START (R29). -/
  | startPlan (st : Station) (tag : Byte) (payload : List Byte)
  /-- PAUSE (R41). -/
  | pause (st : Station) (tag : Byte) (payload : List Byte)
  /-- CONTINUE (R42). -/
  | continueRun (st : Station) (tag : Byte) (payload : List Byte)
  /-- ABORT (R46). -/
  | abortRun (st : Station) (tag : Byte) (payload : List Byte)
  /-- PERMIT (R149). -/
  | permit (st : Station) (tag : Byte) (payload : List Byte)
  /-- JOG (R52). -/
  | jog (st : Station) (tag : Byte) (payload : List Byte)
  /-- TOPUP (R117). -/
  | topup (st : Station) (tag : Byte) (payload : List Byte)
  /-- SHIP (R13). -/
  | ship (st : Station) (tag : Byte) (payload : List Byte)
  /-- SET of a global parameter (R16). -/
  | setGlobalParameter (st : Station) (tag : Byte) (payload : List Byte)
  /-- SET of an axis parameter (R64). -/
  | setAxisParameter (st : Station) (tag : Byte) (payload : List Byte)
  /-- SET of a lock parameter (R121). -/
  | setLockParameter (st : Station) (tag : Byte) (payload : List Byte)
  /-- SET of a supply parameter (R137). -/
  | setSupplyParameter (st : Station) (tag : Byte) (payload : List Byte)
  /-- SET of an authority or permit parameter (R153). -/
  | setPermitParameter (st : Station) (tag : Byte) (payload : List Byte)
  /-- SET of a filter count (R174). -/
  | setFilterCount (st : Station) (tag : Byte) (payload : List Byte)
  /-- SETWIN (R63). -/
  | setwin (st : Station) (tag : Byte) (payload : List Byte)
  /-- SETSTEP (R26, R27). -/
  | setstep (st : Station) (tag : Byte) (payload : List Byte)
  /-- SETMASK (R187). -/
  | setmask (st : Station) (tag : Byte) (payload : List Byte)
  /-- READ of a report subject (R186, type 0). -/
  | readSubject (st : Station) (tag : Byte) (payload : List Byte)
  /-- READ of a parameter (R186, type 1). -/
  | readParameter (st : Station) (tag : Byte) (payload : List Byte)
  /-- READ of a window (R186, type 2). -/
  | readWindow (st : Station) (tag : Byte) (payload : List Byte)
  /-- READ of a step record (R186, type 3). -/
  | readStep (st : Station) (tag : Byte) (payload : List Byte)
  /-- READ of a plan length (R186, type 4). -/
  | readPlanLength (st : Station) (tag : Byte) (payload : List Byte)
  /-- READ of the link's report mask (R186, type 5). -/
  | readMask (st : Station) (tag : Byte) (payload : List Byte)
  /-- ACKNOWLEDGE (R162 to R164). -/
  | acknowledge (st : Station) (tag : Byte) (payload : List Byte)
  /-- RESTART (R165, R166). -/
  | restart (st : Station) (tag : Byte) (payload : List Byte)
  /-- A well-formed frame of a KIND that is no request kind (R184). -/
  | unknownKind (st : Station) (kind : Byte) (tag : Byte) (payload : List Byte)
  /-- Bytes received at a link that make up no well-formed frame (R181). -/
  | frameDiscard (st : Station) (bytes : List Byte)
  /-- The gap timer of a link expires (R181). -/
  | frameGapExpiry (st : Station)
  /-- The transmitter of a link finishes a frame (R189). -/
  | frameSent (st : Station)
  /-- The age of a link exceeds LINK_TIMEOUT (R146, R182). -/
  | linkLoss (st : Station)
  /-- A filtered edge of one or both sensors of a pin (R105, R173). -/
  | pinSensorEdge (g : Group) (pin : Nat) (engaged withdrawn : Option Bool)
  /-- The first filtered value of one or both sensors of a pin (R5, R172). -/
  | pinSensorFirstValue (g : Group) (pin : Nat) (engaged withdrawn : Option Bool)
  /-- A filtered edge of one or both end switches of an axis (R59, R173). -/
  | endSwitchEdge (a : Axis) (closedSw openSw : Option Bool)
  /-- A filtered edge of a pressure-ok input (R125, R126). -/
  | pressureOkEdge (u : UnitId) (active : Bool)
  /-- A filtered edge of a motor-trip input (R127). -/
  | motorTripEdge (u : UnitId) (active : Bool)
  /-- The first filtered value of a unit's input (R124). -/
  | unitInputFirstValue (u : UnitId) (input : UnitInput) (active : Bool)
  /-- A filtered edge of an emergency-stop loop (R160). -/
  | loopEdge (st : Station) (isClosed : Bool)
  /-- The first filtered value of an emergency-stop loop (R167). -/
  | loopFirstValue (st : Station) (isClosed : Bool)
  /-- A filtered edge of the key switch (R141). -/
  | keyEdge (isLocal : Bool)
  /-- The first filtered value of the key switch (R141). -/
  | keyFirstValue (isLocal : Bool)
  /-- A PWM period start (R175). -/
  | pwmPeriodStart
  /-- A control period expiry of an axis, with the samples of its two channels (R55). -/
  | controlPeriodExpiry (a : Axis) (port stbd : ChannelSample)
  /-- A stall sample falls due (R95). -/
  | stallSample (a : Axis)
  /-- The breakaway countdown of an axis reaches 0 (R97). -/
  | breakawayEnd (a : Axis)
  /-- RNE's step clock expires (R30). -/
  | stepClockExpiry
  /-- The remaining timeout of a member's in-flight entry reaches 0 (R38). -/
  | stepTimeoutExpiry (m : Member)
  /-- The remaining dwell of a member's in-flight entry reaches 0 (R39). -/
  | dwellExpiry (m : Member)
  /-- The announce timer of an axis expires (R68). -/
  | announceExpiry (a : Axis)
  /-- The reversal timer of an axis expires (R69). -/
  | reversalExpiry (a : Axis)
  /-- The switch-wait timer of an axis expires (R76). -/
  | switchWaitExpiry (a : Axis)
  /-- The staleness timer expires (R14). -/
  | speedStaleExpiry
  /-- The permit timer expires (R151). -/
  | permitExpiry
  /-- The conflict timer of a pin expires (R106). -/
  | conflictTimerExpiry (g : Group) (pin : Nat)
  /-- The transit timer of a pin reaches its limit (R107). -/
  | transitLimitExpiry (g : Group) (pin : Nat)
  /-- The settle timer of a lock group expires (R112). -/
  | settleExpiry (g : Group)
  /-- The hold timer of a lock group expires (R112). -/
  | holdExpiry (g : Group)
  /-- The periodic top-up timer of a lock group expires (R115). -/
  | periodicTopupExpiry (g : Group)
  /-- The top-up timer of a lock group expires (R120). -/
  | topupTimerExpiry (g : Group)
  /-- The start timer of a unit expires (R125). -/
  | startLimitExpiry (u : UnitId)
  /-- The pressure-loss timer of a unit expires (R126). -/
  | pressureLossExpiry (u : UnitId)
  /-- The run-on timer of a unit expires (R126). -/
  | runOnExpiry (u : UnitId)
  /-- The first filtered value of one or both end switches of an axis (R172). -/
  | endSwitchFirstValue (a : Axis) (closedSw openSw : Option Bool)
  deriving DecidableEq, Repr

/-- How many pins a lock group has (R105). -/
def Group.pinCount : Group → Nat
  | .vlk => 6
  | .rlk => 4
  | .icl => 6

end Sys2Proof
end

