-- ==== Sys2Proof/WellFormed.lean ====
section
/-! DEFINITION. The checks a command must pass to be one that can reach the part: a frame's length, the
fields that tell the rows of SET and READ apart, a pin that exists, an event that carries a value. -/

namespace Sys2Proof

/-- A frame carries 0 to 62 payload bytes (R179). -/
def payloadFits (payload : List Byte) : Bool := payload.length ≤ 62

/-- The first payload byte, where there is one. -/
def firstByte (payload : List Byte) : Option Nat := payload.head?.map BitVec.toNat

/-- The six rows that SET has in the command table, by the owner of the parameter. -/
inductive SetRow where
  | globals
  | axes
  | locks
  | supply
  | permits
  | filters
  deriving DecidableEq, Repr

/-- The row of SET an identifier belongs to, or none where it names no parameter (spec/11 section 11.7). -/
def setRowOf (b : Nat) : Option SetRow :=
  if 0x01 ≤ b && b ≤ 0x03 then some .globals
  else if 0x10 ≤ b && b ≤ 0x3F then some .axes
  else if 0x40 ≤ b && b ≤ 0x57 && b % 8 ≤ 4 then some .locks
  else if 0x60 ≤ b && b ≤ 0x61 then some .supply
  else if 0x68 ≤ b && b ≤ 0x6A then some .permits
  else if 0x70 ≤ b && b ≤ 0x75 then some .filters
  else none

/-- A SET belongs to a row when its identifier names a parameter of the row; a SET whose identifier names no
parameter, or that has none, is answered the same way whichever row carries it (R185, R183). -/
def setFits (row : SetRow) (payload : List Byte) : Bool :=
  payloadFits payload &&
    match (firstByte payload).bind setRowOf with
    | some r => r == row
    | none => true

/-- A READ belongs to the row of its item type; a READ whose type is none of the six, or that has none, is
answered the same way whichever row carries it (R186, R183). -/
def readFits (type : Nat) (payload : List Byte) : Bool :=
  payloadFits payload &&
    match firstByte payload with
    | some b => b == type || 5 < b
    | none => true

/-- A pin number of the group (R105). -/
def pinExists (g : Group) (pin : Nat) : Bool := 1 ≤ pin && pin ≤ g.pinCount

/-- An event of a pair of inputs carries at least one value (R173). -/
def carriesValue (x y : Option Bool) : Bool := x.isSome || y.isSome

/-- The command can reach the part in the form its row gives it. -/
def Instr.wellFormed : Instr → Bool
  | .powerOnReset => true
  | .claim _ _ p => payloadFits p
  | .yieldAuthority _ _ p => payloadFits p
  | .startPlan _ _ p => payloadFits p
  | .pause _ _ p => payloadFits p
  | .continueRun _ _ p => payloadFits p
  | .abortRun _ _ p => payloadFits p
  | .permit _ _ p => payloadFits p
  | .jog _ _ p => payloadFits p
  | .topup _ _ p => payloadFits p
  | .ship _ _ p => payloadFits p
  | .setGlobalParameter _ _ p => setFits .globals p
  | .setAxisParameter _ _ p => setFits .axes p
  | .setLockParameter _ _ p => setFits .locks p
  | .setSupplyParameter _ _ p => setFits .supply p
  | .setPermitParameter _ _ p => setFits .permits p
  | .setFilterCount _ _ p => setFits .filters p
  | .setwin _ _ p => payloadFits p
  | .setstep _ _ p => payloadFits p
  | .setmask _ _ p => payloadFits p
  | .readSubject _ _ p => readFits 0 p
  | .readParameter _ _ p => readFits 1 p
  | .readWindow _ _ p => readFits 2 p
  | .readStep _ _ p => readFits 3 p
  | .readPlanLength _ _ p => readFits 4 p
  | .readMask _ _ p => readFits 5 p
  | .acknowledge _ _ p => payloadFits p
  | .restart _ _ p => payloadFits p
  | .unknownKind _ k _ p => payloadFits p && (k == 0 || 0x11 < k.toNat)
  | .frameDiscard _ bs => !bs.isEmpty
  | .frameGapExpiry _ => true
  | .frameSent _ => true
  | .linkLoss _ => true
  | .pinSensorEdge g n e w => pinExists g n && carriesValue e w
  | .pinSensorFirstValue g n e w => pinExists g n && carriesValue e w
  | .endSwitchEdge _ c o => carriesValue c o
  | .pressureOkEdge _ _ => true
  | .motorTripEdge _ _ => true
  | .unitInputFirstValue _ _ _ => true
  | .loopEdge _ _ => true
  | .loopFirstValue _ _ => true
  | .keyEdge _ => true
  | .keyFirstValue _ => true
  | .pwmPeriodStart => true
  | .controlPeriodExpiry _ _ _ => true
  | .stallSample _ => true
  | .breakawayEnd _ => true
  | .stepClockExpiry => true
  | .stepTimeoutExpiry _ => true
  | .dwellExpiry _ => true
  | .announceExpiry _ => true
  | .reversalExpiry _ => true
  | .switchWaitExpiry _ => true
  | .speedStaleExpiry => true
  | .permitExpiry => true
  | .conflictTimerExpiry g n => pinExists g n
  | .transitLimitExpiry g n => pinExists g n
  | .settleExpiry _ => true
  | .holdExpiry _ => true
  | .periodicTopupExpiry _ => true
  | .topupTimerExpiry _ => true
  | .startLimitExpiry _ => true
  | .pressureLossExpiry _ => true
  | .runOnExpiry _ => true
  | .endSwitchFirstValue _ c o => carriesValue c o

end Sys2Proof
end

