-- ==== Sys2Proof/Decode.lean ====
section
/-! DEFINITION. The host's reading of an opcode table word. The table of this block gives no row any bits
(spec/98_reader.md: no row with fixed bits, none with fields), so no word spells a command. -/

namespace Sys2Proof

/-- The command that a word spells by the table's bits: none, for every width and word. -/
def decodeTableWord (_nbits _w : Nat) : Option Instr := none

end Sys2Proof
end

