-- ==== Sys2Proof/Machine/Types.lean ====
section
/-! DEFINITION. The names and records of the part's state: the enumerations of spec/11 section 11.7, the
records of each block, and the messages that pass between blocks. -/

namespace Sys2Proof.Machine

/-! ## Interlock evaluator (spec/01) -/

/-- The guard conditions of R10 in its order, and the two further wait reasons of R34. -/
inductive Reason where
  | estopLatched
  | memberFault
  | lockBusy
  | vlkNotWithdrawn
  | visNotClosed
  | visNotOpen
  | rmpNotClosed
  | rlkNotEngaged
  | rlkNotWithdrawn
  | iclNotWithdrawn
  | inrNotClosed
  | speedUnknown
  | speedHigh
  | noPosition
  | noPermit
  deriving DecidableEq, Repr

/-- The action of a watched entry (R17). -/
inductive WatchAction where
  | moveTo
  | engage
  | withdraw
  | topUp
  deriving DecidableEq, Repr

/-- The source of a watched entry (R17). -/
inductive WatchSource where
  | planStep
  | jogStep
  | topUp
  deriving DecidableEq, Repr

/-- The stage of a watched entry (R17). -/
inductive Stage where
  | waiting
  | preparing
  | driving
  | holding
  deriving DecidableEq, Repr

/-- One entry of the watched-action list (R17). `result` is `none` for TRUE, else the failing condition. -/
structure WatchEntry where
  member : Member
  action : WatchAction
  target : Option Nat
  source : WatchSource
  stage  : Stage
  result : Option Reason
  deriving DecidableEq, Repr

/-- ILK's items: the ship-speed record (R12), its parameters (R16) and the watched-action list (R17). -/
structure Ilk where
  known      : Bool
  speed      : Nat
  stale      : Bool
  expiry     : Option Nat
  speedLimit : Nat
  speedStale : Nat
  warnTime   : Nat
  watch      : List WatchEntry
  deriving DecidableEq, Repr

/-! ## Run engine (spec/02) -/

/-- The action of a step (R24). -/
inductive Action where
  | moveTo
  | engage
  | withdraw
  deriving DecidableEq, Repr

/-- A step record (R24). -/
structure Step where
  member   : Member
  action   : Action
  target   : Option Nat
  timeout  : Nat
  dwell    : Option Nat
  withNext : Bool
  deriving DecidableEq, Repr

/-- A plan: its length and its step positions, numbered from 1 (R23). -/
structure Plan where
  len   : Nat
  steps : List Step
  deriving DecidableEq, Repr

/-- P0 to P3 and the jog plan J (R23). -/
inductive PlanId where
  | p0
  | p1
  | p2
  | p3
  | j
  deriving DecidableEq, Repr

/-- The engine states (R30). -/
inductive Engine where
  | idle
  | running
  | paused
  | aborting
  | tripped
  deriving DecidableEq, Repr

/-- The last result (R30). -/
inductive RunResult where
  | none
  | complete
  | aborted
  | tripped
  deriving DecidableEq, Repr

/-- The step outcomes (R31). -/
inductive StepOutcome where
  | pending
  | skipped
  | inFlight
  | done
  | dropped
  deriving DecidableEq, Repr

/-- The phase of an in-flight entry (R30). -/
inductive EntryPhase where
  | waitGuard
  | delegated
  | dwell
  deriving DecidableEq, Repr

/-- One in-flight entry (R30): `timeout` is the remaining timeout, `dwell` the remaining dwell. -/
structure Entry where
  num     : Nat
  member  : Member
  phase   : EntryPhase
  timeout : Nat
  dwell   : Option Nat
  wait    : Option Reason
  deriving DecidableEq, Repr

/-- RNE's items: the plan store (R23), the run context (R30) and the step clock. -/
structure Rne where
  p0         : Plan
  p1         : Plan
  p2         : Plan
  p3         : Plan
  jog        : Plan
  engine     : Engine
  planId     : Option PlanId
  startedBy  : Option Station
  groupFirst : Nat
  elapsed    : Option Nat
  inflight   : List Entry
  lapse      : Bool
  operator   : Bool
  result     : RunResult
  outcomes   : List StepOutcome
  blocked    : Option (Nat × Reason)
  clock      : Nat
  deriving DecidableEq, Repr

/-! ## Axis controllers (spec/03 to spec/05) -/

/-- The axis member states (R2). -/
inductive AxisMember where
  | closed
  | opened
  | intermediate
  | opening
  | closing
  | fault
  deriving DecidableEq, Repr

/-- Where STOPPING leads (R71 to R73). -/
inductive StopDest where
  | paused
  | moving
  | idle
  deriving DecidableEq, Repr

/-- The run phases (spec/03 section 3.5). -/
inductive AxisPhase where
  | idle
  | waitSupply
  | announce
  | reversing
  | moving
  | seeking
  | stopping (dest : StopDest)
  | paused
  | halted
  deriving DecidableEq, Repr

/-- The direction of a step, opening for s = +1 and closing for s = −1 (spec/00 section 3.4). -/
inductive Dir where
  | opening
  | closing
  deriving DecidableEq, Repr

/-- The scope of a window (R60). -/
inductive Scope where
  | opening
  | closing
  | both
  deriving DecidableEq, Repr

/-- The two end switches of an axis (R59). -/
inductive EndSwitch where
  | closedSw
  | openSw
  deriving DecidableEq, Repr

/-- One window entry W1 to W6 (R60); `switchEnd` is the end mode SWITCH. -/
structure Window where
  valid      : Bool
  low        : Nat
  high       : Nat
  scope      : Scope
  speed      : Nat
  ramp       : Nat
  switchEnd  : Bool
  switchWait : Nat
  deriving DecidableEq, Repr

/-- The default profile W0 (R60). -/
structure Profile where
  speed : Nat
  ramp  : Nat
  deriving DecidableEq, Repr

/-- The per-axis parameters (R64). -/
structure AxisParams where
  stroke       : Nat
  zeroP        : Nat
  zeroS        : Nat
  gainP        : Nat
  gainS        : Nat
  deadband     : Nat
  creep        : Nat
  approachGain : Nat
  skewGain     : Nat
  skewLimit    : Nat
  stopRamp     : Nat
  deadTime     : Nat
  stallMin     : Nat
  breakaway    : Bool
  closedBand   : Nat
  openBand     : Nat
  deriving DecidableEq, Repr

/-- The last accepted cylinder positions (R57). -/
structure CylPos where
  port : Nat
  stbd : Nat
  deriving DecidableEq, Repr

/-- The failure kinds of a cylinder (R56). -/
inductive SampleFail where
  | channel
  | range
  | jump
  deriving DecidableEq, Repr

/-- The record of a latched position fault (R100). -/
structure PosFault where
  kindPort : Option SampleFail
  kindStbd : Option SampleFail
  rawPort  : Word
  rawStbd  : Word
  deriving DecidableEq, Repr

/-- How a step ends: POSITION, or SWITCH with its end switch and switch wait (R62). -/
inductive EndMode where
  | position
  | switch (sw : EndSwitch) (wait : Nat)
  deriving DecidableEq, Repr

/-- The step data an axis fixes at hand-over (R66). -/
structure AxisStep where
  num     : Nat
  jog     : Bool
  dir     : Dir
  target  : Nat
  endMode : EndMode
  deriving DecidableEq, Repr

/-- Four values, one for each drive output of an axis (R91). -/
structure Sides where
  portOpen  : Nat
  portClose : Nat
  stbdOpen  : Nat
  stbdClose : Nat
  deriving DecidableEq, Repr

/-- The items of one axis controller (spec/03, spec/05). -/
structure AxisState where
  par         : AxisParams
  w0          : Profile
  windows     : List Window
  pos         : Option CylPos
  jumpSuspP   : Bool
  jumpSuspS   : Bool
  posCond     : Bool
  disagree    : Bool
  posFault    : Option PosFault
  latchClosed : Bool
  latchOpen   : Bool
  endClosed   : Option Bool
  endOpen     : Option Bool
  member      : AxisMember
  phase       : AxisPhase
  held        : Bool
  step        : Option AxisStep
  vc          : Nat
  u           : Nat
  breakaway   : Bool
  bkLeft      : Option Nat
  bkCount     : Nat
  stallRef    : Option (Nat × Nat)
  stallLeft   : Option Nat
  announce    : Option Nat
  reversal    : Option Nat
  switchWait  : Option Nat
  zero        : Sides
  control     : Nat
  deriving DecidableEq, Repr

/-! ## Lock group controllers (spec/06) -/

/-- The pin states (R5). -/
inductive PinState where
  | engaged
  | withdrawn
  | transit
  | conflict
  deriving DecidableEq, Repr

/-- One pin record (R105): the timers hold the ms left. -/
structure Pin where
  engaged   : Option Bool
  withdrawn : Option Bool
  state     : PinState
  transit   : Option Nat
  stuck     : Bool
  conflict  : Option Nat
  deriving DecidableEq, Repr

/-- The group states (R6). -/
inductive GroupState where
  | engaged
  | withdrawn
  | engaging
  | withdrawing
  | partly
  | fault
  deriving DecidableEq, Repr

/-- The phases of an operation in hand (spec/06 section 6.2); IDLE is the absence of an operation. -/
inductive OpPhase where
  | waitSupply
  | driving
  | settling
  | holding
  deriving DecidableEq, Repr

/-- An operation in hand (R108); `engage` is the action ENGAGE. -/
structure LockOp where
  phase  : OpPhase
  engage : Bool
  num    : Nat
  jog    : Bool
  deriving DecidableEq, Repr

/-- The status of a top-up (R114). -/
inductive TopStatus where
  | none
  | pendingGuard
  | pendingSupply
  | active
  deriving DecidableEq, Repr

/-- The sources of a top-up (R114). -/
inductive TopSource where
  | periodic
  | creep
  | station
  deriving DecidableEq, Repr

/-- The top-up record (R114). -/
structure TopUp where
  status     : TopStatus
  srcPeriod  : Bool
  srcCreep   : Bool
  srcStation : Bool
  request    : Bool
  deriving DecidableEq, Repr

/-- The lock parameters (R121). -/
structure LockParams where
  settle        : Nat
  transitLimit  : Nat
  holdTime      : Nat
  topupInterval : Nat
  topupTime     : Nat
  deriving DecidableEq, Repr

/-- The items of one lock group controller (spec/06). -/
structure LockState where
  pins         : List Pin
  op           : Option LockOp
  settleT      : Option Nat
  holdT        : Option Nat
  topupT       : Option Nat
  top          : TopUp
  periodic     : Option Nat
  conflictPins : List Nat
  creep        : Bool
  gstate       : GroupState
  par          : LockParams
  deriving DecidableEq, Repr

/-! ## Hydraulic supply allocator (spec/07) -/

/-- A consumer of pump units (R128). -/
inductive Consumer where
  | axisStep (a : Axis)
  | lockOp (g : Group)
  | topUp (g : Group)
  deriving DecidableEq, Repr

/-- The states of a pump unit (R124). -/
inductive UnitState where
  | stopped
  | starting
  | running
  | failed
  deriving DecidableEq, Repr

/-- The failure kinds of a pump unit (R124). -/
inductive UnitFail where
  | startFail
  | pressureLoss
  | motorTrip
  deriving DecidableEq, Repr

/-- The record of one pump unit (R124); the timers hold the ms left. -/
structure PumpUnit where
  state     : UnitState
  holder    : Option Consumer
  failure   : Option UnitFail
  startT    : Option Nat
  lossT     : Option Nat
  runOnT    : Option Nat
  pressOk   : Option Bool
  motorTrip : Option Bool
  deriving DecidableEq, Repr

/-- The kinds of want (R129). -/
inductive WantKind where
  | operation
  | first
  | second
  | topUp
  deriving DecidableEq, Repr

/-- An entry of the pending request list (R129), with the class number of its consumer (R128). -/
structure Want where
  consumer : Consumer
  kind     : WantKind
  cls      : Nat
  deriving DecidableEq, Repr

/-- HSA's items (R124, R129, R137). -/
structure Hsa where
  u1         : PumpUnit
  u2         : PumpUnit
  wants      : List Want
  startLimit : Nat
  runOn      : Nat
  deriving DecidableEq, Repr

/-! ## Command authority and permit (spec/08) -/

/-- The key position before and after its first filtered value (R140). -/
inductive KeyPos where
  | isLocal
  | isRemote
  | unknown
  deriving DecidableEq, Repr

/-- CAU's items (R140, R153). -/
structure Cau where
  holder      : Option Station
  elect       : Option Station
  yielded     : Bool
  key         : KeyPos
  busyVlk     : Bool
  busyRlk     : Bool
  busyIcl     : Bool
  aliveBridge : Bool
  aliveDeck   : Bool
  deferred    : Bool
  linkTimeout : Nat
  deriving DecidableEq, Repr

/-- PMT's items (R148, R153); `tripAction` is PERMIT_ACTION TRIP. -/
structure Pmt where
  live       : Bool
  timer      : Option Nat
  lapsed     : Bool
  window     : Nat
  tripAction : Bool
  deriving DecidableEq, Repr

/-! ## Trip unit (spec/09) -/

/-- The trip causes (R156). -/
inductive Cause where
  | interlock
  | skew
  | stall
  | stepTimeout
  | lockTimeout
  | pinConflict
  | lockCreep
  | endsw
  | sensor
  | supplyLost
  | permitLapse
  | estop
  deriving DecidableEq, Repr

/-- The detail a trip report carries (R156). -/
inductive Detail where
  | none
  | guard (r : Reason)
  | supply (u : UnitId) (k : UnitFail)
  | loops (bridge deck : Bool)
  deriving DecidableEq, Repr

/-- The coordinate and skew of an axis in the trip record (R157). -/
structure AxisFix where
  x : Nat
  e : Int
  deriving DecidableEq, Repr

/-- The trip record (R157). -/
structure TripRecord where
  cause   : Cause
  member  : Option Member
  detail  : Detail
  planId  : Option PlanId
  stepNum : Option Nat
  engine  : Engine
  vis     : Option AxisFix
  rmp     : Option AxisFix
  inr     : Option AxisFix
  pins    : List (PinState × Bool)
  time    : Option Nat
  deriving DecidableEq, Repr

/-- The state of an emergency-stop loop (R160). -/
inductive LoopState where
  | closed
  | opened
  | unknown
  deriving DecidableEq, Repr

/-- TRU's items (spec/09). -/
structure Tru where
  record     : Option TripRecord
  causes     : List Cause
  latch      : Bool
  loopBridge : LoopState
  loopDeck   : LoopState
  deriving DecidableEq, Repr

/-! ## Discrete input conditioner (spec/10) -/

/-- The 45 discrete inputs (R170). -/
inductive Input where
  | pinEngaged (g : Group) (pin : Nat)
  | pinWithdrawn (g : Group) (pin : Nat)
  | endClosed (a : Axis)
  | endOpen (a : Axis)
  | pressure (u : UnitId)
  | motorTrip (u : UnitId)
  | loop (st : Station)
  | key
  deriving DecidableEq, Repr

/-- The six filter classes (R170). -/
inductive FilterClass where
  | pin
  | endSw
  | press
  | trip
  | estop
  | key
  deriving DecidableEq, Repr

/-- What DIC holds for one input: the raw level on its line (true for high), the filtered value and the run
counter (R170). -/
structure DicInput where
  input    : Input
  level    : Bool
  filtered : Option Bool
  run      : Nat
  deriving DecidableEq, Repr

/-- The filter counts of the six classes (R174). -/
structure FilterCounts where
  pin   : Nat
  endSw : Nat
  press : Nat
  trip  : Nat
  estop : Nat
  key   : Nat
  deriving DecidableEq, Repr

/-- DIC's items; `owed` holds the deliveries of the last sample that their owners have yet to take (R173). -/
structure Dic where
  inputs  : List DicInput
  counts  : FilterCounts
  samples : Nat
  owed    : List Instr
  deriving DecidableEq, Repr

/-- The lines of the two position channels of an axis (spec/00 section 1.2). -/
structure Channels where
  port : ChannelSample
  stbd : ChannelSample
  deriving DecidableEq, Repr

/-! ## Output drivers (spec/10) -/

/-- One proportional output (R175). -/
structure Drive where
  active  : Nat
  pending : Nat
  flag    : Bool
  deriving DecidableEq, Repr

/-- The four proportional outputs of one axis. -/
structure Drives where
  portOpen  : Drive
  portClose : Drive
  stbdOpen  : Drive
  stbdClose : Drive
  deriving DecidableEq, Repr

/-- VOD's items (R175, R176). -/
structure Vod where
  vis    : Drives
  rmp    : Drives
  inr    : Drives
  forced : Bool
  pwm    : Nat
  deriving DecidableEq, Repr

/-! ## Station links (spec/11) -/

/-- The ten report subjects (R188). -/
inductive Subject where
  | member (m : Member)
  | run
  | authority
  | supply
  | trip
  deriving DecidableEq, Repr

/-- A record to be sent: KIND, TAG and payload (R179). -/
structure Frame where
  kind    : Byte
  tag     : Byte
  payload : List Byte
  deriving DecidableEq, Repr

/-- A frame being sent, with the line time left in tenths of a microsecond (R179, R189). -/
structure Sending where
  frame : Frame
  left  : Nat
  deriving DecidableEq, Repr

/-- One station link interface (spec/11). `asm` is `none` in HUNTING, else the bytes received after SYNC. -/
structure Link where
  asm     : Option (List Byte)
  gap     : Option Nat
  age     : Nat
  replies : List Frame
  reports : List Subject
  mask    : Word
  tx      : Option Sending
  deriving DecidableEq, Repr

/-- The outcomes of a reply (spec/11 section 11.7). -/
inductive ReplyCode where
  | ok
  | pending
  | clamped
  | noAuthority
  | wrongStation
  | wrongState
  | badValue
  | badPlan
  | emptyPlan
  | interlocked
  | stillActive
  | unknownKind
  | badLength
  deriving DecidableEq, Repr

/-! ## Messages between blocks -/

/-- The events that blocks send to one another along the paths of spec/00 section 2.2 (log 2). -/
inductive Msg where
  /-- to ILK: re-evaluate the watched-action list (R17). -/
  | reeval
  /-- ILK to LGC: the guard of a waiting top-up is TRUE (R118). -/
  | topupGo (g : Group)
  /-- to RNE: apply the hand-over test (R35). -/
  | handTest
  /-- to RNE: recompute the blocked indication (R34). -/
  | refreshBlocked
  /-- in RNE: an entry has left the set; the group may be done (R40). -/
  | groupDone
  /-- in RNE: an abort may be over (R46, R47). -/
  | abortCheck
  /-- in RNE: the remaining timeout of a member's entry has reached 0 (R38). -/
  | stepTimeout (m : Member)
  /-- in RNE: the remaining dwell of a member's entry has reached 0 (R39). -/
  | dwellDone (m : Member)
  /-- a member to RNE: its step is complete (R39). -/
  | completion (m : Member)
  /-- an axis to RNE: its step has ended (R47). -/
  | stepEnded (a : Axis)
  /-- an axis to RNE: its first accepted sample since the reset (R33). -/
  | firstSample (a : Axis)
  /-- PMT to RNE: the permit has lapsed (R43). -/
  | lapseEvent
  /-- PMT to RNE: a PERMIT from the holder (R43). -/
  | permitNotice
  /-- RNE to an axis: stop (R71). -/
  | axisStop (a : Axis)
  /-- RNE to an axis: resume (R71). -/
  | axisResume (a : Axis)
  /-- RNE to an axis: end (R72). -/
  | axisEnd (a : Axis)
  /-- a consumer to HSA: it asks for units (R129). -/
  | request (c : Consumer)
  /-- a consumer to HSA: it withdraws its want and releases its units (R133). -/
  | release (c : Consumer)
  /-- to HSA: an allocation event (R130). -/
  | allocate
  /-- HSA to a consumer: it holds a RUNNING unit (R125, R131). -/
  | unitReady (c : Consumer)
  /-- to TRU: a trip report (R156). -/
  | tripReport (c : Cause) (m : Option Member) (d : Detail)
  /-- TRU's trip event at RNE and ILK (R48, R17). -/
  | tripRne
  /-- TRU's trip event at the six member controllers, in member order (R1, R74, R113). -/
  | tripMembers
  /-- TRU's trip event at HSA (R135). -/
  | tripHsa
  /-- TRU's emergency-stop notice to HSA (R136). -/
  | estopNotice
  /-- LGC to CAU: a group enters DRIVING or SETTLING (R144). -/
  | busyEnter (g : Group)
  /-- LGC to CAU: a group leaves DRIVING and SETTLING (R144). -/
  | busyExit (g : Group)
  /-- CAU to PMT: the holder has changed (R152). -/
  | holderChanged
  /-- a top-up trigger of a group (R114). -/
  | topupTrigger (g : Group) (src : TopSource)
  /-- the hold timer of a group expires (R112). -/
  | holdDone (g : Group)
  /-- the reply to a request (R183). -/
  | reply (st : Station) (f : Frame)
  /-- the reply to CLAIM or YIELD, with the roles as they stand when it is enqueued (R142). -/
  | replyRoles (st : Station) (kind : Byte) (tag : Byte) (code : ReplyCode)
  deriving DecidableEq, Repr

end Sys2Proof.Machine
end

