-- ==== Sys2Proof/Machine/Defaults.lean ====
section
/-! DEFINITION. The values each block takes at a reset: the defaults a power-on reset loads, and each block's
reset value as a function of the items a RESTART keeps (R166). -/

namespace Sys2Proof.Machine

/-! ## Plans (R23 to R25) -/

/-- The cleared step record (R24). -/
def clearedStep : Step := ⟨.axis .vis, .moveTo, some 0, 1, none, false⟩

/-- A plan of these steps, its further positions holding the cleared record (R23). -/
def planOf (steps : List Step) : Plan :=
  ⟨steps.length, steps ++ List.replicate (12 - steps.length) clearedStep⟩

/-- Plan J before a JOG first builds it (R23, R186). -/
def emptyJog : Plan := ⟨0, [clearedStep]⟩

/-- The default plan OPEN (R25). -/
def defaultOpen : Plan := planOf
  [⟨.lock .vlk, .withdraw, none, 150, none, false⟩,
   ⟨.axis .vis, .moveTo, some 28000, 900, some 10, false⟩,
   ⟨.lock .rlk, .withdraw, none, 150, none, false⟩,
   ⟨.axis .rmp, .moveTo, some 32000, 900, none, true⟩,
   ⟨.lock .icl, .withdraw, none, 150, none, false⟩,
   ⟨.axis .inr, .moveTo, some 16000, 600, none, false⟩]

/-- The default plan CLOSE (R25). -/
def defaultClose : Plan := planOf
  [⟨.axis .inr, .moveTo, some 0, 600, none, false⟩,
   ⟨.lock .icl, .engage, none, 150, none, true⟩,
   ⟨.axis .rmp, .moveTo, some 0, 900, none, false⟩,
   ⟨.lock .rlk, .engage, none, 150, none, false⟩,
   ⟨.axis .vis, .moveTo, some 0, 900, some 10, false⟩,
   ⟨.lock .vlk, .engage, none, 150, none, false⟩]

/-- RNE at a reset, with the plan store it then has (R30). -/
def rneAtReset (p0 p1 p2 p3 : Plan) : Rne :=
  { p0, p1, p2, p3, jog := emptyJog, engine := .idle, planId := none, startedBy := none, groupFirst := 1,
    elapsed := none, inflight := [], lapse := false, operator := false, result := .none, outcomes := [],
    blocked := none, clock := 100 }

/-! ## Interlock evaluator (R12, R16) -/

/-- ILK at a reset, with the parameters it then has. -/
def ilkAtReset (speedLimit speedStale warnTime : Nat) : Ilk :=
  { known := false, speed := 0, stale := false, expiry := none, speedLimit, speedStale, warnTime, watch := [] }

/-! ## Axes (R60, R64, R78) -/

/-- The default STROKE of an axis (R64). -/
def defaultStroke : Axis → Nat
  | .vis => 28000
  | .rmp => 32000
  | .inr => 16000

/-- The default parameters of an axis (R64). -/
def defaultAxisParams (a : Axis) : AxisParams :=
  { stroke := defaultStroke a, zeroP := 0, zeroS := 0, gainP := 1024, gainS := 1024, deadband := 5, creep := 40,
    approachGain := 8, skewGain := 16, skewLimit := 120, stopRamp := 100, deadTime := 150, stallMin := 10,
    breakaway := true, closedBand := 20, openBand := 20 }

/-- The default W0 (R60). -/
def defaultW0 : Profile := ⟨700, 20⟩

/-- The default W3 to W6 (R60). -/
def invalidWindow : Window := ⟨false, 0, 1, .both, 0, 1, false, 1⟩

/-- The default W1 to W6 of an axis (R60). -/
def defaultWindows (a : Axis) : List Window :=
  [⟨true, 0, 1500, .both, 150, 10, true, 30⟩,
   ⟨true, defaultStroke a - 1500, defaultStroke a + 1, .both, 150, 10, true, 30⟩,
   invalidWindow, invalidWindow, invalidWindow, invalidWindow]

/-- A side zero time longer than any DEAD_TIME, which is at most 1000 ms (R69); zero times are kept up to this
value, since no rule tells longer ones apart (log 13). -/
def longZero : Nat := 1001

/-- The side zero times after a power-on reset (R69). -/
def longZeros : Sides := ⟨longZero, longZero, longZero, longZero⟩

/-- An axis controller at a reset, with the items a RESTART keeps (R78). -/
def axisAtReset (par : AxisParams) (w0 : Profile) (windows : List Window) (zero : Sides) : AxisState :=
  { par, w0, windows, pos := none, jumpSuspP := false, jumpSuspS := false, posCond := false, disagree := false,
    posFault := none, latchClosed := false, latchOpen := false, endClosed := none, endOpen := none,
    member := .intermediate, phase := .idle, held := false, step := none, vc := 0, u := 0,
    breakaway := false, bkLeft := none, bkCount := 0, stallRef := none, stallLeft := none, announce := none, reversal := none,
    switchWait := none, zero, control := 20 }

/-! ## Lock groups (R105, R121, R122) -/

/-- A pin record at a reset (R105). -/
def pinAtReset : Pin := ⟨none, none, .transit, none, false, none⟩

/-- No top-up in hand (R114). -/
def noTopUp : TopUp := ⟨.none, false, false, false, false⟩

/-- The default lock parameters (R121). -/
def defaultLockParams : LockParams := ⟨200, 8, 2, 30, 3⟩

/-- A lock group controller at a reset, with the parameters it then has (R122). -/
def lockAtReset (g : Group) (par : LockParams) : LockState :=
  { pins := List.replicate g.pinCount pinAtReset, op := none, settleT := none, holdT := none, topupT := none,
    top := noTopUp, periodic := none, conflictPins := [], creep := false, gstate := .partly, par }

/-! ## Supply, authority, permit, trip unit (R124, R140, R148, R167) -/

/-- A pump unit at a reset (R124). -/
def unitAtReset : PumpUnit := ⟨.stopped, none, none, none, none, none, none, none⟩

/-- HSA at a reset, with the parameters it then has (R124, R129). -/
def hsaAtReset (startLimit runOn : Nat) : Hsa := ⟨unitAtReset, unitAtReset, [], startLimit, runOn⟩

/-- CAU at a reset, with the parameter it then has (R140). -/
def cauAtReset (linkTimeout : Nat) : Cau :=
  { holder := none, elect := none, yielded := false, key := .unknown, busyVlk := false, busyRlk := false,
    busyIcl := false, aliveBridge := true, aliveDeck := true, deferred := false, linkTimeout }

/-- PMT at a reset, with the parameters it then has (R148). -/
def pmtAtReset (window : Nat) (tripAction : Bool) : Pmt :=
  { live := false, timer := none, lapsed := false, window, tripAction }

/-- TRU at a reset (R167). -/
def truAtReset : Tru := ⟨none, [], false, .unknown, .unknown⟩

/-! ## Input conditioner and output drivers (R170, R172, R174, R178) -/

/-- The inputs of one pin. -/
def pinInputs (g : Group) (n : Nat) : List Input := [.pinEngaged g n, .pinWithdrawn g n]

/-- The 45 discrete inputs, in the order of the table of R170. -/
def allInputs : List Input :=
  [1, 2, 3, 4, 5, 6].flatMap (pinInputs .vlk) ++ [1, 2, 3, 4].flatMap (pinInputs .rlk) ++
  [1, 2, 3, 4, 5, 6].flatMap (pinInputs .icl) ++
  [.endClosed .vis, .endOpen .vis, .endClosed .rmp, .endOpen .rmp, .endClosed .inr, .endOpen .inr,
   .pressure .u1, .pressure .u2, .motorTrip .u1, .motorTrip .u2, .loop .bridge, .loop .deck, .key]

/-- The default filter counts (R174). -/
def defaultCounts : FilterCounts := ⟨8, 8, 16, 4, 4, 16⟩

/-- An input after a reset: no filtered value and a run counter of 0 (R172); its line is the plant's. -/
def inputAtReset (i : Input) (level : Bool) : DicInput := ⟨i, level, none, 0⟩

/-- The level the model gives every discrete line before anything drives it: low (DESIGN CHOICE, log 7). -/
def undrivenLevel : Bool := false

/-- A position channel's lines before anything drives them (DESIGN CHOICE, log 7). -/
def undrivenChannels : Channels := ⟨⟨0, false⟩, ⟨0, false⟩⟩

/-- DIC after a reset, with the inputs' lines as they are (R172). -/
def dicAtReset (inputs : List DicInput) (counts : FilterCounts) : Dic :=
  { inputs := inputs.map fun i => inputAtReset i.input i.level, counts, samples := 0, owed := [] }

/-- The inputs at power-on with undriven lines. -/
def undrivenInputs : List DicInput := allInputs.map fun i => inputAtReset i undrivenLevel

/-- A proportional output at zero with nothing pending (R176, R178). -/
def zeroDrive : Drive := ⟨0, 0, false⟩

/-- The four outputs of an axis at zero. -/
def zeroDrives : Drives := ⟨zeroDrive, zeroDrive, zeroDrive, zeroDrive⟩

/-- VOD at a reset (R178). -/
def vodAtReset : Vod := ⟨zeroDrives, zeroDrives, zeroDrives, false, 5⟩

/-- A link interface at a reset, with the mask it then has (R191). -/
def linkAtReset (mask : Word) : Link :=
  { asm := none, gap := none, age := 0, replies := [], reports := [], mask, tx := none }

end Sys2Proof.Machine
end

