-- ==== Sys2Proof/Machine/State.lean ====
section
/-! DEFINITION. The state of the part, everything the manual gives it, the state right after a power-on reset,
and the reasons a step can stop. -/

namespace Sys2Proof.Machine

/-- The state of the part. `pending` is the queue of waiting commands. `agenda` and `fresh` are the model's own:
the messages between blocks still to be delivered (log 2), and how many free orders have been taken (log 5). -/
structure State where
  ilk     : Ilk
  rne     : Rne
  vis     : AxisState
  rmp     : AxisState
  inr     : AxisState
  vlk     : LockState
  rlk     : LockState
  icl     : LockState
  hsa     : Hsa
  cau     : Cau
  pmt     : Pmt
  tru     : Tru
  dic     : Dic
  chVis   : Channels
  chRmp   : Channels
  chInr   : Channels
  vod     : Vod
  bridge  : Link
  deck    : Link
  pending : List Instr
  agenda  : List Msg
  fresh   : Nat
  deriving DecidableEq, Repr

/-- Why the machine stops with a fault. -/
inductive Fault where
  /-- Raised by the events of a pin (PIN_SENSOR_EDGE, PIN_SENSOR_FIRST_VALUE, CONFLICT_TIMER_EXPIRY,
  TRANSIT_LIMIT_EXPIRY) whose number the group does not have (R105): no line of the part can raise such an
  event. Safe: nothing is claimed of a part that does not exist (log 25). -/
  | noSuchInput
  deriving DecidableEq, Repr

/-- Why the model refuses a command. -/
inductive Refusal where
  /-- Raised by an arm of the dispatch whose command has no meaning yet. Safe: it claims nothing. -/
  | notModelled (mnemonic : String)
  deriving DecidableEq, Repr

/-- The part right after a power-on reset (R178 and the reset rule of every chapter), with nothing waiting. -/
def State.reset : State :=
  { ilk := ilkAtReset 20 10 30
    rne := rneAtReset defaultOpen defaultClose (planOf []) (planOf [])
    vis := axisAtReset (defaultAxisParams .vis) defaultW0 (defaultWindows .vis) longZeros
    rmp := axisAtReset (defaultAxisParams .rmp) defaultW0 (defaultWindows .rmp) longZeros
    inr := axisAtReset (defaultAxisParams .inr) defaultW0 (defaultWindows .inr) longZeros
    vlk := lockAtReset .vlk defaultLockParams
    rlk := lockAtReset .rlk defaultLockParams
    icl := lockAtReset .icl defaultLockParams
    hsa := hsaAtReset 3 60
    cau := cauAtReset 3
    pmt := pmtAtReset 500 false
    tru := truAtReset
    dic := dicAtReset undrivenInputs defaultCounts
    chVis := undrivenChannels
    chRmp := undrivenChannels
    chInr := undrivenChannels
    vod := vodAtReset
    bridge := linkAtReset 0x03FF
    deck := linkAtReset 0x03FF
    pending := []
    agenda := []
    fresh := 0 }

end Sys2Proof.Machine
end

