-- ==== Sys2Proof/Machine/Ops.lean ====
section
/-! DEFINITION. The shared operations over the state's parts: each controller, unit, link and plan is read and
written through one accessor, and messages between blocks are sent through `emit`. -/

namespace Sys2Proof.Machine

/-! ## Controllers, units, links, plans -/

/-- The controller of an axis. -/
def State.axis (s : State) : Axis → AxisState
  | .vis => s.vis
  | .rmp => s.rmp
  | .inr => s.inr

/-- Replaces the controller of an axis. -/
def State.setAxis (s : State) (a : Axis) (v : AxisState) : State :=
  match a with
  | .vis => { s with vis := v }
  | .rmp => { s with rmp := v }
  | .inr => { s with inr := v }

/-- Changes the controller of an axis. -/
def State.modAxis (s : State) (a : Axis) (f : AxisState → AxisState) : State := s.setAxis a (f (s.axis a))

/-- The controller of a lock group. -/
def State.lock (s : State) : Group → LockState
  | .vlk => s.vlk
  | .rlk => s.rlk
  | .icl => s.icl

/-- Replaces the controller of a lock group. -/
def State.setLock (s : State) (g : Group) (v : LockState) : State :=
  match g with
  | .vlk => { s with vlk := v }
  | .rlk => { s with rlk := v }
  | .icl => { s with icl := v }

/-- Changes the controller of a lock group. -/
def State.modLock (s : State) (g : Group) (f : LockState → LockState) : State := s.setLock g (f (s.lock g))

/-- The record of a pump unit. -/
def State.unit (s : State) : UnitId → PumpUnit
  | .u1 => s.hsa.u1
  | .u2 => s.hsa.u2

/-- Replaces the record of a pump unit. -/
def State.setUnit (s : State) (u : UnitId) (v : PumpUnit) : State :=
  match u with
  | .u1 => { s with hsa := { s.hsa with u1 := v } }
  | .u2 => { s with hsa := { s.hsa with u2 := v } }

/-- Changes the record of a pump unit. -/
def State.modUnit (s : State) (u : UnitId) (f : PumpUnit → PumpUnit) : State := s.setUnit u (f (s.unit u))

/-- The link interface of a station. -/
def State.link (s : State) : Station → Link
  | .bridge => s.bridge
  | .deck => s.deck

/-- Replaces the link interface of a station. -/
def State.setLink (s : State) (st : Station) (v : Link) : State :=
  match st with
  | .bridge => { s with bridge := v }
  | .deck => { s with deck := v }

/-- Changes the link interface of a station. -/
def State.modLink (s : State) (st : Station) (f : Link → Link) : State := s.setLink st (f (s.link st))

/-- The lines of an axis's position channels. -/
def State.channels (s : State) : Axis → Channels
  | .vis => s.chVis
  | .rmp => s.chRmp
  | .inr => s.chInr

/-- Sets the lines of an axis's position channels. -/
def State.setChannels (s : State) (a : Axis) (v : Channels) : State :=
  match a with
  | .vis => { s with chVis := v }
  | .rmp => { s with chRmp := v }
  | .inr => { s with chInr := v }

/-- The drive outputs of an axis. -/
def State.drives (s : State) : Axis → Drives
  | .vis => s.vod.vis
  | .rmp => s.vod.rmp
  | .inr => s.vod.inr

/-- Replaces the drive outputs of an axis. -/
def State.setDrives (s : State) (a : Axis) (v : Drives) : State :=
  match a with
  | .vis => { s with vod := { s.vod with vis := v } }
  | .rmp => { s with vod := { s.vod with rmp := v } }
  | .inr => { s with vod := { s.vod with inr := v } }

/-- A plan of the store (R23). -/
def Rne.plan (r : Rne) : PlanId → Plan
  | .p0 => r.p0
  | .p1 => r.p1
  | .p2 => r.p2
  | .p3 => r.p3
  | .j => r.jog

/-- Replaces a plan of the store. -/
def Rne.setPlan (r : Rne) (p : PlanId) (v : Plan) : Rne :=
  match p with
  | .p0 => { r with p0 := v }
  | .p1 => { r with p1 := v }
  | .p2 => { r with p2 := v }
  | .p3 => { r with p3 := v }
  | .j => { r with jog := v }

/-- A step position of a plan, numbered from 1 (R23). -/
def Plan.step (p : Plan) (n : Nat) : Step := (p.steps[n - 1]?).getD clearedStep

/-- A pin of a group, numbered from 1 (R105). -/
def LockState.pin? (l : LockState) (n : Nat) : Option Pin := l.pins[n - 1]?

/-- Changes one pin of a group, numbered from 1. -/
def LockState.modPin (l : LockState) (n : Nat) (f : Pin → Pin) : LockState :=
  { l with pins := l.pins.modify (n - 1) f }

/-! ## Pairing and order (R1) -/

/-- The partner lock group of an axis. -/
def ownGroup : Axis → Group
  | .vis => .vlk
  | .rmp => .rlk
  | .inr => .icl

/-- The closure axis of a lock group. -/
def closureAxis : Group → Axis
  | .vlk => .vis
  | .rlk => .rmp
  | .icl => .inr

/-- The axes in member order. -/
def allAxes : List Axis := [.vis, .rmp, .inr]

/-- The lock groups in member order. -/
def allGroups : List Group := [.vlk, .rlk, .icl]

/-- The six members in member order. -/
def allMembers : List Member := allAxes.map .axis ++ allGroups.map .lock

/-- The place of a member in member order. -/
def memberIndex : Member → Nat
  | .axis .vis => 0
  | .axis .rmp => 1
  | .axis .inr => 2
  | .lock .vlk => 3
  | .lock .rlk => 4
  | .lock .icl => 5

/-- The other station. -/
def otherStation : Station → Station
  | .bridge => .deck
  | .deck => .bridge

/-! ## Messages between blocks (log 2) -/

/-- Sends messages, to be delivered after those already sent by the same handler. -/
def State.emit (s : State) (ms : List Msg) : State := { s with agenda := s.agenda ++ ms }

/-- A value held down to a range (the clamps of the parameter rules). -/
def clamp (lo hi v : Nat) : Nat := max lo (min hi v)

end Sys2Proof.Machine
end

