-- ==== Sys2Proof/Machine/Operands.lean ====
section
/-! DEFINITION. The fields of payloads: bytes and words (R190), the codes of spec/11 section 11.7, the window
and step encodings, and the parameter identifiers. -/

namespace Sys2Proof.Machine

/-! ## Bytes and words (R190) -/

/-- A number as one byte. -/
def byteOf (n : Nat) : Byte := BitVec.ofNat 8 n

/-- A number as a word, least significant byte first (R179). -/
def wordOf (n : Nat) : List Byte := [byteOf n, byteOf (n / 256)]

/-- The word whose bytes are these, least significant first. -/
def wordVal (lo hi : Byte) : Nat := lo.toNat + 256 * hi.toNat

/-- A signed word in two's complement (R190); what is sent for a number outside the 16-bit signed range is free
(log 44). -/
def signedWordOf (i : Int) : List Byte :=
  wordOf (if -32768 ≤ i ∧ i ≤ 32767 then BitVec.ofInt 16 i else Config.wideSigned i).toNat

/-- The signed value of a word (R190). -/
def signedVal (lo hi : Byte) : Int := (BitVec.ofNat 16 (wordVal lo hi)).toInt

/-- The byte of a field that has no value (R190). -/
def noneByte : Byte := 0xFF

/-- The word of an unsigned field that has no value (R190). -/
def noneWord : List Byte := [0xFF, 0xFF]

/-- The word of a signed field that has no value (R190). -/
def noneSigned : List Byte := [0x00, 0x80]

/-- An optional byte field. -/
def byteOr (n : Option Nat) : Byte :=
  match n with
  | some v => byteOf v
  | none => noneByte

/-- An optional word field. -/
def wordOr (n : Option Nat) : List Byte :=
  match n with
  | some v => wordOf v
  | none => noneWord

/-- A flag as a byte, 1 where it is set (log 56); and a field of two enumerated values, 1 for the second (section
11.7). -/
def flagByte (b : Bool) : Byte := if b then 1 else 0

/-- A set-valued field: bit n stands for the n-th value (R190). -/
def maskOf (bits : List Bool) : Nat := bits.foldr (fun b n => b.toNat + 2 * n) 0

/-- A list of bytes filled up with FFh (R190). -/
def padTo (n : Nat) (bs : List Byte) : List Byte := bs ++ List.replicate (n - bs.length) noneByte

/-- A flag field of a request: 0 or 1; any other form is refused (R190, log 16). -/
def flagOfByte (b : Byte) : Option Bool :=
  match b.toNat with
  | 0 => some false
  | 1 => some true
  | _ => none

/-! ## Enumeration codes (spec/11 section 11.7) -/

/-- The station code. -/
def stationCode : Option Station → Nat
  | none => 0
  | some .bridge => 1
  | some .deck => 2

/-- The member of a code. -/
def memberOfCode : Nat → Option Member
  | 0 => some (.axis .vis)
  | 1 => some (.axis .rmp)
  | 2 => some (.axis .inr)
  | 3 => some (.lock .vlk)
  | 4 => some (.lock .rlk)
  | 5 => some (.lock .icl)
  | _ => none

/-- The axis of a code 0 to 2. -/
def axisOfCode : Nat → Option Axis
  | 0 => some .vis
  | 1 => some .rmp
  | 2 => some .inr
  | _ => none

/-- The lock group that a member code names, if any. -/
def groupOfCode (n : Nat) : Option Group :=
  match memberOfCode n with
  | some (.lock g) => some g
  | _ => none

/-- The action code. -/
def actionCode : Action → Nat
  | .moveTo => 0
  | .engage => 1
  | .withdraw => 2

/-- The action of a code. -/
def actionOfCode : Nat → Option Action
  | 0 => some .moveTo
  | 1 => some .engage
  | 2 => some .withdraw
  | _ => none

/-- The engine state code. -/
def engineCode : Engine → Nat
  | .idle => 0
  | .running => 1
  | .paused => 2
  | .aborting => 3
  | .tripped => 4

/-- The step phase code. -/
def entryPhaseCode : EntryPhase → Nat
  | .waitGuard => 0
  | .delegated => 1
  | .dwell => 2

/-- The last result code. -/
def resultCode : RunResult → Nat
  | .none => 0
  | .complete => 1
  | .aborted => 2
  | .tripped => 3

/-- The step outcome code. -/
def outcomeCode : StepOutcome → Nat
  | .pending => 0
  | .skipped => 1
  | .inFlight => 2
  | .done => 3
  | .dropped => 4

/-- The axis member state code. -/
def axisMemberCode : AxisMember → Nat
  | .closed => 0
  | .opened => 1
  | .intermediate => 2
  | .opening => 3
  | .closing => 4
  | .fault => 5

/-- The axis run phase code. -/
def axisPhaseCode : AxisPhase → Nat
  | .idle => 0
  | .waitSupply => 1
  | .announce => 2
  | .reversing => 3
  | .moving => 4
  | .seeking => 5
  | .stopping _ => 6
  | .paused => 7
  | .halted => 8

/-- The group state code. -/
def groupStateCode : GroupState → Nat
  | .engaged => 0
  | .withdrawn => 1
  | .engaging => 2
  | .withdrawing => 3
  | .partly => 4
  | .fault => 5

/-- The lock operation phase code; IDLE is no operation. -/
def opPhaseCode : Option LockOp → Nat
  | none => 0
  | some o =>
    match o.phase with
    | .waitSupply => 1
    | .driving => 2
    | .settling => 3
    | .holding => 4

/-- The pin state code. -/
def pinStateCode : PinState → Nat
  | .engaged => 0
  | .withdrawn => 1
  | .transit => 2
  | .conflict => 3

/-- The top-up status code. -/
def topStatusCode : TopStatus → Nat
  | .none => 0
  | .pendingGuard => 1
  | .pendingSupply => 2
  | .active => 3

/-- The unit state code. -/
def unitStateCode : UnitState → Nat
  | .stopped => 0
  | .starting => 1
  | .running => 2
  | .failed => 3

/-- The unit failure kind code. -/
def unitFailCode : Option UnitFail → Nat
  | none => 0
  | some .startFail => 1
  | some .pressureLoss => 2
  | some .motorTrip => 3

/-- The member a consumer works for (R128). -/
def Consumer.member : Consumer → Member
  | .axisStep a => .axis a
  | .lockOp g => .lock g
  | .topUp g => .lock g

/-- The consumer kind code. -/
def consumerKindCode : Consumer → Nat
  | .axisStep _ => 0
  | .lockOp _ => 1
  | .topUp _ => 2

/-- The pending kind code. -/
def wantKindCode : WantKind → Nat
  | .operation => 0
  | .first => 1
  | .second => 2
  | .topUp => 3

/-- The key position code. -/
def keyCode : KeyPos → Nat
  | .isLocal => 0
  | .isRemote => 1
  | .unknown => 2

/-- The loop code. -/
def loopCode : LoopState → Nat
  | .closed => 0
  | .opened => 1
  | .unknown => 2

/-- The scope code. -/
def scopeCode : Scope → Nat
  | .opening => 0
  | .closing => 1
  | .both => 2

/-- The scope of a code. -/
def scopeOfCode : Nat → Option Scope
  | 0 => some .opening
  | 1 => some .closing
  | 2 => some .both
  | _ => none

/-- The direction code. -/
def dirCode : Dir → Nat
  | .opening => 0
  | .closing => 1

/-- The plan id code. -/
def planCode : PlanId → Nat
  | .p0 => 0
  | .p1 => 1
  | .p2 => 2
  | .p3 => 3
  | .j => 4

/-- The plan of a code 0 to 4. -/
def planOfCode : Nat → Option PlanId
  | 0 => some .p0
  | 1 => some .p1
  | 2 => some .p2
  | 3 => some .p3
  | 4 => some .j
  | _ => none

/-- The stored plan of a code 0 to 3 (R26, R29). -/
def storedPlanOfCode : Nat → Option PlanId
  | 0 => some .p0
  | 1 => some .p1
  | 2 => some .p2
  | 3 => some .p3
  | _ => none

/-- The code of a guard condition or wait reason; 0 stands for TRUE or none. -/
def reasonCode : Option Reason → Nat
  | none => 0
  | some .estopLatched => 1
  | some .memberFault => 2
  | some .lockBusy => 3
  | some .vlkNotWithdrawn => 4
  | some .visNotClosed => 5
  | some .visNotOpen => 6
  | some .rmpNotClosed => 7
  | some .rlkNotEngaged => 8
  | some .rlkNotWithdrawn => 9
  | some .iclNotWithdrawn => 10
  | some .inrNotClosed => 11
  | some .speedUnknown => 12
  | some .speedHigh => 13
  | some .noPosition => 14
  | some .noPermit => 15

/-- The trip cause code. -/
def causeCode : Cause → Nat
  | .interlock => 1
  | .skew => 2
  | .stall => 3
  | .stepTimeout => 4
  | .lockTimeout => 5
  | .pinConflict => 6
  | .lockCreep => 7
  | .endsw => 8
  | .sensor => 9
  | .supplyLost => 10
  | .permitLapse => 11
  | .estop => 12

/-- The failure kind code of a cylinder. -/
def sampleFailCode : Option SampleFail → Nat
  | none => 0
  | some .channel => 1
  | some .range => 2
  | some .jump => 3

/-- The outcome code of a reply. -/
def replyCode : ReplyCode → Byte
  | .ok => 0x00
  | .pending => 0x01
  | .clamped => 0x02
  | .noAuthority => 0x10
  | .wrongStation => 0x11
  | .wrongState => 0x12
  | .badValue => 0x13
  | .badPlan => 0x14
  | .emptyPlan => 0x15
  | .interlocked => 0x16
  | .stillActive => 0x17
  | .unknownKind => 0x20
  | .badLength => 0x21

/-- The subject code (R188). -/
def subjectCode : Subject → Nat
  | .member m => memberIndex m
  | .run => 6
  | .authority => 7
  | .supply => 8
  | .trip => 9

/-- The subject of a code 0 to 9. -/
def subjectOfCode : Nat → Option Subject
  | 6 => some .run
  | 7 => some .authority
  | 8 => some .supply
  | 9 => some .trip
  | n => (memberOfCode n).map .member

/-- The ten subjects in code order. -/
def allSubjects : List Subject := allMembers.map .member ++ [.run, .authority, .supply, .trip]

/-! ## Window and step encodings (spec/11 section 11.7) -/

/-- A window entry W1 to W6, 11 bytes. -/
def windowBytes (w : Window) : List Byte :=
  [flagByte w.valid] ++ wordOf w.low ++ wordOf w.high ++ [byteOf (scopeCode w.scope)] ++ wordOf w.speed ++
    [byteOf w.ramp, flagByte w.switchEnd, byteOf w.switchWait]

/-- W0 as a window entry: every field but speed and ramp reads as none. -/
def profileBytes (p : Profile) : List Byte :=
  [noneByte] ++ noneWord ++ noneWord ++ [noneByte] ++ wordOf p.speed ++ [byteOf p.ramp, noneByte, noneByte]

/-- A step record, 8 bytes. -/
def stepBytes (st : Step) : List Byte :=
  [byteOf (memberIndex st.member), byteOf (actionCode st.action)] ++ wordOr st.target ++ wordOf st.timeout ++
    [byteOr st.dwell, flagByte st.withNext]

/-! ## Parameters (spec/11 section 11.7) -/

/-- A parameter, as its identifier names it: an axis parameter by its index 0 to 15, a lock parameter by its
index 0 to 4. -/
inductive Param where
  | speedLimit
  | speedStale
  | warnTime
  | axis (a : Axis) (i : Nat)
  | lock (g : Group) (i : Nat)
  | startLimit
  | runOn
  | permitWindow
  | permitAction
  | linkTimeout
  | filter (c : FilterClass)
  deriving DecidableEq, Repr

/-- The parameter that an identifier names. -/
def paramOfId (n : Nat) : Option Param :=
  if n = 0x01 then some .speedLimit
  else if n = 0x02 then some .speedStale
  else if n = 0x03 then some .warnTime
  else if 0x10 ≤ n ∧ n ≤ 0x1F then some (.axis .vis (n - 0x10))
  else if 0x20 ≤ n ∧ n ≤ 0x2F then some (.axis .rmp (n - 0x20))
  else if 0x30 ≤ n ∧ n ≤ 0x3F then some (.axis .inr (n - 0x30))
  else if 0x40 ≤ n ∧ n ≤ 0x44 then some (.lock .vlk (n - 0x40))
  else if 0x48 ≤ n ∧ n ≤ 0x4C then some (.lock .rlk (n - 0x48))
  else if 0x50 ≤ n ∧ n ≤ 0x54 then some (.lock .icl (n - 0x50))
  else if n = 0x60 then some .startLimit
  else if n = 0x61 then some .runOn
  else if n = 0x68 then some .permitWindow
  else if n = 0x69 then some .permitAction
  else if n = 0x6A then some .linkTimeout
  else if n = 0x70 then some (.filter .pin)
  else if n = 0x71 then some (.filter .endSw)
  else if n = 0x72 then some (.filter .press)
  else if n = 0x73 then some (.filter .trip)
  else if n = 0x74 then some (.filter .estop)
  else if n = 0x75 then some (.filter .key)
  else none

/-- An axis parameter by its index (R64). -/
def AxisParams.get (p : AxisParams) : Nat → Nat
  | 0 => p.stroke
  | 1 => p.zeroP
  | 2 => p.zeroS
  | 3 => p.gainP
  | 4 => p.gainS
  | 5 => p.deadband
  | 6 => p.creep
  | 7 => p.approachGain
  | 8 => p.skewGain
  | 9 => p.skewLimit
  | 10 => p.stopRamp
  | 11 => p.deadTime
  | 12 => p.stallMin
  | 13 => p.breakaway.toNat
  | 14 => p.closedBand
  | _ => p.openBand

/-- Writes an axis parameter by its index. -/
def AxisParams.set (p : AxisParams) (i v : Nat) : AxisParams :=
  match i with
  | 0 => { p with stroke := v }
  | 1 => { p with zeroP := v }
  | 2 => { p with zeroS := v }
  | 3 => { p with gainP := v }
  | 4 => { p with gainS := v }
  | 5 => { p with deadband := v }
  | 6 => { p with creep := v }
  | 7 => { p with approachGain := v }
  | 8 => { p with skewGain := v }
  | 9 => { p with skewLimit := v }
  | 10 => { p with stopRamp := v }
  | 11 => { p with deadTime := v }
  | 12 => { p with stallMin := v }
  | 13 => { p with breakaway := v == 1 }
  | 14 => { p with closedBand := v }
  | _ => { p with openBand := v }

/-- The range of an axis parameter (R64). -/
def axisParamRange : Nat → Nat × Nat
  | 0 => (1000, 40000)
  | 1 => (0, 65535)
  | 2 => (0, 65535)
  | 3 => (256, 4095)
  | 4 => (256, 4095)
  | 5 => (1, 50)
  | 6 => (10, 200)
  | 7 => (1, 255)
  | 8 => (0, 255)
  | 9 => (20, 500)
  | 10 => (20, 500)
  | 11 => (0, 1000)
  | 12 => (1, 100)
  | 13 => (0, 1)
  | _ => (5, 200)

/-- A lock parameter by its index (R121). -/
def LockParams.get (p : LockParams) : Nat → Nat
  | 0 => p.settle
  | 1 => p.transitLimit
  | 2 => p.holdTime
  | 3 => p.topupInterval
  | _ => p.topupTime

/-- Writes a lock parameter by its index. -/
def LockParams.set (p : LockParams) (i v : Nat) : LockParams :=
  match i with
  | 0 => { p with settle := v }
  | 1 => { p with transitLimit := v }
  | 2 => { p with holdTime := v }
  | 3 => { p with topupInterval := v }
  | _ => { p with topupTime := v }

/-- The range of a lock parameter (R121). -/
def lockParamRange : Nat → Nat × Nat
  | 0 => (50, 1000)
  | 1 => (1, 30)
  | 2 => (0, 10)
  | 3 => (0, 240)
  | _ => (1, 10)

/-- The filter count of a class (R174). -/
def FilterCounts.get (c : FilterCounts) : FilterClass → Nat
  | .pin => c.pin
  | .endSw => c.endSw
  | .press => c.press
  | .trip => c.trip
  | .estop => c.estop
  | .key => c.key

/-- Writes the filter count of a class. -/
def FilterCounts.set (c : FilterCounts) (k : FilterClass) (v : Nat) : FilterCounts :=
  match k with
  | .pin => { c with pin := v }
  | .endSw => { c with endSw := v }
  | .press => { c with press := v }
  | .trip => { c with trip := v }
  | .estop => { c with estop := v }
  | .key => { c with key := v }

/-- A filter count rounded up to the next of 2, 4, 8 and 16 (R174). -/
def roundCount (v : Nat) : Nat := if v ≤ 2 then 2 else if v ≤ 4 then 4 else if v ≤ 8 then 8 else 16

/-- The stored value of a parameter, as READ and SET carry it. -/
def State.param (s : State) : Param → Nat
  | .speedLimit => s.ilk.speedLimit
  | .speedStale => s.ilk.speedStale
  | .warnTime => s.ilk.warnTime
  | .axis a i => (s.axis a).par.get i
  | .lock g i => (s.lock g).par.get i
  | .startLimit => s.hsa.startLimit
  | .runOn => s.hsa.runOn
  | .permitWindow => s.pmt.window
  | .permitAction => s.pmt.tripAction.toNat
  | .linkTimeout => s.cau.linkTimeout
  | .filter c => s.dic.counts.get c

end Sys2Proof.Machine
end

