-- ==== Sys2Proof/Machine/Flags.lean ====
section
/-! DEFINITION. The states and flags that the part derives from others: coordinate and skew, member states,
secured flags, output demands, supply counts, and the guards of the interlock matrix. -/

namespace Sys2Proof.Machine

/-! ## Axes -/

/-- The sign of a direction (spec/00 section 3.4). -/
def Dir.sign : Dir → Int
  | .opening => 1
  | .closing => -1

/-- The coordinate of accepted positions (R58). -/
def CylPos.x (p : CylPos) : Nat := (p.port + p.stbd) / 2

/-- The skew of accepted positions (R58). -/
def CylPos.e (p : CylPos) : Int := (p.port : Int) - (p.stbd : Int)

/-- The last accepted coordinate of an axis, if any. -/
def AxisState.x? (ax : AxisState) : Option Nat := ax.pos.map CylPos.x

/-- The direction from a coordinate to a target: opening when the target exceeds it (R11, R66). -/
def dirTo (x target : Nat) : Dir := if x < target then .opening else .closing

/-- The direction of an axis action not yet handed over: closing when the axis has no coordinate (R11). -/
def AxisState.dirOf (ax : AxisState) (target : Nat) : Dir :=
  match ax.x? with
  | some x => dirTo x target
  | none => .closing

/-- A target held down to the current STROKE (R36). -/
def AxisState.hold (ax : AxisState) (target : Nat) : Nat := min target ax.par.stroke

/-- The phases with motion, in which the axis is OPENING or CLOSING (R2). -/
def AxisPhase.inMotion : AxisPhase → Bool
  | .reversing => true
  | .moving => true
  | .seeking => true
  | .stopping _ => true
  | _ => false

/-- The phases in which the drive is computed (R79). -/
def AxisPhase.driving : AxisPhase → Bool
  | .moving => true
  | .seeking => true
  | .stopping _ => true
  | _ => false

/-- The phases in which stall samples fall (R94). -/
def AxisPhase.sampled : AxisPhase → Bool
  | .moving => true
  | .seeking => true
  | _ => false

/-- IDLE or HALTED: the phases that take parameter and window writes (R63, R64). -/
def AxisPhase.atRest : AxisPhase → Bool
  | .idle => true
  | .halted => true
  | _ => false

/-- The horn demand of an axis in this phase (R77). -/
def AxisPhase.horn : AxisPhase → Bool
  | .announce => true
  | .reversing => true
  | .moving => true
  | .seeking => true
  | .stopping _ => true
  | _ => false

/-- An end switch is active by its filtered value; one without a first value is not. -/
def AxisState.switchActive (ax : AxisState) : EndSwitch → Bool
  | .closedSw => ax.endClosed == some true
  | .openSw => ax.endOpen == some true

/-- A switch disagreement is latched (R101). -/
def AxisState.switchLatched (ax : AxisState) : Bool := ax.latchClosed || ax.latchOpen

/-- The axis holds a latched fault (R2). -/
def AxisState.faulted (ax : AxisState) : Bool := ax.posFault.isSome || ax.switchLatched

/-- The positional states of R2: CLOSED, OPEN or INTERMEDIATE. -/
def AxisState.positional (ax : AxisState) : AxisMember :=
  match ax.x? with
  | none => .intermediate
  | some x =>
    if x ≤ ax.par.closedBand ∧ ax.switchActive .closedSw then .closed
    else if ax.par.stroke - ax.par.openBand ≤ x ∧ ax.switchActive .openSw then .opened
    else .intermediate

/-- The member state of an axis (R2). -/
def AxisState.derive (ax : AxisState) : AxisMember :=
  if ax.faulted then .fault
  else if ax.phase.inMotion then
    match ax.step with
    | some st =>
      match st.dir with
      | .opening => .opening
      | .closing => .closing
    | none => ax.positional
  else ax.positional

/-- The closed switch disagrees with a coordinate (R59). -/
def AxisState.closedDisagrees (ax : AxisState) (x : Nat) : Bool :=
  ax.switchActive .closedSw && ax.par.closedBand + 100 < x

/-- The open switch disagrees with a coordinate (R59). -/
def AxisState.openDisagrees (ax : AxisState) (x : Nat) : Bool :=
  ax.switchActive .openSw && x + ax.par.openBand + 100 < ax.par.stroke

/-- The range of a window holds a coordinate and its scope a direction (R60, R61). -/
def Window.holds (w : Window) (c : Nat) (d : Dir) : Bool :=
  w.valid && w.low ≤ c && c < w.high &&
    match w.scope, d with
    | .both, _ => true
    | .opening, .opening => true
    | .closing, .closing => true
    | _, _ => false

/-- The window looked up at a coordinate in a direction: the highest-numbered entry that qualifies, or none
for W0 (R61). -/
def AxisState.window? (ax : AxisState) (c : Nat) (d : Dir) : Option Window :=
  (ax.windows.filter fun w => w.holds c d).getLast?

/-- The speed and ramp of the window in force (R61). -/
def AxisState.profileAt (ax : AxisState) (c : Nat) (d : Dir) : Profile :=
  match ax.window? c d with
  | some w => ⟨w.speed, w.ramp⟩
  | none => ax.w0

/-- The end switch of a step that ends at an end of the stroke, if it does (R62). -/
def AxisState.endSwitchOf (ax : AxisState) (target : Nat) (d : Dir) : Option EndSwitch :=
  match d with
  | .closing => if target ≤ ax.par.closedBand then some .closedSw else none
  | .opening => if ax.par.stroke - ax.par.openBand ≤ target then some .openSw else none

/-- The end mode of a step to a target in a direction (R62). -/
def AxisState.endModeOf (ax : AxisState) (target : Nat) (d : Dir) : EndMode :=
  match ax.endSwitchOf target d, ax.window? target d with
  | some sw, some w => if w.switchEnd then .switch sw w.switchWait else .position
  | _, _ => .position

/-- The satisfaction test of an axis step (R32). -/
def AxisState.satisfied (ax : AxisState) (target : Nat) : Bool :=
  match ax.x? with
  | none => false
  | some x =>
    let t := ax.hold target
    decide (ax.member ≠ .fault) && decide ((x : Int) - t ≤ ax.par.deadband ∧ (t : Int) - x ≤ ax.par.deadband) &&
      match ax.endModeOf t (dirTo x t) with
      | .switch sw _ => ax.switchActive sw
      | .position => true

/-! ## Lock groups -/

/-- The pin state of two filtered sensors; TRANSIT until both have values (R5). -/
def pinStateOf : Option Bool → Option Bool → PinState
  | some true, some false => .engaged
  | some false, some true => .withdrawn
  | some true, some true => .conflict
  | _, _ => .transit

/-- Every pin of the group stands in a state. -/
def LockState.allPins (l : LockState) (st : PinState) : Bool := l.pins.all fun p => p.state == st

/-- The state an operation asks its pins to take (R111). -/
def LockOp.asked (o : LockOp) : PinState := if o.engage then .engaged else .withdrawn

/-- The conflict-present flag (R106). -/
def LockState.conflictPresent (l : LockState) : Bool := l.pins.any fun p => p.state == .conflict

/-- The group state (R6). -/
def LockState.derive (l : LockState) : GroupState :=
  if !l.conflictPins.isEmpty || l.creep then .fault
  else
    match l.op with
    | some o => if o.engage then .engaging else .withdrawing
    | none =>
      if l.allPins .engaged then .engaged
      else if l.allPins .withdrawn then .withdrawn
      else .partly

/-- The operation drives a solenoid: DRIVING, SETTLING or HOLDING (R110). -/
def LockOp.drives (o : LockOp) : Bool :=
  match o.phase with
  | .waitSupply => false
  | _ => true

/-- The engage solenoid demand (R110). -/
def LockState.engageDemand (l : LockState) : Bool :=
  l.top.status == .active ||
    match l.op with
    | some o => o.engage && o.drives
    | none => false

/-- The withdraw solenoid demand (R110). -/
def LockState.withdrawDemand (l : LockState) : Bool :=
  match l.op with
  | some o => !o.engage && o.drives
  | none => false

/-- The satisfaction test of a lock step (R32). -/
def LockState.satisfied (l : LockState) (action : Action) : Bool :=
  match action with
  | .engage => l.gstate == .engaged
  | .withdraw => l.gstate == .withdrawn
  | .moveTo => false

/-! ## Closures and outputs (R8, R177) -/

/-- The secured flag of an axis's closure (R8). -/
def State.secured (s : State) (a : Axis) : Bool :=
  (s.axis a).member == .closed && (s.lock (ownGroup a)).gstate == .engaged

/-- The securing lamp of a closure follows its flag (R8, R177). -/
def State.lampOn (s : State) (a : Axis) : Bool := s.secured a

/-- The motion warning horn (R77, R177). -/
def State.hornOn (s : State) : Bool := allAxes.any fun a => (s.axis a).phase.horn

/-- The starter output of a unit (R124, R177). -/
def State.starterOn (s : State) (u : UnitId) : Bool :=
  (s.unit u).state == .starting || (s.unit u).state == .running

/-- The engage solenoid output of a group (R177). -/
def State.engageOn (s : State) (g : Group) : Bool := (s.lock g).engageDemand && !s.vod.forced

/-- The withdraw solenoid output of a group (R177). -/
def State.withdrawOn (s : State) (g : Group) : Bool := (s.lock g).withdrawDemand && !s.vod.forced

/-- A proportional output is on at a time, in µs, from the start of the PWM period (R175). -/
def Drive.onAt (d : Drive) (us : Nat) : Bool := us < d.active

/-- The driver-enable output of a link (R179). -/
def Link.driverEnable (l : Link) : Bool := l.tx.isSome

/-! ## Supply -/

/-- Both inputs of the unit have first values (R124). -/
def PumpUnit.ready (u : PumpUnit) : Bool := u.pressOk.isSome && u.motorTrip.isSome

/-- The unit is free (R124). -/
def PumpUnit.free (u : PumpUnit) : Bool := u.ready && u.holder.isNone && u.state != .failed

/-- How many units a consumer holds. -/
def Hsa.held (h : Hsa) (c : Consumer) : Nat := (h.u1.holder == some c).toNat + (h.u2.holder == some c).toNat

/-- The unit is held by the consumer and RUNNING. -/
def PumpUnit.runningFor (u : PumpUnit) (c : Consumer) : Bool := u.holder == some c && u.state == .running

/-- How many RUNNING units a consumer holds: the u of an axis (R70). -/
def Hsa.running (h : Hsa) (c : Consumer) : Nat := (h.u1.runningFor c).toNat + (h.u2.runningFor c).toNat

/-! ## Authority and emergency stop -/

/-- The station with the higher priority, by the key (R141). -/
def Cau.higher (c : Cau) : Option Station :=
  match c.key with
  | .isLocal => some .deck
  | .isRemote => some .bridge
  | .unknown => none

/-- The busy set is empty (R140). -/
def Cau.busyEmpty (c : Cau) : Bool := !c.busyVlk && !c.busyRlk && !c.busyIcl

/-- The alive flag of a link (R140). -/
def Cau.alive (c : Cau) : Station → Bool
  | .bridge => c.aliveBridge
  | .deck => c.aliveDeck

/-- A cause still stands (R162). -/
def State.causePresent (s : State) : Cause → Bool
  | .estop => s.tru.loopBridge != .closed || s.tru.loopDeck != .closed
  | .pinConflict => allGroups.any fun g => (s.lock g).conflictPresent
  | .sensor => allAxes.any fun a => (s.axis a).posCond || (s.axis a).disagree
  | _ => false

/-- The causes TRU holds, record first, then the set (R162). -/
def Tru.allCauses (t : Tru) : List Cause :=
  match t.record with
  | some r => r.cause :: t.causes
  | none => t.causes

/-- The causes still present, in record-then-set order (R162, R168). -/
def State.stillPresent (s : State) : List Cause := s.tru.allCauses.filter fun c => s.causePresent c

/-! ## Guards (R9 to R11) -/

/-- The state of an axis fails a condition that names one. -/
def State.axisIs (s : State) (a : Axis) (m : AxisMember) : Bool := (s.axis a).member == m

/-- The state of a group meets a condition that names one. -/
def State.lockIs (s : State) (g : Group) (m : GroupState) : Bool := (s.lock g).gstate == m

/-- The speed condition, in its two parts (R10). -/
def State.speedConds (s : State) : List (Reason × Bool) :=
  [(.speedUnknown, s.ilk.known), (.speedHigh, s.ilk.speed ≤ s.ilk.speedLimit)]

/-- The member is not in FAULT (R9). -/
def State.notFault (s : State) : Member → Bool
  | .axis a => !s.axisIs a .fault
  | .lock g => !s.lockIs g .fault

/-- An axis's own lock group is not ENGAGING or WITHDRAWING (R9). -/
def State.lockNotBusy (s : State) (a : Axis) : Bool :=
  !s.lockIs (ownGroup a) .engaging && !s.lockIs (ownGroup a) .withdrawing

/-- The row conditions of an axis action (R9), the speed condition last (R10). -/
def State.axisRow (s : State) (a : Axis) (d : Dir) : List (Reason × Bool) :=
  match a with
  | .vis =>
    [(.vlkNotWithdrawn, s.lockIs .vlk .withdrawn), (.rmpNotClosed, s.axisIs .rmp .closed),
     (.rlkNotEngaged, s.lockIs .rlk .engaged)] ++ (if d = .opening then s.speedConds else [])
  | .rmp => [(.visNotOpen, s.axisIs .vis .opened), (.rlkNotWithdrawn, s.lockIs .rlk .withdrawn)]
  | .inr => [(.iclNotWithdrawn, s.lockIs .icl .withdrawn)] ++ (if d = .opening then s.speedConds else [])

/-- The row conditions of a lock action (R9), the speed condition last (R10). -/
def State.lockRow (s : State) (g : Group) (withdraw : Bool) : List (Reason × Bool) :=
  match g, withdraw with
  | .vlk, true => [(.visNotClosed, s.axisIs .vis .closed)] ++ s.speedConds
  | .vlk, false => [(.visNotClosed, s.axisIs .vis .closed)]
  | .rlk, true => [(.visNotOpen, s.axisIs .vis .opened)]
  | .rlk, false => [(.rmpNotClosed, s.axisIs .rmp .closed)]
  | .icl, true => [(.inrNotClosed, s.axisIs .inr .closed)] ++ s.speedConds
  | .icl, false => [(.inrNotClosed, s.axisIs .inr .closed)]

/-- The first condition that fails, or `none` for TRUE (R10). -/
def firstFailing (conds : List (Reason × Bool)) : Option Reason := (conds.find? fun c => !c.2).map (·.1)

/-- The guard of an axis move in a direction (R9, R10). -/
def State.axisGuard (s : State) (a : Axis) (d : Dir) : Option Reason :=
  firstFailing ([(.estopLatched, !s.tru.latch), (.memberFault, s.notFault (.axis a)), (.lockBusy, s.lockNotBusy a)] ++
    s.axisRow a d)

/-- The guard of a lock action; a top-up is guarded as the engage action (R9, R10). -/
def State.lockGuard (s : State) (g : Group) (withdraw : Bool) : Option Reason :=
  firstFailing ([(.estopLatched, !s.tru.latch), (.memberFault, s.notFault (.lock g))] ++ s.lockRow g withdraw)

/-- The direction ILK takes for an axis entry: the one fixed at hand-over, else from target and coordinate (R11), the
target held down to STROKE at every evaluation as R36 holds it at the hand-over (log 45). -/
def State.entryDir (s : State) (a : Axis) (e : WatchEntry) : Dir :=
  match e.stage, (s.axis a).step with
  | .waiting, _ => (s.axis a).dirOf ((s.axis a).hold (e.target.getD 0))
  | _, some st => st.dir
  | _, none => (s.axis a).dirOf ((s.axis a).hold (e.target.getD 0))

/-- The guard of a watched entry (R9 to R11). -/
def State.guardOf (s : State) (e : WatchEntry) : Option Reason :=
  match e.member with
  | .axis a => s.axisGuard a (s.entryDir a e)
  | .lock g => s.lockGuard g (e.action == .withdraw)

end Sys2Proof.Machine
end

