-- ==== Sys2Proof/Machine/Report.lean ====
section
/-! DEFINITION. The payloads of the ten reports (spec/11 section 11.7, R54, R78, R122, R138, R155, R168), built
from the state at the moment they are sampled. Times left are whole units, truncated (log 15). -/

namespace Sys2Proof.Machine

/-! ## Axis MEMBER report, 33 bytes (R78) -/

/-- Step number, direction and target of the step in hand. -/
def stepFields (st : Option AxisStep) : List Byte :=
  match st with
  | some t => [byteOf t.num, byteOf (dirCode t.dir)] ++ wordOf t.target
  | none => [noneByte, noneByte] ++ noneWord

/-- End mode and jog flag of the step in hand. -/
def endFields (st : Option AxisStep) : List Byte :=
  match st with
  | some t => [flagByte (t.endMode != .position), flagByte t.jog]
  | none => [noneByte, noneByte]

/-- Coordinate, skew and cylinder positions. -/
def posFields (pos : Option CylPos) : List Byte :=
  match pos with
  | some p => wordOf p.x ++ signedWordOf p.e ++ wordOf p.port ++ wordOf p.stbd
  | none => noneWord ++ noneSigned ++ noneWord ++ noneWord

/-- Failure kinds and raw counts of the latched position fault. -/
def faultFields (f : Option PosFault) : List Byte :=
  match f with
  | some p =>
    [byteOf (sampleFailCode p.kindPort), byteOf (sampleFailCode p.kindStbd)] ++ wordOf p.rawPort.toNat ++
      wordOf p.rawStbd.toNat
  | none => [0, 0] ++ noneWord ++ noneWord

/-- The MEMBER report of an axis. Vc and u are those stored at the last computation (R87, log 54); an end
switch that has no filtered value yet is sent as inactive (log 48). -/
def State.axisReport (s : State) (a : Axis) : List Byte :=
  let ax := s.axis a
  [byteOf (axisMemberCode ax.member), flagByte (s.secured a), byteOf (axisPhaseCode ax.phase), flagByte ax.held] ++
    stepFields ax.step ++ endFields ax.step ++ posFields ax.pos ++ wordOf ax.vc ++
    [byteOf ax.u, byteOf ax.bkCount, flagByte ax.breakaway, flagByte ax.posCond, flagByte ax.disagree] ++
    faultFields ax.posFault ++
    [byteOf (maskOf [ax.latchClosed, ax.latchOpen]),
     byteOf (maskOf [ax.switchActive .closedSw, ax.switchActive .openSw])]

/-! ## Lock group MEMBER report, 20 bytes (R122) -/

/-- One pin: its state and its STUCK flag in bit 7. -/
def pinByte (st : PinState) (stuck : Bool) : Byte := byteOf (pinStateCode st + 128 * stuck.toNat)

/-- Operation phase, action, step number and jog flag. -/
def opFields (op : Option LockOp) : List Byte :=
  byteOf (opPhaseCode op) ::
    match op with
    | some o => [byteOf (actionCode (if o.engage then .engage else .withdraw)), byteOf o.num, flagByte o.jog]
    | none => [noneByte, noneByte, noneByte]

/-- The MEMBER report of a lock group. -/
def State.lockReport (s : State) (g : Group) : List Byte :=
  let l := s.lock g
  [byteOf (groupStateCode l.gstate), flagByte (s.secured (closureAxis g))] ++ opFields l.op ++
    padTo 6 (l.pins.map fun p => pinByte p.state p.stuck) ++
    [byteOf (topStatusCode l.top.status), byteOf (maskOf [l.top.srcPeriod, l.top.srcCreep, l.top.srcStation]),
     flagByte l.top.request] ++
    wordOr (l.periodic.map (· / 1000)) ++
    [byteOf (maskOf [!l.conflictPins.isEmpty, l.creep]),
     byteOf (maskOf ([1, 2, 3, 4, 5, 6].map fun n => l.conflictPins.contains n)),
     flagByte l.conflictPresent]

/-! ## RUN report, 49 bytes (R54) -/

/-- One in-flight entry, 7 bytes. -/
def entryBytes (e : Entry) : List Byte :=
  [byteOf e.num, byteOf (memberIndex e.member), byteOf (entryPhaseCode e.phase)] ++ wordOf e.timeout ++
    [byteOr e.dwell, byteOf (reasonCode e.wait)]

/-- The RUN report. -/
def State.runReport (s : State) : List Byte :=
  let r := s.rne
  [byteOf (engineCode r.engine), byteOr (r.planId.map planCode), byteOf (stationCode r.startedBy),
   byteOf r.groupFirst] ++
    wordOr r.elapsed ++ [byteOf r.inflight.length] ++ padTo 21 (r.inflight.flatMap entryBytes) ++
    [byteOf (maskOf [r.lapse, r.operator]), byteOf (resultCode r.result)] ++
    padTo 12 (r.outcomes.map fun o => byteOf (outcomeCode o)) ++
    [byteOr (r.blocked.map (·.1)), byteOf (reasonCode (r.blocked.map (·.2))), flagByte (!s.ilk.known)] ++
    wordOf s.ilk.speed ++ [flagByte s.ilk.stale, flagByte s.pmt.lapsed]

/-! ## AUTHORITY report, 11 bytes (R155) -/

/-- The AUTHORITY report. -/
def State.authorityReport (s : State) : List Byte :=
  let c := s.cau
  [byteOf (stationCode c.holder), byteOf (stationCode c.elect), flagByte c.yielded, byteOf (keyCode c.key),
   byteOf (stationCode c.higher), byteOf (maskOf [c.busyVlk, c.busyRlk, c.busyIcl]), flagByte c.deferred,
   byteOf (maskOf [c.aliveBridge, c.aliveDeck]), flagByte (!s.pmt.live)] ++ wordOr s.pmt.timer

/-! ## SUPPLY report, 35 bytes (R138) -/

/-- The running timer of a unit and its time left in 0.1 s; the pressure-loss timer stands before run-on (R138). -/
def unitTimer (u : PumpUnit) : Nat × Option Nat :=
  match u.startT, u.lossT, u.runOnT with
  | some t, _, _ => (1, some (t / 100))
  | none, some t, _ => (2, some (t / 100))
  | none, none, some t => (3, some (t / 100))
  | none, none, none => (0, none)

/-- One unit, 8 bytes; an input that has no filtered value yet is sent as inactive (log 48). -/
def unitBytes (u : PumpUnit) : List Byte :=
  [byteOf (unitStateCode u.state), byteOr (u.holder.map fun c => memberIndex c.member),
   byteOr (u.holder.map consumerKindCode), byteOf (unitFailCode u.failure), byteOf (unitTimer u).1] ++
    wordOr (unitTimer u).2 ++
    [byteOf (maskOf [u.pressOk == some true, u.motorTrip == some true, u.ready])]

/-- The SUPPLY report. -/
def State.supplyReport (s : State) : List Byte :=
  unitBytes s.hsa.u1 ++ unitBytes s.hsa.u2 ++ [byteOf s.hsa.wants.length] ++
    padTo 18 (s.hsa.wants.flatMap fun w => [byteOf (memberIndex w.consumer.member), byteOf (wantKindCode w.kind)])

/-! ## TRIP report, 47 bytes (R168) -/

/-- The detail word of a trip. -/
def detailWord (d : Detail) : List Byte :=
  match d with
  | .none => noneWord
  | .guard r => wordOf (reasonCode (some r))
  | .supply u k => wordOf ((match u with | .u1 => 1 | .u2 => 2) + 256 * unitFailCode (some k))
  | .loops b d => wordOf (maskOf [b, d])

/-- The coordinate and skew of one axis in the trip record. -/
def fixBytes (f : Option AxisFix) : List Byte :=
  match f with
  | some x => wordOf x.x ++ signedWordOf x.e
  | none => noneWord ++ noneSigned

/-- The fields of the trip record, or none where no trip is latched. -/
def recordBytes (t : Option TripRecord) : List Byte :=
  match t with
  | some r =>
    [1, byteOf (causeCode r.cause), byteOr (r.member.map memberIndex)] ++ detailWord r.detail ++
      [byteOr (r.planId.map planCode), byteOr r.stepNum, byteOf (engineCode r.engine)] ++ fixBytes r.vis ++
      fixBytes r.rmp ++ fixBytes r.inr ++ padTo 6 (r.pins.map fun p => pinByte p.1 p.2) ++ wordOr r.time
  | none =>
    [0, 0, noneByte] ++ noneWord ++ [noneByte, noneByte, noneByte] ++ fixBytes none ++ fixBytes none ++
      fixBytes none ++ padTo 6 [] ++ noneWord

/-- The TRIP report. -/
def State.tripReport (s : State) : List Byte :=
  recordBytes s.tru.record ++ [byteOf s.tru.causes.length] ++
    padTo 11 (s.tru.causes.map fun c => byteOf (causeCode c)) ++
    [flagByte s.tru.latch, byteOf (loopCode s.tru.loopBridge), byteOf (loopCode s.tru.loopDeck),
     byteOf s.stillPresent.length] ++
    padTo 3 (s.stillPresent.map fun c => byteOf (causeCode c))

/-- The report payload of a subject, from the state at this moment (R186, R189). -/
def State.report (s : State) : Subject → List Byte
  | .member (.axis a) => s.axisReport a
  | .member (.lock g) => s.lockReport g
  | .run => s.runReport
  | .authority => s.authorityReport
  | .supply => s.supplyReport
  | .trip => s.tripReport

end Sys2Proof.Machine
end

