-- ==== Sys2Proof/Machine/Link.lean ====
section
/-! DEFINITION. The station link interfaces: frames and their CRC (R179, R180), the transmitter (R189), the
reply queue (R183) and the pending report set (R188). -/

namespace Sys2Proof.Machine

/-! ## Frames -/

/-- One data bit into the CRC register (R180). -/
def crcBit (crc : Word) (b : Bool) : Word :=
  if crc.msb != b then (crc <<< 1) ^^^ 0x1021 else crc <<< 1

/-- One byte into the CRC register, most significant bit first (R180). -/
def crcByte (crc : Word) (b : Byte) : Word :=
  [7, 6, 5, 4, 3, 2, 1, 0].foldl (fun c i => crcBit c (b.getLsbD i)) crc

/-- The CRC over a run of bytes (R180). -/
def crc16 (bs : List Byte) : Word := bs.foldl crcByte 0xFFFF

/-- The bytes of a frame from LEN to the last payload byte (R179). -/
def Frame.body (f : Frame) : List Byte := byteOf (f.payload.length + 2) :: f.kind :: f.tag :: f.payload

/-- The bytes of a frame on the line (R179): the CRC is sent high byte first. -/
def Frame.bytes (f : Frame) : List Byte :=
  0xC3 :: f.body ++ [byteOf ((crc16 f.body).toNat / 256), byteOf (crc16 f.body).toNat]

/-- The line time of a frame in tenths of a microsecond, at 86.8 µs a byte (R179, log 12). -/
def Frame.lineTime (f : Frame) : Nat := (f.payload.length + 6) * 868

/-! ## Transmitter -/

/-- The KIND of a subject's report, 40h to 49h (R184). -/
def reportKind (sub : Subject) : Byte := byteOf (0x40 + subjectCode sub)

/-- The frame of a report, built from the state at this moment, with TAG 00h (R189). -/
def State.reportFrame (s : State) (sub : Subject) : Frame := ⟨reportKind sub, 0, s.report sub⟩

/-- The transmitter of a link in IDLE chooses its next frame: the oldest reply, else the oldest pending
subject, else it stays IDLE (R189). -/
def txChoose (st : Station) (s : State) : State :=
  let l := s.link st
  match l.tx, l.replies, l.reports with
  | some _, _, _ => s
  | none, f :: rest, _ => s.setLink st { l with replies := rest, tx := some ⟨f, f.lineTime⟩ }
  | none, [], sub :: rest =>
    let f := s.reportFrame sub
    s.setLink st { l with reports := rest, tx := some ⟨f, f.lineTime⟩ }
  | none, [], [] => s

/-- The transmitter finishes its frame and enters IDLE (R189). -/
def txDone (st : Station) (s : State) : State := txChoose st (s.modLink st fun l => { l with tx := none })

/-- A complete reply is enqueued (R183). -/
def enqueueReply (st : Station) (f : Frame) (s : State) : State :=
  txChoose st (s.modLink st fun l => { l with replies := l.replies ++ [f] })

/-! ## Pending reports -/

/-- The mask bit of a subject is set (R187). -/
def Link.unmasked (l : Link) (sub : Subject) : Bool := l.mask.getLsbD (subjectCode sub)

/-- A subject is marked at one link (R188). -/
def markAt (st : Station) (sub : Subject) (s : State) : State :=
  let l := s.link st
  if l.unmasked sub && !l.reports.contains sub then
    txChoose st (s.setLink st { l with reports := l.reports ++ [sub] })
  else s

/-- An owner marks a subject at both links (R188). -/
def mark (sub : Subject) (s : State) : State := markAt .deck sub (markAt .bridge sub s)

/-- An owner marks a subject when a condition holds. -/
def markIf (c : Bool) (sub : Subject) (s : State) : State := if c then mark sub s else s

/-! ## Replies (R184) -/

/-- The KIND of a reply: the request KIND plus 80h. -/
def replyKind (kind : Byte) : Byte := kind + 0x80

/-- A reply frame: the outcome byte and the kind data. -/
def replyFrame (kind tag : Byte) (code : ReplyCode) (data : List Byte) : Frame :=
  ⟨replyKind kind, tag, replyCode code :: data⟩

/-- The reply to a frame of unknown KIND. -/
def unknownFrame (kind tag : Byte) : Frame := ⟨0xFF, tag, [replyCode .unknownKind, kind]⟩

/-- The request answers with this outcome and data once its effects are done (R183). -/
def answer (st : Station) (kind tag : Byte) (code : ReplyCode) (data : List Byte) (s : State) : State :=
  s.emit [.reply st (replyFrame kind tag code data)]

/-- The reply to CLAIM or YIELD: the roles as they stand at the enqueue (R142, R143). -/
def enqueueRoles (st : Station) (kind tag : Byte) (code : ReplyCode) (s : State) : State :=
  enqueueReply st
    (replyFrame kind tag code [byteOf (stationCode s.cau.holder), byteOf (stationCode s.cau.elect)]) s

end Sys2Proof.Machine
end

