-- ==== Sys2Proof/Machine/Output.lean ====
section
/-! DEFINITION. The proportional outputs (R175, R176): compare sets handed by the axes, their adoption at the PWM
period start, immediate zeroing and TRU's forced-off, and the dead-time reckoning they start (R69). -/

namespace Sys2Proof.Machine

/-- A compare handed to one output waits for the next period start (R175). -/
def Drive.hand (d : Drive) (c : Nat) : Drive := { d with pending := c, flag := true }

/-- An output takes its pending compare, if it has one (R175). -/
def Drive.adopt (d : Drive) : Drive := if d.flag then ⟨d.pending, d.pending, false⟩ else d

/-- The zero time of an output whose active compare goes from `old` to `new`: it starts afresh when the output
was nonzero or becomes so (R69). -/
def zeroTimeAfter (t : Nat) (old new : Drive) : Nat := if old.active = 0 ∧ new.active = 0 then t else 0

/-- Changes the four outputs of an axis and restarts the zero times of those that were or become nonzero. -/
def State.putDrives (s : State) (a : Axis) (d : Drives) : State :=
  let o := s.drives a
  (s.setDrives a d).modAxis a fun ax =>
    { ax with zero :=
      { portOpen := zeroTimeAfter ax.zero.portOpen o.portOpen d.portOpen
        portClose := zeroTimeAfter ax.zero.portClose o.portClose d.portClose
        stbdOpen := zeroTimeAfter ax.zero.stbdOpen o.stbdOpen d.stbdOpen
        stbdClose := zeroTimeAfter ax.zero.stbdClose o.stbdClose d.stbdClose } }

/-- An axis zeroes its four outputs at once (R73, R80, R176). -/
def zeroAxis (a : Axis) (s : State) : State := s.putDrives a zeroDrives

/-- An axis hands VOD a set of four compares; the forced state discards it (R91, R175, R176). -/
def handCompares (a : Axis) (c : Sides) (s : State) : State :=
  if s.vod.forced then s
  else
    let o := s.drives a
    s.setDrives a ⟨o.portOpen.hand c.portOpen, o.portClose.hand c.portClose, o.stbdOpen.hand c.stbdOpen,
      o.stbdClose.hand c.stbdClose⟩

/-- The outputs of one axis adopt what is pending (R175). -/
def adoptAxis (a : Axis) (s : State) : State :=
  let o := s.drives a
  s.putDrives a ⟨o.portOpen.adopt, o.portClose.adopt, o.stbdOpen.adopt, o.stbdClose.adopt⟩

/-- A PWM period start: every pending set is adopted, and the next start is 5 ms away (R175). -/
def pwmStart (s : State) : State :=
  let s := adoptAxis .inr (adoptAxis .rmp (adoptAxis .vis s))
  { s with vod := { s.vod with pwm := 5 } }

/-- TRU's forced-off: all twelve outputs zeroed, and the forced state set, which holds the solenoids off (R159,
R176). -/
def forcedOff (s : State) : State :=
  let s := zeroAxis .inr (zeroAxis .rmp (zeroAxis .vis s))
  { s with vod := { s.vod with forced := true } }

end Sys2Proof.Machine
end

