-- ==== Sys2Proof/Machine/Interlock.lean ====
section
/-! DEFINITION. The watched-action list (R17), and the events at members: their derivations, their report marks and
the re-evaluation they start (R1, R3, R7, R8). -/

namespace Sys2Proof.Machine

/-! ## The watched-action list (R17) -/

/-- The watched entry of a member. -/
def Ilk.entry? (i : Ilk) (m : Member) : Option WatchEntry := i.watch.find? fun e => e.member == m

/-- An entry is put in its place in member order, in place of the member's former one (R17). -/
def putEntry (e : WatchEntry) (l : List WatchEntry) : List WatchEntry :=
  (l.filter fun x => memberIndex x.member < memberIndex e.member) ++ e ::
    l.filter fun x => memberIndex e.member < memberIndex x.member

/-- Changes the watched-action list. -/
def State.setWatch (s : State) (l : List WatchEntry) : State := { s with ilk := { s.ilk with watch := l } }

/-- An entry is added in stage WAITING and its guard evaluated (R17). -/
def watchAdd (m : Member) (act : WatchAction) (target : Option Nat) (src : WatchSource) (s : State) : State :=
  let e : WatchEntry := ⟨m, act, target, src, .waiting, none⟩
  s.setWatch (putEntry { e with result := s.guardOf e } s.ilk.watch)

/-- The entry of a member is removed (R17). -/
def watchRemove (m : Member) (s : State) : State :=
  s.setWatch (s.ilk.watch.filter fun e => e.member != m)

/-- The owner of an action sets its stage (R17). -/
def watchStage (m : Member) (st : Stage) (s : State) : State :=
  s.setWatch (s.ilk.watch.map fun e => if e.member = m then { e with stage := st } else e)

/-- ILK evaluates the guard of one member's entry afresh (R35). -/
def watchRefresh (m : Member) (s : State) : State :=
  s.setWatch (s.ilk.watch.map fun e => if e.member = m then { e with result := s.guardOf e } else e)

/-! ## Events at members (R1, R3, R7, R8) -/

/-- What marks the MEMBER subject of an axis when it changes: member state, run phase, latched faults, and the two
conditions behind SENSOR (R78, R168). -/
def AxisState.shown (ax : AxisState) : AxisMember × AxisPhase × Option PosFault × (Bool × Bool) × (Bool × Bool) :=
  (ax.member, ax.phase, ax.posFault, (ax.latchClosed, ax.latchOpen), (ax.posCond, ax.disagree))

/-- What marks the MEMBER subject of a lock group when it changes: group state, operation phase, pin states, STUCK
flags, top-up record and latched faults (R122). -/
def LockState.shown (l : LockState) :
    GroupState × Option OpPhase × List (PinState × Bool) × TopUp × List Nat × Bool :=
  (l.gstate, l.op.map (·.phase), l.pins.map fun p => (p.state, p.stuck), l.top, l.conflictPins, l.creep)

/-- The MEMBER subject of a member is to be marked when one state passes to another: its own items have changed, or
the secured flag of its closure has (R8, R78, R122). -/
def State.remarks (s t : State) : Member → Bool
  | .axis a => s.secured a != t.secured a || (s.axis a).shown != (t.axis a).shown
  | .lock g => s.secured (closureAxis g) != t.secured (closureAxis g) || (s.lock g).shown != (t.lock g).shown

/-- The MEMBER subjects that one event marks, in member order (R1, log 39). -/
def markMembers (s t : State) : State := allMembers.foldl (fun u m => markIf (s.remarks t m) (.member m) u) t

/-- The state of some member has changed (R17). -/
def State.moved (s t : State) : Bool :=
  allAxes.any (fun a => (s.axis a).member != (t.axis a).member) ||
    allGroups.any fun g => (s.lock g).gstate != (t.lock g).gstate

/-- An event at one or more members: its own effect, then the marks of the MEMBER subjects it has changed, and a
re-evaluation where it has changed a member's state (R1, R8, R17). -/
def memberEvent (f : State → State) (s : State) : State :=
  let t := f s
  (markMembers s t).emit (if s.moved t then [.reeval] else [])

/-- An axis derives its member state (R3). -/
def deriveAxis (a : Axis) (s : State) : State := s.modAxis a fun ax => { ax with member := ax.derive }

/-- The periodic timer as a change of group state leaves it: started from the full interval when the group
becomes ENGAGED with no top-up in hand, stopped when it leaves ENGAGED (R115). -/
def periodicAfter (l : LockState) (old new : GroupState) : Option Nat :=
  if new = .engaged then
    if old ≠ .engaged ∧ l.top.status = .none ∧ l.par.topupInterval ≠ 0 then some (l.par.topupInterval * 60000)
    else l.periodic
  else none

/-- A lock group derives its state (R7), and its periodic timer moves with it (R115). -/
def deriveGroup (g : Group) (s : State) : State :=
  s.modLock g fun l => { l with gstate := l.derive, periodic := periodicAfter l l.gstate l.derive }

end Sys2Proof.Machine
end

