-- ==== Sys2Proof/Machine/Supply.lean ====
section
/-! DEFINITION. The hydraulic supply allocator: the pending request list (R129), allocation, grants and
preemption (R130 to R132), releases (R133), unit states and failures (R125 to R127, R134), trip and emergency
stop (R135, R136). -/

namespace Sys2Proof.Machine

/-! ## Classes and ranks (R128, R129) -/

/-- The class number of an axis step (R128). -/
def axisClass : Axis → Nat
  | .inr => 3
  | .vis => 4
  | .rmp => 5

/-- The place of a lock group in member order. -/
def groupIndex : Group → Nat
  | .vlk => 0
  | .rlk => 1
  | .icl => 2

/-- The class number of a consumer, from the action of its operation where it is one (R128). -/
def State.classOf (s : State) : Consumer → Nat
  | .axisStep a => axisClass a
  | .lockOp g =>
    match (s.lock g).op with
    | some o => if o.engage then 1 else 2
    | none => 2
  | .topUp _ => 6

/-- The order among wants of one kind and class: member order for groups, class order for axes (R129). -/
def Consumer.order : Consumer → Nat
  | .axisStep a => axisClass a
  | .lockOp g => groupIndex g
  | .topUp g => groupIndex g

/-- The rank of a want; a smaller number is served first (R129). -/
def Want.rank (w : Want) : Nat :=
  match w.kind with
  | .operation => 10 * w.cls + w.consumer.order
  | .first => 10 * w.cls + w.consumer.order
  | .second => 60 + w.consumer.order
  | .topUp => 70 + w.consumer.order

/-- A want takes its place in rank order (R129). -/
def insertWant (w : Want) : List Want → List Want
  | [] => [w]
  | x :: rest => if w.rank < x.rank then w :: x :: rest else x :: insertWant w rest

/-- The kind of a consumer's request (R129). -/
def requestKind : Consumer → WantKind
  | .axisStep _ => .first
  | .lockOp _ => .operation
  | .topUp _ => .topUp

/-- The consumer's entry is removed from the list (R129). -/
def dropWant (c : Consumer) (l : List Want) : List Want := l.filter fun w => w.consumer != c

/-- Changes the pending request list. -/
def State.setWants (s : State) (l : List Want) : State := { s with hsa := { s.hsa with wants := l } }

/-- The SECOND entry of an axis is added (R129, R132, R134). -/
def addSecond (a : Axis) (s : State) : State :=
  s.setWants (insertWant ⟨.axisStep a, .second, axisClass a⟩ s.hsa.wants)

/-! ## Units (R125, R126) -/

/-- A RUNNING unit without a holder starts its run-on timer; with RUN_ON 0 it expires at its start (R126). -/
def PumpUnit.park (u : PumpUnit) (runOn : Nat) : PumpUnit :=
  if runOn = 0 then { u with state := .stopped, lossT := none, runOnT := none }
  else { u with runOnT := some (runOn * 1000) }

/-- A unit enters RUNNING; with no holder it is parked (R125, R126). -/
def PumpUnit.run (u : PumpUnit) (runOn : Nat) : PumpUnit :=
  let v := { u with state := .running, startT := none }
  if v.holder.isNone then v.park runOn else v

/-- A unit enters STARTING, or RUNNING at that entry when its pressure-ok is already active (R125). -/
def PumpUnit.start (u : PumpUnit) (startLimit runOn : Nat) : PumpUnit :=
  if u.pressOk = some true then u.run runOn
  else { u with state := .starting, startT := some (startLimit * 1000) }

/-- A unit loses its holder; a RUNNING one is parked, a STARTING one keeps starting (R126, R133, R135). -/
def PumpUnit.unhold (u : PumpUnit) (runOn : Nat) : PumpUnit :=
  let v := { u with holder := none }
  if v.state = .running then v.park runOn else v

/-- The holder of a unit that has reached RUNNING is told (R125, R131). -/
def tellRunning (u : UnitId) (s : State) : State :=
  match (s.unit u).state, (s.unit u).holder with
  | .running, some c => s.emit [.unitReady c]
  | _, _ => s

/-! ## What an axis does when its units change (R80, R98) -/

/-- An axis that has lost a RUNNING unit: a breakaway ends, and in a driving phase with no RUNNING unit left the
compares are zeroed at once and Vc set to 0 (R80, R98, R132, R134). -/
def axisSupplyLess (a : Axis) (s : State) : State :=
  let u := s.hsa.running (.axisStep a)
  let s :=
    if (s.axis a).breakaway ∧ u < 2 then
      mark (.member (.axis a)) (s.modAxis a fun ax => { ax with breakaway := false, bkLeft := none })
    else s
  if (s.axis a).phase.driving ∧ u = 0 then zeroAxis a (s.modAxis a fun ax => { ax with vc := 0 }) else s

/-! ## Allocation (R130 to R132) -/

/-- The first of two units that meets a test, U1 before U2. -/
def State.firstUnit (s : State) (p : PumpUnit → Bool) : Option UnitId :=
  if p s.hsa.u1 then some .u1 else if p s.hsa.u2 then some .u2 else none

/-- The free unit an allocation chooses: RUNNING, else STOPPED, else STARTING, the lower number first (R130). -/
def State.chooseUnit (s : State) : Option UnitId :=
  (s.firstUnit fun u => u.free && u.state == .running).or
    ((s.firstUnit fun u => u.free && u.state == .stopped).or
      (s.firstUnit fun u => u.free && u.state == .starting))

/-- A unit is granted to the consumer of a want: the entry goes, or is replaced by a SECOND entry; a RUNNING unit
moves its consumer on, a STOPPED one starts (R129, R131). -/
def grant (u : UnitId) (w : Want) (s : State) : State :=
  let s := s.setWants (dropWant w.consumer s.hsa.wants)
  let s :=
    match w.kind, w.consumer with
    | .first, .axisStep a => addSecond a s
    | _, _ => s
  let s := s.modUnit u fun r => { r with holder := some w.consumer, runOnT := none }
  let s :=
    if (s.unit u).state = .stopped then s.modUnit u fun r => r.start s.hsa.startLimit s.hsa.runOn else s
  tellRunning u s

/-- One grant of the loop of R130: the highest-ranked entry, while a unit is free. -/
def grantOne (s : State) : State :=
  match s.hsa.wants, s.chooseUnit with
  | w :: _, some u => grant u w s
  | _, _ => s

/-- An axis that holds both units and ranks below a want of this class (R132). -/
def State.preemptable (s : State) (cls : Nat) : Option Axis :=
  allAxes.find? fun a => s.hsa.held (.axisStep a) == 2 && decide (cls < axisClass a)

/-- The preemption test, applied once, when an entry is left and no unit is free (R132). -/
def preempt (s : State) : State :=
  match s.hsa.wants, s.chooseUnit with
  | w :: _, none =>
    match w.kind, s.preemptable w.cls with
    | .operation, some a => axisSupplyLess a (addSecond a (grant .u2 w s))
    | .first, some a => axisSupplyLess a (addSecond a (grant .u2 w s))
    | _, _ => s
  | _, _ => s

/-- An allocation event: two units allow at most two grants, then the preemption test (R130). -/
def serve (s : State) : State := preempt (grantOne (grantOne s))

/-- What the stations see of the supply, whose changes mark the SUPPLY subject (R138). -/
def Hsa.shown (h : Hsa) : (UnitState × Option Consumer × Bool) × (UnitState × Option Consumer × Bool) × List Want :=
  ((h.u1.state, h.u1.holder, h.u1.ready), (h.u2.state, h.u2.holder, h.u2.ready), h.wants)

/-- An HSA event: its own effect, then its report mark when the supply has changed: one mark for all the event's grants
and changes of the list (R138, log 49). The events whose allocation is a message of its own are marked in two parts (log
59). -/
def supplyEvent (f : State → State) (s : State) : State :=
  let t := f s
  markIf (decide (s.hsa.shown ≠ t.hsa.shown)) .supply t

/-! ## Requests and releases (R129, R133) -/

/-- The consumer is still at the stage at which it asks (R128); a request that a trip has overtaken finds none
(R139). -/
def State.asks (s : State) : Consumer → Bool
  | .axisStep a => (s.axis a).phase == .waitSupply
  | .lockOp g =>
    match (s.lock g).op with
    | some o => o.phase == .waitSupply
    | none => false
  | .topUp g => (s.lock g).top.status == .pendingSupply

/-- A consumer asks for units, and the list is served (R129, R130). -/
def hsaRequest (c : Consumer) : State → State :=
  supplyEvent fun s =>
    if s.asks c && s.hsa.held c == 0 then
      serve (s.setWants (insertWant ⟨c, requestKind c, s.classOf c⟩ (dropWant c s.hsa.wants)))
    else s

/-- A unit is released if the consumer holds it (R133). -/
def releaseUnit (c : Consumer) (u : UnitId) (s : State) : State :=
  if (s.unit u).holder = some c then s.modUnit u fun r => r.unhold s.hsa.runOn else s

/-- A consumer withdraws its want and releases its units, and the list is served (R129, R133). -/
def hsaRelease (c : Consumer) : State → State :=
  supplyEvent fun s => serve (releaseUnit c .u2 (releaseUnit c .u1 (s.setWants (dropWant c s.hsa.wants))))

/-- The allocation of an event that has sent it as a message of its own, with a mark of its own (R130, R138, log 59). -/
def hsaAllocate : State → State := supplyEvent serve

/-! ## Failures (R125 to R127, R134) -/

/-- A unit as FAILED, without holder and timers (R127). -/
def PumpUnit.fail (u : PumpUnit) (k : UnitFail) : PumpUnit :=
  { u with state := .failed, failure := some k, holder := none, startT := none, lossT := none, runOnT := none }

/-- What the failure of a held unit brings: degradation of an axis with another unit, else SUPPLY_LOST (R134). -/
def holderLost (c : Consumer) (u : UnitId) (k : UnitFail) (s : State) : State :=
  match c with
  | .axisStep a =>
    if s.hsa.held c = 0 then axisSupplyLess a (s.emit [.tripReport .supplyLost (some c.member) (.supply u k)])
    else axisSupplyLess a (addSecond a s)
  | _ => s.emit [.tripReport .supplyLost (some c.member) (.supply u k)]

/-- A unit enters FAILED: its holder is treated as R134 states, and the list is served after that (R127, R134), by a
message of its own behind the trip report (log 26, log 59). -/
def unitDown (u : UnitId) (k : UnitFail) (s : State) : State :=
  let holder := (s.unit u).holder
  let s := s.modUnit u fun r => r.fail k
  State.emit
    (match holder with
    | some c => holderLost c u k s
    | none => s) [.allocate]

/-- The failure of a unit as an event of the supply (R138). -/
def unitFail (u : UnitId) (k : UnitFail) : State → State := supplyEvent (unitDown u k)

/-! ## Trip, emergency stop, recovery (R127, R135, R136) -/

/-- TRU's trip event at HSA: holders cleared, the list emptied, the units run on (R135). -/
def hsaTrip : State → State :=
  supplyEvent fun s =>
    let s := s.modUnit .u1 fun r => if r.holder.isSome then r.unhold s.hsa.runOn else r
    let s := s.modUnit .u2 fun r => if r.holder.isSome then r.unhold s.hsa.runOn else r
    s.setWants []

/-- A unit at the emergency-stop notice (R136). -/
def PumpUnit.estop (u : PumpUnit) : PumpUnit :=
  if u.state = .starting ∨ u.state = .running then
    { u with state := .stopped, startT := none, lossT := none, runOnT := none }
  else u

/-- The emergency-stop notice at HSA (R136), with its allocation as a message of its own (log 59). -/
def hsaEstop (s : State) : State :=
  supplyEvent (fun s => (s.modUnit .u1 PumpUnit.estop).modUnit .u2 PumpUnit.estop) s |>.emit [.allocate]

/-- A FAILED unit whose motor-trip input is inactive returns to STOPPED (R127). -/
def PumpUnit.recover (u : PumpUnit) : PumpUnit :=
  if u.state = .failed ∧ u.motorTrip ≠ some true then { u with state := .stopped, failure := none } else u

/-- An accepted ACKNOWLEDGE at HSA, an allocation event (R127, R163, R164). DESIGN CHOICE: the allocation is a message of
its own with its own mark, so that SUPPLY may be marked for the recovery and again for the grants (R138, log 59). -/
def hsaRecover (s : State) : State :=
  supplyEvent (fun s => (s.modUnit .u1 PumpUnit.recover).modUnit .u2 PumpUnit.recover) s |>.emit [.allocate]

end Sys2Proof.Machine
end

