-- ==== Sys2Proof/Machine/Drive.lean ====
section
/-! DEFINITION. The drive demand arithmetic (spec/04): distance, target speed, ramp, skew correction and compares,
in exact integers with truncating division. -/

namespace Sys2Proof.Machine

/-- The distance still to go, d = (T − x) × s (R81). -/
def distance (target x : Nat) (d : Dir) : Int := ((target : Int) - x) * d.sign

/-- The supply cap of an axis on one unit (R82). -/
def oneUnitCap : Nat := 500

/-- Stage 2: the window speed capped by the supply (R82). -/
def cappedSpeed (vw u : Nat) : Nat := if u = 2 then vw else min vw oneUnitCap

/-- Stage 3: the approach limit, the limit of 1000 after the division (R83). -/
def approachLimit (d : Int) (gain : Nat) : Int := min 1000 ((d * gain).tdiv 16)

/-- Stage 4: the target speed, first row that holds (R84). -/
def targetSpeed (phase : AxisPhase) (breakaway jog : Bool) (creep : Nat) (vs : Nat) (va : Int) : Nat :=
  match phase with
  | .stopping _ => 0
  | .seeking => if breakaway then 1000 else creep
  | _ =>
    if breakaway then 1000
    else if jog then creep
    else (max (creep : Int) (min (vs : Int) va)).toNat

/-- Stage 5 in MOVING and SEEKING: one ramp step toward the target speed, two when slowing (R85). -/
def rampSpeed (vt vcOld r : Nat) : Nat := if vcOld ≤ vt then min vt (vcOld + r) else max vt (vcOld - 2 * r)

/-- Stage 5 in STOPPING (R86). -/
def stopSpeed (vcOld stopRamp : Nat) : Nat := vcOld - stopRamp

/-- A value held between two bounds. -/
def clampInt (lo hi v : Int) : Int := max lo (min hi v)

/-- Stage 6: the skew correction, clamped after the division (R88). -/
def skewCorrection (e : Int) (gain : Nat) : Int := clampInt (-250) 250 ((e * gain).tdiv 64)

/-- Stage 6: the duty of the port cylinder, clamped on its own (R89). -/
def portDuty (vc : Nat) (c : Int) (d : Dir) : Nat := (clampInt 0 1000 (vc - d.sign * c)).toNat

/-- Stage 6: the duty of the starboard cylinder, clamped on its own (R89). -/
def stbdDuty (vc : Nat) (c : Int) (d : Dir) : Nat := (clampInt 0 1000 (vc + d.sign * c)).toNat

/-- Stage 8: the four compares; the side against the step direction receives 0 (R91). -/
def compares (dp ds : Nat) (d : Dir) : Sides :=
  match d with
  | .opening => ⟨dp * 5, 0, ds * 5, 0⟩
  | .closing => ⟨0, dp * 5, 0, ds * 5⟩

/-- Stages 6 and 8 from a commanded speed and a skew (R88, R89, R91). -/
def demand (vc : Nat) (e : Int) (skewGain : Nat) (d : Dir) : Sides :=
  compares (portDuty vc (skewCorrection e skewGain) d) (stbdDuty vc (skewCorrection e skewGain) d) d

/-- Stages 1 to 5: the new commanded speed of an axis with a step, at a coordinate, on `u` RUNNING units (R79). -/
def AxisState.newSpeed (ax : AxisState) (st : AxisStep) (x u : Nat) : Nat :=
  match ax.phase with
  | .stopping _ => stopSpeed ax.vc ax.par.stopRamp
  | ph =>
    let w := ax.profileAt x st.dir
    let va := approachLimit (distance st.target x st.dir) ax.par.approachGain
    rampSpeed (targetSpeed ph ax.breakaway st.jog ax.par.creep (cappedSpeed w.speed u) va) ax.vc w.ramp

/-- |e| exceeds SKEW_LIMIT (R90). -/
def AxisState.skewed (ax : AxisState) (e : Int) : Bool := ax.par.skewLimit < e.natAbs

/-- The position of a raw count, p = ((raw − ZERO) × GAIN) / 1024 (R56). -/
def calibrate (raw : Word) (zeroAt gain : Nat) : Int := (((raw.toNat : Int) - zeroAt) * gain).tdiv 1024

/-- The failure kind of one cylinder's sample, or none where it passes; `ref` is the jump reference unless the
jump test is suspended (R56). -/
def cylinderFail (c : ChannelSample) (zeroAt gain stroke : Nat) (ref : Option Nat) : Option SampleFail :=
  let p := calibrate c.raw zeroAt gain
  if c.error then some .channel
  else if p < -200 ∨ (stroke : Int) + 200 < p then some .range
  else
    match ref with
    | some r => if 200 < (p - r).natAbs then some .jump else none
    | none => none

/-- The position offered for acceptance, clamped to the stroke (R56). -/
def offered (c : ChannelSample) (zeroAt gain stroke : Nat) : Nat :=
  (clampInt 0 stroke (calibrate c.raw zeroAt gain)).toNat

end Sys2Proof.Machine
end

