-- ==== Sys2Proof/Machine/Axis.lean ====
section
/-! DEFINITION. The axis controllers: run phases (R66 to R77), the position sample of a control period (R55 to
R59, R70, R75, R80, R90), stall and breakaway (R94 to R99), and position faults (R100 to R104). -/

namespace Sys2Proof.Machine

/-! ## Phase changes -/

/-- The stage that a phase gives the axis's watched entry (R17). -/
def AxisPhase.stage : AxisPhase → Option Stage
  | .idle => none
  | .halted => none
  | .waitSupply => some .preparing
  | .announce => some .preparing
  | _ => some .driving

/-- An axis in a new phase: on an exit from MOVING and SEEKING the stall sampling and any breakaway end (R94,
R98). -/
def AxisState.toPhase (ax : AxisState) (ph : AxisPhase) : AxisState :=
  if ax.phase.sampled && !ph.sampled then
    { ax with phase := ph, stallRef := none, stallLeft := none, breakaway := false, bkLeft := none }
  else { ax with phase := ph }

/-- The stage of the axis's watched entry follows its phase (R17). -/
def stageAxis (a : Axis) (ph : AxisPhase) (s : State) : State :=
  match ph.stage with
  | some st => watchStage (.axis a) st s
  | none => s

/-- What a change of run phase does, with what `f` changes beside it: the drives are zeroed at once on an exit from
MOVING, SEEKING and STOPPING (R73), the watched entry takes its stage and the member state is derived (section
3.5, R3). -/
def passTo (a : Axis) (ph : AxisPhase) (f : AxisState → AxisState) (s : State) : State :=
  let old := (s.axis a).phase
  let s := s.modAxis a fun ax => f (ax.toPhase ph)
  let s := if old.driving && !ph.driving then zeroAxis a s else s
  deriveAxis a (stageAxis a ph s)

/-- A change of run phase as an event of its axis (section 3.5, R78). -/
def setPhase (a : Axis) (ph : AxisPhase) (f : AxisState → AxisState) : State → State := memberEvent (passTo a ph f)

/-- Entry to MOVING: Vc 0, a fresh stall reference and a countdown of 25 (R69, R94). -/
def enterMoving (a : Axis) (s : State) : State :=
  setPhase a .moving (fun ax =>
    { ax with reversal := none, vc := 0, stallRef := ax.x?.map fun x => (x, 0), stallLeft := some 25 }) s

/-- What remains of DEAD_TIME of the sides opposite a direction, the larger of the two cylinders (R69). -/
def AxisState.reversalLeft (ax : AxisState) : Nat :=
  match ax.step with
  | some st =>
    match st.dir with
    | .opening => max (ax.par.deadTime - ax.zero.portClose) (ax.par.deadTime - ax.zero.stbdClose)
    | .closing => max (ax.par.deadTime - ax.zero.portOpen) (ax.par.deadTime - ax.zero.stbdOpen)
  | none => 0

/-- Entry to REVERSING; a remainder of 0 ends it at its entry (R69). -/
def enterReversing (a : Axis) (s : State) : State :=
  let rem := (s.axis a).reversalLeft
  if rem = 0 then enterMoving a (setPhase a .reversing (fun ax => { ax with announce := none }) s)
  else setPhase a .reversing (fun ax => { ax with announce := none, reversal := some rem }) s

/-- Entry to ANNOUNCE; with WARN_TIME 0 it ends at its entry (R68). -/
def enterAnnounce (a : Axis) (s : State) : State :=
  if s.ilk.warnTime = 0 then enterReversing a (setPhase a .announce id s)
  else
    let t := s.ilk.warnTime * 100
    setPhase a .announce (fun ax => { ax with announce := some t }) s

/-- The axis moves on from WAIT_SUPPLY when it holds a RUNNING unit and is not held (R67). -/
def axisUnitReady (a : Axis) (s : State) : State :=
  if (s.axis a).phase = .waitSupply ∧ (s.axis a).held = false ∧ 0 < s.hsa.running (.axisStep a) then
    enterAnnounce a s
  else s

/-! ## Hand-over, completion, end (R66, R72, R75) -/

/-- A step with this target, direction and end mode is complete where the axis stands (R66, R75). -/
def AxisState.complete (ax : AxisState) (x target : Nat) (d : Dir) (em : EndMode) : Bool :=
  match em with
  | .position => distance target x d ≤ ax.par.deadband
  | .switch sw _ => ax.switchActive sw && !ax.disagree

/-- The axis as its step is over: step data, timers and held flag gone, Vc 0 (section 3.7, log 35). -/
def AxisState.cleared (ax : AxisState) : AxisState :=
  { ax with step := none, vc := 0, held := false, announce := none, reversal := none, switchWait := none }

/-- The completion of a member's step: RNE takes it, `notices` go to other blocks, and then the group moves on or an
abort ends (R39, R40, R47, log 40). -/
def completionOf (m : Member) (notices : List Msg) : List Msg :=
  .completion m :: notices ++ [.groupDone, .abortCheck]

/-- A hand-over from RNE, taken in IDLE: an axis that stands at its target is complete, another waits for supply
(R66). -/
def axisHandOver (a : Axis) (num : Nat) (jog : Bool) (target : Nat) (s : State) : State :=
  let ax := s.axis a
  let x := ax.x?.getD 0
  let d := dirTo x target
  let em := ax.endModeOf target d
  let s := s.modAxis a fun ax => { ax with vc := 0, bkCount := 0 }
  if ax.complete x target d em then watchRemove (.axis a) s
  else passTo a .waitSupply (fun ax => { ax with step := some ⟨num, jog, d, target, em⟩, held := false }) s

/-- A step completes: units released, phase IDLE, watched entry removed, completion reported (R75). -/
def completeStep (a : Axis) (s : State) : State :=
  (watchRemove (.axis a) (setPhase a .idle AxisState.cleared (s.emit [.release (.axisStep a)]))).emit
    (completionOf (.axis a) [])

/-- A step ends without completion: units released, phase IDLE, watched entry removed, the end reported (R67,
R72, R73). -/
def endStep (a : Axis) (s : State) : State :=
  (watchRemove (.axis a) (setPhase a .idle AxisState.cleared (s.emit [.release (.axisStep a)]))).emit
    [.stepEnded a]

/-- A false guard in WAIT_SUPPLY or ANNOUNCE: units released, phase IDLE, no end reported (R18, R67, R68). -/
def axisReturn (a : Axis) (s : State) : State :=
  passTo a .idle AxisState.cleared (s.emit [.release (.axisStep a)])

/-! ## Stop, resume and end from RNE (R71, R72) -/

/-- A stop from RNE (R71). -/
def axisStop (a : Axis) (s : State) : State :=
  match (s.axis a).phase with
  | .waitSupply => s.modAxis a fun ax => { ax with held := true }
  | .announce => setPhase a .waitSupply (fun ax => { ax with announce := none, held := true }) s
  | .reversing => setPhase a .paused (fun ax => { ax with reversal := none }) s
  | .moving => setPhase a (.stopping .paused) (fun ax => { ax with switchWait := none }) s
  | .seeking => setPhase a (.stopping .paused) (fun ax => { ax with switchWait := none }) s
  | .stopping .moving => s.modAxis a fun ax => { ax with phase := .stopping .paused }
  | _ => s

/-- A resume from RNE (R71). -/
def axisResume (a : Axis) (s : State) : State :=
  match (s.axis a).phase with
  | .waitSupply => axisUnitReady a (s.modAxis a fun ax => { ax with held := false })
  | .stopping .paused => s.modAxis a fun ax => { ax with phase := .stopping .moving }
  | .paused => enterReversing a s
  | _ => s

/-- An end from RNE (R72). -/
def axisEnd (a : Axis) (s : State) : State :=
  match (s.axis a).phase with
  | .waitSupply => endStep a s
  | .announce => endStep a s
  | .reversing => endStep a s
  | .paused => endStep a s
  | .moving => setPhase a (.stopping .idle) (fun ax => { ax with switchWait := none }) s
  | .seeking => setPhase a (.stopping .idle) (fun ax => { ax with switchWait := none }) s
  | .stopping _ => s.modAxis a fun ax => { ax with phase := .stopping .idle }
  | _ => s

/-- STOPPING ends at Vc 0 and passes to its destination (R73). -/
def stopEnd (a : Axis) (dest : StopDest) (s : State) : State :=
  match dest with
  | .paused => setPhase a .paused id s
  | .idle => endStep a s
  | .moving => enterMoving a (setPhase a .reversing id s)

/-- TRU's trip event at an axis; a further one changes nothing (R74). -/
def tripAxis (a : Axis) (s : State) : State :=
  if (s.axis a).phase = .halted then s
  else watchRemove (.axis a) (passTo a .halted AxisState.cleared s)

/-- The axis with its latches cleared by an accepted ACKNOWLEDGE: the jump tests that a latched position fault
suspended stay suspended until the next accepted sample (R57, R101, R163, log 20). -/
def AxisState.acknowledged (ax : AxisState) : AxisState :=
  { ax with
    posFault := none, latchClosed := false, latchOpen := false
    jumpSuspP := ax.jumpSuspP || ax.posFault.isSome
    jumpSuspS := ax.jumpSuspS || ax.posFault.isSome }

/-- An accepted ACKNOWLEDGE at an axis: latches cleared, member state derived, HALTED left for IDLE (R163). -/
def ackAxis (a : Axis) (s : State) : State :=
  let s := s.modAxis a AxisState.acknowledged
  if (s.axis a).phase = .halted then passTo a .idle id s else deriveAxis a s

/-! ## Switch disagreement (R59, R101) -/

/-- The disagreement test at a coordinate: the flag follows it, and what disagrees joins the latch (R59, R101). -/
def AxisState.testSwitches (ax : AxisState) (x : Nat) : AxisState :=
  { ax with
    disagree := ax.closedDisagrees x || ax.openDisagrees x
    latchClosed := ax.latchClosed || ax.closedDisagrees x
    latchOpen := ax.latchOpen || ax.openDisagrees x }

/-- The disagreement test of an axis and the member state after it: a first latching reports SENSOR (R59, R101,
R102). -/
def testDisagreement (a : Axis) (x : Nat) (s : State) : State :=
  let was := (s.axis a).switchLatched
  let s := s.modAxis a fun ax => ax.testSwitches x
  deriveAxis a
    (if !was && (s.axis a).switchLatched then s.emit [.tripReport .sensor (some (.axis a)) .none] else s)

/-- The end switch of the step in hand, in the SWITCH end mode. -/
def AxisState.stepSwitch (ax : AxisState) : Option EndSwitch :=
  match ax.step with
  | some st =>
    match st.endMode with
    | .switch sw _ => some sw
    | .position => none
  | none => none

/-- An edge of these switches is an edge of the step's end switch to active. -/
def edgeToActive (closedSw openSw : Option Bool) : Option EndSwitch → Bool
  | some .closedSw => closedSw == some true
  | some .openSw => openSw == some true
  | none => false

/-- The axis stores filtered switch values (R59, R172). -/
def storeSwitches (a : Axis) (closedSw openSw : Option Bool) (s : State) : State :=
  s.modAxis a fun ax => { ax with endClosed := closedSw.or ax.endClosed, endOpen := openSw.or ax.endOpen }

/-- A filtered edge of one or both end switches: one disagreement test against the last accepted x, the member
state, and one end-detection test (R3, R59, R75, R173). -/
def switchEdge (a : Axis) (closedSw openSw : Option Bool) (s : State) : State :=
  let s := storeSwitches a closedSw openSw s
  let s :=
    memberEvent (match (s.axis a).x? with
      | some x => testDisagreement a x
      | none => deriveAxis a) s
  if (s.axis a).phase.driving && edgeToActive closedSw openSw (s.axis a).stepSwitch && !(s.axis a).disagree then
    completeStep a s
  else s

/-! ## Stall and breakaway (R95 to R99) -/

/-- A running breakaway ends: flag cleared, countdown stopped, MEMBER marked (R97, R98). -/
def endBreakaway (a : Axis) (s : State) : State :=
  if (s.axis a).breakaway then
    mark (.member (.axis a)) (s.modAxis a fun ax => { ax with breakaway := false, bkLeft := none })
  else s

/-- The breakaway decision on a stall event (R96, R99). -/
def stallEvent (a : Axis) (s : State) : State :=
  let ax := s.axis a
  if ax.par.breakaway && decide (ax.bkCount < 2) && s.hsa.running (.axisStep a) == 2 then
    mark (.member (.axis a)) (s.modAxis a fun ax =>
      { ax with breakaway := true, bkLeft := some 75, bkCount := ax.bkCount + 1 })
  else mark (.member (.axis a)) (s.emit [.tripReport .stall (some (.axis a)) .none])

/-- The three conditions of a stall event (R95). -/
def AxisState.stalled (ax : AxisState) (x : Nat) (d : Dir) : Bool :=
  match ax.stallRef with
  | some (rx, rv) =>
    decide (100 ≤ rv) && decide (100 ≤ ax.vc) && decide (((x : Int) - rx) * d.sign < ax.par.stallMin)
  | none => false

/-- The stall sample: the test against the reference, the new reference, and the decision (R95). -/
def stallSample (a : Axis) (s : State) : State :=
  let ax := s.axis a
  match ax.x?, ax.step with
  | some x, some st =>
    let hit := ax.stalled x st.dir
    let s := mark (.member (.axis a)) (s.modAxis a fun ax => { ax with stallRef := some (x, ax.vc), stallLeft := some 25 })
    if hit then stallEvent a s else s
  | _, _ => s

/-- The breakaway countdown of a control period expiry, whose flag stands through that expiry's computation
(R97). -/
def breakawayTick (a : Axis) (s : State) : State :=
  match (s.axis a).bkLeft with
  | some n =>
    if n ≤ 1 then endBreakaway a s else s.modAxis a fun ax => { ax with bkLeft := some (n - 1) }
  | none => s

/-- The stall countdown of a control period expiry, and the sample where it falls due; an expiry that reported
SKEW takes none (R94, R95). -/
def stallTick (a : Axis) (skewed : Bool) (s : State) : State :=
  match (s.axis a).stallLeft with
  | some n =>
    if 1 < n then s.modAxis a fun ax => { ax with stallLeft := some (n - 1) }
    else if skewed then s.modAxis a fun ax => { ax with stallLeft := some 25 }
    else stallSample a s
  | none => s

/-! ## The control period (R55) -/

/-- The failure kinds of the two cylinders of a sample (R56); the jump test is suspended by a write of ZERO or
GAIN, by a latched position fault and, once it is acknowledged, until the next accepted sample (R57, log 20). -/
def AxisState.sampleKinds (ax : AxisState) (port stbd : ChannelSample) : Option SampleFail × Option SampleFail :=
  let ref (susp : Bool) (p : CylPos → Nat) : Option Nat := if susp || ax.posFault.isSome then none else ax.pos.map p
  (cylinderFail port ax.par.zeroP ax.par.gainP ax.par.stroke (ref ax.jumpSuspP (·.port)),
   cylinderFail stbd ax.par.zeroS ax.par.gainS ax.par.stroke (ref ax.jumpSuspS (·.stbd)))

/-- A failure kind that sets the position condition flag (R57). -/
def condFail : Option SampleFail → Bool
  | some .channel => true
  | some .range => true
  | _ => false

/-- A failed sample: the condition flag, and the position fault where none is latched (R57, R100, R168). -/
def failSample (a : Axis) (port stbd : ChannelSample) (k : Option SampleFail × Option SampleFail) : State → State :=
  memberEvent fun s =>
    let s := s.modAxis a fun ax => { ax with posCond := condFail k.1 || condFail k.2 }
    if (s.axis a).posFault.isSome then s
    else
      let s := s.modAxis a fun ax =>
        { ax with posFault := some ⟨k.1, k.2, port.raw, stbd.raw⟩, jumpSuspP := true, jumpSuspS := true }
      deriveAxis a (s.emit [.tripReport .sensor (some (.axis a)) .none])

/-- The positions an accepted sample stores (R56, R57). -/
def AxisState.offeredPos (ax : AxisState) (port stbd : ChannelSample) : CylPos :=
  ⟨offered port ax.par.zeroP ax.par.gainP ax.par.stroke, offered stbd ax.par.zeroS ax.par.gainS ax.par.stroke⟩

/-- Overtravel: past the target by more than 100 with the end switch not active (R76). -/
def AxisState.overtravel (ax : AxisState) (st : AxisStep) (x : Nat) : Bool :=
  match st.endMode with
  | .switch sw _ => decide (distance st.target x st.dir < -100) && !ax.switchActive sw
  | .position => false

/-- The switch wait of an entry to SEEKING, where this sample makes one (R76). -/
def AxisState.seekWait (ax : AxisState) (st : AxisStep) (x : Nat) : Option Nat :=
  match ax.phase, st.endMode with
  | .moving, .switch sw wait =>
    if distance st.target x st.dir ≤ ax.par.deadband ∧ ax.switchActive sw = false then some wait else none
  | _, _ => none

/-- Stages 5, 6 and 8 of a computation: Vc and u are stored, and the compares are handed on unless SKEW is found or
STOPPING has come to rest (R79, R86, R87, R90, R91). -/
def driveCompute (a : Axis) (st : AxisStep) (x u : Nat) (e : Int) (s : State) : State :=
  let vc := (s.axis a).newSpeed st x u
  let s := s.modAxis a fun ax => { ax with vc := vc, u := u }
  match (s.axis a).phase, vc with
  | .stopping dest, 0 => stopEnd a dest s
  | _, _ =>
    if (s.axis a).skewed e then s else handCompares a (demand vc e (s.axis a).par.skewGain st.dir) s

/-- An expiry that finds no RUNNING unit: compares zeroed at once, Vc 0, a breakaway ends (R80, R98). -/
def driveless (a : Axis) (s : State) : State :=
  endBreakaway a (zeroAxis a (s.modAxis a fun ax => { ax with vc := 0 }))

/-- End detection and drive computation of an expiry in MOVING, SEEKING or STOPPING (R70, R75, R76, R79, R80). -/
def drivePeriod (a : Axis) (st : AxisStep) (x : Nat) (e : Int) (s : State) : State :=
  if (s.axis a).complete x st.target st.dir st.endMode then completeStep a s
  else
    let s := if (s.axis a).overtravel st x then s.emit [.tripReport .endsw (some (.axis a)) .none] else s
    let s :=
      match (s.axis a).seekWait st x with
      | some w => setPhase a .seeking (fun ax => { ax with switchWait := some (w * 100) }) s
      | none => s
    let u := s.hsa.running (.axisStep a)
    if u = 0 then driveless a s else driveCompute a st x u e s

/-- The phase work of an accepted sample: drive, skew supervision by the phase at the expiry, breakaway countdown, and
the stall countdown of an expiry taken in MOVING or SEEKING (R55, R90, R94, R97, R104). A STOPPING that comes to rest
passes to its destination, and reports an end, before a SKEW found at that expiry (log 50). -/
def phaseWork (a : Axis) (p : CylPos) (s : State) : State :=
  let ph := (s.axis a).phase
  let s :=
    match ph.driving, (s.axis a).step with
    | true, some st => drivePeriod a st p.x p.e s
    | _, _ => s
  let skewed := !ph.atRest && (s.axis a).skewed p.e
  let s := if skewed then s.emit [.tripReport .skew (some (.axis a)) .none] else s
  let s := breakawayTick a s
  if ph.sampled then stallTick a skewed s else s

/-- An accepted sample (R57 to R59): stored, tested against the switches, signalled to RNE when it is the first
since the reset, and worked on by phase. ILK's re-evaluation for a change of member state is taken before that signal
(log 47). -/
def acceptSample (a : Axis) (p : CylPos) (s : State) : State :=
  let isFirst := (s.axis a).pos.isNone
  let s := memberEvent (fun s =>
    testDisagreement a p.x (s.modAxis a fun ax =>
      { ax with pos := some p, jumpSuspP := false, jumpSuspS := false, posCond := false })) s
  let s := if isFirst then s.emit [.firstSample a] else s
  phaseWork a p s

/-- A control period expiry of an axis with the samples of its channels (R55). -/
def controlPeriod (a : Axis) (port stbd : ChannelSample) (s : State) : State :=
  let s := (s.setChannels a ⟨port, stbd⟩).modAxis a fun ax => { ax with control := 20 }
  let ax := s.axis a
  let k := ax.sampleKinds port stbd
  if k.1.isNone && k.2.isNone then acceptSample a (ax.offeredPos port stbd) s else failSample a port stbd k s

end Sys2Proof.Machine
end

