-- ==== Sys2Proof/Machine/Lock.lean ====
section
/-! DEFINITION. The lock group controllers: pins (R105 to R107), operations (R108 to R113) and top-ups (R114 to
R120). -/

namespace Sys2Proof.Machine

/-! ## Operations (R108 to R113) -/

/-- The stage that a phase of the operation gives the group's watched entry (R17). -/
def OpPhase.stage : OpPhase → Stage
  | .waitSupply => .preparing
  | .driving => .driving
  | .settling => .driving
  | .holding => .holding

/-- The operation is in this phase. -/
def LockState.inPhase (l : LockState) (ph : OpPhase) : Bool :=
  match l.op with
  | some o => o.phase == ph
  | none => false

/-- The operation in another phase. -/
def LockState.toOp (l : LockState) (ph : OpPhase) : LockState := { l with op := l.op.map fun o => { o with phase := ph } }

/-- Every transit timer discarded (R107). -/
def LockState.noTransit (l : LockState) : LockState := { l with pins := l.pins.map fun p => { p with transit := none } }

/-- The transit timers of the pins that stand in TRANSIT, started from 0 (R107, R111). -/
def LockState.startTransit (l : LockState) : LockState :=
  { l with pins := l.pins.map fun p =>
      if p.state = .transit then { p with transit := some (l.par.transitLimit * 1000) } else p }

/-- Every pin stands in the state that the operation asks (R111). -/
def LockState.arrived (l : LockState) : Bool :=
  match l.op with
  | some o => l.allPins o.asked
  | none => false

/-- What a change of phase of a group's operation does, with what `f` changes beside it: the watched entry takes its
stage and the group state is derived (section 6.2, R7). -/
def opPassTo (g : Group) (ph : OpPhase) (f : LockState → LockState) (s : State) : State :=
  deriveGroup g (watchStage (.lock g) ph.stage (s.modLock g fun l => f (l.toOp ph)))

/-- A change of phase of a group's operation as an event of its group (section 6.2, R122). -/
def setOpPhase (g : Group) (ph : OpPhase) (f : LockState → LockState) : State → State := memberEvent (opPassTo g ph f)

/-- A hand-over from RNE: the operation is recorded in WAIT_SUPPLY, STUCK flags cleared (R108). -/
def lockHandOver (g : Group) (num : Nat) (jog engage : Bool) : State → State :=
  opPassTo g .waitSupply fun l =>
    { l with op := some ⟨.waitSupply, engage, num, jog⟩, pins := l.pins.map fun p => { p with stuck := false } }

/-- Entry to SETTLING with a full SETTLE (R111). -/
def enterSettling (g : Group) (s : State) : State :=
  setOpPhase g .settling (fun l => { l.noTransit with settleT := some l.par.settle }) s

/-- Entry to DRIVING from WAIT_SUPPLY, and on to SETTLING where every pin already stands in the asked state (R111). -/
def enterDriving (g : Group) (s : State) : State :=
  let s := (setOpPhase g .driving LockState.startTransit s).emit [.busyEnter g]
  if (s.lock g).arrived then enterSettling g s else s

/-- The operation moves on from WAIT_SUPPLY when it holds a RUNNING unit (R109). -/
def opUnitReady (g : Group) (s : State) : State :=
  if (s.lock g).inPhase .waitSupply && decide (0 < s.hsa.running (.lockOp g)) then enterDriving g s else s

/-- The operation is ended, its settle, hold and transit timers discarded. -/
def LockState.ended (l : LockState) : LockState := { l.noTransit with op := none, settleT := none, holdT := none }

/-- HOLDING closes: unit released, operation ended, group state derived from the pins, watched entry removed
(R112). -/
def closeHolding (g : Group) (s : State) : State :=
  let s := s.emit [.release (.lockOp g)]
  deriveGroup g (watchRemove (.lock g) (s.modLock g LockState.ended))

/-- HOLDING closes early before a lock step for the group meets the satisfaction test (R112). -/
def closeEarly (g : Group) (s : State) : State :=
  if (s.lock g).inPhase .holding then closeHolding g s else s

/-- A false guard in WAIT_SUPPLY: request withdrawn or unit released, operation ended, group state derived (R18, R109).
Where every pin stands ENGAGED the group becomes ENGAGED and the periodic timer starts by R115, although the step is
still in RNE's set (log 42). -/
def opReturn (g : Group) (s : State) : State :=
  deriveGroup g ((s.emit [.release (.lockOp g)]).modLock g LockState.ended)

/-- The settle timer expires: HOLDING is entered, completion reported, CAU told of the exit before the group of steps
moves on (R111, R112, R144, log 40). With HOLD_TIME 0 the hold timer expires at its start, and HOLDING closes after the
group of steps has moved on (log 40). -/
def settleDone (g : Group) (s : State) : State :=
  let t := (s.lock g).par.holdTime * 1000
  let s := setOpPhase g .holding (fun l => { l with settleT := none, holdT := if t = 0 then none else some t }) s
  s.emit (completionOf (.lock g) [.busyExit g] ++ if t = 0 then [.holdDone g] else [])

/-- The hold timer expires (R112). -/
def holdDone (g : Group) : State → State := memberEvent (closeEarly g)

/-! ## Top-ups (R114 to R120) -/

/-- The source joins the sources of a top-up; STATION also sets the station request flag (R114). -/
def TopUp.add (t : TopUp) : TopSource → TopUp
  | .periodic => { t with srcPeriod := true }
  | .creep => { t with srcCreep := true }
  | .station => { t with srcStation := true, request := true }

/-- The periodic timer from the full interval, where the group is ENGAGED and the interval is not 0 (R115). -/
def LockState.fullPeriod (l : LockState) : Option Nat :=
  if l.gstate = .engaged ∧ l.par.topupInterval ≠ 0 then some (l.par.topupInterval * 60000) else none

/-- A step for the group stands in the in-flight set (R114). -/
def Rne.stepFor (r : Rne) (m : Member) : Bool := r.inflight.any fun e => e.member == m

/-- A trigger of the group is dropped, or a TOPUP refused, in these cases (R114). -/
def State.topupBarred (s : State) (g : Group) : Bool :=
  s.tru.record.isSome || s.rne.stepFor (.lock g) || (s.lock g).op.isSome

/-- A top-up becomes pending: its source, its watched entry, the periodic timer stopped (R114, R115). -/
def startTopUp (g : Group) (src : TopSource) (s : State) : State :=
  let s := s.modLock g fun l => { l with top := { noTopUp with status := .pendingGuard }.add src, periodic := none }
  let s := mark (.member (.lock g)) (watchAdd (.lock g) .topUp none .topUp s)
  match s.ilk.entry? (.lock g) with
  | some e => if e.result.isNone then s.emit [.topupGo g] else s
  | none => s

/-- A trigger: dropped, started or joined (R114, R115). -/
def topupTrigger (g : Group) (src : TopSource) (s : State) : State :=
  if src != .station && s.topupBarred g then
    if src = .periodic then s.modLock g fun l => { l with periodic := l.fullPeriod } else s
  else if (s.lock g).top.status = .none then startTopUp g src s
  else
    let old := (s.lock g).top
    markIf (decide (old ≠ old.add src)) (.member (.lock g)) (s.modLock g fun l => { l with top := l.top.add src })

/-- The status of a top-up changes, and the watched entry takes its stage (R17, R118). -/
def setTopStatus (g : Group) (st : TopStatus) (stage : Stage) (s : State) : State :=
  watchStage (.lock g) stage (s.modLock g fun l => { l with top := { l.top with status := st } })

/-- The guard of a waiting top-up is TRUE: it asks for one unit (R118). -/
def topupAsk (g : Group) (s : State) : State :=
  if (s.lock g).top.status = .pendingGuard then
    (setTopStatus g .pendingSupply .preparing s).emit [.request (.topUp g)]
  else s

/-- A top-up whose guard is TRUE from its start (R118). -/
def topupGo (g : Group) : State → State := memberEvent (topupAsk g)

/-- A false guard in PENDING_SUPPLY (R18, R118). -/
def topupReturn (g : Group) (s : State) : State :=
  setTopStatus g .pendingGuard .waiting (s.emit [.release (.topUp g)])

/-- The top-up becomes ACTIVE when it holds a RUNNING unit (R118). -/
def topUnitReady (g : Group) (s : State) : State :=
  if (s.lock g).top.status = .pendingSupply ∧ 0 < s.hsa.running (.topUp g) then
    memberEvent (setTopStatus g .active .driving)
      (s.modLock g fun l => { l with topupT := some (l.par.topupTime * 1000) })
  else s

/-- The LOCK_CREEP test fails (R120). -/
def LockState.creepFails (l : LockState) : Bool := l.top.srcCreep && !l.allPins .engaged

/-- A top-up ends: unit released, LOCK_CREEP test, record cleared, entry removed, periodic timer started where the
group is ENGAGED (R120). -/
def endTopUp (g : Group) (s : State) : State :=
  let fails := (s.lock g).creepFails
  let s := watchRemove (.lock g) (s.emit [.release (.topUp g)])
  let s := s.modLock g fun l => { l with top := noTopUp, topupT := none }
  if fails then
    deriveGroup g ((s.modLock g fun l => { l with creep := true }).emit
      [.tripReport .lockCreep (some (.lock g)) .none])
  else s.modLock g fun l => { l with periodic := l.fullPeriod }

/-- A top-up gives way to a step for its group (R119). -/
def cancelTopUp (g : Group) (s : State) : State :=
  if (s.lock g).top.status = .none then s
  else (s.modLock g fun l => { l with top := noTopUp, topupT := none }).emit [.release (.topUp g)]

/-- The top-up timer expires (R118, R120). -/
def topupTimerDone (g : Group) (s : State) : State :=
  if (s.lock g).top.status = .active then memberEvent (endTopUp g) s else s

/-- The periodic timer starts again once a lock step has left the set with the group ENGAGED and nothing in hand
(R119, log 30). -/
def restartPeriodic (g : Group) (s : State) : State :=
  s.modLock g fun l =>
    if l.op.isNone ∧ l.top.status = .none ∧ l.periodic = none then { l with periodic := l.fullPeriod } else l

/-- A consumer is told that it holds a RUNNING unit (R131). -/
def unitReady (c : Consumer) (s : State) : State :=
  match c with
  | .axisStep a => axisUnitReady a s
  | .lockOp g => opUnitReady g s
  | .topUp g => topUnitReady g s

/-! ## Pins (R105 to R107, R111, R116) -/

/-- A pin with new sensor values: its state, and its timers where the state changed (R5, R106, R107). -/
def Pin.sense (p : Pin) (engaged withdrawn : Option Bool) (transit : Option Nat) : Pin :=
  let e := engaged.or p.engaged
  let w := withdrawn.or p.withdrawn
  let st := pinStateOf e w
  if st = p.state then { p with engaged := e, withdrawn := w }
  else
    { p with
      engaged := e
      withdrawn := w
      state := st
      conflict := if st = .conflict then some 100 else none
      transit := if st = .transit then transit else none }

/-- What the operation does on a pin change: DRIVING passes to SETTLING when every pin has arrived, SETTLING returns
to DRIVING when a pin leaves the asked state (R111). -/
def opOnPin (g : Group) (s : State) : State :=
  let l := s.lock g
  if l.inPhase .driving && l.arrived then enterSettling g s
  else if l.inPhase .settling && !l.arrived then
    setOpPhase g .driving (fun l => { l.startTransit with settleT := none }) s
  else s

/-- The transit timer that a pin entering TRANSIT gets: one in DRIVING only (R107). -/
def LockState.transitStart (l : LockState) : Option Nat :=
  if l.inPhase .driving then some (l.par.transitLimit * 1000) else none

/-- New filtered values of a pin's sensors, as an edge or as first values (R5, R105): group state, timers, creep
trigger, operation phases. -/
def pinSense (g : Group) (n : Nat) (engaged withdrawn : Option Bool) (s : State) : State :=
  let l := s.lock g
  match l.pin? n with
  | none => s
  | some p =>
    let q := p.sense engaged withdrawn l.transitStart
    let t := s.modLock g fun l => l.modPin n fun _ => q
    if q.state = p.state then t
    else
      let s := memberEvent (fun s => deriveGroup g (s.modLock g fun l => l.modPin n fun _ => q)) s
      let s := if p.state = .engaged ∧ l.gstate = .engaged then s.emit [.topupTrigger g .creep] else s
      opOnPin g s

/-- The pin joins those that the PIN_CONFLICT latch names (R106). -/
def LockState.addConflict (l : LockState) (n : Nat) : LockState :=
  if l.conflictPins.contains n then l else { l with conflictPins := l.conflictPins ++ [n] }

/-- The conflict timer of a pin has stopped (R106). -/
def LockState.stopConflict (l : LockState) (n : Nat) : LockState := l.modPin n fun p => { p with conflict := none }

/-- PIN_CONFLICT is latched, and reported as a trip (R106). -/
def latchConflict (g : Group) (n : Nat) (s : State) : State :=
  deriveGroup g ((s.modLock g fun l => { l.stopConflict n with conflictPins := [n] }).emit
    [.tripReport .pinConflict (some (.lock g)) .none])

/-- The conflict timer of a pin expires: PIN_CONFLICT is latched, or the pin joins the latch and MEMBER is marked,
also where the latch names it already (R106). -/
def conflictDone (g : Group) (n : Nat) (s : State) : State :=
  if (s.lock g).conflictPins.isEmpty then memberEvent (latchConflict g n) s
  else mark (.member (.lock g)) (s.modLock g fun l => (l.stopConflict n).addConflict n)

/-- The transit timer of a pin reaches its limit: STUCK is set, also where it stands already, and MEMBER is marked
(R107). -/
def transitDone (g : Group) (n : Nat) (s : State) : State :=
  mark (.member (.lock g)) (s.modLock g fun l => l.modPin n fun p => { p with transit := none, stuck := true })

/-! ## Trip and acknowledgement (R113, R163) -/

/-- The pair of phases that CAU counts as busy (R111, R144). -/
def LockState.busy (l : LockState) : Bool := l.inPhase .driving || l.inPhase .settling

/-- TRU's trip event at a group: operation and top-up ended, their timers discarded, the group state derived; the STUCK
flags and the conflict timers are not touched by it (R113). The periodic timer is touched by the derivation alone:
where the end of an operation finds every pin ENGAGED, the group becomes ENGAGED and the timer starts by R115
(log 41). -/
def tripLock (g : Group) (s : State) : State :=
  deriveGroup g (s.modLock g fun l => { l.ended with top := noTopUp, topupT := none })

/-- TRU's trip event at the six member controllers, with CAU told of the groups that leave DRIVING and SETTLING
(R1, R74, R113, R144). -/
def tripMembers (s : State) : State :=
  (memberEvent (fun s => allGroups.foldl (fun s g => tripLock g s) (allAxes.foldl (fun s a => tripAxis a s) s)) s).emit
    ((allGroups.filter fun g => (s.lock g).busy).map .busyExit)

/-- An accepted ACKNOWLEDGE at a group: latches cleared, state derived (R163). -/
def ackLock (g : Group) (s : State) : State :=
  deriveGroup g (s.modLock g fun l => { l with conflictPins := [], creep := false })

/-- An accepted ACKNOWLEDGE at the six member controllers (R1, R163). -/
def ackMembers : State → State :=
  memberEvent fun s => allGroups.foldl (fun s g => ackLock g s) (allAxes.foldl (fun s a => ackAxis a s) s)

end Sys2Proof.Machine
end

