-- ==== Sys2Proof/Machine/Authority.lean ====
section
/-! DEFINITION. The command authority unit (R140 to R146) and the permit monitor (R148 to R152). -/

namespace Sys2Proof.Machine

/-! ## Holder, elect, handover (R140 to R145) -/

/-- Changes CAU's items. -/
def State.modCau (s : State) (f : Cau → Cau) : State := { s with cau := f s.cau }

/-- A station is the holder. -/
def State.holds (s : State) (st : Station) : Bool := s.cau.holder == some st

/-- A handover is due (R144). -/
def Cau.due (c : Cau) : Bool :=
  match c.elect with
  | some e => c.higher == some e || c.yielded
  | none => false

/-- The handover in one step (R145). -/
def Cau.handover (c : Cau) : Cau :=
  { c with holder := c.elect, elect := none, yielded := false, deferred := false }

/-- The handover test: made, deferred on the busy set, or not due (R144). AUTHORITY is marked at the change of holder,
before PMT takes it (log 51), and once for the items that change together (log 52). -/
def handoverTest (s : State) : State :=
  if s.cau.due && s.cau.busyEmpty then (mark .authority (s.modCau Cau.handover)).emit [.holderChanged]
  else
    markIf (s.cau.deferred != s.cau.due) .authority (s.modCau fun c => { c with deferred := s.cau.due })

/-- A station becomes holder, or the holder becomes NONE, and PMT is told after the mark (R142, R143, R146, R152, log
51). -/
def setHolder (h : Option Station) (s : State) : State :=
  (mark .authority (s.modCau fun c => { c with holder := h, elect := none, yielded := false, deferred := false })).emit
    [.holderChanged]

/-- The effect of a CLAIM, and its outcome (R142). -/
def claim (st : Station) (s : State) : State × ReplyCode :=
  if s.holds st then (s, .ok)
  else
    match s.cau.holder, s.cau.elect with
    | none, _ => (setHolder (some st) s, .ok)
    | some _, none =>
      (handoverTest (mark .authority (s.modCau fun c => { c with elect := some st })), .pending)
    | some _, some _ => (handoverTest s, .pending)

/-- The elect lets go or is lost: a yielded flag brings the holder's earlier YIELD into force (R143, R146). One mark
stands for the elect and the deferred flag (log 52). -/
def dropElect (s : State) : State :=
  if s.cau.yielded then setHolder none s
  else mark .authority (s.modCau fun c => { c with elect := none, deferred := false })

/-- The holder lets go or is lost (R143, R146). -/
def dropHolder (s : State) : State :=
  match s.cau.elect with
  | none => setHolder none s
  | some _ =>
    if s.cau.yielded then s
    else handoverTest (mark .authority (s.modCau fun c => { c with yielded := true }))

/-- The effect of a YIELD, or of the loss of a station's link, by the station's role (R143, R146). -/
def letGo (st : Station) (s : State) : State :=
  if s.holds st then dropHolder s
  else if s.cau.elect = some st then dropElect s
  else s

/-! ## Key and links (R141, R146) -/

/-- A change of key position: AUTHORITY is marked and the handover test applied (R141). -/
def keyChange (isLocal : Bool) (s : State) : State :=
  handoverTest (mark .authority (s.modCau fun c => { c with key := if isLocal then .isLocal else .isRemote }))

/-- The alive flag of a link (R140). -/
def Cau.setAlive (c : Cau) (st : Station) (v : Bool) : Cau :=
  match st with
  | .bridge => { c with aliveBridge := v }
  | .deck => { c with aliveDeck := v }

/-- A link loss notice: the alive flag is cleared and the lost station's role ends as R146 states. -/
def linkLost (st : Station) (s : State) : State :=
  if s.cau.alive st then letGo st (mark .authority (s.modCau fun c => c.setAlive st false)) else s

/-- A link restore notice where one is due (R146, R182). -/
def linkRestore (st : Station) (s : State) : State :=
  if s.cau.alive st then s else mark .authority (s.modCau fun c => c.setAlive st true)

/-- The busy set with a group in it or not (R144). -/
def Cau.setBusy (c : Cau) (g : Group) (v : Bool) : Cau :=
  match g with
  | .vlk => { c with busyVlk := v }
  | .rlk => { c with busyRlk := v }
  | .icl => { c with busyIcl := v }

/-- A group enters DRIVING or SETTLING (R144). -/
def busyEnter (g : Group) (s : State) : State := s.modCau fun c => c.setBusy g true

/-- A group leaves the pair of phases: removed from the busy set, and the handover test applied (R144). -/
def busyExit (g : Group) (s : State) : State := handoverTest (s.modCau fun c => c.setBusy g false)

/-! ## Permit (R148 to R152) -/

/-- Changes PMT's items. -/
def State.modPmt (s : State) (f : Pmt → Pmt) : State := { s with pmt := f s.pmt }

/-- The first axis in MOVING, SEEKING or STOPPING, in member order (R151). -/
def State.firstDriving (s : State) : Option Axis := allAxes.find? fun a => (s.axis a).phase.driving

/-- What PMT sends at a lapse: PERMIT_LAPSE as a trip under PERMIT_ACTION TRIP with an axis in motion, else a lapse
event (R151). -/
def State.lapseMsg (s : State) : Msg :=
  match s.pmt.tripAction, s.firstDriving with
  | true, some a => .tripReport .permitLapse (some (.axis a)) .none
  | _, _ => .lapseEvent

/-- The permit lapses (R151, R152). -/
def permitLapse (s : State) : State :=
  let t := s.modPmt fun p => { p with live := false, timer := none, lapsed := true }
  (markIf (!s.pmt.lapsed) .run (markIf s.pmt.live .authority t)).emit [s.lapseMsg, .refreshBlocked]

/-- CAU tells PMT that the holder has changed (R152). -/
def holderChanged (s : State) : State := if s.pmt.live then permitLapse s else s

/-- What PMT sends at the holder's PERMIT: its notice, and where the permit has become live also the change of the
permit, at which the blocked indication is computed afresh in every engine state (R34, R149, log 53). -/
def State.permitMsgs (s : State) : List Msg := .permitNotice :: if s.pmt.live then [] else [.refreshBlocked]

/-- A PERMIT record at PMT; only the holder's has an effect (R149). -/
def permitArrival (st : Station) (s : State) : State :=
  if s.holds st then
    let t := s.modPmt fun p => { p with live := true, timer := some p.window, lapsed := false }
    (markIf s.pmt.lapsed .run (markIf (!s.pmt.live) .authority t)).emit s.permitMsgs
  else s

/-- The permit timer expires (R151). -/
def permitExpiry (s : State) : State := if s.pmt.timer.isSome then permitLapse s else s

end Sys2Proof.Machine
end

