-- ==== Sys2Proof/Machine/Run.lean ====
section
/-! DEFINITION. The run engine (spec/02): groups and hand-over (R28 to R36), timeout, completion and dwell (R38 to
R40), pausing (R41 to R45), abort (R46, R47), trip (R48), and the step clock (R30). -/

namespace Sys2Proof.Machine

/-- Changes RNE's items. -/
def State.modRne (s : State) (f : Rne → Rne) : State := { s with rne := f s.rne }

/-- Changes RNE's items and marks the RUN subject (R54). -/
def runEvent (f : Rne → Rne) (s : State) : State := mark .run (s.modRne f)

/-! ## The running plan -/

/-- The plan being run. -/
def Rne.current (r : Rne) : Plan :=
  match r.planId with
  | some p => r.plan p
  | none => emptyJog

/-- The steps from `n` to the end of its group, at most `fuel` further ones (R28). -/
def Plan.groupFrom (p : Plan) : Nat → Nat → List Nat
  | 0, n => [n]
  | fuel + 1, n => if (p.step n).withNext && decide (n < p.len) then n :: p.groupFrom fuel (n + 1) else [n]

/-- The steps of the group that begins at a step (R28). -/
def Plan.group (p : Plan) (first : Nat) : List Nat := p.groupFrom 12 first

/-- The last step of a group (R28). -/
def Plan.groupLast (p : Plan) (first : Nat) : Nat := (p.group first).getLast?.getD first

/-- The first steps of the groups of a plan (R28). -/
def Plan.groupStarts (p : Plan) : List Nat :=
  (List.range p.len).filterMap fun i => if i = 0 ∨ (p.step i).withNext = false then some (i + 1) else none

/-- No group has more than 3 steps or names one member twice (R29). -/
def Plan.groupsFit (p : Plan) : Bool :=
  p.groupStarts.all fun i =>
    decide ((p.group i).length ≤ 3) && decide (((p.group i).map fun n => (p.step n).member).Nodup)

/-- Plan J is being run: its step carries the jog flag (R36). -/
def Rne.isJog (r : Rne) : Bool := r.planId == some .j

/-- A plan is running: RUNNING or PAUSED. -/
def Rne.active (r : Rne) : Bool := r.engine == .running || r.engine == .paused

/-- The outcome of a step is set (R31). -/
def Rne.setOutcome (r : Rne) (n : Nat) (o : StepOutcome) : Rne := { r with outcomes := r.outcomes.set (n - 1) o }

/-- The in-flight entry of a member (R30). -/
def Rne.entry? (r : Rne) (m : Member) : Option Entry := r.inflight.find? fun e => e.member == m

/-- Changes the in-flight entry of a member. -/
def Rne.modEntry (r : Rne) (m : Member) (f : Entry → Entry) : Rne :=
  { r with inflight := r.inflight.map fun e => if e.member = m then f e else e }

/-- An entry leaves the set with an outcome (R31). -/
def Rne.leave (r : Rne) (e : Entry) (o : StepOutcome) : Rne :=
  { r.setOutcome e.num o with inflight := r.inflight.filter fun x => x.num != e.num }

/-- The periodic timer of a lock step's group, once the step has left the set (R119). -/
def stepGone (m : Member) (s : State) : State :=
  match m with
  | .lock g => restartPeriodic g s
  | .axis _ => s

/-- An entry leaves the set with an outcome, and RUN is marked (R31, R54). -/
def leaveSet (e : Entry) (o : StepOutcome) (s : State) : State := stepGone e.member (runEvent (fun r => r.leave e o) s)

/-- The run has ended with a result (R40, R47, R53). -/
def Rne.finish (r : Rne) (res : RunResult) : Rne :=
  { r with engine := .idle, result := res, lapse := false, operator := false, elapsed := none, blocked := none }

/-! ## Wait reasons (R34) -/

/-- The wait reason of an entry in WAIT_GUARD (R34). -/
def State.waitReason (s : State) (m : Member) : Option Reason :=
  match (s.ilk.entry? m).bind (·.result) with
  | some r => some r
  | none =>
    match m with
    | .axis a => if (s.axis a).pos.isNone then some .noPosition else if s.pmt.live then none else some .noPermit
    | .lock _ => if s.pmt.live then none else some .noPermit

/-- An entry with its wait reason, present in WAIT_GUARD only (R30, R34). -/
def State.withWait (s : State) (e : Entry) : Entry :=
  { e with wait := if e.phase = .waitGuard then s.waitReason e.member else none }

/-- The lowest-numbered waiting entry and its reason (R34). -/
def blockedOf (l : List Entry) : Option (Nat × Reason) := l.findSome? fun e => e.wait.map fun r => (e.num, r)

/-- The blocked indication is computed afresh; its change marks RUN (R34, R54). -/
def refreshBlocked (s : State) : State :=
  let l := s.rne.inflight.map s.withWait
  markIf (decide (blockedOf l ≠ s.rne.blocked)) .run
    (s.modRne fun r => { r with inflight := l, blocked := blockedOf l })

/-! ## Group start (R32) -/

/-- The action of a step on the watched-action list. -/
def Action.watched : Action → WatchAction
  | .moveTo => .moveTo
  | .engage => .engage
  | .withdraw => .withdraw

/-- The satisfaction test of a step (R32). -/
def State.satisfied (s : State) (st : Step) : Bool :=
  match st.member with
  | .axis a => (s.axis a).satisfied (st.target.getD 0)
  | .lock g => (s.lock g).satisfied st.action

/-- A lock step ends the HOLDING of its group before the satisfaction test (R112). -/
def closeForStep (m : Member) (s : State) : State :=
  match m with
  | .lock g => closeEarly g s
  | .axis _ => s

/-- A top-up gives way to a lock step that enters the set (R119). -/
def cancelForStep (m : Member) (s : State) : State :=
  match m with
  | .lock g => cancelTopUp g s
  | .axis _ => s

/-- A step enters the in-flight set, a plan step in WAIT_GUARD with its wait reason, and the watched-action list in
WAITING (R17, R30, R32); a jog step never stands in WAIT_GUARD (R53). -/
def enterSet (n : Nat) (st : Step) (ph : EntryPhase) (s : State) : State :=
  let s := cancelForStep st.member s
  let src : WatchSource := if s.rne.isJog then .jogStep else .planStep
  let s := watchAdd st.member st.action.watched st.target src s
  let e := s.withWait ⟨n, st.member, ph, st.timeout, none, none⟩
  s.modRne fun r => { r.setOutcome n .inFlight with inflight := r.inflight ++ [e] }

/-- One step of a group start: SKIPPED where satisfied, else in the set (R32). -/
def placeStep (s : State) (n : Nat) : State :=
  let st := s.rne.current.step n
  let s := closeForStep st.member s
  if s.satisfied st then s.modRne fun r => r.setOutcome n .skipped else enterSet n st .waitGuard s

/-- A group start (R32): one event, whose MEMBER subjects are marked in member order (R1). -/
def groupStart (first : Nat) (s : State) : State :=
  let s := s.modRne fun r => { r with groupFirst := first, elapsed := some 0, blocked := none }
  let s := mark .run (memberEvent (fun s => (s.rne.current.group first).foldl placeStep s) s)
  if s.rne.inflight.isEmpty then s.emit [.groupDone] else s.emit [.handTest]

/-- The group may be done: with the set empty the next group starts, or the run is complete (R40). -/
def groupDone (s : State) : State :=
  if s.rne.active && s.rne.inflight.isEmpty then
    let last := s.rne.current.groupLast s.rne.groupFirst
    if last < s.rne.current.len then groupStart (last + 1) s else runEvent (fun r => r.finish .complete) s
  else s.emit [.refreshBlocked]

/-- The set may be empty in ABORTING: the run is then over (R46, R47). -/
def abortCheck (s : State) : State :=
  if s.rne.engine = .aborting ∧ s.rne.inflight = [] then runEvent (fun r => r.finish .aborted) s
  else s.emit [.refreshBlocked]

/-! ## Hand-over (R35, R36) -/

/-- An entry meets the conditions of R35 but the engine's. -/
def State.eligible (s : State) (e : Entry) : Bool :=
  e.phase == .waitGuard && s.pmt.live && ((s.ilk.entry? e.member).map (·.result) == some none) &&
    match e.member with
    | .axis a => (s.axis a).pos.isSome
    | .lock _ => true

/-- The guards of the waiting axis entries, evaluated afresh at the hand-over test (R35). -/
def refreshAxes (s : State) : State :=
  s.rne.inflight.foldl (fun s e =>
    match e.phase, e.member with
    | .waitGuard, .axis a => watchRefresh (.axis a) s
    | _, _ => s) s

/-- An entry is handed over to its member controller (R36). -/
def handOver (e : Entry) (s : State) : State :=
  let st := s.rne.current.step e.num
  let jog := s.rne.isJog
  let s := runEvent (fun r => r.modEntry e.member fun x => { x with phase := .delegated, wait := none }) s
  match e.member with
  | .axis a => axisHandOver a e.num jog ((s.axis a).hold (st.target.getD 0)) s
  | .lock g => lockHandOver g e.num jog (st.action == .engage) s

/-- What a member controller sends at a hand-over: its request for supply, or its completion where an axis stands at
its target already (R66, R108). -/
def State.handOverSends (s : State) : Member → List Msg
  | .axis a => if (s.axis a).phase = .waitSupply then [.request (.axisStep a)] else completionOf (.axis a) []
  | .lock g => [.request (.lockOp g)]

/-- The entry that the hand-over test hands over: in RUNNING, the first in step order that meets the conditions (R35). -/
def State.handOverNext (s : State) : Option Entry :=
  if s.rne.engine = .running then s.rne.inflight.find? s.eligible else none

/-- The hand-over test, in whatever state the engine is: the waiting axis guards are evaluated afresh, one entry is
handed over, and the test goes on from there (R35, log 22). What it changes at the member is an event of its own, or
part of the evaluation that has found the guard TRUE (log 39). -/
def handTestAs (own : Bool) (s : State) : State :=
  let s := refreshAxes s
  match s.handOverNext with
  | some e =>
    let t := if own then memberEvent (handOver e) s else handOver e s
    t.emit (t.handOverSends e.member ++ [.handTest])
  | none => s.emit [.refreshBlocked]

/-- The hand-over test as an event (R35). -/
def handTest : State → State := handTestAs true

/-- The waiting step of an axis that stands satisfied leaves the set SKIPPED (R33). -/
def skipIfSatisfied (a : Axis) (s : State) : State :=
  match s.rne.entry? (.axis a) with
  | some e =>
    if s.rne.active && e.phase == .waitGuard && s.satisfied (s.rne.current.step e.num) then
      (leaveSet e .skipped (watchRemove (.axis a) s)).emit [.groupDone]
    else s
  | none => s

/-- An axis signals its first accepted sample: its waiting step is tested again, and the hand-over test applied (R33,
R35). -/
def firstSample (a : Axis) (s : State) : State := (skipIfSatisfied a s).emit [.handTest]

/-! ## Timeout, completion, dwell (R38, R39, R47) -/

/-- The remaining timeout of an entry counts (R38). -/
def Rne.counts (r : Rne) (e : Entry) : Bool :=
  e.phase == .delegated &&
    match e.member with
    | .axis _ => r.engine == .running
    | .lock _ => r.engine == .running || r.engine == .paused || r.engine == .aborting

/-- The remaining dwell of an entry counts (R39). -/
def Rne.dwells (r : Rne) (e : Entry) : Bool := e.phase == .dwell && r.engine == .running

/-- The trip cause of a member's timeout (R38). -/
def timeoutCause : Member → Cause
  | .axis _ => .stepTimeout
  | .lock _ => .lockTimeout

/-- The remaining timeout of a member's DELEGATED entry has reached 0 (R38). -/
def stepTimeout (m : Member) (s : State) : State :=
  match s.rne.entry? m with
  | some e =>
    if s.rne.counts e then
      (s.modRne fun r => r.modEntry m fun e => { e with timeout := 0 }).emit
        [.tripReport (timeoutCause m) (some m) .none]
    else s
  | none => s

/-- The remaining dwell of a member's entry has reached 0: the step leaves the set DONE (R39). -/
def dwellDone (m : Member) (s : State) : State :=
  match s.rne.entry? m with
  | some e => if s.rne.dwells e then (leaveSet e .done s).emit [.groupDone] else s
  | none => s

/-- A member reports completion of its DELEGATED step (R39, R47): in RUNNING and PAUSED it passes to DWELL with the
step's dwell, 0 where it has none, and a dwell of 0 expires at its start. -/
def completion (m : Member) (s : State) : State :=
  match s.rne.entry? m with
  | some e =>
    if e.phase = .delegated then
      if s.rne.active then
        let d := (s.rne.current.step e.num).dwell.getD 0
        let s := runEvent (fun r => r.modEntry m fun e => { e with phase := .dwell, dwell := some d }) s
        if d = 0 then leaveSet e .done s else s
      else if s.rne.engine = .aborting then leaveSet e .done s
      else s
    else s
  | none => s

/-- An axis reports its step ended (R47). -/
def stepEnded (a : Axis) (s : State) : State :=
  match s.rne.entry? (.axis a) with
  | some e =>
    if s.rne.engine = .aborting then (leaveSet e .dropped s).emit [.abortCheck] else s
  | none => s

/-! ## Pausing (R41 to R45) -/

/-- Some pause reason stands. -/
def Rne.reasons (r : Rne) : Bool := r.lapse || r.operator

/-- The step of an axis is DELEGATED. -/
def Rne.delegates (r : Rne) (a : Axis) : Bool := (r.entry? (.axis a)).any fun e => e.phase == .delegated

/-- A message for each DELEGATED axis step, in member order (R1). -/
def Rne.axisMsgs (r : Rne) (f : Axis → Msg) : List Msg := (allAxes.filter r.delegates).map f

/-- The pause reasons change in RUNNING or PAUSED: the engine enters PAUSED or returns to RUNNING as they become
non-empty or empty (R44, R45). -/
def setReasons (f : Rne → Rne) (s : State) : State :=
  let old := s.rne
  let s := s.modRne fun r =>
    let q := f r
    { q with engine := if q.reasons then .paused else .running }
  let s := markIf (decide (old ≠ s.rne)) .run s
  if old.engine = .running ∧ s.rne.engine = .paused then s.emit (old.axisMsgs .axisStop)
  else if old.engine = .paused ∧ s.rne.engine = .running then s.emit (old.axisMsgs .axisResume ++ [.handTest])
  else s

/-- PMT's lapse event (R43). -/
def lapseEvent (s : State) : State :=
  if s.rne.active then setReasons (fun r => { r with lapse := true }) s else s

/-- PMT's PERMIT arrival notice (R43). -/
def permitNotice (s : State) : State :=
  if s.rne.active then (setReasons (fun r => { r with lapse := false }) s).emit [.handTest]
  else s

/-! ## Abort and trip (R46, R48) -/

/-- An entry that ABORT leaves in the set: a DELEGATED one (R46). -/
def Entry.stays (e : Entry) : Bool := e.phase == .delegated

/-- The outcomes of the entries that leave together (R46, R48). -/
def Rne.dropAll (r : Rne) (l : List Entry) : Rne := l.foldl (fun r e => r.leave e .dropped) r

/-- The watched entries of WAIT_GUARD steps are removed with them (R46). -/
def unwatchWaiting (l : List Entry) (s : State) : State :=
  l.foldl (fun s e => if e.phase = .waitGuard then watchRemove e.member s else s) s

/-- Every step of a list has left the set (R119). -/
def stepsGone (l : List Entry) (s : State) : State := l.foldl (fun s e => stepGone e.member s) s

/-- The engine enters ABORTING (R46). -/
def enterAborting (s : State) : State :=
  let gone := s.rne.inflight.filter fun e => !e.stays
  let msgs := s.rne.axisMsgs .axisEnd
  let s := stepsGone gone (unwatchWaiting gone s)
  let s := runEvent (fun r => { r.dropAll gone with engine := .aborting, lapse := false, operator := false }) s
  s.emit (msgs ++ [.abortCheck])

/-- The run context after a trip (R48). -/
def Rne.trip (r : Rne) : Rne :=
  { r.dropAll r.inflight with
    engine := .tripped, result := .tripped, lapse := false, operator := false, elapsed := none, blocked := none }

/-- TRU's trip event at RNE, with which the watched-action list is emptied (R17, R48). -/
def tripRne (s : State) : State :=
  let l := s.rne.inflight
  let s := s.setWatch []
  if s.rne.engine = .tripped then s else stepsGone l (runEvent Rne.trip s)

/-! ## Step clock (R30, R38, R39) -/

/-- One entry at a step clock expiry. -/
def Rne.tickEntry (r : Rne) (e : Entry) : Entry :=
  if r.counts e then { e with timeout := e.timeout - 1 }
  else if r.dwells e then { e with dwell := e.dwell.map (· - 1) }
  else e

/-- What an entry that has counted down to 0 brings (R38, R39). -/
def Rne.tickMsg (r : Rne) (e : Entry) : List Msg :=
  if r.counts e ∧ e.timeout = 0 then [.stepTimeout e.member]
  else if r.dwells e ∧ e.dwell = some 0 then [.dwellDone e.member]
  else []

/-- A step clock expiry: group elapsed and the remaining times advance, then what has reached 0 is taken in step
order (R30, log 21). -/
def stepClock (s : State) : State :=
  let r := s.rne
  let l := r.inflight.map r.tickEntry
  let s := s.modRne fun r =>
    { r with clock := 100, elapsed := r.elapsed.map fun n => min 65535 (n + 1), inflight := l }
  s.emit (l.flatMap r.tickMsg)

/-! ## START and JOG (R29, R52) -/

/-- The run context of an accepted START or JOG (R29, R52). -/
def Rne.begin (r : Rne) (p : PlanId) (st : Station) : Rne :=
  { r with
    engine := .running, planId := some p, startedBy := some st, result := .none, lapse := false, operator := false,
    outcomes := List.replicate (r.plan p).len .pending }

/-- The tests of START, the first that fails (R29). -/
def State.startCheck (s : State) (st : Station) (code : Byte) : Except ReplyCode PlanId :=
  if !s.holds st then .error .noAuthority
  else if s.rne.engine ≠ .idle then .error .wrongState
  else
    match storedPlanOfCode code.toNat with
    | none => .error .badValue
    | some p =>
      if (s.rne.plan p).len = 0 then .error .emptyPlan
      else if (s.rne.plan p).groupsFit then .ok p
      else .error .badPlan

/-- An accepted START sets the run context and starts the first group (R29). -/
def startRun (p : PlanId) (st : Station) (s : State) : State :=
  groupStart 1 (s.modRne fun r => r.begin p st)

/-- Plan J with one step (R52). -/
def jogPlan (st : Step) : Plan := ⟨1, [st]⟩

/-- The target of an axis jog, and whether a clamp changed the distance or the target (R52). -/
def AxisState.jogTarget (ax : AxisState) (x : Nat) (dist : Int) : Nat × Bool :=
  let d := max (-2000) (min 2000 dist)
  let t := max 0 (min (ax.par.stroke : Int) (x + d))
  (t.toNat, decide (d ≠ dist) || decide (t ≠ x + d))

/-- A JOG that has passed its first four tests, read: its step and whether a clamp was needed (R52). -/
def State.jogStep (s : State) (code : Byte) (dist : Int) : Except ReplyCode (Step × Bool) :=
  match memberOfCode code.toNat with
  | none => .error .badValue
  | some (.lock g) =>
    if dist = 1 then .ok (⟨.lock g, .engage, none, 150, none, false⟩, false)
    else if dist = 2 then .ok (⟨.lock g, .withdraw, none, 150, none, false⟩, false)
    else .error .badValue
  | some (.axis a) =>
    match (s.axis a).x? with
    | none => .error .wrongState
    | some x =>
      let t := (s.axis a).jogTarget x dist
      .ok (⟨.axis a, .moveTo, some t.1, 300, none, false⟩, t.2)

/-- The tests of JOG before its guard, the first that fails (R52). -/
def State.jogCheck (s : State) (st : Station) (code : Byte) (dist : Int) : Except ReplyCode (Step × Bool) :=
  if !s.holds st then .error .noAuthority
  else if st ≠ .deck then .error .wrongStation
  else if s.rne.engine ≠ .idle then .error .wrongState
  else if s.cau.key ≠ .isLocal then .error .wrongState
  else
    match s.jogStep code dist with
    | .error c => .error c
    | .ok r => if s.pmt.live then .ok r else .error .wrongState

/-- The one-off guard of a jog step, in the direction of the distance (R21). -/
def State.jogGuard (s : State) (st : Step) (dist : Int) : Option Reason :=
  match st.member with
  | .axis a => s.axisGuard a (if 0 < dist then .opening else .closing)
  | .lock g => s.lockGuard g (st.action == .withdraw)

/-- A satisfied jog: plan J holds the step, SKIPPED, and the engine stays IDLE (R52). -/
def jogSatisfied (st : Step) (by_ : Station) (s : State) : State :=
  runEvent (fun r =>
    { r with jog := jogPlan st, planId := some .j, startedBy := some by_, result := .complete, outcomes := [.skipped] }) s

/-- An accepted jog: the run context, the step in the set, and its hand-over at once (R21, R52, R53, log 23). -/
def jogStart (st : Step) (by_ : Station) (s : State) : State :=
  let s := s.modRne fun r => { ({ r with jog := jogPlan st }).begin .j by_ with groupFirst := 1, elapsed := some 0, blocked := none }
  let s := memberEvent (enterSet 1 st .delegated) s
  match s.rne.entry? st.member with
  | some e =>
    let t := memberEvent (handOver e) s
    t.emit (t.handOverSends e.member)
  | none => s

end Sys2Proof.Machine
end

