-- ==== Sys2Proof/Machine/Trip.lean ====
section
/-! DEFINITION. The trip unit (spec/09): trip reports (R156 to R159), the emergency-stop loops (R160, R161, R167),
ACKNOWLEDGE (R162 to R164), and the resets (R166, R178, R191). -/

namespace Sys2Proof.Machine

/-- Changes TRU's items. -/
def State.modTru (s : State) (f : Tru → Tru) : State := { s with tru := f s.tru }

/-! ## Trip reports (R157 to R159) -/

/-- The coordinate and skew of an axis as last accepted (R157). -/
def AxisState.fix (ax : AxisState) : Option AxisFix := ax.pos.map fun p => ⟨p.x, p.e⟩

/-- The pins of the named group (R157). -/
def State.pinsOf (s : State) : Option Member → List (PinState × Bool)
  | some (.lock g) => (s.lock g).pins.map fun p => (p.state, p.stuck)
  | _ => []

/-- The engine states with a plan id in the trip record (R49). -/
def Engine.inRun : Engine → Bool
  | .running => true
  | .paused => true
  | .aborting => true
  | _ => false

/-- The step number of the trip record (R49). -/
def Rne.tripStep (r : Rne) (m : Option Member) : Nat :=
  match m.bind r.entry? with
  | some e => e.num
  | none => r.groupFirst

/-- The trip record, from the report and the state as it stands (R49, R157). -/
def State.recordFor (s : State) (c : Cause) (m : Option Member) (d : Detail) : TripRecord :=
  let run := s.rne.engine.inRun && s.rne.planId.isSome
  { cause := c
    member := m
    detail := d
    planId := if run then s.rne.planId else none
    stepNum := if run then some (s.rne.tripStep m) else none
    engine := s.rne.engine
    vis := s.vis.fix
    rmp := s.rmp.fix
    inr := s.inr.fix
    pins := s.pinsOf m
    time := s.rne.elapsed }

/-- TRU after a trip report: the record is written, or the cause joins the secondary set (R157, R158). -/
def State.latchTrip (s : State) (c : Cause) (m : Option Member) (d : Detail) : Tru :=
  match s.tru.record with
  | none => { s.tru with record := some (s.recordFor c m d) }
  | some r => if r.cause = c ∨ c ∈ s.tru.causes then s.tru else { s.tru with causes := s.tru.causes ++ [c] }

/-- TRU's trip event to the blocks (R159). -/
def tripEvents : List Msg :=
  [.tripRne, .tripMembers, .tripHsa]

/-- A trip report at TRU: latched, forced-off, trip event (R157 to R159). -/
def tripReport (c : Cause) (m : Option Member) (d : Detail) (s : State) : State :=
  (mark .trip (forcedOff (s.modTru fun _ => s.latchTrip c m d))).emit tripEvents

/-! ## Emergency stop (R160, R161, R167) -/

/-- The loops with a loop's filtered state recorded (R160). -/
def Tru.setLoop (t : Tru) (st : Station) (isClosed : Bool) : Tru :=
  let v : LoopState := if isClosed then .closed else .opened
  match st with
  | .bridge => { t with loopBridge := v }
  | .deck => { t with loopDeck := v }

/-- A loop's filtered value, as an edge or as its first value: an OPEN loop sets a clear latch, with its ESTOP trip,
the notice to HSA and the latch change to ILK (R160, R161, R167). TRIP is marked once for the loop state and the latch,
before the record of that trip is written (log 55). Of the two cases of R19 and R161 the model always takes the first
(DESIGN CHOICE, log 58): every owner has taken the trip event, and HSA the notice, before ILK evaluates for the latch
change, so that it finds no DRIVING entry and INTERLOCK does not join the set. -/
def loopValue (st : Station) (isClosed : Bool) (s : State) : State :=
  let was := s.tru.latch
  let s := mark .trip (s.modTru fun t => { t.setLoop st isClosed with latch := t.latch || !isClosed })
  if isClosed || was then s
  else
    s.emit [.tripReport .estop none (.loops (s.tru.loopBridge == .opened) (s.tru.loopDeck == .opened)), .estopNotice,
      .reeval]

/-! ## ACKNOWLEDGE (R162 to R164) -/

/-- The station may acknowledge: the holder, or either station when there is none (R162). -/
def State.mayAck (s : State) (st : Station) : Bool := s.holds st || s.cau.holder.isNone

/-- TRU as an accepted ACKNOWLEDGE leaves it; VOD's forced state goes with the record (R163, R176). -/
def clearTrip (s : State) : State :=
  mark .trip { s.modTru fun t => { t with record := none, causes := [], latch := false } with
    vod := { s.vod with forced := false } }

/-- An accepted ACKNOWLEDGE with a trip latched (R163). -/
def acceptAck (s : State) : State :=
  let was := s.tru.latch
  let s := clearTrip s
  let s := if was then s.emit [.reeval] else s
  runEvent (fun r => { r with engine := .idle }) (hsaRecover (ackMembers s))

/-- The causes still present in the reply to a refused ACKNOWLEDGE: a count and three codes (R162, section 11.7). -/
def State.stillActiveData (s : State) : List Byte :=
  byteOf s.stillPresent.length :: padTo 3 (s.stillPresent.map fun c => byteOf (causeCode c))

/-! ## Resets (R166, R178, R191) -/

/-- The part after an accepted RESTART: every block at its RESTART values, with the items R166 keeps; the lines, the
waiting commands and the model's own fields are not the part's (log 31). -/
def warmReset (s : State) : State :=
  let ax (x : AxisState) := axisAtReset x.par x.w0 x.windows x.zero
  { ilk := ilkAtReset s.ilk.speedLimit s.ilk.speedStale s.ilk.warnTime
    rne := rneAtReset s.rne.p0 s.rne.p1 s.rne.p2 s.rne.p3
    vis := ax s.vis
    rmp := ax s.rmp
    inr := ax s.inr
    vlk := lockAtReset .vlk s.vlk.par
    rlk := lockAtReset .rlk s.rlk.par
    icl := lockAtReset .icl s.icl.par
    hsa := hsaAtReset s.hsa.startLimit s.hsa.runOn
    cau := cauAtReset s.cau.linkTimeout
    pmt := pmtAtReset s.pmt.window s.pmt.tripAction
    tru := truAtReset
    dic := dicAtReset s.dic.inputs s.dic.counts
    chVis := s.chVis
    chRmp := s.chRmp
    chInr := s.chInr
    vod := vodAtReset
    bridge := linkAtReset s.bridge.mask
    deck := linkAtReset s.deck.mask
    pending := s.pending
    agenda := []
    fresh := s.fresh }

/-- The zeroing at the start of a RESTART begins the dead-time reckoning of the outputs that were on (R69, R178). -/
def outputsOff (s : State) : State := zeroAxis .inr (zeroAxis .rmp (zeroAxis .vis s))

/-- All ten subjects are marked at both links, in subject code order (R166, R191). -/
def markAll (s : State) : State := allSubjects.foldl (fun s sub => mark sub s) s

/-- The part after a power-on reset; its lines, the waiting commands and the model's own counter stay (R178, log 31). -/
def powerOn (s : State) : State :=
  { State.reset with
    dic := dicAtReset s.dic.inputs defaultCounts
    chVis := s.chVis
    chRmp := s.chRmp
    chInr := s.chInr
    pending := s.pending
    fresh := s.fresh }

end Sys2Proof.Machine
end

