-- ==== Sys2Proof/Machine/Evaluate.lean ====
section
/-! DEFINITION. The re-evaluation of the watched-action list and what each guard result brings (R1, R17 to R20, R37,
R53). -/

namespace Sys2Proof.Machine

/-! ## Return to waiting (R18, R37, R53) -/

/-- The member controller ends its preparing phase (R18). -/
def memberReturn (m : Member) (s : State) : State :=
  match m with
  | .axis a => axisReturn a s
  | .lock g => opReturn g s

/-- RNE returns a plan step to WAIT_GUARD with its wait reason, its remaining timeout kept (R34, R37). -/
def planReturn (m : Member) (s : State) : State :=
  let s := watchStage m .waiting s
  (runEvent (fun r => r.modEntry m fun e => s.withWait { e with phase := .waitGuard }) s).emit [.handTest]

/-- RNE drops a jog step that would return to waiting (R53). -/
def jogReturn (m : Member) (s : State) : State :=
  let s := watchRemove m s
  match s.rne.entry? m with
  | some e => stepGone m (runEvent (fun r => (r.leave e .dropped).finish .aborted) s)
  | none => s

/-- What the owners do at once for an entry whose guard an evaluation has found false: PREPARING goes back to
waiting, or is dropped where it is a jog step (R18); HOLDING and an active top-up end early (R20). -/
def takeBack (s : State) (e : WatchEntry) : State :=
  match e.result, e.stage, e.source, e.member with
  | some _, .preparing, .topUp, .lock g => topupReturn g s
  | some _, .preparing, .planStep, m => planReturn m (memberReturn m s)
  | some _, .preparing, .jogStep, m => jogReturn m (memberReturn m s)
  | some _, .driving, .topUp, .lock g => endTopUp g s
  | some _, .holding, _, .lock g => closeHolding g s
  | _, _, _, _ => s

/-- A guard result that is not TRUE is handed on: a guard loss in DRIVING to TRU (R19), another to the owners of the
action (R18, R20). -/
def handFalse (r : Reason) (e : WatchEntry) (s : State) : State :=
  if e.stage = .driving ∧ e.source ≠ .topUp then tripReport .interlock (some e.member) (.guard r) s
  else takeBack s e

/-- A TRUE guard result is handed on to the owner of a waiting action: a top-up's group, or RNE (R18, R35, R118). -/
def handTrue (e : WatchEntry) (s : State) : State :=
  match e.stage, e.source, e.member with
  | .waiting, .topUp, .lock g => topupAsk g s
  | .waiting, _, _ => handTestAs false s
  | _, _, _ => s

/-- A guard result is handed on (R18 to R20). -/
def handOn (s : State) (e : WatchEntry) : State :=
  match e.result with
  | some r => handFalse r e s
  | none => handTrue e s

/-- A re-evaluation: every guard is evaluated on the state as it stands, and the results are handed on in member order
(R1, R17 to R20). Each is taken by the block it is handed to before the next is handed on; what these blocks send on is
delivered after the last, so that what one entry gives up moves no other entry of the same evaluation on (R18, log
33). -/
def reevaluate (s : State) : State :=
  let l := s.ilk.watch.map fun e => { e with result := s.guardOf e }
  (memberEvent (fun s => l.foldl handOn s) (s.setWatch l)).emit [.refreshBlocked]

end Sys2Proof.Machine
end

