-- ==== Sys2Proof/Machine/Input.lean ====
section
/-! DEFINITION. The discrete input conditioner (R170 to R174): sampling, filtering, first values, and the
deliveries they make; and the effects of a delivery at the conditioner itself. -/

namespace Sys2Proof.Machine

/-- Changes DIC's items. -/
def State.modDic (s : State) (f : Dic → Dic) : State := { s with dic := f s.dic }

/-- The filter class of an input (R170). -/
def Input.cls : Input → FilterClass
  | .pinEngaged _ _ => .pin
  | .pinWithdrawn _ _ => .pin
  | .endClosed _ => .endSw
  | .endOpen _ => .endSw
  | .pressure _ => .press
  | .motorTrip _ => .trip
  | .loop _ => .estop
  | .key => .key

/-- An input with a value delivered to its owner: the filtered value, the line level it stands for (a high level
gives the value on, active, CLOSED or LOCAL), a run counter of 0 (R170, R171, log 8). -/
def Dic.deliver (d : Dic) (i : Input) (v : Bool) : Dic :=
  { d with inputs := d.inputs.map fun x => if x.input = i then { x with level := v, filtered := some v, run := 0 } else x }

/-- As `Dic.deliver`, for an input that takes part in the event only if it has a value. -/
def Dic.deliver? (d : Dic) (i : Input) (v : Option Bool) : Dic :=
  match v with
  | some b => d.deliver i b
  | none => d

/-- One input at a sample: its first value, or the filtering of R171 (R171, R172). `sample` is the number of this
sample since the reset. -/
def DicInput.sample (x : DicInput) (n sample : Nat) : DicInput :=
  match x.filtered with
  | none => if n ≤ sample then { x with filtered := some x.level } else x
  | some v =>
    if x.level = v then { x with run := 0 }
    else if n ≤ x.run + 1 then { x with filtered := some x.level, run := 0 }
    else { x with run := x.run + 1 }

/-- What a sample delivered for an input: nothing, an edge, or a first value (R171, R172). -/
def DicInput.news (old new : DicInput) : Option Bool := if old.filtered = new.filtered then none else new.filtered

/-- The input's value is its first since the reset (R172). -/
def DicInput.isFirst (old : DicInput) : Bool := old.filtered.isNone

/-- The record of an input. -/
def Dic.find (d : Dic) (i : Input) : DicInput := (d.inputs.find? fun x => x.input == i).getD ⟨i, false, none, 0⟩

/-- What a sample from `d` to `e` delivers for two inputs of one owner taken together (R173): the values, and
whether they are first values. -/
def pairNews (d e : Dic) (i j : Input) : Option (Bool × Option Bool × Option Bool) :=
  match (d.find i).news (e.find i), (d.find j).news (e.find j) with
  | none, none => none
  | a, b => some ((if a.isSome then (d.find i).isFirst else (d.find j).isFirst), a, b)

/-- The delivery of a pin's sensors (R173). -/
def pinDelivery (d e : Dic) (g : Group) (n : Nat) : List Instr :=
  match pairNews d e (.pinEngaged g n) (.pinWithdrawn g n) with
  | some (true, a, b) => [.pinSensorFirstValue g n a b]
  | some (false, a, b) => [.pinSensorEdge g n a b]
  | none => []

/-- The delivery of an axis's end switches (R173). -/
def switchDelivery (d e : Dic) (a : Axis) : List Instr :=
  match pairNews d e (.endClosed a) (.endOpen a) with
  | some (true, x, y) => [.endSwitchFirstValue a x y]
  | some (false, x, y) => [.endSwitchEdge a x y]
  | none => []

/-- The delivery of one input that stands alone. -/
def oneDelivery (d e : Dic) (i : Input) (edge first : Bool → Instr) : List Instr :=
  match (d.find i).news (e.find i) with
  | some v => [if (d.find i).isFirst then first v else edge v]
  | none => []

/-- The deliveries of a unit's two inputs. -/
def unitDelivery (d e : Dic) (u : UnitId) : List Instr :=
  oneDelivery d e (.pressure u) (.pressureOkEdge u) (.unitInputFirstValue u .pressureOk) ++
    oneDelivery d e (.motorTrip u) (.motorTripEdge u) (.unitInputFirstValue u .motorTrip)

/-- The deliveries of a group's pins. -/
def groupDelivery (d e : Dic) (g : Group) : List Instr :=
  (List.range g.pinCount).flatMap fun i => pinDelivery d e g (i + 1)

/-- The deliveries of one sample, each an event of its own at the owner (R173). -/
def deliveries (d e : Dic) : List Instr :=
  allGroups.flatMap (groupDelivery d e) ++ allAxes.flatMap (switchDelivery d e) ++
    unitDelivery d e .u1 ++ unitDelivery d e .u2 ++
    oneDelivery d e (.loop .bridge) (.loopEdge .bridge) (.loopFirstValue .bridge) ++
    oneDelivery d e (.loop .deck) (.loopEdge .deck) (.loopFirstValue .deck) ++
    oneDelivery d e .key .keyEdge .keyFirstValue

/-- DIC after one sample, what it delivered waiting for the owners (R171 to R173). The number of samples is kept up
to 16, the largest N (R172). -/
def Dic.tick (d : Dic) : Dic :=
  let n := min 16 (d.samples + 1)
  let e := { d with samples := n, inputs := d.inputs.map fun (x : DicInput) => x.sample (d.counts.get x.input.cls) n }
  { e with owed := d.owed ++ deliveries d e }

end Sys2Proof.Machine
end

