-- ==== Sys2Proof/Machine/Params.lean ====
section
/-! DEFINITION. The requests that write and read what is stored: SET (R16, R64, R121, R137, R153, R174, R185),
SETWIN (R63), SETSTEP (R26, R27), SETMASK (R187) and READ (R186). Each gives the state after its effects, the outcome
and the kind data of its reply. -/

namespace Sys2Proof.Machine

/-- What a request comes to: the state after its effects, the outcome, and the kind data. -/
structure Result where
  state : State
  code  : ReplyCode
  data  : List Byte

/-- A refusal changes nothing and carries no kind data (R184). -/
def refuse (s : State) (c : ReplyCode) : Result := ⟨s, c, []⟩

/-! ## SET (R185) -/

/-- The outcome of a stored value: OK, or CLAMPED with the stored value (R185). -/
def storedResult (s : State) (asked stored : Nat) : Result :=
  if asked = stored then ⟨s, .ok, []⟩ else ⟨s, .clamped, wordOf stored⟩

/-- An axis parameter in place, with the jump-test suspension that a write of ZERO or GAIN brings (R57, R64, R65). -/
def AxisState.setParam (ax : AxisState) (i v : Nat) : AxisState :=
  { ax with
    par := ax.par.set i v
    jumpSuspP := ax.jumpSuspP || i == 1 || i == 3
    jumpSuspS := ax.jumpSuspS || i == 2 || i == 4 }

/-- A lock parameter in place; a write of TOPUP_INTERVAL restarts or stops the periodic timer (R115, R121). -/
def LockState.setParam (l : LockState) (i v : Nat) : LockState :=
  let m := { l with par := l.par.set i v }
  if i = 3 ∧ (v = 0 ∨ (m.gstate = .engaged ∧ m.top.status = .none)) then { m with periodic := m.fullPeriod } else m

/-- A link is lost at a write of LINK_TIMEOUT when its age exceeds the new value (R153, R182). -/
def loseOld (st : Station) (s : State) : State :=
  if s.cau.linkTimeout * 1000 < (s.link st).age then linkLost st s else s

/-- A value held to a range is stored by the owner. -/
def setClamped (lo hi v : Nat) (store : Nat → State) : Result :=
  storedResult (store (clamp lo hi v)) v (clamp lo hi v)

/-- A holder's SET of a parameter, by the rules of its owner (R16, R64, R121, R137, R153, R174). -/
def setParam (p : Param) (v : Nat) (s : State) : Result :=
  match p with
  | .speedLimit => setClamped 0 100 v fun w => { s with ilk := { s.ilk with speedLimit := w } }.emit [.reeval]
  | .speedStale => setClamped 2 60 v fun w => { s with ilk := { s.ilk with speedStale := w } }
  | .warnTime => setClamped 0 100 v fun w => { s with ilk := { s.ilk with warnTime := w } }
  | .axis a i =>
    if (s.axis a).phase.atRest = false then refuse s .wrongState
    else if i = 13 ∧ 1 < v then refuse s .badValue
    else setClamped (axisParamRange i).1 (axisParamRange i).2 v fun w => s.modAxis a fun ax => ax.setParam i w
  | .lock g i =>
    if (s.lock g).op.isSome then refuse s .wrongState
    else setClamped (lockParamRange i).1 (lockParamRange i).2 v fun w => s.modLock g fun l => l.setParam i w
  | .startLimit => setClamped 1 10 v fun w => { s with hsa := { s.hsa with startLimit := w } }
  | .runOn => setClamped 0 600 v fun w => { s with hsa := { s.hsa with runOn := w } }
  | .permitWindow => setClamped 200 2000 v fun w => s.modPmt fun q => { q with window := w }
  | .permitAction =>
    if 1 < v then refuse s .badValue else storedResult (s.modPmt fun q => { q with tripAction := v == 1 }) v v
  | .linkTimeout => setClamped 1 30 v fun w =>
      loseOld .deck (loseOld .bridge (s.modCau fun c => { c with linkTimeout := w }))
  | .filter c =>
    storedResult (s.modDic fun d => { d with counts := d.counts.set c (roundCount v) }) v (roundCount v)

/-- The effect of a SET (R185): an identifier that names no parameter is BAD_VALUE whatever the authority. -/
def setRequest (st : Station) (id lo hi : Byte) (s : State) : Result :=
  match paramOfId id.toNat with
  | none => refuse s .badValue
  | some p => if s.holds st then setParam p (wordVal lo hi) s else refuse s .noAuthority

/-! ## SETWIN (R63) -/

/-- The end mode of a code: 0 POSITION, 1 SWITCH (section 11.7). -/
def endModeOfByte (b : Byte) : Option Bool := flagOfByte b

/-- A window read from its eleven bytes, with its values clamped; `none` where a code names nothing (R63, R190). -/
def windowOf (bs : List Byte) : Option Window :=
  match bs with
  | [v, lo0, lo1, hi0, hi1, sc, sp0, sp1, r, em, w] =>
    match flagOfByte v, scopeOfCode sc.toNat, endModeOfByte em with
    | some valid, some scope, some sw =>
      some ⟨valid, clamp 0 40000 (wordVal lo0 lo1), clamp 1 40001 (wordVal hi0 hi1), scope,
        clamp 0 1000 (wordVal sp0 sp1), clamp 1 200 r.toNat, sw, clamp 1 100 w.toNat⟩
    | _, _, _ => none
  | _ => none

/-- The speed and ramp of W0 read from the eleven bytes, clamped (R63). -/
def profileOf (bs : List Byte) : Option Profile :=
  match bs with
  | [_, _, _, _, _, _, sp0, sp1, r, _, _] => some ⟨clamp 0 1000 (wordVal sp0 sp1), clamp 1 200 r.toNat⟩
  | _ => none

/-- A clamped W1 to W6 is stored (R63). -/
def storeWindow (a : Axis) (n : Nat) (bs : List Byte) (s : State) : Result :=
  match windowOf bs with
  | some w =>
    if w.low < w.high then
      let t := s.modAxis a fun ax => { ax with windows := ax.windows.set (n - 1) w }
      if windowBytes w = bs then ⟨t, .ok, []⟩ else ⟨t, .clamped, windowBytes w⟩
    else refuse s .badValue
  | none => refuse s .badValue

/-- A clamped W0 is stored; the request's other fields are ignored (R63). -/
def storeProfile (a : Axis) (bs : List Byte) (s : State) : Result :=
  match profileOf bs with
  | some p =>
    let t := s.modAxis a fun ax => { ax with w0 := p }
    if wordOf p.speed ++ [byteOf p.ramp] = (bs.drop 6).take 3 then ⟨t, .ok, []⟩ else ⟨t, .clamped, profileBytes p⟩
  | none => refuse s .badValue

/-- The effect of a SETWIN (R63). -/
def setwinRequest (st : Station) (payload : List Byte) (s : State) : Result :=
  match payload with
  | ax :: n :: bs =>
    if s.holds st then
      match axisOfCode ax.toNat with
      | none => refuse s .badValue
      | some a =>
        if (s.axis a).phase.atRest = false then refuse s .wrongState
        else if n.toNat = 0 then storeProfile a bs s
        else if n.toNat ≤ 6 then storeWindow a n.toNat bs s
        else refuse s .badValue
    else refuse s .noAuthority
  | _ => refuse s .badLength

/-! ## SETSTEP (R26, R27) -/

/-- The action fits the member (R26). -/
def actionFits : Member → Action → Bool
  | .axis _, .moveTo => true
  | .lock _, .engage => true
  | .lock _, .withdraw => true
  | _, _ => false

/-- A step record read from its eight bytes, clamped as R27 states, and whether a clamp changed it; `none` where it
is refused (R26, R27). -/
def State.stepOf (s : State) (bs : List Byte) : Option (Step × Bool) :=
  match bs with
  | [m, act, t0, t1, o0, o1, dw, wn] =>
    match memberOfCode m.toNat, actionOfCode act.toNat, flagOfByte wn with
    | some mem, some a, some next =>
      if actionFits mem a then
        let asked := wordVal t0 t1
        let target : Option Nat :=
          match mem with
          | .axis ax => some ((s.axis ax).hold asked)
          | .lock _ => none
        let timeout := clamp 1 1200 (wordVal o0 o1)
        let dwell : Option Nat := if dw = noneByte then none else some (min 100 dw.toNat)
        some (⟨mem, a, target, timeout, dwell, next⟩,
          target.any (· != asked) || timeout != wordVal o0 o1 || dwell.any (· != dw.toNat))
      else none
    | _, _, _ => none
  | _ => none

/-- A SETSTEP that has passed its checks is written; step and length take effect together (R27). -/
def storeStep (p : PlanId) (step : Option (Nat × Step)) (len : Option Nat) (s : State) : State :=
  s.modRne fun r =>
    let plan := r.plan p
    let plan : Plan :=
      match step with
      | some (n, st) => { plan with steps := plan.steps.set (n - 1) st }
      | none => plan
    r.setPlan p
      (match len with
       | some l => { plan with len := l }
       | none => plan)

/-- The step that a SETSTEP carries: none, a position with a record, or a refusal (R26). -/
def State.stepField (s : State) (present : Bool) (num : Byte) (bs : List Byte) :
    Option (Option (Nat × Step) × Bool) :=
  if present then
    if 1 ≤ num.toNat ∧ num.toNat ≤ 12 then (s.stepOf bs).map fun r => (some (num.toNat, r.1), r.2) else none
  else some (none, false)

/-- The length that a SETSTEP carries, or a refusal (R26). -/
def lenField (present : Bool) (len : Byte) : Option (Option Nat) :=
  if present then if len.toNat ≤ 12 then some (some len.toNat) else none else some none

/-- The reply of a written SETSTEP (R27). -/
def stepResult (s : State) (step : Option (Nat × Step)) (clamped : Bool) : Result :=
  match step, clamped with
  | some r, true => ⟨s, .clamped, stepBytes r.2⟩
  | _, _ => ⟨s, .ok, []⟩

/-- The effect of a SETSTEP (R26, R27). -/
def setstepRequest (st : Station) (payload : List Byte) (s : State) : Result :=
  match payload with
  | plan :: flags :: num :: len :: bs =>
    if !s.holds st then refuse s .noAuthority
    else if s.rne.engine ≠ .idle ∧ s.rne.engine ≠ .tripped then refuse s .wrongState
    else if flags.toNat = 0 ∨ 3 < flags.toNat then refuse s .badValue
    else
      match storedPlanOfCode plan.toNat, s.stepField (flags.getLsbD 0) num bs, lenField (flags.getLsbD 1) len with
      | some p, some (step, clamped), some l => stepResult (storeStep p step l s) step clamped
      | _, _, _ => refuse s .badValue
  | _ => refuse s .badLength

/-! ## SETMASK (R187) -/

/-- The effect of a SETMASK on its own link (R187). -/
def setmaskRequest (st : Station) (lo hi : Byte) (s : State) : Result :=
  let m := BitVec.ofNat 16 (wordVal lo hi)
  if 0x3FF < m.toNat then refuse s .badValue
  else
    ⟨s.modLink st fun l => { l with mask := m, reports := l.reports.filter fun sub => m.getLsbD (subjectCode sub) }, .ok,
      wordOf m.toNat⟩

/-! ## READ (R186) -/

/-- A window entry as READ gives it (R186). -/
def AxisState.readWindow (ax : AxisState) (n : Nat) : Option (List Byte) :=
  if n = 0 then some (profileBytes ax.w0) else (ax.windows[n - 1]?).map windowBytes

/-- The step positions that READ takes: 1 to 12, and 1 for J (R186). -/
def readsStep (p : PlanId) (n : Nat) : Bool :=
  decide (1 ≤ n) && if p = .j then decide (n = 1) else decide (n ≤ 12)

/-- The content of an item, `none` where the operands are refused (R186). -/
def State.item (s : State) (st : Station) (type a b : Nat) : Option (List Byte) :=
  match type with
  | 0 => if b = 0 then (subjectOfCode a).map s.report else none
  | 1 => if b = 0 then (paramOfId a).map fun p => wordOf (s.param p) else none
  | 2 => (axisOfCode a).bind fun ax => (s.axis ax).readWindow b
  | 3 => (planOfCode a).bind fun p => if readsStep p b then some (stepBytes ((s.rne.plan p).step b)) else none
  | 4 => if b = 0 then (planOfCode a).map fun p => [byteOf (s.rne.plan p).len] else none
  | 5 => if a = 0 ∧ b = 0 then some (wordOf (s.link st).mask.toNat) else none
  | _ => none

/-- The effect of a READ: none but its reply, sampled now (R186). -/
def readRequest (st : Station) (type a b : Byte) (s : State) : Result :=
  match s.item st type.toNat a.toNat b.toNat with
  | some bs => ⟨s, .ok, [type, a, b] ++ bs⟩
  | none => refuse s .badValue

end Sys2Proof.Machine
end

