-- ==== Sys2Proof/Machine/Cascade.lean ====
section
/-! DEFINITION. How a command ends: the messages it sent are delivered depth first, each to its handler, until none
is left (log 2, log 3). -/

namespace Sys2Proof.Machine

/-- The handler of each message. -/
def handle (m : Msg) (s : State) : State :=
  match m with
  | .reeval => reevaluate s
  | .topupGo g => topupGo g s
  | .handTest => handTest s
  | .refreshBlocked => refreshBlocked s
  | .groupDone => groupDone s
  | .abortCheck => abortCheck s
  | .stepTimeout m => stepTimeout m s
  | .dwellDone m => dwellDone m s
  | .completion m => completion m s
  | .stepEnded a => stepEnded a s
  | .firstSample a => firstSample a s
  | .lapseEvent => lapseEvent s
  | .permitNotice => permitNotice s
  | .axisStop a => axisStop a s
  | .axisResume a => axisResume a s
  | .axisEnd a => axisEnd a s
  | .request c => hsaRequest c s
  | .release c => hsaRelease c s
  | .allocate => hsaAllocate s
  | .unitReady c => unitReady c s
  | .tripReport c m d => tripReport c m d s
  | .tripRne => tripRne s
  | .tripMembers => tripMembers s
  | .tripHsa => hsaTrip s
  | .estopNotice => hsaEstop s
  | .busyEnter g => busyEnter g s
  | .busyExit g => busyExit g s
  | .holderChanged => holderChanged s
  | .topupTrigger g src => topupTrigger g src s
  | .holdDone g => holdDone g s
  | .reply st f => enqueueReply st f s
  | .replyRoles st kind tag code => enqueueRoles st kind tag code s

/-- The message at the front is delivered; what its handler sends goes before the rest. -/
def deliver (m : Msg) (rest : List Msg) (s : State) : State :=
  let t := handle m { s with agenda := [] }
  { t with agenda := t.agenda ++ rest }

/-- Messages are delivered until none is left, at most `n` of them. -/
def drain : Nat → State → State
  | 0, s => s
  | n + 1, s =>
    match s.agenda with
    | [] => s
    | m :: rest => drain n (deliver m rest s)

/-- A command ends when its messages have been delivered; what the bound would leave is dropped (log 3). -/
def settle (s : State) : State := { drain Config.cascadeBound s with agenda := [] }

end Sys2Proof.Machine
end

