-- ==== Sys2Proof/Machine/Requests.lean ====
section
/-! DEFINITION. The station requests: the arrival of a well-formed frame (R181 to R185), the effect of each request
kind, the frame assembler, and the meaning of each row of the table that arrives at a link. -/

namespace Sys2Proof.Machine

/-! ## Effects of the request kinds -/

/-- A request's result with its reply sent last (R183). -/
def Result.reply (r : Result) (st : Station) (kind tag : Byte) : State := answer st kind tag r.code r.data r.state

/-- CLAIM (R142). -/
def claimBody (st : Station) (tag : Byte) (s : State) : State :=
  let r := claim st s
  r.1.emit [.replyRoles st 0x01 tag r.2]

/-- YIELD (R143). -/
def yieldBody (st : Station) (tag : Byte) (s : State) : State := (letGo st s).emit [.replyRoles st 0x02 tag .ok]

/-- START (R29). -/
def startBody (st : Station) (tag code : Byte) (s : State) : State :=
  match s.startCheck st code with
  | .error c => answer st 0x03 tag c [] s
  | .ok p => answer st 0x03 tag .ok [] (startRun p st s)

/-- PAUSE (R41). -/
def pauseBody (st : Station) (tag : Byte) (s : State) : State :=
  if s.rne.active then answer st 0x04 tag .ok [] (setReasons (fun r => { r with operator := true }) s)
  else answer st 0x04 tag .wrongState [] s

/-- CONTINUE (R42). -/
def continueBody (st : Station) (tag : Byte) (s : State) : State :=
  if !s.holds st then answer st 0x05 tag .noAuthority [] s
  else if s.rne.active then answer st 0x05 tag .ok [] (setReasons (fun r => { r with operator := false }) s)
  else answer st 0x05 tag .wrongState [] s

/-- ABORT (R46). -/
def abortBody (st : Station) (tag : Byte) (s : State) : State :=
  if s.rne.active then answer st 0x06 tag .ok [] (enterAborting s)
  else if s.rne.engine = .aborting then answer st 0x06 tag .ok [] s
  else answer st 0x06 tag .wrongState [] s

/-- The kind data of a JOG that reached its guard: the target, and the failing condition (section 11.7). -/
def jogData (st : Step) (r : Option Reason) : List Byte := wordOr st.target ++ [byteOf (reasonCode r)]

/-- The outcome of an accepted JOG (R52). -/
def jogCode (clamped : Bool) : ReplyCode := if clamped then .clamped else .ok

/-- JOG (R52). -/
def jogBody (st : Station) (tag code : Byte) (dist : Int) (s : State) : State :=
  match s.jogCheck st code dist with
  | .error c => answer st 0x08 tag c [] s
  | .ok (step, clamped) =>
    let s := memberEvent (closeForStep step.member) s
    if s.satisfied step then answer st 0x08 tag (jogCode clamped) (jogData step none) (jogSatisfied step st s)
    else
      match s.jogGuard step dist with
      | some r => answer st 0x08 tag .interlocked (jogData step (some r)) s
      | none => answer st 0x08 tag (jogCode clamped) (jogData step none) (jogStart step st s)

/-- The tests of TOPUP, the first that fails (R117). -/
def State.topupCheck (s : State) (st : Station) (code : Byte) : Except ReplyCode Group :=
  if !s.holds st then .error .noAuthority
  else
    match groupOfCode code.toNat with
    | none => .error .badValue
    | some g =>
      if s.tru.record.isSome || s.rne.stepFor (.lock g) || (s.lock g).gstate != .engaged then .error .wrongState
      else .ok g

/-- TOPUP (R117). -/
def topupBody (st : Station) (tag code : Byte) (s : State) : State :=
  match s.topupCheck st code with
  | .error c => answer st 0x09 tag c [] s
  | .ok g => answer st 0x09 tag .ok [] (topupTrigger g .station s)

/-- The ship-speed record after an accepted SHIP (R13). -/
def Ilk.ship (i : Ilk) (v : Nat) : Ilk :=
  { i with known := true, stale := false, speed := v, expiry := some (i.speedStale * 1000) }

/-- SHIP (R12, R13). -/
def shipBody (st : Station) (tag lo hi : Byte) (s : State) : State :=
  match st with
  | .deck => answer st 0x0A tag .wrongStation [] s
  | .bridge =>
    let v := min 400 (wordVal lo hi)
    let t := { s with ilk := s.ilk.ship v }
    let t := (markIf (!s.ilk.known || s.ilk.stale) .run t).emit [.reeval]
    (storedResult t (wordVal lo hi) v).reply st 0x0A tag

/-- ACKNOWLEDGE (R162 to R164). -/
def ackBody (st : Station) (tag : Byte) (s : State) : State :=
  if !s.mayAck st then answer st 0x10 tag .noAuthority [] s
  else if s.tru.record.isNone then answer st 0x10 tag .ok [] (hsaRecover s)
  else if s.stillPresent.isEmpty then answer st 0x10 tag .ok [] (acceptAck s)
  else answer st 0x10 tag .stillActive s.stillActiveData s

/-- The station may restart: the holder, or BRIDGE when there is none (R165). -/
def State.mayRestart (s : State) (st : Station) : Bool := s.holds st || (s.cau.holder.isNone && st == .bridge)

/-- RESTART (R165, R166): the reply is the first record in the emptied queue, and the marks follow it. -/
def restartBody (st : Station) (tag : Byte) (s : State) : State :=
  if !s.mayRestart st then answer st 0x11 tag .noAuthority [] s
  else if s.rne.engine ≠ .idle ∧ s.rne.engine ≠ .tripped then answer st 0x11 tag .wrongState [] s
  else markAll (enqueueReply st (replyFrame 0x11 tag .ok []) (warmReset (outputsOff s)))

/-! ## Arrival (R182, R183) -/

/-- The payload length of a request kind, `none` for a KIND that is no request (section 11.7). -/
def lengthOf (kind : Byte) : Option Nat :=
  match kind.toNat with
  | 0x01 => some 0
  | 0x02 => some 0
  | 0x03 => some 1
  | 0x04 => some 0
  | 0x05 => some 0
  | 0x06 => some 0
  | 0x07 => some 0
  | 0x08 => some 3
  | 0x09 => some 1
  | 0x0A => some 2
  | 0x0B => some 3
  | 0x0C => some 13
  | 0x0D => some 12
  | 0x0E => some 2
  | 0x0F => some 3
  | 0x10 => some 0
  | 0x11 => some 0
  | _ => none

/-- The owner of a request takes it, its payload of the right length (R183 step 5). -/
def dispatch (st : Station) (kind tag : Byte) (payload : List Byte) (s : State) : State :=
  match kind.toNat, payload with
  | 0x01, _ => claimBody st tag s
  | 0x02, _ => yieldBody st tag s
  | 0x03, [p] => startBody st tag p s
  | 0x04, _ => pauseBody st tag s
  | 0x05, _ => continueBody st tag s
  | 0x06, _ => abortBody st tag s
  | 0x08, [m, lo, hi] => jogBody st tag m (signedVal lo hi) s
  | 0x09, [g] => topupBody st tag g s
  | 0x0A, [lo, hi] => shipBody st tag lo hi s
  | 0x0B, [id, lo, hi] => (setRequest st id lo hi s).reply st 0x0B tag
  | 0x0C, p => (setwinRequest st p s).reply st 0x0C tag
  | 0x0D, p => (setstepRequest st p s).reply st 0x0D tag
  | 0x0E, [lo, hi] => (setmaskRequest st lo hi s).reply st 0x0E tag
  | 0x0F, [t, a, b] => (readRequest st t a b s).reply st 0x0F tag
  | 0x10, _ => ackBody st tag s
  | 0x11, _ => restartBody st tag s
  | _, _ => s

/-- The completion of a well-formed frame at its link: the assembler returns to HUNTING, the age restarts from 0, and
a lost link is restored (R181, R182). -/
def frameDone (st : Station) (s : State) : State :=
  linkRestore st (s.modLink st fun l => { l with asm := none, gap := none, age := 0 })

/-- A request in a frame that has renewed its link, handled in the steps of R183. -/
def takeRequest (st : Station) (kind tag : Byte) (payload : List Byte) (s : State) : State :=
  if kind = 0x07 ∧ payload = [] then permitArrival st s
  else if 4 ≤ (s.link st).replies.length then s
  else
    match lengthOf kind with
    | none => s.emit [.reply st (unknownFrame kind tag)]
    | some n =>
      if payload.length = n then dispatch st kind tag payload s else answer st kind tag .badLength [] s

/-- The arrival of a well-formed frame (R182, R183). -/
def arrive (st : Station) (kind tag : Byte) (payload : List Byte) (s : State) : State :=
  takeRequest st kind tag payload (frameDone st s)

/-- A frame's arrival with all it brings. -/
def arrival (st : Station) (kind tag : Byte) (payload : List Byte) (s : State) : Host.Outcome State Fault Refusal :=
  .next (settle (arrive st kind tag payload s))

/-! ## The frame assembler (R181) -/

/-- The gap timer after a byte: a gap of more than 10 ms discards the partial frame, a byte exactly 10 ms after the
last continues it (R181, log 12). -/
def gapTime : Nat := 11

/-- The bytes after SYNC that make a complete frame with this LEN: LEN itself, LEN bytes and the CRC (R179, R181). -/
def frameSize (len : Byte) : Nat := len.toNat + 3

/-- The frame assembled from the bytes after SYNC, when it passes the CRC check (R179 to R181). -/
def frameOf (bs : List Byte) : Option (Byte × Byte × List Byte) :=
  match bs with
  | len :: kind :: tag :: rest =>
    let n := len.toNat - 2
    let crc := crc16 (len :: kind :: tag :: rest.take n)
    if rest.drop n = [byteOf (crc.toNat / 256), byteOf crc.toNat] then some (kind, tag, rest.take n) else none
  | _ => none

/-- The assembler of a link in this state; in ASSEMBLING the gap timer starts, also at the SYNC byte (R181, log 46). -/
def setAsm (st : Station) (asm : Option (List Byte)) (s : State) : State :=
  s.modLink st fun l => { l with asm := asm, gap := asm.map fun _ => gapTime }

/-- One byte received at a link (R181). -/
def rxByte (st : Station) (s : State) (b : Byte) : State :=
  match (s.link st).asm with
  | none => if b = 0xC3 then setAsm st (some []) s else s
  | some bs =>
    let all := bs ++ [b]
    let len := all.headD 0
    if len.toNat < 2 ∨ 64 < len.toNat then setAsm st none s
    else if all.length < frameSize len then setAsm st (some all) s
    else
      match frameOf all with
      | some (kind, tag, payload) => settle (arrive st kind tag payload s)
      | none => setAsm st none s

/-! ## The rows of the table that arrive at a link -/

/-- CLAIM (R142). -/
def execClaim (st : Station) (tag : Byte) (payload : List Byte) (s : State) : Host.Outcome State Fault Refusal :=
  arrival st 0x01 tag payload s

/-- YIELD (R143). -/
def execYieldAuthority (st : Station) (tag : Byte) (payload : List Byte) (s : State) :
    Host.Outcome State Fault Refusal := arrival st 0x02 tag payload s

/-- START (R29). -/
def execStartPlan (st : Station) (tag : Byte) (payload : List Byte) (s : State) : Host.Outcome State Fault Refusal :=
  arrival st 0x03 tag payload s

/-- PAUSE (R41). -/
def execPause (st : Station) (tag : Byte) (payload : List Byte) (s : State) : Host.Outcome State Fault Refusal :=
  arrival st 0x04 tag payload s

/-- CONTINUE (R42). -/
def execContinueRun (st : Station) (tag : Byte) (payload : List Byte) (s : State) : Host.Outcome State Fault Refusal :=
  arrival st 0x05 tag payload s

/-- ABORT (R46). -/
def execAbortRun (st : Station) (tag : Byte) (payload : List Byte) (s : State) : Host.Outcome State Fault Refusal :=
  arrival st 0x06 tag payload s

/-- PERMIT (R149). -/
def execPermit (st : Station) (tag : Byte) (payload : List Byte) (s : State) : Host.Outcome State Fault Refusal :=
  arrival st 0x07 tag payload s

/-- JOG (R52). -/
def execJog (st : Station) (tag : Byte) (payload : List Byte) (s : State) : Host.Outcome State Fault Refusal :=
  arrival st 0x08 tag payload s

/-- TOPUP (R117). -/
def execTopup (st : Station) (tag : Byte) (payload : List Byte) (s : State) : Host.Outcome State Fault Refusal :=
  arrival st 0x09 tag payload s

/-- SHIP (R13). -/
def execShip (st : Station) (tag : Byte) (payload : List Byte) (s : State) : Host.Outcome State Fault Refusal :=
  arrival st 0x0A tag payload s

/-- SET of a global parameter (R16). -/
def execSetGlobalParameter (st : Station) (tag : Byte) (payload : List Byte) (s : State) :
    Host.Outcome State Fault Refusal := arrival st 0x0B tag payload s

/-- SET of an axis parameter (R64). -/
def execSetAxisParameter (st : Station) (tag : Byte) (payload : List Byte) (s : State) :
    Host.Outcome State Fault Refusal := arrival st 0x0B tag payload s

/-- SET of a lock parameter (R121). -/
def execSetLockParameter (st : Station) (tag : Byte) (payload : List Byte) (s : State) :
    Host.Outcome State Fault Refusal := arrival st 0x0B tag payload s

/-- SET of a supply parameter (R137). -/
def execSetSupplyParameter (st : Station) (tag : Byte) (payload : List Byte) (s : State) :
    Host.Outcome State Fault Refusal := arrival st 0x0B tag payload s

/-- SET of an authority or permit parameter (R153). -/
def execSetPermitParameter (st : Station) (tag : Byte) (payload : List Byte) (s : State) :
    Host.Outcome State Fault Refusal := arrival st 0x0B tag payload s

/-- SET of a filter count (R174). -/
def execSetFilterCount (st : Station) (tag : Byte) (payload : List Byte) (s : State) :
    Host.Outcome State Fault Refusal := arrival st 0x0B tag payload s

/-- SETWIN (R63). -/
def execSetwin (st : Station) (tag : Byte) (payload : List Byte) (s : State) : Host.Outcome State Fault Refusal :=
  arrival st 0x0C tag payload s

/-- SETSTEP (R26, R27). -/
def execSetstep (st : Station) (tag : Byte) (payload : List Byte) (s : State) : Host.Outcome State Fault Refusal :=
  arrival st 0x0D tag payload s

/-- SETMASK (R187). -/
def execSetmask (st : Station) (tag : Byte) (payload : List Byte) (s : State) : Host.Outcome State Fault Refusal :=
  arrival st 0x0E tag payload s

/-- READ of a report subject (R186). -/
def execReadSubject (st : Station) (tag : Byte) (payload : List Byte) (s : State) : Host.Outcome State Fault Refusal :=
  arrival st 0x0F tag payload s

/-- READ of a parameter (R186). -/
def execReadParameter (st : Station) (tag : Byte) (payload : List Byte) (s : State) :
    Host.Outcome State Fault Refusal := arrival st 0x0F tag payload s

/-- READ of a window (R186). -/
def execReadWindow (st : Station) (tag : Byte) (payload : List Byte) (s : State) : Host.Outcome State Fault Refusal :=
  arrival st 0x0F tag payload s

/-- READ of a step record (R186). -/
def execReadStep (st : Station) (tag : Byte) (payload : List Byte) (s : State) : Host.Outcome State Fault Refusal :=
  arrival st 0x0F tag payload s

/-- READ of a plan length (R186). -/
def execReadPlanLength (st : Station) (tag : Byte) (payload : List Byte) (s : State) :
    Host.Outcome State Fault Refusal := arrival st 0x0F tag payload s

/-- READ of the report mask (R186). -/
def execReadMask (st : Station) (tag : Byte) (payload : List Byte) (s : State) : Host.Outcome State Fault Refusal :=
  arrival st 0x0F tag payload s

/-- ACKNOWLEDGE (R162 to R164). -/
def execAcknowledge (st : Station) (tag : Byte) (payload : List Byte) (s : State) : Host.Outcome State Fault Refusal :=
  arrival st 0x10 tag payload s

/-- RESTART (R165, R166). -/
def execRestart (st : Station) (tag : Byte) (payload : List Byte) (s : State) : Host.Outcome State Fault Refusal :=
  arrival st 0x11 tag payload s

/-- A frame of unknown KIND; a KIND that is a request is handled as that request (R183, R184, log 28). -/
def execUnknownKind (st : Station) (kind tag : Byte) (payload : List Byte) (s : State) :
    Host.Outcome State Fault Refusal := arrival st kind tag payload s

/-- Bytes received at a link that make up no well-formed frame (R181, log 29). -/
def execFrameDiscard (st : Station) (bytes : List Byte) (s : State) : Host.Outcome State Fault Refusal :=
  .next (settle (bytes.foldl (rxByte st) s))

end Sys2Proof.Machine
end

