-- ==== Sys2Proof/Machine/Events.lean ====
section
/-! DEFINITION. The events of the plant side, of timers and of clocks: the meaning of each row of the table that is
no station request. The expiry of a timer that is not running has no effect (log 6). -/

namespace Sys2Proof.Machine

/-- An event with all it brings. -/
def ends (s : State) : Host.Outcome State Fault Refusal := .next (settle s)

/-! ## Reset and links -/

/-- POWER_ON_RESET (R178 and the reset rule of every chapter). -/
def execPowerOnReset (s : State) : Host.Outcome State Fault Refusal := .next (powerOn s)

/-- FRAME_GAP_EXPIRY (R181). -/
def execFrameGapExpiry (st : Station) (s : State) : Host.Outcome State Fault Refusal :=
  .next (if (s.link st).gap.isSome then setAsm st none s else s)

/-- FRAME_SENT (R189). -/
def execFrameSent (st : Station) (s : State) : Host.Outcome State Fault Refusal :=
  .next (if (s.link st).tx.isSome then txDone st s else s)

/-- LINK_LOSS: the age stands above LINK_TIMEOUT, and an alive link is lost (R146, R182, log 32). -/
def execLinkLoss (st : Station) (s : State) : Host.Outcome State Fault Refusal :=
  ends (linkLost st (s.modLink st fun l => { l with age := max l.age (s.cau.linkTimeout * 1000 + 1) }))

/-! ## Filtered inputs -/

/-- An event of a pin that the group has (R105); another is no event of the part (log 25). -/
def pinEvent (g : Group) (pin : Nat) (f : State → State) (s : State) : Host.Outcome State Fault Refusal :=
  if 1 ≤ pin ∧ pin ≤ g.pinCount then ends (f s) else .fault .noSuchInput

/-- New filtered values of a pin's sensors at DIC and at the group (R105, R173). -/
def pinValues (g : Group) (pin : Nat) (engaged withdrawn : Option Bool) (s : State) : State :=
  pinSense g pin engaged withdrawn (s.modDic fun d =>
    (d.deliver? (.pinEngaged g pin) engaged).deliver? (.pinWithdrawn g pin) withdrawn)

/-- PIN_SENSOR_EDGE (R105). -/
def execPinSensorEdge (g : Group) (pin : Nat) (engaged withdrawn : Option Bool) (s : State) :
    Host.Outcome State Fault Refusal := pinEvent g pin (pinValues g pin engaged withdrawn) s

/-- PIN_SENSOR_FIRST_VALUE: the pin's state is set from it all the same (R5, R172). -/
def execPinSensorFirstValue (g : Group) (pin : Nat) (engaged withdrawn : Option Bool) (s : State) :
    Host.Outcome State Fault Refusal := pinEvent g pin (pinValues g pin engaged withdrawn) s

/-- New filtered values of an axis's end switches at DIC. -/
def switchValues (a : Axis) (closedSw openSw : Option Bool) (s : State) : State :=
  s.modDic fun d => (d.deliver? (.endClosed a) closedSw).deliver? (.endOpen a) openSw

/-- END_SWITCH_EDGE (R59). -/
def execEndSwitchEdge (a : Axis) (closedSw openSw : Option Bool) (s : State) : Host.Outcome State Fault Refusal :=
  ends (switchEdge a closedSw openSw (switchValues a closedSw openSw s))

/-- END_SWITCH_FIRST_VALUE: stored for the later tests (R172). -/
def execEndSwitchFirstValue (a : Axis) (closedSw openSw : Option Bool) (s : State) :
    Host.Outcome State Fault Refusal := .next (storeSwitches a closedSw openSw (switchValues a closedSw openSw s))

/-- A unit after a pressure-ok edge: STARTING passes to RUNNING on an edge to active, RUNNING starts or discards its
pressure-loss timer, other states ignore it (R124 to R126). -/
def PumpUnit.pressEdge (u : PumpUnit) (active : Bool) (runOn : Nat) : PumpUnit :=
  let v := { u with pressOk := some active }
  match v.state, active with
  | .starting, true => v.run runOn
  | .running, true => { v with lossT := none }
  | .running, false => { v with lossT := some 500 }
  | _, _ => v

/-- A pressure-ok edge at HSA: a unit that has reached RUNNING moves its holder on, and the list is served (R125,
R126, R130). -/
def pressureEdge (u : UnitId) (active : Bool) : State → State :=
  supplyEvent fun s =>
    let t := s.modUnit u fun r => r.pressEdge active s.hsa.runOn
    if (s.unit u).state = (t.unit u).state then t else serve (tellRunning u t)

/-- PRESSURE_OK_EDGE (R125, R126). -/
def execPressureOkEdge (u : UnitId) (active : Bool) (s : State) : Host.Outcome State Fault Refusal :=
  ends (pressureEdge u active (s.modDic fun d => d.deliver (.pressure u) active))

/-- A unit's motor-trip value at HSA: active takes the unit to FAILED, whose recorded kind is kept (R127). -/
def motorValue (u : UnitId) (active : Bool) : State → State :=
  supplyEvent fun s =>
    let t := s.modUnit u fun r => { r with motorTrip := some active }
    if active ∧ (t.unit u).state ≠ .failed then unitDown u .motorTrip t else t

/-- MOTOR_TRIP_EDGE (R127). -/
def execMotorTripEdge (u : UnitId) (active : Bool) (s : State) : Host.Outcome State Fault Refusal :=
  ends (motorValue u active (s.modDic fun d => d.deliver (.motorTrip u) active))

/-- The first value of a unit's input at HSA: an active motor-trip makes it FAILED, and the setting of the
inputs-ready flag is an allocation event (R124, R130), which marks SUPPLY with the value stored (R138, log 43); the
allocation is a message of its own with its own mark (log 59). -/
def unitFirst (u : UnitId) (input : UnitInput) (active : Bool) (s : State) : State :=
  State.emit
    (match input with
    | .pressureOk => supplyEvent (fun s => s.modUnit u fun r => { r with pressOk := some active }) s
    | .motorTrip => motorValue u active s) [.allocate]

/-- The line of a unit's input. -/
def unitLine (u : UnitId) (i : UnitInput) : Input :=
  match i with
  | .pressureOk => .pressure u
  | .motorTrip => .motorTrip u

/-- UNIT_INPUT_FIRST_VALUE (R124). -/
def execUnitInputFirstValue (u : UnitId) (input : UnitInput) (active : Bool) (s : State) :
    Host.Outcome State Fault Refusal :=
  ends (unitFirst u input active (s.modDic fun d => d.deliver (unitLine u input) active))

/-- LOOP_EDGE (R160, R161). -/
def execLoopEdge (st : Station) (isClosed : Bool) (s : State) : Host.Outcome State Fault Refusal :=
  ends (loopValue st isClosed (s.modDic fun d => d.deliver (.loop st) isClosed))

/-- LOOP_FIRST_VALUE (R167). -/
def execLoopFirstValue (st : Station) (isClosed : Bool) (s : State) : Host.Outcome State Fault Refusal :=
  ends (loopValue st isClosed (s.modDic fun d => d.deliver (.loop st) isClosed))

/-- KEY_EDGE (R141). -/
def execKeyEdge (isLocal : Bool) (s : State) : Host.Outcome State Fault Refusal :=
  ends (keyChange isLocal (s.modDic fun d => d.deliver .key isLocal))

/-- KEY_FIRST_VALUE (R141). -/
def execKeyFirstValue (isLocal : Bool) (s : State) : Host.Outcome State Fault Refusal :=
  ends (keyChange isLocal (s.modDic fun d => d.deliver .key isLocal))

/-! ## Periodic events -/

/-- PWM_PERIOD_START (R175). -/
def execPwmPeriodStart (s : State) : Host.Outcome State Fault Refusal := .next (pwmStart s)

/-- CONTROL_PERIOD_EXPIRY (R55). -/
def execControlPeriodExpiry (a : Axis) (port stbd : ChannelSample) (s : State) : Host.Outcome State Fault Refusal :=
  ends (controlPeriod a port stbd s)

/-- A stall sample may fall: the axis is sampled and its countdown has begun to run (R94, log 9). -/
def AxisState.sampleDue (ax : AxisState) : Bool :=
  ax.phase.sampled && ax.stallRef.isSome && ax.stallLeft.isSome && ax.stallLeft != some 25

/-- STALL_SAMPLE (R95). -/
def execStallSample (a : Axis) (s : State) : Host.Outcome State Fault Refusal :=
  ends (if (s.axis a).sampleDue then stallSample a s else s)

/-- BREAKAWAY_END (R97). -/
def execBreakawayEnd (a : Axis) (s : State) : Host.Outcome State Fault Refusal := .next (endBreakaway a s)

/-- STEP_CLOCK_EXPIRY (R30). -/
def execStepClockExpiry (s : State) : Host.Outcome State Fault Refusal := ends (stepClock s)

/-- STEP_TIMEOUT_EXPIRY (R38). -/
def execStepTimeoutExpiry (m : Member) (s : State) : Host.Outcome State Fault Refusal := ends (stepTimeout m s)

/-- DWELL_EXPIRY (R39). -/
def execDwellExpiry (m : Member) (s : State) : Host.Outcome State Fault Refusal := ends (dwellDone m s)

/-! ## Axis timers -/

/-- ANNOUNCE_EXPIRY (R68). -/
def execAnnounceExpiry (a : Axis) (s : State) : Host.Outcome State Fault Refusal :=
  ends
    (if (s.axis a).announce.isSome then
      let s := s.modAxis a fun ax => { ax with announce := none }
      if (s.axis a).phase = .announce then enterReversing a s else s
    else s)

/-- REVERSAL_EXPIRY (R69). -/
def execReversalExpiry (a : Axis) (s : State) : Host.Outcome State Fault Refusal :=
  ends
    (if (s.axis a).reversal.isSome then
      let s := s.modAxis a fun ax => { ax with reversal := none }
      if (s.axis a).phase = .reversing then enterMoving a s else s
    else s)

/-- SWITCH_WAIT_EXPIRY (R76). -/
def execSwitchWaitExpiry (a : Axis) (s : State) : Host.Outcome State Fault Refusal :=
  ends
    (if (s.axis a).switchWait.isSome then
      let s := s.modAxis a fun ax => { ax with switchWait := none }
      if (s.axis a).phase = .seeking then s.emit [.tripReport .endsw (some (.axis a)) .none] else s
    else s)

/-! ## Speed and permit -/

/-- The staleness timer expires (R14). -/
def speedStale (s : State) : State :=
  if s.ilk.expiry.isSome then
    (mark .run { s with ilk := { s.ilk with known := false, stale := true, expiry := none } }).emit [.reeval]
  else s

/-- SPEED_STALE_EXPIRY (R14). -/
def execSpeedStaleExpiry (s : State) : Host.Outcome State Fault Refusal := ends (speedStale s)

/-- PERMIT_EXPIRY (R151). -/
def execPermitExpiry (s : State) : Host.Outcome State Fault Refusal := ends (permitExpiry s)

/-! ## Lock group timers -/

/-- A timer of a pin runs. -/
def LockState.pinTimer (l : LockState) (pin : Nat) (f : Pin → Option Nat) : Bool :=
  match l.pin? pin with
  | some p => (f p).isSome
  | none => false

/-- CONFLICT_TIMER_EXPIRY (R106). -/
def execConflictTimerExpiry (g : Group) (pin : Nat) (s : State) : Host.Outcome State Fault Refusal :=
  pinEvent g pin (fun s => if (s.lock g).pinTimer pin (·.conflict) then conflictDone g pin s else s) s

/-- TRANSIT_LIMIT_EXPIRY (R107). -/
def execTransitLimitExpiry (g : Group) (pin : Nat) (s : State) : Host.Outcome State Fault Refusal :=
  pinEvent g pin (fun s => if (s.lock g).pinTimer pin (·.transit) then transitDone g pin s else s) s

/-- SETTLE_EXPIRY (R112). -/
def execSettleExpiry (g : Group) (s : State) : Host.Outcome State Fault Refusal :=
  ends
    (if (s.lock g).settleT.isSome then
      let s := s.modLock g fun l => { l with settleT := none }
      if (s.lock g).inPhase .settling then settleDone g s else s
    else s)

/-- HOLD_EXPIRY (R112). -/
def execHoldExpiry (g : Group) (s : State) : Host.Outcome State Fault Refusal :=
  ends (if (s.lock g).holdT.isSome then holdDone g (s.modLock g fun l => { l with holdT := none }) else s)

/-- PERIODIC_TOPUP_EXPIRY: the timer stops, and the expiry is a periodic trigger (R115). -/
def execPeriodicTopupExpiry (g : Group) (s : State) : Host.Outcome State Fault Refusal :=
  ends
    (if (s.lock g).periodic.isSome then topupTrigger g .periodic (s.modLock g fun l => { l with periodic := none })
    else s)

/-- TOPUP_TIMER_EXPIRY (R120). -/
def execTopupTimerExpiry (g : Group) (s : State) : Host.Outcome State Fault Refusal :=
  ends (if (s.lock g).topupT.isSome then topupTimerDone g (s.modLock g fun l => { l with topupT := none }) else s)

/-! ## Pump unit timers -/

/-- START_LIMIT_EXPIRY (R125). -/
def execStartLimitExpiry (u : UnitId) (s : State) : Host.Outcome State Fault Refusal :=
  ends (if (s.unit u).startT.isSome then unitFail u .startFail s else s)

/-- PRESSURE_LOSS_EXPIRY (R126). -/
def execPressureLossExpiry (u : UnitId) (s : State) : Host.Outcome State Fault Refusal :=
  ends (if (s.unit u).lossT.isSome then unitFail u .pressureLoss s else s)

/-- The run-on timer of a parked unit expires: STOPPED, an allocation event (R126, R130). -/
def runOnDone (u : UnitId) : State → State :=
  supplyEvent fun s => serve (s.modUnit u fun r => { r with state := .stopped, lossT := none, runOnT := none })

/-- RUN_ON_EXPIRY (R126). -/
def execRunOnExpiry (u : UnitId) (s : State) : Host.Outcome State Fault Refusal :=
  ends (if (s.unit u).runOnT.isSome then runOnDone u s else s)

end Sys2Proof.Machine
end

