-- ==== Sys2Proof/Machine/Time.lean ====
section
/-! DEFINITION. The passing of time, 1 ms at a time: what counts on whatever is commanded (spec/00 section 3.2,
R55, R171, R175, R182), and which events are due. The step takes it on an empty queue (log 4). -/

namespace Sys2Proof.Machine

/-- A running timer 1 ms on. -/
def down (t : Option Nat) : Option Nat := t.map (· - 1)

/-- A timer has run out. -/
def isOut (t : Option Nat) : Bool := t == some 0

/-! ## One millisecond -/

/-- A side zero time 1 ms on, kept up to a value above every DEAD_TIME (R69, log 13). -/
def zeroTick (t : Nat) (d : Drive) : Nat := if d.active = 0 then min longZero (t + 1) else t

/-- An axis controller 1 ms on. -/
def AxisState.tick (ax : AxisState) (d : Drives) : AxisState :=
  { ax with
    announce := down ax.announce
    reversal := down ax.reversal
    switchWait := down ax.switchWait
    control := ax.control - 1
    zero := ⟨zeroTick ax.zero.portOpen d.portOpen, zeroTick ax.zero.portClose d.portClose,
      zeroTick ax.zero.stbdOpen d.stbdOpen, zeroTick ax.zero.stbdClose d.stbdClose⟩ }

/-- A lock group controller 1 ms on. -/
def LockState.tick (l : LockState) : LockState :=
  { l with
    pins := l.pins.map fun p => { p with transit := down p.transit, conflict := down p.conflict }
    settleT := down l.settleT
    holdT := down l.holdT
    topupT := down l.topupT
    periodic := down l.periodic }

/-- A pump unit 1 ms on. -/
def PumpUnit.tick (u : PumpUnit) : PumpUnit :=
  { u with startT := down u.startT, lossT := down u.lossT, runOnT := down u.runOnT }

/-- A link interface 1 ms on: its age, its gap timer and the frame on its line (R181, R182, R189). -/
def Link.tick (l : Link) : Link :=
  { l with
    age := min 65535 (l.age + 1)
    gap := down l.gap
    tx := l.tx.map fun f => { f with left := f.left - 10000 } }

/-- The part 1 ms on. -/
def advance (s : State) : State :=
  { s with
    ilk := { s.ilk with expiry := down s.ilk.expiry }
    rne := { s.rne with clock := s.rne.clock - 1 }
    vis := s.vis.tick s.vod.vis
    rmp := s.rmp.tick s.vod.rmp
    inr := s.inr.tick s.vod.inr
    vlk := s.vlk.tick
    rlk := s.rlk.tick
    icl := s.icl.tick
    hsa := { s.hsa with u1 := s.hsa.u1.tick, u2 := s.hsa.u2.tick }
    pmt := { s.pmt with timer := down s.pmt.timer }
    dic := s.dic.tick
    vod := { s.vod with pwm := s.vod.pwm - 1 }
    bridge := s.bridge.tick
    deck := s.deck.tick }

/-! ## What is due -/

/-- An event is due when a condition holds. -/
def dueIf (c : Bool) (i : Instr) : List Instr := if c then [i] else []

/-- The due events of an axis. -/
def State.axisDue (s : State) (a : Axis) : List Instr :=
  let ax := s.axis a
  dueIf (isOut ax.announce) (.announceExpiry a) ++ dueIf (isOut ax.reversal) (.reversalExpiry a) ++
    dueIf (isOut ax.switchWait) (.switchWaitExpiry a) ++
    dueIf (ax.control == 0) (.controlPeriodExpiry a (s.channels a).port (s.channels a).stbd)

/-- The due events of a pin. -/
def pinDue (g : Group) (pin : Nat) (p : Pin) : List Instr :=
  dueIf (isOut p.conflict) (.conflictTimerExpiry g pin) ++ dueIf (isOut p.transit) (.transitLimitExpiry g pin)

/-- The due events of a lock group. -/
def State.lockDue (s : State) (g : Group) : List Instr :=
  let l := s.lock g
  ((List.range g.pinCount).flatMap fun i =>
    match l.pin? (i + 1) with
    | some p => pinDue g (i + 1) p
    | none => []) ++
    dueIf (isOut l.settleT) (.settleExpiry g) ++ dueIf (isOut l.holdT) (.holdExpiry g) ++
    dueIf (isOut l.topupT) (.topupTimerExpiry g) ++ dueIf (isOut l.periodic) (.periodicTopupExpiry g)

/-- The due events of a pump unit. -/
def State.unitDue (s : State) (u : UnitId) : List Instr :=
  dueIf (isOut (s.unit u).startT) (.startLimitExpiry u) ++ dueIf (isOut (s.unit u).lossT) (.pressureLossExpiry u) ++
    dueIf (isOut (s.unit u).runOnT) (.runOnExpiry u)

/-- The due events of a link. -/
def State.linkDue (s : State) (st : Station) : List Instr :=
  let l := s.link st
  dueIf (isOut l.gap) (.frameGapExpiry st) ++
    dueIf (match l.tx with
      | some f => f.left == 0
      | none => false) (.frameSent st) ++
    dueIf (s.cau.alive st && decide (s.cau.linkTimeout * 1000 < l.age)) (.linkLoss st)

/-- Every event that is due at this instant: the deliveries of the last input sample and what has run out. -/
def State.due (s : State) : List Instr :=
  s.dic.owed ++ dueIf (s.vod.pwm == 0) .pwmPeriodStart ++ dueIf (s.rne.clock == 0) .stepClockExpiry ++
    dueIf (isOut s.ilk.expiry) .speedStaleExpiry ++ dueIf (isOut s.pmt.timer) .permitExpiry ++
    allAxes.flatMap s.axisDue ++ allGroups.flatMap s.lockDue ++ s.unitDue .u1 ++ s.unitDue .u2 ++
    s.linkDue .bridge ++ s.linkDue .deck

/-- The one of several due events that is taken first, by the free order (log 5). -/
def chosen (l : List Instr) (k : Nat) : Option Instr := l[k % l.length]?

/-- A due event has been taken out of the deliveries, and the free order has been used where several were due. -/
def State.taken (s : State) (c : Instr) (several : Bool) : State :=
  { s with dic := { s.dic with owed := s.dic.owed.erase c }, fresh := if several then s.fresh + 1 else s.fresh }

/-- The event that is taken on an empty queue, where one is due, and the state it finds (log 4, log 5). -/
def State.nextEvent (s : State) : Option (Instr × State) :=
  (chosen s.due (if 1 < s.due.length then Config.freeOrder s.fresh else 0)).map fun c =>
    (c, s.taken c (decide (1 < s.due.length)))

end Sys2Proof.Machine
end

