-- ==== Sys2Proof/Machine/Dispatch.lean ====
section
/-! DEFINITION. The dispatch: one arm for each command, each a call of its meaning. -/

namespace Sys2Proof.Machine

/-- What a command does to everything but the queue. -/
def exec (i : Instr) (s : State) : Host.Outcome State Fault Refusal :=
  match i with
  | .powerOnReset => Sys2Proof.Machine.execPowerOnReset s
  | .claim st tag payload => Sys2Proof.Machine.execClaim st tag payload s
  | .yieldAuthority st tag payload => Sys2Proof.Machine.execYieldAuthority st tag payload s
  | .startPlan st tag payload => Sys2Proof.Machine.execStartPlan st tag payload s
  | .pause st tag payload => Sys2Proof.Machine.execPause st tag payload s
  | .continueRun st tag payload => Sys2Proof.Machine.execContinueRun st tag payload s
  | .abortRun st tag payload => Sys2Proof.Machine.execAbortRun st tag payload s
  | .permit st tag payload => Sys2Proof.Machine.execPermit st tag payload s
  | .jog st tag payload => Sys2Proof.Machine.execJog st tag payload s
  | .topup st tag payload => Sys2Proof.Machine.execTopup st tag payload s
  | .ship st tag payload => Sys2Proof.Machine.execShip st tag payload s
  | .setGlobalParameter st tag payload => Sys2Proof.Machine.execSetGlobalParameter st tag payload s
  | .setAxisParameter st tag payload => Sys2Proof.Machine.execSetAxisParameter st tag payload s
  | .setLockParameter st tag payload => Sys2Proof.Machine.execSetLockParameter st tag payload s
  | .setSupplyParameter st tag payload => Sys2Proof.Machine.execSetSupplyParameter st tag payload s
  | .setPermitParameter st tag payload => Sys2Proof.Machine.execSetPermitParameter st tag payload s
  | .setFilterCount st tag payload => Sys2Proof.Machine.execSetFilterCount st tag payload s
  | .setwin st tag payload => Sys2Proof.Machine.execSetwin st tag payload s
  | .setstep st tag payload => Sys2Proof.Machine.execSetstep st tag payload s
  | .setmask st tag payload => Sys2Proof.Machine.execSetmask st tag payload s
  | .readSubject st tag payload => Sys2Proof.Machine.execReadSubject st tag payload s
  | .readParameter st tag payload => Sys2Proof.Machine.execReadParameter st tag payload s
  | .readWindow st tag payload => Sys2Proof.Machine.execReadWindow st tag payload s
  | .readStep st tag payload => Sys2Proof.Machine.execReadStep st tag payload s
  | .readPlanLength st tag payload => Sys2Proof.Machine.execReadPlanLength st tag payload s
  | .readMask st tag payload => Sys2Proof.Machine.execReadMask st tag payload s
  | .acknowledge st tag payload => Sys2Proof.Machine.execAcknowledge st tag payload s
  | .restart st tag payload => Sys2Proof.Machine.execRestart st tag payload s
  | .unknownKind st kind tag payload => Sys2Proof.Machine.execUnknownKind st kind tag payload s
  | .frameDiscard st bytes => Sys2Proof.Machine.execFrameDiscard st bytes s
  | .frameGapExpiry st => Sys2Proof.Machine.execFrameGapExpiry st s
  | .frameSent st => Sys2Proof.Machine.execFrameSent st s
  | .linkLoss st => Sys2Proof.Machine.execLinkLoss st s
  | .pinSensorEdge g pin engaged withdrawn => Sys2Proof.Machine.execPinSensorEdge g pin engaged withdrawn s
  | .pinSensorFirstValue g pin engaged withdrawn => Sys2Proof.Machine.execPinSensorFirstValue g pin engaged withdrawn s
  | .endSwitchEdge a closedSw openSw => Sys2Proof.Machine.execEndSwitchEdge a closedSw openSw s
  | .pressureOkEdge u active => Sys2Proof.Machine.execPressureOkEdge u active s
  | .motorTripEdge u active => Sys2Proof.Machine.execMotorTripEdge u active s
  | .unitInputFirstValue u input active => Sys2Proof.Machine.execUnitInputFirstValue u input active s
  | .loopEdge st isClosed => Sys2Proof.Machine.execLoopEdge st isClosed s
  | .loopFirstValue st isClosed => Sys2Proof.Machine.execLoopFirstValue st isClosed s
  | .keyEdge isLocal => Sys2Proof.Machine.execKeyEdge isLocal s
  | .keyFirstValue isLocal => Sys2Proof.Machine.execKeyFirstValue isLocal s
  | .pwmPeriodStart => Sys2Proof.Machine.execPwmPeriodStart s
  | .controlPeriodExpiry a port stbd => Sys2Proof.Machine.execControlPeriodExpiry a port stbd s
  | .stallSample a => Sys2Proof.Machine.execStallSample a s
  | .breakawayEnd a => Sys2Proof.Machine.execBreakawayEnd a s
  | .stepClockExpiry => Sys2Proof.Machine.execStepClockExpiry s
  | .stepTimeoutExpiry m => Sys2Proof.Machine.execStepTimeoutExpiry m s
  | .dwellExpiry m => Sys2Proof.Machine.execDwellExpiry m s
  | .announceExpiry a => Sys2Proof.Machine.execAnnounceExpiry a s
  | .reversalExpiry a => Sys2Proof.Machine.execReversalExpiry a s
  | .switchWaitExpiry a => Sys2Proof.Machine.execSwitchWaitExpiry a s
  | .speedStaleExpiry => Sys2Proof.Machine.execSpeedStaleExpiry s
  | .permitExpiry => Sys2Proof.Machine.execPermitExpiry s
  | .conflictTimerExpiry g pin => Sys2Proof.Machine.execConflictTimerExpiry g pin s
  | .transitLimitExpiry g pin => Sys2Proof.Machine.execTransitLimitExpiry g pin s
  | .settleExpiry g => Sys2Proof.Machine.execSettleExpiry g s
  | .holdExpiry g => Sys2Proof.Machine.execHoldExpiry g s
  | .periodicTopupExpiry g => Sys2Proof.Machine.execPeriodicTopupExpiry g s
  | .topupTimerExpiry g => Sys2Proof.Machine.execTopupTimerExpiry g s
  | .startLimitExpiry u => Sys2Proof.Machine.execStartLimitExpiry u s
  | .pressureLossExpiry u => Sys2Proof.Machine.execPressureLossExpiry u s
  | .runOnExpiry u => Sys2Proof.Machine.execRunOnExpiry u s
  | .endSwitchFirstValue a closedSw openSw => Sys2Proof.Machine.execEndSwitchFirstValue a closedSw openSw s

end Sys2Proof.Machine
end

