-- ==== Sys2Proof/Machine/Step.lean ====
section
/-! DEFINITION. One step of the part: the command at the front of the queue, or on an empty queue a due event or 1 ms
of time (log 4). -/

namespace Sys2Proof.Machine

/-- The step on an empty queue: the event that is due runs, and with none due 1 ms passes (log 4). -/
def idle (s : State) : Host.Outcome State Fault Refusal :=
  match s.nextEvent with
  | some (c, t) => exec c t
  | none => .next (advance s)

/-- One step. -/
def step (s : State) : Host.Outcome State Fault Refusal :=
  match s.pending with
  | c :: rest => exec c { s with pending := rest }
  | [] => idle s

/-- The state with the command that a word spells put at the front of the queue; unchanged where it spells none. -/
def State.withFetchWord (s : State) (nbits w : Nat) : State :=
  match Sys2Proof.decodeTableWord nbits w with
  | some c => { s with pending := c :: s.pending }
  | none => s

end Sys2Proof.Machine
end

