-- ==== Sys2Proof/Safety.lean ====
section
/-! DEFINITION. What the statements about the part are written with: the invariants that every step keeps, the views
of the state that a command leaves alone, and the parts of commands that several statements name. -/

namespace Sys2Proof.Machine

/-! ## Invariants -/

/-- Between commands no message is under way (log 2). -/
def State.agendaEmpty (s : State) : Prop := s.agenda = []

/-- The two outputs of one cylinder: never both on, neither above the 5000 µs of the PWM period, and a pair of
compares handed over together waits together (R69, R91, R175). -/
def cylinderOk (o c : Drive) : Prop :=
  (o.active = 0 ∨ c.active = 0) ∧ (o.pending = 0 ∨ c.pending = 0) ∧ o.flag = c.flag ∧
    o.active ≤ 5000 ∧ c.active ≤ 5000 ∧ o.pending ≤ 5000 ∧ c.pending ≤ 5000

/-- The four outputs of an axis are apart by cylinder. -/
def Drives.apart (d : Drives) : Prop := cylinderOk d.portOpen d.portClose ∧ cylinderOk d.stbdOpen d.stbdClose

/-- No cylinder is driven both ways (R69, R91). -/
def State.valvesApart (s : State) : Prop := ∀ a, (s.drives a).apart

/-- VOD is in the forced state exactly while a trip is latched, and in it the twelve proportional outputs stand at
zero with nothing pending (R159, R163, R176). -/
def State.tripHoldsOff (s : State) : Prop :=
  s.vod.forced = s.tru.record.isSome ∧ (s.vod.forced = true → ∀ a, s.drives a = zeroDrives)

/-- There is an elect only beside a holder, who is the other station, and a yielded flag only beside an elect (R140,
R142, R143). -/
def Cau.ok (c : Cau) : Prop :=
  (c.holder = none → c.elect = none) ∧ (c.elect = none → c.yielded = false) ∧
    ∀ e, c.elect = some e → c.holder ≠ some e

/-- A unit's timers and failure kind fit its state, and a FAILED unit has no holder (R124 to R127). -/
def PumpUnit.ok (u : PumpUnit) : Prop :=
  (u.startT.isSome ↔ u.state = .starting) ∧ (u.lossT.isSome → u.state = .running) ∧
    (u.runOnT.isSome → u.state = .running ∧ u.holder = none) ∧ (u.failure.isSome ↔ u.state = .failed) ∧
    (u.state = .failed → u.holder = none)

/-- Both pump units are in order, and the pending request list stands in rank order (R124 to R127, R129). -/
def State.supplyOk (s : State) : Prop :=
  s.hsa.u1.ok ∧ s.hsa.u2.ok ∧ s.hsa.wants.Pairwise fun v w => v.rank ≤ w.rank

/-- The watched-action list is in member order, with at most one entry for a member (R1, R17). -/
def watchOk (l : List WatchEntry) : Prop := l.Pairwise fun d e => memberIndex d.member < memberIndex e.member

/-- The pending report set names a subject at most once, and only subjects that the mask lets through (R187, R188). -/
def Link.reportsOk (l : Link) : Prop := l.reports.Nodup ∧ ∀ sub ∈ l.reports, l.unmasked sub = true

/-- The report sets of both links are in order. -/
def State.reportsOk (s : State) : Prop := s.bridge.reportsOk ∧ s.deck.reportsOk

/-! ## Views -/

/-- What the stations have stored in the part: parameters, window tables, plans P0 to P3 and report masks, the items a
RESTART keeps but for the zero times (R166). -/
structure Stored where
  ilk   : Nat × Nat × Nat
  plans : List Plan
  axes  : List (AxisParams × Profile × List Window)
  locks : List LockParams
  hsa   : Nat × Nat
  cau   : Nat
  pmt   : Nat × Bool
  dic   : FilterCounts
  masks : Word × Word
  deriving DecidableEq, Repr

/-- What an axis stores. -/
def AxisState.stored (ax : AxisState) : AxisParams × Profile × List Window := (ax.par, ax.w0, ax.windows)

/-- What the part stores. -/
def State.stored (s : State) : Stored :=
  { ilk := (s.ilk.speedLimit, s.ilk.speedStale, s.ilk.warnTime)
    plans := [s.rne.p0, s.rne.p1, s.rne.p2, s.rne.p3]
    axes := [s.vis.stored, s.rmp.stored, s.inr.stored]
    locks := [s.vlk.par, s.rlk.par, s.icl.par]
    hsa := (s.hsa.startLimit, s.hsa.runOn)
    cau := s.cau.linkTimeout
    pmt := (s.pmt.window, s.pmt.tripAction)
    dic := s.dic.counts
    masks := (s.bridge.mask, s.deck.mask) }

/-- An axis controller with all that the blocks' messages may change set to one fixed value. -/
def AxisState.steady (ax : AxisState) : AxisState :=
  { ax with
    member := .intermediate, phase := .idle, held := false, step := none, vc := 0, u := 0, breakaway := false,
    bkLeft := none, bkCount := 0, stallRef := none, stallLeft := none, announce := none, reversal := none, switchWait := none,
    zero := longZeros }

/-- A pin with what the messages may change set to one fixed value. -/
def Pin.steady (p : Pin) : Pin := { p with transit := none, stuck := false }

/-- A lock group controller with what the messages may change set to one fixed value. -/
def LockState.steady (l : LockState) : LockState :=
  { l with
    pins := l.pins.map Pin.steady, op := none, settleT := none, holdT := none, topupT := none, top := noTopUp,
    periodic := none, creep := false, gstate := .partly }

/-- The run engine with what the messages may change set to one fixed value. -/
def Rne.steady (r : Rne) : Rne :=
  { r with
    engine := .idle, groupFirst := 1, elapsed := none, inflight := [], lapse := false, operator := false,
    result := .none, outcomes := r.outcomes.map fun _ => .pending, blocked := none }

/-- A pump unit with what the messages may change set to one fixed value. -/
def PumpUnit.steady (u : PumpUnit) : PumpUnit :=
  { u with state := .stopped, holder := none, failure := none, startT := none, lossT := none, runOnT := none }

/-- CAU with what the messages may change set to one fixed value. -/
def Cau.steady (c : Cau) : Cau :=
  { c with
    holder := none, elect := none, yielded := false, busyVlk := false, busyRlk := false, busyIcl := false,
    deferred := false }

/-- A link with what the messages may change set to one fixed value. -/
def Link.steady (l : Link) : Link := { l with replies := [], reports := [], tx := none }

/-- The state with all that the blocks' messages may change set to one fixed value: two states with one steady view
agree on everything else, the input side and the stored items among it. -/
def State.steady (s : State) : State :=
  { s with
    ilk := { s.ilk with watch := [] }
    rne := s.rne.steady
    vis := s.vis.steady
    rmp := s.rmp.steady
    inr := s.inr.steady
    vlk := s.vlk.steady
    rlk := s.rlk.steady
    icl := s.icl.steady
    hsa := { u1 := s.hsa.u1.steady, u2 := s.hsa.u2.steady, wants := [], startLimit := s.hsa.startLimit,
             runOn := s.hsa.runOn }
    cau := s.cau.steady
    pmt := { s.pmt with live := false, timer := none, lapsed := false }
    tru := { s.tru with record := none, causes := [] }
    vod := { vodAtReset with pwm := s.vod.pwm }
    bridge := s.bridge.steady
    deck := s.deck.steady
    agenda := [] }

/-- The state but for its two links and the messages under way: what a command does beside what it reports. -/
def State.inner (s : State) : State :=
  { s with bridge := linkAtReset 0, deck := linkAtReset 0, agenda := [] }

/-! ## Commands -/

/-- The link can take a request: fewer than four replies wait (R183). -/
def State.hasRoom (s : State) (st : Station) : Prop := (s.link st).replies.length < 4

/-- The commands that store nothing and clear no trip: all but SET, SETWIN, SETSTEP, SETMASK, ACKNOWLEDGE and the two
resets, and but for raw bytes, which may end any frame. -/
def plainCommand : Instr → Bool
  | .powerOnReset => false
  | .setGlobalParameter _ _ _ => false
  | .setAxisParameter _ _ _ => false
  | .setLockParameter _ _ _ => false
  | .setSupplyParameter _ _ _ => false
  | .setPermitParameter _ _ _ => false
  | .setFilterCount _ _ _ => false
  | .setwin _ _ _ => false
  | .setstep _ _ _ => false
  | .setmask _ _ _ => false
  | .acknowledge _ _ _ => false
  | .restart _ _ _ => false
  | .frameDiscard _ _ => false
  | _ => true

/-- The frame that a station request carries: its link, KIND, TAG and payload (spec/11 section 11.7). -/
def requestOf : Instr → Option (Station × Byte × Byte × List Byte)
  | .claim st tag p => some (st, 0x01, tag, p)
  | .yieldAuthority st tag p => some (st, 0x02, tag, p)
  | .startPlan st tag p => some (st, 0x03, tag, p)
  | .pause st tag p => some (st, 0x04, tag, p)
  | .continueRun st tag p => some (st, 0x05, tag, p)
  | .abortRun st tag p => some (st, 0x06, tag, p)
  | .permit st tag p => some (st, 0x07, tag, p)
  | .jog st tag p => some (st, 0x08, tag, p)
  | .topup st tag p => some (st, 0x09, tag, p)
  | .ship st tag p => some (st, 0x0A, tag, p)
  | .setGlobalParameter st tag p => some (st, 0x0B, tag, p)
  | .setAxisParameter st tag p => some (st, 0x0B, tag, p)
  | .setLockParameter st tag p => some (st, 0x0B, tag, p)
  | .setSupplyParameter st tag p => some (st, 0x0B, tag, p)
  | .setPermitParameter st tag p => some (st, 0x0B, tag, p)
  | .setFilterCount st tag p => some (st, 0x0B, tag, p)
  | .setwin st tag p => some (st, 0x0C, tag, p)
  | .setstep st tag p => some (st, 0x0D, tag, p)
  | .setmask st tag p => some (st, 0x0E, tag, p)
  | .readSubject st tag p => some (st, 0x0F, tag, p)
  | .readParameter st tag p => some (st, 0x0F, tag, p)
  | .readWindow st tag p => some (st, 0x0F, tag, p)
  | .readStep st tag p => some (st, 0x0F, tag, p)
  | .readPlanLength st tag p => some (st, 0x0F, tag, p)
  | .readMask st tag p => some (st, 0x0F, tag, p)
  | .acknowledge st tag p => some (st, 0x10, tag, p)
  | .restart st tag p => some (st, 0x11, tag, p)
  | .unknownKind st kind tag p => some (st, kind, tag, p)
  | _ => none

/-- A reply with this outcome and data enqueued at a link (R183, R184). -/
def replied (st : Station) (kind tag : Byte) (code : ReplyCode) (data : List Byte) (s : State) : State :=
  enqueueReply st (replyFrame kind tag code data) s

/-- The reply to a SET: OK, or CLAMPED with the stored value where it differs from the value asked (R185). -/
def setReplied (st : Station) (tag : Byte) (asked stored : Nat) (s : State) : State :=
  replied st 0x0B tag (if asked = stored then .ok else .clamped) (if asked = stored then [] else wordOf stored) s

/-- A trip is latched with this cause, member and detail, and the twelve proportional outputs are off (R157, R159). -/
def State.latched (s : State) (c : Cause) (m : Option Member) (d : Detail) : Prop :=
  (∃ r, s.tru.record = some r ∧ r.cause = c ∧ r.member = m ∧ r.detail = d) ∧ s.vod.forced = true ∧
    ∀ a, s.drives a = zeroDrives

/-- The outputs of an axis with their pending compares adopted (R175). -/
def Drives.adopted (d : Drives) : Drives :=
  ⟨d.portOpen.adopt, d.portClose.adopt, d.stbdOpen.adopt, d.stbdClose.adopt⟩

/-- The zero times of an axis after its outputs go from `o` to `d` (R69). -/
def Sides.after (z : Sides) (o d : Drives) : Sides :=
  ⟨zeroTimeAfter z.portOpen o.portOpen d.portOpen, zeroTimeAfter z.portClose o.portClose d.portClose,
    zeroTimeAfter z.stbdOpen o.stbdOpen d.stbdOpen, zeroTimeAfter z.stbdClose o.stbdClose d.stbdClose⟩

/-- The member that a lock or top-up consumer works for, or an axis whose last unit is lost, is stopped by SUPPLY_LOST
when that unit fails (R134). -/
def State.needsUnit (s : State) (c : Consumer) : Bool :=
  match c with
  | .axisStep _ => s.hsa.held c == 1
  | _ => true

end Sys2Proof.Machine
end

