-- ==== Sys2Proof/Certificates/Slice0/Obligations.lean ====
section
/-! DEFINITION. The statements about the part, for the provers. In the statements about requests, `f` is the state in
which the request is handled: its frame has ended the assembly and renewed its link (R181, R182). -/

section Statements

open Sys2Proof Sys2Proof.Machine

/-! ## Reset, step, invariants -/

/-- What a power-on reset leaves (R12, R30, R78, R122, R124, R140, R148, R167, R170, R178, R191), the defaults of the
parameters (R16, R64, R121, R137, R153, R174) and the lengths of the plans (R23); and POWER_ON_RESET, which loads these
values: only the lines, the waiting commands and the model's own counter stay (log 31). The u of an axis is then 0 (log 54). -/
def Obligations.ResetValues : Prop :=
  (∀ s : State, ∃ t, exec .powerOnReset s = .next t ∧
    t = { State.reset with
      dic := { State.reset.dic with inputs := s.dic.inputs.map fun x => { x with filtered := none, run := 0 } },
      chVis := s.chVis, chRmp := s.chRmp, chInr := s.chInr, pending := s.pending, fresh := s.fresh }) ∧
  let s := State.reset
  (s.ilk.known = false ∧ s.ilk.speed = 0 ∧ s.ilk.stale = false ∧ s.ilk.expiry = none ∧ s.ilk.watch = []) ∧
    (s.rne.engine = .idle ∧ s.rne.planId = none ∧ s.rne.startedBy = none ∧ s.rne.inflight = [] ∧
      s.rne.result = .none ∧ s.rne.lapse = false ∧ s.rne.operator = false ∧ s.rne.elapsed = none ∧
      s.rne.blocked = none ∧ s.rne.p0.len = 6 ∧ s.rne.p1.len = 6 ∧ s.rne.p2.len = 0 ∧ s.rne.p3.len = 0) ∧
    (∀ a, (s.axis a).phase = .idle ∧ (s.axis a).member = .intermediate ∧ (s.axis a).pos = none ∧
      (s.axis a).step = none ∧ (s.axis a).held = false ∧ (s.axis a).vc = 0 ∧ (s.axis a).u = 0 ∧ (s.axis a).posFault = none ∧
      (s.axis a).switchLatched = false ∧ (s.axis a).breakaway = false ∧ (s.axis a).stallRef = none ∧
      s.drives a = zeroDrives ∧
      (s.axis a).par = {
        stroke := defaultStroke a, zeroP := 0, zeroS := 0, gainP := 1024, gainS := 1024, deadband := 5, creep := 40,
        approachGain := 8, skewGain := 16, skewLimit := 120, stopRamp := 100,
        deadTime := 150, stallMin := 10, breakaway := true, closedBand := 20, openBand := 20 }) ∧
    (∀ g, (s.lock g).gstate = .partly ∧ (s.lock g).op = none ∧ (s.lock g).top = ⟨.none, false, false, false, false⟩ ∧
      (s.lock g).pins = List.replicate g.pinCount ⟨none, none, .transit, none, false, none⟩ ∧
      (s.lock g).conflictPins = [] ∧ (s.lock g).creep = false ∧ (s.lock g).periodic = none ∧
      (s.lock g).par = ⟨200, 8, 2, 30, 3⟩) ∧
    (∀ u, (s.unit u).state = .stopped ∧ (s.unit u).holder = none ∧ (s.unit u).failure = none ∧
      (s.unit u).ready = false) ∧
    (s.hsa.wants = [] ∧ s.hsa.startLimit = 3 ∧ s.hsa.runOn = 60) ∧
    (s.cau.holder = none ∧ s.cau.elect = none ∧ s.cau.key = .unknown ∧ s.cau.busyEmpty = true ∧
      s.cau.linkTimeout = 3 ∧ s.pmt.live = false ∧ s.pmt.lapsed = false ∧ s.pmt.window = 500 ∧
      s.pmt.tripAction = false) ∧
    (s.tru.record = none ∧ s.tru.causes = [] ∧ s.tru.latch = false ∧ s.tru.loopBridge = .unknown ∧
      s.tru.loopDeck = .unknown ∧ s.vod.forced = false) ∧
    (s.dic.inputs.length = 45 ∧ (∀ x ∈ s.dic.inputs, x.filtered = none ∧ x.run = 0) ∧
      s.dic.counts = ⟨8, 8, 16, 4, 4, 16⟩) ∧
    (∀ st, (s.link st).asm = none ∧ (s.link st).age = 0 ∧ s.cau.alive st = true ∧ (s.link st).replies = [] ∧
      (s.link st).reports = [] ∧ (s.link st).mask = 0x03FF ∧ (s.link st).tx = none) ∧
    (s.ilk.speedLimit = 20 ∧ s.ilk.speedStale = 10 ∧ s.ilk.warnTime = 30)

/-- A step with a command at the front of the queue is that command on the state with the queue's rest. -/
def Obligations.StepTakesFront : Prop :=
  ∀ (c : Instr) (s : State), step { s with pending := c :: s.pending } = exec c s

/-- A step on an empty queue (log 4, log 5): the one event that is due, one of several, or one millisecond. A
millisecond takes 1 ms off every timer and clock that runs, adds 1 ms to each link age up to 65535 (R182) and to the
zero time of each output at zero up to the model's bound (R69, log 13), takes 1 ms of line time off each frame being
sent, samples the inputs, and changes nothing else. A sample (R171, R172) gives an input without a value its first value
at the first sample whose number has reached the count of its class; it clears the run counter of an input whose level
equals its value, and counts one that differs, whose value changes when the count is reached. Each new value is owed to
its owner, the two sensors of a pin and the two switches of an axis as one event (R173). -/
def Obligations.StepOnEmptyQueue : Prop :=
  (∀ s : State, s.pending = [] →
    (s.due = [] → step s = .next (advance s)) ∧
    (∀ c, s.due = [c] → step s = exec c (s.taken c false)) ∧
    (2 ≤ s.due.length → ∃ c ∈ s.due, step s = exec c (s.taken c true))) ∧
  (∀ (x : DicInput) (n k : Nat),
    (x.filtered = none → k < n → x.sample n k = x) ∧
    (x.filtered = none → n ≤ k → x.sample n k = { x with filtered := some x.level }) ∧
    ∀ v, x.filtered = some v →
      (x.level = v → x.sample n k = { x with run := 0 }) ∧
      (x.level ≠ v → x.run + 1 < n → x.sample n k = { x with run := x.run + 1 }) ∧
      (x.level ≠ v → n ≤ x.run + 1 → x.sample n k = { x with filtered := some x.level, run := 0 })) ∧
  (∀ d : Dic, d.tick.counts = d.counts ∧ d.tick.samples = min 16 (d.samples + 1) ∧
    d.tick.inputs = d.inputs.map (fun x => x.sample (d.counts.get x.input.cls) (min 16 (d.samples + 1))) ∧
    d.tick.owed = d.owed ++ deliveries d d.tick) ∧
  (∀ (d e : Dic) (c : Instr), c ∈ deliveries d e ↔
    (∃ g n, 1 ≤ n ∧ n ≤ g.pinCount ∧ c ∈ pinDelivery d e g n) ∨ (∃ a, c ∈ switchDelivery d e a) ∨
    (∃ u, c ∈ oneDelivery d e (.pressure u) (.pressureOkEdge u) (.unitInputFirstValue u .pressureOk)) ∨
    (∃ u, c ∈ oneDelivery d e (.motorTrip u) (.motorTripEdge u) (.unitInputFirstValue u .motorTrip)) ∨
    (∃ st, c ∈ oneDelivery d e (.loop st) (.loopEdge st) (.loopFirstValue st)) ∨
    c ∈ oneDelivery d e .key .keyEdge .keyFirstValue) ∧
  (∀ (d e : Dic),
    let new (i : Input) : Option Bool := if (d.find i).filtered = (e.find i).filtered then none else (e.find i).filtered
    let pair (i j : Input) (edge first : Option Bool → Option Bool → Instr) : List Instr :=
      if new i = none ∧ new j = none then []
      else if (if new i ≠ none then (d.find i).filtered = none else (d.find j).filtered = none) then
        [first (new i) (new j)]
      else [edge (new i) (new j)]
    (∀ g n, pinDelivery d e g n = pair (.pinEngaged g n) (.pinWithdrawn g n) (.pinSensorEdge g n) (.pinSensorFirstValue g n)) ∧
    (∀ a, switchDelivery d e a = pair (.endClosed a) (.endOpen a) (.endSwitchEdge a) (.endSwitchFirstValue a)) ∧
    ∀ i edge first, (new i = none → oneDelivery d e i edge first = []) ∧
      ∀ v, new i = some v →
        oneDelivery d e i edge first = [if (d.find i).filtered = none then first v else edge v]) ∧
  ∀ s : State,
    let less (t : Option Nat) : Option Nat := t.map fun n => n - 1
    let zero (z : Nat) (d : Drive) : Nat := if d.active = 0 then min longZero (z + 1) else z
    (∀ a, (advance s).axis a = { s.axis a with
      announce := less (s.axis a).announce
      reversal := less (s.axis a).reversal
      switchWait := less (s.axis a).switchWait
      control := (s.axis a).control - 1
      zero := ⟨zero (s.axis a).zero.portOpen (s.drives a).portOpen, zero (s.axis a).zero.portClose (s.drives a).portClose,
        zero (s.axis a).zero.stbdOpen (s.drives a).stbdOpen, zero (s.axis a).zero.stbdClose (s.drives a).stbdClose⟩ }) ∧
    (∀ g, (advance s).lock g = { s.lock g with
      pins := (s.lock g).pins.map fun p => { p with transit := less p.transit, conflict := less p.conflict }
      settleT := less (s.lock g).settleT
      holdT := less (s.lock g).holdT
      topupT := less (s.lock g).topupT
      periodic := less (s.lock g).periodic }) ∧
    (∀ w, (advance s).unit w = { s.unit w with
      startT := less (s.unit w).startT, lossT := less (s.unit w).lossT, runOnT := less (s.unit w).runOnT }) ∧
    (∀ q, (advance s).link q = { s.link q with
      age := min 65535 ((s.link q).age + 1)
      gap := less (s.link q).gap
      tx := (s.link q).tx.map fun f => { f with left := f.left - 10000 } }) ∧
    (advance s).ilk = { s.ilk with expiry := less s.ilk.expiry } ∧
    (advance s).rne = { s.rne with clock := s.rne.clock - 1 } ∧
    (advance s).pmt = { s.pmt with timer := less s.pmt.timer } ∧
    (advance s).vod = { s.vod with pwm := s.vod.pwm - 1 } ∧
    (advance s).dic = s.dic.tick ∧ (advance s).hsa.wants = s.hsa.wants ∧
    (advance s).hsa.startLimit = s.hsa.startLimit ∧ (advance s).hsa.runOn = s.hsa.runOn ∧ (advance s).cau = s.cau ∧
    (advance s).tru = s.tru ∧ (∀ a, (advance s).channels a = s.channels a) ∧ (advance s).agenda = s.agenda ∧
    (advance s).pending = s.pending ∧ (advance s).fresh = s.fresh

/-- No message stays under way when a step is over (log 2). -/
def Obligations.MessagesEndWithTheStep : Prop :=
  ∀ s t : State, s.agendaEmpty → step s = .next t → t.agendaEmpty

/-- Every step keeps the two outputs of each cylinder apart and within the PWM period (R69, R87, R91, R175). -/
def Obligations.ValvesApartKept : Prop :=
  ∀ s t : State, s.valvesApart → step s = .next t → t.valvesApart

/-- Every step keeps the outputs off and VOD forced while a trip is latched (R159, R163, R176): every proportional output
is then at zero and no lock solenoid is on (R177). -/
def Obligations.TripHoldsOffKept : Prop :=
  (∀ s t : State, s.tripHoldsOff → step s = .next t → t.tripHoldsOff) ∧
  (∀ s : State, s.tripHoldsOff → s.tru.record.isSome = true →
    (∀ a, s.drives a = zeroDrives) ∧ ∀ g, s.engageOn g = false ∧ s.withdrawOn g = false)

/-- Every step keeps the roles of the stations in order (R140, R142, R143, R145). -/
def Obligations.AuthorityKept : Prop :=
  ∀ s t : State, s.cau.ok → step s = .next t → t.cau.ok

/-- Every step keeps the pump unit records and the pending request list in order (R124 to R127, R129). -/
def Obligations.SupplyKept : Prop :=
  ∀ s t : State, s.supplyOk → step s = .next t → t.supplyOk

/-- Every step keeps the watched-action list in member order (R1, R17). -/
def Obligations.WatchedListKept : Prop :=
  ∀ s t : State, watchOk s.ilk.watch → step s = .next t → watchOk t.ilk.watch

/-- Every step keeps the pending report sets free of repeats and of masked subjects (R187, R188). -/
def Obligations.ReportSetsKept : Prop :=
  ∀ s t : State, s.reportsOk → step s = .next t → t.reportsOk

/-- The invariants hold after a power-on reset. -/
def Obligations.InvariantsAtReset : Prop :=
  State.reset.agendaEmpty ∧ State.reset.valvesApart ∧ State.reset.tripHoldsOff ∧ State.reset.cau.ok ∧
    State.reset.supplyOk ∧ watchOk State.reset.ilk.watch ∧ State.reset.reportsOk

/-- Parameters, window tables, plans P0 to P3 and report masks are changed by no command but SET, SETWIN, SETSTEP,
SETMASK and the reset pin (raw bytes may end any frame); ACKNOWLEDGE and RESTART keep them (R50, R166). -/
def Obligations.StoredItemsKept : Prop :=
  (∀ (c : Instr) (s t : State), plainCommand c = true → c.wellFormed = true → exec c s = .next t →
    t.stored = s.stored) ∧
  (∀ st tag p (s t : State), exec (.acknowledge st tag p) s = .next t → t.stored = s.stored) ∧
  (∀ st tag p (s t : State), exec (.restart st tag p) s = .next t → t.stored = s.stored)

/-! ## Requests -/

/-- Until an ACKNOWLEDGE or a reset, a latched trip record stays as it was written (R157, R158, R163), and a FAILED unit
stays FAILED with the kind recorded first (R127). -/
def Obligations.RecordsKept : Prop :=
  (∀ (c : Instr) (s t : State) (r : TripRecord), plainCommand c = true → c.wellFormed = true → exec c s = .next t →
    s.tru.record = some r → t.tru.record = some r) ∧
  (∀ (c : Instr) (s t : State) (u : UnitId), s.supplyOk → plainCommand c = true → c.wellFormed = true →
    exec c s = .next t → (s.unit u).state = .failed →
    (t.unit u).state = .failed ∧ (t.unit u).failure = (s.unit u).failure)

/-- The arrival of a request (R182 to R184): a full reply queue discards it, an unknown KIND and a payload of the wrong
length are answered so, and nothing else happens. -/
def Obligations.RequestGateAnswersItself : Prop :=
  ∀ (c : Instr) st kind tag p (s f : State), requestOf c = some (st, kind, tag, p) → s.agenda = [] →
    f = frameDone st s → (kind ≠ 0x07 ∨ p ≠ []) →
    (4 ≤ (f.link st).replies.length → exec c s = .next f) ∧
    ((f.link st).replies.length < 4 → lengthOf kind = none →
      exec c s = .next (enqueueReply st ⟨0xFF, tag, [0x20, kind]⟩ f)) ∧
    (∀ n, (f.link st).replies.length < 4 → lengthOf kind = some n → p.length ≠ n →
      exec c s = .next (replied st kind tag .badLength [] f))

/-- A READ is answered with the item asked and its content at the arrival, and changes nothing else (R186). -/
def Obligations.ReadAnswersItems : Prop :=
  ∀ st tag (b : Byte) (s f : State), s.agenda = [] → s.hasRoom st → f = frameDone st s →
    (∀ (a : Byte) sub, subjectOfCode a.toNat = some sub →
      exec (.readSubject st tag [0, a, 0]) s = .next (replied st 0x0F tag .ok ([0, a, 0] ++ f.report sub) f)) ∧
    (∀ (a : Byte) p, paramOfId a.toNat = some p →
      exec (.readParameter st tag [1, a, 0]) s = .next (replied st 0x0F tag .ok ([1, a, 0] ++ wordOf (f.param p)) f)) ∧
    (∀ (a : Byte) ax, axisOfCode a.toNat = some ax →
      exec (.readWindow st tag [2, a, 0]) s =
        .next (replied st 0x0F tag .ok ([2, a, 0] ++ profileBytes (f.axis ax).w0) f)) ∧
    (∀ (a : Byte) ax w, axisOfCode a.toNat = some ax → b ≠ 0 → (f.axis ax).windows[b.toNat - 1]? = some w →
      exec (.readWindow st tag [2, a, b]) s = .next (replied st 0x0F tag .ok ([2, a, b] ++ windowBytes w) f)) ∧
    (∀ (a : Byte) p, planOfCode a.toNat = some p → readsStep p b.toNat = true →
      exec (.readStep st tag [3, a, b]) s =
        .next (replied st 0x0F tag .ok ([3, a, b] ++ stepBytes ((f.rne.plan p).step b.toNat)) f)) ∧
    (∀ (a : Byte) p, planOfCode a.toNat = some p →
      exec (.readPlanLength st tag [4, a, 0]) s =
        .next (replied st 0x0F tag .ok [4, a, 0, byteOf (f.rne.plan p).len] f)) ∧
    exec (.readMask st tag [5, 0, 0]) s = .next (replied st 0x0F tag .ok ([5, 0, 0] ++ wordOf (f.link st).mask.toNat) f)

/-- A READ whose operands name no item is answered BAD_VALUE (R186), and so is a SET whose identifier names no parameter;
another SET from a station that is not the holder is refused with NO_AUTHORITY (R185). Nothing changes. -/
def Obligations.RequestRefusedUnchanged : Prop :=
  (∀ (c : Instr) st tag (type a b : Byte) (s f : State), requestOf c = some (st, 0x0F, tag, [type, a, b]) →
    s.agenda = [] → s.hasRoom st → f = frameDone st s →
    (5 < type.toNat ∨ (type.toNat = 0 ∧ (9 < a.toNat ∨ b ≠ 0)) ∨ (type.toNat = 1 ∧ (paramOfId a.toNat = none ∨ b ≠ 0)) ∨
      (type.toNat = 2 ∧ 2 < a.toNat) ∨
      (type.toNat = 2 ∧ 6 < b.toNat ∧ ∀ ax, axisOfCode a.toNat = some ax → (f.axis ax).windows.length = 6) ∨
      (type.toNat = 3 ∧ (4 < a.toNat ∨ b = 0 ∨ 12 < b.toNat ∨ (a.toNat = 4 ∧ b ≠ 1))) ∨
      (type.toNat = 4 ∧ (4 < a.toNat ∨ b ≠ 0)) ∨ (type.toNat = 5 ∧ (a ≠ 0 ∨ b ≠ 0))) →
    exec c s = .next (replied st 0x0F tag .badValue [] f)) ∧
  (∀ (c : Instr) st tag (id lo hi : Byte) (s f : State), requestOf c = some (st, 0x0B, tag, [id, lo, hi]) →
    s.agenda = [] → s.hasRoom st → f = frameDone st s →
    (paramOfId id.toNat = none → exec c s = .next (replied st 0x0B tag .badValue [] f)) ∧
    (∀ p, paramOfId id.toNat = some p → s.cau.holder ≠ some st →
      exec c s = .next (replied st 0x0B tag .noAuthority [] f)))

/-- The holder's SET of a supply or global parameter stores the value clamped to its range (R16, R137, R185): START_LIMIT 1
to 10, RUN_ON 0 to 600, SPEED_STALE 2 to 60, WARN_TIME 0 to 100, SPEED_LIMIT 0 to 100; a write of SPEED_LIMIT also
re-evaluates the watched-action list (R15). -/
def Obligations.SetStoresGlobalAndSupply : Prop :=
  (∀ st tag (lo hi : Byte) (s f : State) (v w : Nat), s.agenda = [] → s.hasRoom st → s.cau.holder = some st →
    f = frameDone st s → v = wordVal lo hi →
    (w = max 1 (min 10 v) →
      exec (.setSupplyParameter st tag [0x60, lo, hi]) s =
        .next (setReplied st tag v w { f with hsa := { f.hsa with startLimit := w } })) ∧
    (w = max 0 (min 600 v) →
      exec (.setSupplyParameter st tag [0x61, lo, hi]) s =
        .next (setReplied st tag v w { f with hsa := { f.hsa with runOn := w } }))) ∧
  (∀ st tag (lo hi : Byte) (s f : State) (v w : Nat), s.agenda = [] → s.hasRoom st → s.cau.holder = some st →
    f = frameDone st s → v = wordVal lo hi →
    (w = max 2 (min 60 v) →
      exec (.setGlobalParameter st tag [0x02, lo, hi]) s =
        .next (setReplied st tag v w { f with ilk := { f.ilk with speedStale := w } })) ∧
    (w = max 0 (min 100 v) →
      exec (.setGlobalParameter st tag [0x03, lo, hi]) s =
        .next (setReplied st tag v w { f with ilk := { f.ilk with warnTime := w } })) ∧
    (w = max 0 (min 100 v) →
      (∃ u, exec (.setGlobalParameter st tag [0x01, lo, hi]) s = .next (settle u) ∧
        u.inner = ({ f with ilk := { f.ilk with speedLimit := w } } : State).inner ∧
        u.agenda = [.reeval, .reply st (replyFrame 0x0B tag (if v = w then .ok else .clamped)
          (if v = w then [] else wordOf w))]) ∧
      ∃ t, exec (.setGlobalParameter st tag [0x01, lo, hi]) s = .next t ∧
        t.steady = ({ f with ilk := { f.ilk with speedLimit := w } } : State).steady))

/-- The holder's SET of a filter count stores 2, 4, 8 or 16, at any time, and delivers nothing (R174). -/
def Obligations.SetRoundsFilterCounts : Prop :=
  ∀ st tag (id lo hi : Byte) (s f : State) (c : FilterClass) (v w : Nat), s.agenda = [] → s.hasRoom st →
    s.cau.holder = some st → f = frameDone st s → paramOfId id.toNat = some (.filter c) → v = wordVal lo hi →
    ((v ≤ 2 ∧ w = 2) ∨ (3 ≤ v ∧ v ≤ 4 ∧ w = 4) ∨ (5 ≤ v ∧ v ≤ 8 ∧ w = 8) ∨ (9 ≤ v ∧ w = 16)) →
    exec (.setFilterCount st tag [id, lo, hi]) s =
      .next (setReplied st tag v w { f with dic := { f.dic with counts := f.dic.counts.set c w } })

/-- The holder's SET of an axis parameter: WRONG_STATE in any phase but IDLE and HALTED, BAD_VALUE for a BREAKAWAY that
is no code, and else the value clamped to its range is stored, a write of ZERO or GAIN suspending the jump test of its
cylinder (R57, R64, R65). -/
def Obligations.SetStoresAxisParameters : Prop :=
  ∀ st tag (id lo hi : Byte) (s f : State) (a : Axis) (i v w : Nat), s.agenda = [] → s.hasRoom st →
    s.cau.holder = some st → f = frameDone st s → paramOfId id.toNat = some (.axis a i) → v = wordVal lo hi →
    ((s.axis a).phase ≠ .idle ∧ (s.axis a).phase ≠ .halted →
      exec (.setAxisParameter st tag [id, lo, hi]) s = .next (replied st 0x0B tag .wrongState [] f)) ∧
    ((s.axis a).phase = .idle ∨ (s.axis a).phase = .halted →
      (i = 13 ∧ 1 < v →
        exec (.setAxisParameter st tag [id, lo, hi]) s = .next (replied st 0x0B tag .badValue [] f)) ∧
      (¬(i = 13 ∧ 1 < v) → w = max (axisParamRange i).1 (min (axisParamRange i).2 v) →
        exec (.setAxisParameter st tag [id, lo, hi]) s =
          .next (setReplied st tag v w (f.setAxis a { f.axis a with
            par := (f.axis a).par.set i w
            jumpSuspP := (f.axis a).jumpSuspP || i == 1 || i == 3
            jumpSuspS := (f.axis a).jumpSuspS || i == 2 || i == 4 }))))

/-- The holder's SET of a lock parameter: WRONG_STATE while the group has an operation in hand, and else the value
clamped to its range is stored; a write of TOPUP_INTERVAL also stops or restarts the periodic timer (R115, R121). -/
def Obligations.SetStoresLockParameters : Prop :=
  ∀ st tag (id lo hi : Byte) (s f : State) (g : Group) (i v w : Nat), s.agenda = [] → s.hasRoom st →
    s.cau.holder = some st → f = frameDone st s → paramOfId id.toNat = some (.lock g i) → v = wordVal lo hi →
    w = max (lockParamRange i).1 (min (lockParamRange i).2 v) →
    ((s.lock g).op ≠ none →
      exec (.setLockParameter st tag [id, lo, hi]) s = .next (replied st 0x0B tag .wrongState [] f)) ∧
    ((s.lock g).op = none → i ≠ 3 →
      exec (.setLockParameter st tag [id, lo, hi]) s =
        .next (setReplied st tag v w (f.setLock g { f.lock g with par := (f.lock g).par.set i w }))) ∧
    ((s.lock g).op = none → i = 3 →
      exec (.setLockParameter st tag [id, lo, hi]) s =
        .next (setReplied st tag v w (f.setLock g { f.lock g with
          par := { (f.lock g).par with topupInterval := w }
          periodic := if w = 0 then none
            else if (f.lock g).gstate = .engaged ∧ (f.lock g).top.status = .none then some (w * 60000)
            else (f.lock g).periodic })))

/-- The holder's SET of PERMIT_WINDOW, PERMIT_ACTION and LINK_TIMEOUT (R153, R182): a link whose age exceeds the new
LINK_TIMEOUT is lost at the write. -/
def Obligations.SetStoresPermitParameters : Prop :=
  ∀ st tag (lo hi : Byte) (s f : State) (v w : Nat), s.agenda = [] → s.hasRoom st → s.cau.holder = some st →
    f = frameDone st s → v = wordVal lo hi →
    (w = max 200 (min 2000 v) →
      exec (.setPermitParameter st tag [0x68, lo, hi]) s =
        .next (setReplied st tag v w { f with pmt := { f.pmt with window := w } })) ∧
    (v ≤ 1 →
      exec (.setPermitParameter st tag [0x69, lo, hi]) s =
        .next (setReplied st tag v v { f with pmt := { f.pmt with tripAction := v == 1 } })) ∧
    (1 < v → exec (.setPermitParameter st tag [0x69, lo, hi]) s = .next (replied st 0x0B tag .badValue [] f)) ∧
    (w = max 1 (min 30 v) →
      ∃ t, exec (.setPermitParameter st tag [0x6A, lo, hi]) s = .next t ∧ t.cau.linkTimeout = w ∧
        (∀ q, t.cau.alive q = (f.cau.alive q && decide ((f.link q).age ≤ w * 1000))) ∧
        t.rne.planId = f.rne.planId ∧ (∀ a, (t.axis a).steady = (f.axis a).steady) ∧
        ∀ g, (t.lock g).steady = (f.lock g).steady)

/-- SETWIN (R63): taken from the holder in IDLE and HALTED; the values are clamped, a window whose low is not below its
high is refused, and W0 takes speed and ramp only. That the window number 0 ignores the other fields is log 17; that a
valid byte is 0 or 1 is log 16. -/
def Obligations.SetwinStoresWindows : Prop :=
  ∀ st tag (ax n : Byte) (bs : List Byte) (s f : State), bs.length = 11 → s.agenda = [] → s.hasRoom st →
    f = frameDone st s →
    (s.cau.holder ≠ some st →
      exec (.setwin st tag (ax :: n :: bs)) s = .next (replied st 0x0C tag .noAuthority [] f)) ∧
    (s.cau.holder = some st → 2 < ax.toNat →
      exec (.setwin st tag (ax :: n :: bs)) s = .next (replied st 0x0C tag .badValue [] f)) ∧
    ∀ a, s.cau.holder = some st → axisOfCode ax.toNat = some a →
      ((s.axis a).phase ≠ .idle ∧ (s.axis a).phase ≠ .halted →
        exec (.setwin st tag (ax :: n :: bs)) s = .next (replied st 0x0C tag .wrongState [] f)) ∧
      ((s.axis a).phase = .idle ∨ (s.axis a).phase = .halted →
        (6 < n.toNat →
          exec (.setwin st tag (ax :: n :: bs)) s = .next (replied st 0x0C tag .badValue [] f)) ∧
        (∀ w, 1 ≤ n.toNat → n.toNat ≤ 6 → windowOf bs = some w → w.low < w.high →
          exec (.setwin st tag (ax :: n :: bs)) s =
            .next (replied st 0x0C tag (if windowBytes w = bs then .ok else .clamped)
              (if windowBytes w = bs then [] else windowBytes w)
              (f.setAxis a { f.axis a with windows := (f.axis a).windows.set (n.toNat - 1) w }))) ∧
        (∀ w, 1 ≤ n.toNat → n.toNat ≤ 6 → windowOf bs = some w → w.high ≤ w.low →
          exec (.setwin st tag (ax :: n :: bs)) s = .next (replied st 0x0C tag .badValue [] f)) ∧
        (∀ p, n.toNat = 0 → profileOf bs = some p →
          ∃ code data, exec (.setwin st tag (ax :: n :: bs)) s =
            .next (replied st 0x0C tag code data (f.setAxis a { f.axis a with w0 := p })) ∧
            ((code = .ok ∧ data = []) ∨ (code = .clamped ∧ data = profileBytes p))))

/-- SETSTEP (R26, R27): taken from the holder while the engine is IDLE or TRIPPED; the clamped step record and the
length take effect together, a step written above the length leaves the length. That a step record whose with_next byte
is neither 0 nor 1 is refused with BAD_VALUE, which R26 does not list among its checks, and that a target of FFFFh is
read as the number 65535 and held to STROKE, are the model's choices under R190 (log 16). -/
def Obligations.SetstepStoresSteps : Prop :=
  ∀ st tag (plan flags num len : Byte) (bs : List Byte) (s f : State), bs.length = 8 → s.agenda = [] → s.hasRoom st →
    f = frameDone st s →
    (s.cau.holder ≠ some st →
      exec (.setstep st tag (plan :: flags :: num :: len :: bs)) s = .next (replied st 0x0D tag .noAuthority [] f)) ∧
    (s.cau.holder = some st → s.rne.engine ≠ .idle → s.rne.engine ≠ .tripped →
      exec (.setstep st tag (plan :: flags :: num :: len :: bs)) s = .next (replied st 0x0D tag .wrongState [] f)) ∧
    (s.cau.holder = some st → (s.rne.engine = .idle ∨ s.rne.engine = .tripped) →
      (flags.toNat = 0 ∨ 3 < flags.toNat ∨ 3 < plan.toNat ∨ (flags.getLsbD 1 = true ∧ 12 < len.toNat) ∨
        (flags.getLsbD 0 = true ∧ (num.toNat = 0 ∨ 12 < num.toNat ∨ f.stepOf bs = none)) →
        exec (.setstep st tag (plan :: flags :: num :: len :: bs)) s = .next (replied st 0x0D tag .badValue [] f)) ∧
      (∀ p, storedPlanOfCode plan.toNat = some p →
        (flags = 2 → len.toNat ≤ 12 →
          exec (.setstep st tag (plan :: flags :: num :: len :: bs)) s = .next (replied st 0x0D tag .ok []
            { f with rne := f.rne.setPlan p { f.rne.plan p with len := len.toNat } })) ∧
        (∀ rec clamped, 1 ≤ num.toNat → num.toNat ≤ 12 → f.stepOf bs = some (rec, clamped) →
          (flags = 1 →
            exec (.setstep st tag (plan :: flags :: num :: len :: bs)) s =
              .next (replied st 0x0D tag (if clamped then .clamped else .ok) (if clamped then stepBytes rec else [])
                { f with
                  rne := f.rne.setPlan p
                    { f.rne.plan p with steps := (f.rne.plan p).steps.set (num.toNat - 1) rec } })) ∧
          (flags = 3 → len.toNat ≤ 12 →
            exec (.setstep st tag (plan :: flags :: num :: len :: bs)) s =
              .next (replied st 0x0D tag (if clamped then .clamped else .ok) (if clamped then stepBytes rec else [])
                { f with
                  rne := f.rne.setPlan p
                    ⟨len.toNat, (f.rne.plan p).steps.set (num.toNat - 1) rec⟩ })))))

/-- SETMASK (R187): a mask with a bit above 9 is refused; else it is stored at the link it arrived at, masked subjects
leave that link's pending set, none enters it, and nothing else changes. -/
def Obligations.SetmaskStoresTheMask : Prop :=
  ∀ st tag (lo hi : Byte) (s f : State) (m : Word), s.agenda = [] → s.hasRoom st → f = frameDone st s →
    m = BitVec.ofNat 16 (lo.toNat + 256 * hi.toNat) →
    (0x03FF < m.toNat → exec (.setmask st tag [lo, hi]) s = .next (replied st 0x0E tag .badValue [] f)) ∧
    (m.toNat ≤ 0x03FF →
      exec (.setmask st tag [lo, hi]) s =
        .next (replied st 0x0E tag .ok [lo, hi] (f.setLink st { f.link st with
          mask := m, reports := (f.link st).reports.filter fun sub => m.getLsbD (subjectCode sub) })))

/-- SHIP (R13): at the bridge link it is accepted whatever the holder and the engine; the speed, held to 400, is
stored, KNOWN and not stale, the staleness timer runs afresh, the guards are re-evaluated and the reply follows; at the
deck link it is refused and changes nothing. -/
def Obligations.ShipStoresTheSpeed : Prop :=
  ∀ tag (lo hi : Byte) (s : State) (v w : Nat), s.agenda = [] → v = wordVal lo hi → w = min 400 v →
    (∀ f, s.hasRoom .bridge → f = frameDone .bridge s →
      (∃ u, exec (.ship .bridge tag [lo, hi]) s = .next (settle u) ∧
        u.inner = ({ f with ilk := { f.ilk with
          known := true, stale := false, speed := w, expiry := some (f.ilk.speedStale * 1000) } } : State).inner ∧
        u.agenda = [.reeval, .reply .bridge (replyFrame 0x0A tag (if v = w then .ok else .clamped)
          (if v = w then [] else wordOf w))]) ∧
      ∃ t, exec (.ship .bridge tag [lo, hi]) s = .next t ∧ t.ilk.known = true ∧ t.ilk.stale = false ∧
        t.ilk.speed = w ∧ t.ilk.expiry = some (s.ilk.speedStale * 1000)) ∧
    (∀ f, s.hasRoom .deck → f = frameDone .deck s →
      exec (.ship .deck tag [lo, hi]) s = .next (replied .deck 0x0A tag .wrongStation [] f))

/-- CLAIM (R142, R144, R145, R150): the holder keeps the role; with no holder the station becomes holder; beside another
holder it becomes elect, and takes authority at once where a handover is due and no group is busy. A change of holder
leaves the permit LAPSED. -/
def Obligations.ClaimByRole : Prop :=
  ∀ st tag (s f : State), s.cau.ok → s.agenda = [] → s.hasRoom st → f = frameDone st s →
    (s.cau.holder = some st →
      exec (.claim st tag []) s = .next (enqueueRoles st 0x01 tag .ok f)) ∧
    (s.cau.holder = none →
      ∃ t, exec (.claim st tag []) s = .next t ∧ t.cau.holder = some st ∧ t.cau.elect = none ∧
        t.pmt.live = false ∧ t.steady = f.steady) ∧
    (∀ h c, s.cau.holder = some h → h ≠ st → c = { f.cau with elect := some st } →
      (c.due = true ∧ c.busyEmpty = true →
        ∃ t, exec (.claim st tag []) s = .next t ∧ t.cau.holder = some st ∧ t.cau.elect = none ∧
          t.pmt.live = false ∧ t.steady = f.steady) ∧
      (¬(c.due = true ∧ c.busyEmpty = true) →
        ∃ u, exec (.claim st tag []) s = .next (enqueueRoles st 0x01 tag .pending u) ∧
          u.inner = ({ f with cau := { c with deferred := c.due } } : State).inner))

/-- YIELD (R143, R145): a holder without an elect lets go, a holder with an elect hands over unless a group is busy, an
elect withdraws or brings the holder's own YIELD into force, and a station without a role changes nothing. -/
def Obligations.YieldByRole : Prop :=
  ∀ st tag (s f : State), s.cau.ok → s.agenda = [] → s.hasRoom st → f = frameDone st s →
    (s.cau.holder = some st → s.cau.elect = none →
      ∃ t, exec (.yieldAuthority st tag []) s = .next t ∧ t.cau.holder = none ∧ t.cau.elect = none ∧
        t.pmt.live = false ∧ t.steady = f.steady) ∧
    (∀ e, s.cau.holder = some st → s.cau.elect = some e → s.cau.yielded = false →
      (s.cau.busyEmpty = true →
        ∃ t, exec (.yieldAuthority st tag []) s = .next t ∧ t.cau.holder = some e ∧ t.cau.elect = none ∧
          t.pmt.live = false ∧ t.steady = f.steady) ∧
      (s.cau.busyEmpty = false →
        ∃ u, exec (.yieldAuthority st tag []) s = .next (enqueueRoles st 0x02 tag .ok u) ∧
          u.inner = ({ f with cau := { f.cau with yielded := true, deferred := true } } : State).inner)) ∧
    (s.cau.elect = some st → s.cau.yielded = true →
      ∃ t, exec (.yieldAuthority st tag []) s = .next t ∧ t.cau.holder = none ∧ t.cau.elect = none ∧
        t.pmt.live = false ∧ t.steady = f.steady) ∧
    (s.cau.elect = some st → s.cau.yielded = false →
      ∃ u, exec (.yieldAuthority st tag []) s = .next (enqueueRoles st 0x02 tag .ok u) ∧
        u.inner = ({ f with cau := { f.cau with elect := none, deferred := false } } : State).inner) ∧
    (s.cau.holder ≠ some st → s.cau.elect ≠ some st →
      exec (.yieldAuthority st tag []) s = .next (enqueueRoles st 0x02 tag .ok f)) ∧
    (s.cau.holder = some st → s.cau.elect ≠ none → s.cau.yielded = true →
      exec (.yieldAuthority st tag []) s = .next (enqueueRoles st 0x02 tag .ok f))

/-- START (R29): the first test that fails gives the reply; one that passes all sets the run context. -/
def Obligations.StartByItsTests : Prop :=
  ∀ st tag (code : Byte) (s f : State), s.agenda = [] → s.hasRoom st → f = frameDone st s →
    (s.cau.holder ≠ some st →
      exec (.startPlan st tag [code]) s = .next (replied st 0x03 tag .noAuthority [] f)) ∧
    (s.cau.holder = some st → s.rne.engine ≠ .idle →
      exec (.startPlan st tag [code]) s = .next (replied st 0x03 tag .wrongState [] f)) ∧
    (s.cau.holder = some st → s.rne.engine = .idle → 3 < code.toNat →
      exec (.startPlan st tag [code]) s = .next (replied st 0x03 tag .badValue [] f)) ∧
    (∀ p, s.cau.holder = some st → s.rne.engine = .idle → storedPlanOfCode code.toNat = some p →
      ((s.rne.plan p).len = 0 →
        exec (.startPlan st tag [code]) s = .next (replied st 0x03 tag .emptyPlan [] f)) ∧
      ((s.rne.plan p).len ≠ 0 → (s.rne.plan p).groupsFit = false →
        exec (.startPlan st tag [code]) s = .next (replied st 0x03 tag .badPlan [] f)) ∧
      ((s.rne.plan p).len ≠ 0 → (s.rne.plan p).groupsFit = true →
        ∃ t, exec (.startPlan st tag [code]) s = .next t ∧ t.rne.planId = some p ∧ t.rne.startedBy = some st ∧
          t.rne.outcomes.length = (s.rne.plan p).len ∧
          t.steady = ({ f with rne := f.rne.begin p st } : State).steady))

/-- A START whose first group holds an unsatisfied step, taken with the permit LAPSED and no group at work: the engine
is RUNNING and every step of the set waits for its guard or the permit (R29, R32, R35). -/
def Obligations.StartWaitsForGuardOrPermit : Prop :=
  ∀ st tag (code : Byte) (s f : State) (p : PlanId), s.agenda = [] → s.hasRoom st → f = frameDone st s →
    s.cau.holder = some st → s.rne.engine = .idle → s.rne.inflight = [] → s.pmt.live = false →
    (∀ g, (s.lock g).op = none ∧ (s.lock g).top.status = .none) →
    storedPlanOfCode code.toNat = some p → (s.rne.plan p).len ≠ 0 → (s.rne.plan p).groupsFit = true →
    (∃ n ∈ (s.rne.plan p).group 1, s.satisfied ((s.rne.plan p).step n) = false) →
    ∃ t, exec (.startPlan st tag [code]) s = .next t ∧ t.rne.engine = .running ∧ t.rne.result = .none ∧
      t.rne.groupFirst = 1 ∧ t.rne.elapsed = some 0 ∧ t.rne.inflight ≠ [] ∧
      (∀ e ∈ t.rne.inflight, e.phase = .waitGuard ∧ e.num ∈ (s.rne.plan p).group 1) ∧
      (∀ a, t.axis a = f.axis a) ∧ (∀ g, t.lock g = f.lock g) ∧ t.hsa = f.hsa ∧ t.vod = f.vod

/-- PAUSE from either station and CONTINUE from the holder (R41, R42, R44, R45): the OPERATOR reason comes and goes,
the engine follows the reasons, and each DELEGATED axis step is told to stop or to resume. -/
def Obligations.PauseAndContinueSetReasons : Prop :=
  ∀ st tag (s f : State), s.agenda = [] → s.hasRoom st → f = frameDone st s →
    (s.rne.engine = .running →
      ∃ u, exec (.pause st tag []) s = .next (settle u) ∧
        u.inner = ({ f with rne := { f.rne with operator := true, engine := .paused } } : State).inner ∧
        u.agenda = f.rne.axisMsgs .axisStop ++ [.reply st (replyFrame 0x04 tag .ok [])]) ∧
    (s.rne.engine = .paused ∨ (s.rne.engine = .running ∧ s.rne.axisMsgs .axisStop = []) →
      ∃ u, exec (.pause st tag []) s = .next (replied st 0x04 tag .ok [] u) ∧
        u.inner = ({ f with rne := { f.rne with operator := true, engine := .paused } } : State).inner) ∧
    (s.rne.engine ≠ .running → s.rne.engine ≠ .paused →
      exec (.pause st tag []) s = .next (replied st 0x04 tag .wrongState [] f)) ∧
    (s.cau.holder ≠ some st →
      exec (.continueRun st tag []) s = .next (replied st 0x05 tag .noAuthority [] f)) ∧
    (s.cau.holder = some st → s.rne.engine ≠ .running → s.rne.engine ≠ .paused →
      exec (.continueRun st tag []) s = .next (replied st 0x05 tag .wrongState [] f)) ∧
    (s.cau.holder = some st → s.rne.engine = .paused → s.rne.lapse = true →
      ∃ u, exec (.continueRun st tag []) s = .next (replied st 0x05 tag .ok [] u) ∧
        u.inner = ({ f with rne := { f.rne with operator := false } } : State).inner) ∧
    (s.cau.holder = some st → s.rne.engine = .paused → s.rne.lapse = false →
      ∃ u, exec (.continueRun st tag []) s = .next (settle u) ∧
        u.inner = ({ f with rne := { f.rne with operator := false, engine := .running } } : State).inner ∧
        u.agenda = f.rne.axisMsgs .axisResume ++ [.handTest, .reply st (replyFrame 0x05 tag .ok [])]) ∧
    (s.cau.holder = some st → s.rne.engine = .running → s.rne.lapse = false →
      ∃ u, exec (.continueRun st tag []) s = .next (replied st 0x05 tag .ok [] u) ∧
        u.inner = ({ f with rne := { f.rne with operator := false } } : State).inner)

/-- ABORT (R46, R47): from either station; a running plan enters ABORTING with no pause reason, each DELEGATED axis step
is told to end, and with no DELEGATED step the run is over at once. -/
def Obligations.AbortEndsTheRun : Prop :=
  ∀ st tag (s f : State), s.agenda = [] → s.hasRoom st → f = frameDone st s →
    (s.rne.engine = .running ∨ s.rne.engine = .paused →
      (∃ u, exec (.abortRun st tag []) s = .next (settle u) ∧ u.rne.engine = .aborting ∧ u.rne.lapse = false ∧
        u.rne.operator = false ∧ (∀ e ∈ u.rne.inflight, e.phase = .delegated ∧ e ∈ s.rne.inflight) ∧
        u.agenda = f.rne.axisMsgs .axisEnd ++ [.abortCheck, .reply st (replyFrame 0x06 tag .ok [])] ∧
        u.steady = f.steady) ∧
      ((∀ e ∈ s.rne.inflight, e.phase ≠ .delegated) →
        ∃ u, exec (.abortRun st tag []) s = .next (replied st 0x06 tag .ok [] u) ∧ u.rne.engine = .idle ∧
          u.rne.result = .aborted ∧ u.rne.inflight = [] ∧ u.rne.elapsed = none ∧ u.rne.planId = s.rne.planId ∧
          (∀ a, u.axis a = f.axis a) ∧ u.hsa = f.hsa ∧ u.cau = f.cau ∧ u.pmt = f.pmt ∧ u.tru = f.tru ∧
          u.vod = f.vod ∧ u.dic = f.dic)) ∧
    (s.rne.engine = .aborting → exec (.abortRun st tag []) s = .next (replied st 0x06 tag .ok [] f)) ∧
    (s.rne.engine = .idle ∨ s.rne.engine = .tripped →
      exec (.abortRun st tag []) s = .next (replied st 0x06 tag .wrongState [] f))

/-- JOG (R21, R52): the tests in their order; one that passes and whose step is satisfied or has a TRUE guard leaves plan
J with that one step, started by its station; a guard that is not TRUE refuses it. -/
def Obligations.JogByItsTests : Prop :=
  ∀ st tag (m lo hi : Byte) (s f : State), s.agenda = [] → s.hasRoom st → f = frameDone st s →
    (s.cau.holder ≠ some st →
      exec (.jog st tag [m, lo, hi]) s = .next (replied st 0x08 tag .noAuthority [] f)) ∧
    (s.cau.holder = some st → st = .bridge →
      exec (.jog st tag [m, lo, hi]) s = .next (replied st 0x08 tag .wrongStation [] f)) ∧
    (s.cau.holder = some st → st = .deck → (s.rne.engine ≠ .idle ∨ s.cau.key ≠ .isLocal) →
      exec (.jog st tag [m, lo, hi]) s = .next (replied st 0x08 tag .wrongState [] f)) ∧
    (∀ code, s.cau.holder = some st → st = .deck → s.rne.engine = .idle → s.cau.key = .isLocal →
      f.jogStep m (signedVal lo hi) = .error code →
      exec (.jog st tag [m, lo, hi]) s = .next (replied st 0x08 tag code [] f)) ∧
    (∀ rec clamped g, s.cau.holder = some st → st = .deck → s.rne.engine = .idle → s.cau.key = .isLocal →
      f.jogStep m (signedVal lo hi) = .ok (rec, clamped) → g = closeForStep rec.member f →
      (s.pmt.live = false → exec (.jog st tag [m, lo, hi]) s = .next (replied st 0x08 tag .wrongState [] f)) ∧
      (s.pmt.live = true →
        (g.satisfied rec = true ∨ g.jogGuard rec (signedVal lo hi) = none →
          ∃ t, exec (.jog st tag [m, lo, hi]) s = .next t ∧ t.rne.planId = some .j ∧ t.rne.startedBy = some .deck ∧
            t.rne.jog = ⟨1, [rec]⟩ ∧ t.rne.outcomes.length = 1) ∧
        (∀ r, g.satisfied rec = false → g.jogGuard rec (signedVal lo hi) = some r → g = f →
          exec (.jog st tag [m, lo, hi]) s =
            .next (replied st 0x08 tag .interlocked (wordOr rec.target ++ [byteOf (reasonCode (some r))]) f))))

/-- The step of a JOG (R52): an axis moves from its coordinate by the distance held to ±2000, the target held to its
stroke, in at most 30 s, and the step is CLAMPED where the distance or the target had to be held; a lock group takes the
action asked in at most 15 s. -/
def Obligations.JogBuildsItsStep : Prop :=
  ∀ (m : Byte) (dist : Int) (s : State),
    (∀ a x, axisOfCode m.toNat = some a → (s.axis a).x? = some x →
      ∃ (target : Nat) (clamped : Bool),
        s.jogStep m dist = .ok (⟨.axis a, .moveTo, some target, 300, none, false⟩, clamped) ∧
        (target : Int) = max 0 (min ((s.axis a).par.stroke : Int) (x + max (-2000) (min 2000 dist))) ∧
        (clamped = false ↔ (target : Int) = x + dist ∧ -2000 ≤ dist ∧ dist ≤ 2000)) ∧
    (∀ a, axisOfCode m.toNat = some a → (s.axis a).x? = none → s.jogStep m dist = .error .wrongState) ∧
    (∀ g, groupOfCode m.toNat = some g →
      (dist = 1 → s.jogStep m dist = .ok (⟨.lock g, .engage, none, 150, none, false⟩, false)) ∧
      (dist = 2 → s.jogStep m dist = .ok (⟨.lock g, .withdraw, none, 150, none, false⟩, false)) ∧
      (dist ≠ 1 ∧ dist ≠ 2 → s.jogStep m dist = .error .badValue)) ∧
    (5 < m.toNat → s.jogStep m dist = .error .badValue)

/-- TOPUP (R114, R115, R117): the tests in their order; one that passes starts a top-up, with the periodic timer
stopped and its guard asked, or joins the one in hand. -/
def Obligations.TopupStartsOrJoins : Prop :=
  ∀ st tag (code : Byte) (s f : State), s.agenda = [] → s.hasRoom st → f = frameDone st s →
    (s.cau.holder ≠ some st →
      exec (.topup st tag [code]) s = .next (replied st 0x09 tag .noAuthority [] f)) ∧
    (s.cau.holder = some st → groupOfCode code.toNat = none →
      exec (.topup st tag [code]) s = .next (replied st 0x09 tag .badValue [] f)) ∧
    (∀ g, s.cau.holder = some st → groupOfCode code.toNat = some g →
      (s.tru.record ≠ none ∨ s.rne.stepFor (.lock g) = true ∨ (s.lock g).gstate ≠ .engaged →
        exec (.topup st tag [code]) s = .next (replied st 0x09 tag .wrongState [] f)) ∧
      (s.tru.record = none → s.rne.stepFor (.lock g) = false → (s.lock g).gstate = .engaged →
        ((s.lock g).top.status ≠ .none →
          ∃ u, exec (.topup st tag [code]) s = .next (replied st 0x09 tag .ok [] u) ∧
            u.inner = (f.setLock g { f.lock g with
              top := { (f.lock g).top with srcStation := true, request := true } }).inner) ∧
        ((s.lock g).top.status = .none →
          ∃ u, exec (.topup st tag [code]) s = .next (settle u) ∧
            (u.lock g).top = ⟨.pendingGuard, false, false, true, true⟩ ∧ (u.lock g).periodic = none ∧
            u.steady = f.steady ∧
            u.agenda = (if s.lockGuard g false = none then [.topupGo g] else []) ++
              [.reply st (replyFrame 0x09 tag .ok [])])))

/-- PERMIT (R149): from the holder it makes the permit live, restarts its timer, clears the lapse flag and tells the run
engine, whatever the reply queue holds; from another station it has no effect but to renew its link. Outside RUNNING and
PAUSED the notice changes nothing of the run (R43), but where the permit becomes live the wait reasons and the blocked
indication are computed afresh (R34, log 53). -/
def Obligations.PermitRenewsForHolder : Prop :=
  ∀ st tag (s f : State), s.agenda = [] → f = frameDone st s →
    (s.cau.holder = some st →
      (∃ u, exec (.permit st tag []) s = .next (settle u) ∧
        u.inner = ({ f with pmt := { f.pmt with live := true, timer := some f.pmt.window, lapsed := false } } : State).inner ∧
        u.agenda = if s.pmt.live then [.permitNotice] else [.permitNotice, .refreshBlocked]) ∧
      (s.rne.engine ≠ .running → s.rne.engine ≠ .paused →
        ∀ g l, g = ({ f with pmt := { f.pmt with live := true, timer := some f.pmt.window, lapsed := false } } : State) →
          l = g.rne.inflight.map g.withWait →
          ∃ t, exec (.permit st tag []) s = .next t ∧
            t.inner = if s.pmt.live then g.inner
              else ({ g with rne := { g.rne with inflight := l, blocked := blockedOf l } } : State).inner)) ∧
    (s.cau.holder ≠ some st → exec (.permit st tag []) s = .next f)

/-- An accepted ACKNOWLEDGE when no trip is latched acts on the pump units alone (R164): every FAILED unit whose
motor-trip input is inactive returns to STOPPED, the list is served, and the reply is OK. That the list is served by a
message of its own, behind the recovery of the units, is the model's choice (log 59). -/
def Obligations.AcknowledgeRecoversUnits : Prop :=
  ∀ st tag (s f : State), s.agenda = [] → s.hasRoom st → f = frameDone st s →
    (s.cau.holder = some st ∨ s.cau.holder = none) → s.tru.record = none →
    (∃ u, exec (.acknowledge st tag []) s = .next (settle u) ∧
      u.inner = ({ f with hsa := { f.hsa with u1 := f.hsa.u1.recover, u2 := f.hsa.u2.recover } } : State).inner ∧
      u.agenda = [.allocate, .reply st (replyFrame 0x10 tag .ok [])]) ∧
    (∀ w, (s.unit w).state = .failed ∧ (s.unit w).motorTrip ≠ some true →
      ((s.unit w).recover).state = .stopped ∧ ((s.unit w).recover).failure = none) ∧
    (∀ w, ¬((s.unit w).state = .failed ∧ (s.unit w).motorTrip ≠ some true) → (s.unit w).recover = s.unit w) ∧
    (s.hsa.wants = [] →
      ∃ u, exec (.acknowledge st tag []) s = .next (replied st 0x10 tag .ok [] u) ∧
        u.inner = ({ f with hsa := { f.hsa with u1 := f.hsa.u1.recover, u2 := f.hsa.u2.recover } } : State).inner)

/-- ACKNOWLEDGE with a trip latched: refused with NO_AUTHORITY from a station that is not the holder where there is one,
and with STILL_ACTIVE while a cause is present, changing nothing (R162); accepted (R163), record, causes and latch are
gone, VOD is released, the axes leave HALTED with their faults cleared, the groups' latches are cleared, the engine is
IDLE. The jump tests of an axis that had a position fault latched stay suspended (R57, log 20). -/
def Obligations.AcknowledgeClearsTrip : Prop :=
  (∀ st tag (s f : State), s.agenda = [] → s.hasRoom st → f = frameDone st s →
    (∀ h, s.cau.holder = some h → h ≠ st →
      exec (.acknowledge st tag []) s = .next (replied st 0x10 tag .noAuthority [] f)) ∧
    ((s.cau.holder = some st ∨ s.cau.holder = none) → s.tru.record ≠ none → f.stillPresent ≠ [] →
      exec (.acknowledge st tag []) s =
        .next (replied st 0x10 tag .stillActive (byteOf f.stillPresent.length ::
          padTo 3 (f.stillPresent.map fun c => byteOf (causeCode c))) f))) ∧
  (∀ st tag (s f : State), s.agenda = [] → s.hasRoom st → f = frameDone st s →
    (s.cau.holder = some st ∨ s.cau.holder = none) → s.tru.record ≠ none → f.stillPresent = [] →
    (∃ u, exec (.acknowledge st tag []) s = .next (settle u) ∧ u.tru.record = none ∧ u.tru.causes = [] ∧
      u.tru.latch = false ∧ u.vod.forced = false ∧ u.rne = { f.rne with engine := .idle } ∧
      (∀ a, (u.axis a).phase = if (f.axis a).phase = .halted then .idle else (f.axis a).phase) ∧
      (∀ g, (u.lock g).creep = false) ∧ (∀ g, (u.lock g).top = (f.lock g).top) ∧
      (∀ w, u.unit w = (f.unit w).recover)) ∧
    ∃ t, exec (.acknowledge st tag []) s = .next t ∧ t.tru.latch = false ∧
      (∀ a, (t.axis a).posFault = none ∧ (t.axis a).switchLatched = false ∧ (t.axis a).pos = (f.axis a).pos ∧
        (t.axis a).jumpSuspP = ((f.axis a).jumpSuspP || (f.axis a).posFault.isSome) ∧
        (t.axis a).jumpSuspS = ((f.axis a).jumpSuspS || (f.axis a).posFault.isSome)) ∧
      ∀ g, (t.lock g).conflictPins = [])

/-- RESTART (R165, R166, R191): refused with NO_AUTHORITY or WRONG_STATE; accepted, every block takes its RESTART values,
the kept items stay, the reply is the first frame its link sends, and every unmasked subject is pending or being sent. -/
def Obligations.RestartResetsBlocks : Prop :=
  ∀ st tag (s f : State), s.agenda = [] → s.hasRoom st → f = frameDone st s →
    (s.cau.holder ≠ some st → (s.cau.holder ≠ none ∨ st = .deck) →
      exec (.restart st tag []) s = .next (replied st 0x11 tag .noAuthority [] f)) ∧
    ((s.cau.holder = some st ∨ (s.cau.holder = none ∧ st = .bridge)) →
      (s.rne.engine ≠ .idle → s.rne.engine ≠ .tripped →
        exec (.restart st tag []) s = .next (replied st 0x11 tag .wrongState [] f)) ∧
      (s.rne.engine = .idle ∨ s.rne.engine = .tripped →
        ∃ t, exec (.restart st tag []) s = .next t ∧ t.stored = s.stored ∧ t.rne = rneAtReset f.rne.p0 f.rne.p1 f.rne.p2 f.rne.p3 ∧
          t.ilk = ilkAtReset f.ilk.speedLimit f.ilk.speedStale f.ilk.warnTime ∧ t.tru = State.reset.tru ∧
          (∀ a, t.drives a = zeroDrives ∧ (t.axis a).phase = .idle ∧ (t.axis a).pos = none ∧
            (t.axis a).member = .intermediate ∧ (t.axis a).zero = (f.axis a).zero.after (f.drives a) zeroDrives) ∧
          (∀ g, t.lock g = lockAtReset g (f.lock g).par) ∧ (∀ w, t.unit w = State.reset.unit w) ∧ t.hsa.wants = [] ∧
          t.cau = cauAtReset f.cau.linkTimeout ∧ t.pmt = pmtAtReset f.pmt.window f.pmt.tripAction ∧ t.vod.forced = false ∧
          (∀ x ∈ t.dic.inputs, x.filtered = none ∧ x.run = 0) ∧
          (∀ q, (t.link q).asm = none ∧ (t.link q).age = 0 ∧ (t.link q).replies = []) ∧
          (∃ left, (t.link st).tx = some ⟨replyFrame 0x11 tag .ok [], left⟩) ∧
          ∀ q sub, (t.link q).unmasked sub = true →
            sub ∈ (t.link q).reports ∨ ∃ p left, (t.link q).tx = some ⟨⟨reportKind sub, 0, p⟩, left⟩))

/-! ## Guards -/

/-- The guards (R9, R10): each is TRUE where every condition of its row holds, and else the first that fails in the row's
order. ILK takes the direction of an axis action as R11 states, for a waiting one from its target held to STROKE (log
45). A re-evaluation (R17) hands on each result in turn: for a false guard in WAITING nothing; in PREPARING the action
goes back to waiting, or a jog step is dropped (R18); in DRIVING an INTERLOCK trip (R19), of which the first is latched,
but an active top-up ends; in HOLDING the operation ends (R20). A TRUE guard in WAITING brings the supply request of a
top-up (R118), or RNE's hand-over test, which evaluates the waiting axis guards afresh and in RUNNING hands over the
first entry that meets the conditions (R35, R36). What the results send is delivered after the last of them (log 33).
R35 hands over each entry that meets the conditions in the same event: that one hand-over test changes the first of them
alone, and the test is then applied again, is the model's reading (log 22). -/
def Obligations.GuardsActByStage : Prop :=
  (∀ l : List (Reason × Bool), (firstFailing l = none ↔ ∀ c ∈ l, c.2 = true) ∧
    ∀ r, firstFailing l = some r ↔ ∃ l1 l2, l = l1 ++ (r, false) :: l2 ∧ ∀ c ∈ l1, c.2 = true) ∧
  (∀ s : State,
    let speed : List (Reason × Bool) :=
      [(.speedUnknown, s.ilk.known), (.speedHigh, decide (s.ilk.speed ≤ s.ilk.speedLimit))]
    let closure (a : Axis) : List (Reason × Bool) :=
      [(.estopLatched, !s.tru.latch), (.memberFault, (s.axis a).member != .fault),
       (.lockBusy, (s.lock (ownGroup a)).gstate != .engaging && (s.lock (ownGroup a)).gstate != .withdrawing)]
    let group (g : Group) : List (Reason × Bool) :=
      [(.estopLatched, !s.tru.latch), (.memberFault, (s.lock g).gstate != .fault)]
    let visRow : List (Reason × Bool) :=
      [(.vlkNotWithdrawn, s.vlk.gstate == .withdrawn), (.rmpNotClosed, s.rmp.member == .closed),
       (.rlkNotEngaged, s.rlk.gstate == .engaged)]
    s.axisGuard .vis .opening = firstFailing (closure .vis ++ visRow ++ speed) ∧
    s.axisGuard .vis .closing = firstFailing (closure .vis ++ visRow) ∧
    (∀ d, s.axisGuard .rmp d = firstFailing (closure .rmp ++
      [(.visNotOpen, s.vis.member == .opened), (.rlkNotWithdrawn, s.rlk.gstate == .withdrawn)])) ∧
    s.axisGuard .inr .opening = firstFailing (closure .inr ++ [(.iclNotWithdrawn, s.icl.gstate == .withdrawn)] ++ speed) ∧
    s.axisGuard .inr .closing = firstFailing (closure .inr ++ [(.iclNotWithdrawn, s.icl.gstate == .withdrawn)]) ∧
    s.lockGuard .vlk true = firstFailing (group .vlk ++ [(.visNotClosed, s.vis.member == .closed)] ++ speed) ∧
    s.lockGuard .vlk false = firstFailing (group .vlk ++ [(.visNotClosed, s.vis.member == .closed)]) ∧
    s.lockGuard .rlk true = firstFailing (group .rlk ++ [(.visNotOpen, s.vis.member == .opened)]) ∧
    s.lockGuard .rlk false = firstFailing (group .rlk ++ [(.rmpNotClosed, s.rmp.member == .closed)]) ∧
    s.lockGuard .icl true = firstFailing (group .icl ++ [(.inrNotClosed, s.inr.member == .closed)] ++ speed) ∧
    s.lockGuard .icl false = firstFailing (group .icl ++ [(.inrNotClosed, s.inr.member == .closed)])) ∧
  (∀ (s : State) (e : WatchEntry),
    (∀ g, e.member = .lock g → s.guardOf e = s.lockGuard g (decide (e.action = .withdraw))) ∧
    (∀ a, e.member = .axis a →
      (∀ st, e.stage ≠ .waiting → (s.axis a).step = some st → s.guardOf e = s.axisGuard a st.dir) ∧
      (e.stage = .waiting → (s.axis a).x? = none → s.guardOf e = s.axisGuard a .closing) ∧
      (∀ x target, e.stage = .waiting → (s.axis a).x? = some x → e.target = some target →
        s.guardOf e = s.axisGuard a (if x < min target (s.axis a).par.stroke then .opening else .closing)))) ∧
  (∀ (s t : State) (e : WatchEntry), t = handOn s e →
    (e.result = none →
      (e.stage ≠ .waiting → t = s) ∧
      (∀ g, e.stage = .waiting → e.source = .topUp → e.member = .lock g → (s.lock g).top.status = .pendingGuard →
        (t.lock g).top.status = .pendingSupply ∧ t.agenda = s.agenda ++ [.request (.topUp g)] ∧
        ∀ x ∈ t.ilk.watch, x.member = .lock g → x.stage = .preparing) ∧
      (e.stage = .waiting → e.source ≠ .topUp → t = handTestAs false s)) ∧
    (∀ r, e.result = some r →
      (e.stage = .waiting → t = s) ∧
      (e.stage = .driving → e.source ≠ .topUp → t = tripReport .interlock (some e.member) (.guard r) s) ∧
      (∀ a, e.stage = .preparing → e.member = .axis a → e.source = .planStep →
        (t.axis a).phase = .idle ∧ (t.axis a).step = none ∧ (t.axis a).announce = none ∧
        t.agenda = s.agenda ++ [.release (.axisStep a), .handTest]) ∧
      (∀ g, e.stage = .preparing → e.member = .lock g → e.source = .planStep →
        (t.lock g).op = none ∧ (t.lock g).gstate = (s.lock g).ended.derive ∧ t.vod = s.vod ∧
        t.agenda = s.agenda ++ [.release (.lockOp g), .handTest]) ∧
      (e.stage = .preparing → e.source = .planStep →
        t.rne.engine = s.rne.engine ∧ t.rne.outcomes = s.rne.outcomes ∧
        (∀ x ∈ t.rne.inflight, x.member = e.member → x.phase = .waitGuard) ∧
        t.rne.inflight.map (fun x => (x.num, x.member, x.timeout)) =
          s.rne.inflight.map (fun x => (x.num, x.member, x.timeout)) ∧
        (∀ x ∈ t.ilk.watch, x.member = e.member → x.stage = .waiting)) ∧
      (∀ x, e.stage = .preparing → e.source = .jogStep → s.rne.entry? e.member = some x →
        t.rne.engine = .idle ∧ t.rne.result = .aborted ∧ (∀ y ∈ t.rne.inflight, y.num ≠ x.num) ∧
        ∀ y ∈ t.ilk.watch, y.member ≠ e.member) ∧
      (∀ g, e.stage = .preparing → e.member = .lock g → e.source = .topUp →
        (t.lock g).top = { (s.lock g).top with status := .pendingGuard } ∧
        t.agenda = s.agenda ++ [.release (.topUp g)] ∧
        ∀ x ∈ t.ilk.watch, x.member = .lock g → x.stage = .waiting) ∧
      (∀ g, e.stage = .driving → e.member = .lock g → e.source = .topUp →
        (t.lock g).top = noTopUp ∧ t.tru = s.tru ∧ .release (.topUp g) ∈ t.agenda ∧
        ∀ x ∈ t.ilk.watch, x.member ≠ .lock g) ∧
      (∀ g, e.stage = .holding → e.member = .lock g →
        (t.lock g).op = none ∧ (t.lock g).holdT = none ∧ t.tru = s.tru ∧ .release (.lockOp g) ∈ t.agenda ∧
        ∀ x ∈ t.ilk.watch, x.member ≠ .lock g))) ∧
  (∀ (s d t : State) own, d = refreshAxes s → t = handTestAs own s →
    (∀ e ∈ d.ilk.watch, ∀ a x, e.member = .axis a → x ∈ s.rne.inflight → x.member = .axis a → x.phase = .waitGuard →
      e.result = s.guardOf e) ∧
    (s.rne.engine ≠ .running → t = d.emit [.refreshBlocked]) ∧
    (s.rne.engine = .running → s.rne.inflight.find? d.eligible = none → t = d.emit [.refreshBlocked]) ∧
    ∀ e, s.rne.engine = .running → s.rne.inflight.find? d.eligible = some e →
      t.rne = d.rne.modEntry e.member (fun x => { x with phase := .delegated, wait := none })) ∧
  (∀ (s t : State) (l : List WatchEntry), l = s.ilk.watch.map (fun e => { e with result := s.guardOf e }) →
    t = l.foldl handOn (s.setWatch l) →
    (reevaluate s).inner = t.inner ∧
    (reevaluate s).agenda = t.agenda ++ (if s.moved t then [.reeval] else []) ++ [.refreshBlocked]) ∧
  ∀ (s d : State) l1 e l2 r, s.agenda = [] → s.tru.record = none → s.ilk.expiry ≠ none →
    d = { s with ilk := { s.ilk with known := false, stale := true, expiry := none } } →
    d.ilk.watch.map (fun e => { e with result := d.guardOf e }) = l1 ++ e :: l2 →
    (∀ x ∈ l1, x.stage = .driving → x.source ≠ .topUp → x.result = none) →
    e.stage = .driving → e.source ≠ .topUp → e.result = some r →
    ∃ t, exec .speedStaleExpiry s = .next t ∧ t.latched .interlock (some e.member) (.guard r)

/-! ## Links -/

/-- One byte at a frame assembler (R181): noise in HUNTING has no effect, C3h starts a frame, a LEN outside 2 to 64 and
a frame that fails its CRC return it to HUNTING, a byte inside a frame is stored and restarts the gap timer, and the
last byte of a good frame is its arrival. That raw bytes are received one by one, and a good frame's last byte is taken
as the arrival of the frame it ends, is the model's reading of FRAME_DISCARD (log 29), and so is the command that stands
for that arrival whatever its KIND (log 28); the gap of 11 ms is log 12, and that C3h itself starts it log 46. -/
def Obligations.ReceivedByteAssembles : Prop :=
  ∀ st (b : Byte) (s : State), s.agenda = [] →
    ((s.link st).asm = none → b ≠ 0xC3 → exec (.frameDiscard st [b]) s = .next s) ∧
    ((s.link st).asm = none → b = 0xC3 →
      exec (.frameDiscard st [b]) s = .next (s.setLink st { s.link st with asm := some [], gap := some 11 })) ∧
    ((s.link st).asm = some [] → (b.toNat < 2 ∨ 64 < b.toNat) →
      exec (.frameDiscard st [b]) s = .next (s.setLink st { s.link st with asm := none, gap := none })) ∧
    ((s.link st).asm = some [] → 2 ≤ b.toNat → b.toNat ≤ 64 →
      exec (.frameDiscard st [b]) s = .next (s.setLink st { s.link st with asm := some [b], gap := some 11 })) ∧
    (∀ len rest, (s.link st).asm = some (len :: rest) → 2 ≤ len.toNat → len.toNat ≤ 64 →
      (rest.length + 2 < len.toNat + 3 →
        exec (.frameDiscard st [b]) s =
          .next (s.setLink st { s.link st with asm := some (len :: rest ++ [b]), gap := some 11 })) ∧
      (rest.length + 2 = len.toNat + 3 →
        (frameOf (len :: rest ++ [b]) = none →
          exec (.frameDiscard st [b]) s = .next (s.setLink st { s.link st with asm := none, gap := none })) ∧
        (∀ kind tag p, frameOf (len :: rest ++ [b]) = some (kind, tag, p) →
          exec (.frameDiscard st [b]) s = exec (.unknownKind st kind tag p) s)))

/-- A frame the part sends is one its own assembler takes, with its KIND, TAG and payload (R179, R180). -/
def Obligations.SentFramesAreWellFormed : Prop :=
  ∀ fr : Frame, fr.payload.length ≤ 62 → ∃ rest, fr.bytes = 0xC3 :: rest ∧
    frameOf rest = some (fr.kind, fr.tag, fr.payload)

/-- The gap timer discards the partial frame (R181); the end of a frame sends the oldest reply, else the oldest pending
subject built from the state as it stands, else nothing (R189). A timer or a transmitter that does not run does
nothing. -/
def Obligations.LinkTimersExpire : Prop :=
  ∀ st (s : State),
    ((s.link st).gap ≠ none →
      exec (.frameGapExpiry st) s = .next (s.setLink st { s.link st with asm := none, gap := none })) ∧
    ((s.link st).gap = none → exec (.frameGapExpiry st) s = .next s) ∧
    ((s.link st).tx = none → exec (.frameSent st) s = .next s) ∧
    ((s.link st).tx ≠ none → (s.link st).replies = [] → (s.link st).reports = [] →
      exec (.frameSent st) s = .next (s.setLink st { s.link st with tx := none })) ∧
    (∀ r rest, (s.link st).tx ≠ none → (s.link st).replies = r :: rest →
      exec (.frameSent st) s = .next (s.setLink st { s.link st with replies := rest, tx := some ⟨r, r.lineTime⟩ })) ∧
    (∀ sub rest, (s.link st).tx ≠ none → (s.link st).replies = [] → (s.link st).reports = sub :: rest →
      ∃ left, exec (.frameSent st) s = .next (s.setLink st { s.link st with
        reports := rest, tx := some ⟨⟨byteOf (0x40 + subjectCode sub), 0, s.report sub⟩, left⟩ }))

/-- Marking a subject (R188): where the mask lets it through it stands in the pending set or is being sent, and a
pending subject is not put there twice; where the mask does not, the link is as it was. -/
def Obligations.MarkingShowsSubject : Prop :=
  ∀ sub st (s : State),
    ((s.link st).unmasked sub = true →
      sub ∈ ((mark sub s).link st).reports ∨ ∃ p left, ((mark sub s).link st).tx = some ⟨⟨reportKind sub, 0, p⟩, left⟩) ∧
    ((s.link st).unmasked sub = false → (mark sub s).link st = s.link st) ∧
    (sub ∈ (s.link st).reports → (mark sub s).link st = s.link st) ∧
    (mark sub s).inner = s.inner

/-- The loss of a link clears its alive flag (R146); a lost holder without an elect leaves no holder and no permit; beside
an elect it counts as having yielded, so that the elect takes over, at once or when no group is busy, and where it has
yielded before nothing further changes; a lost elect is elect no more, and where the holder has yielded, there is then
no holder and no permit; a link that is already lost changes nothing but its age. -/
def Obligations.LinkLossEndsRole : Prop :=
  ∀ st (s : State), s.cau.ok → s.agenda = [] →
    (∃ t, exec (.linkLoss st) s = .next t ∧ t.cau.alive st = false ∧
      t.cau.alive (otherStation st) = s.cau.alive (otherStation st) ∧ t.cau.linkTimeout = s.cau.linkTimeout) ∧
    (s.cau.alive st = true → s.cau.holder = some st → s.cau.elect = none →
      ∃ t, exec (.linkLoss st) s = .next t ∧ t.cau.holder = none ∧ t.cau.elect = none ∧ t.pmt.live = false) ∧
    (∀ e, s.cau.alive st = true → s.cau.holder = some st → s.cau.elect = some e → s.cau.busyEmpty = true →
      s.cau.yielded = false →
      ∃ t, exec (.linkLoss st) s = .next t ∧ t.cau.holder = some e ∧ t.cau.elect = none ∧ t.pmt.live = false) ∧
    (∀ e d, s.cau.alive st = true → s.cau.holder = some st → s.cau.elect = some e →
      d = (s.setLink st { s.link st with age := max (s.link st).age (s.cau.linkTimeout * 1000 + 1) }) →
      (s.cau.busyEmpty = false → s.cau.yielded = false →
        ∃ t, exec (.linkLoss st) s = .next t ∧
          t.inner = ({ d with cau := { s.cau.setAlive st false with yielded := true, deferred := true } } : State).inner) ∧
      (s.cau.yielded = true →
        ∃ t, exec (.linkLoss st) s = .next t ∧
          t.inner = ({ d with cau := s.cau.setAlive st false } : State).inner)) ∧
    (s.cau.alive st = true → s.cau.elect = some st → s.cau.yielded = true →
      ∃ t, exec (.linkLoss st) s = .next t ∧ t.cau.holder = none ∧ t.cau.elect = none ∧ t.cau.yielded = false ∧
        t.pmt.live = false) ∧
    (s.cau.alive st = true → s.cau.elect = some st → s.cau.yielded = false →
      ∃ t, exec (.linkLoss st) s = .next t ∧ t.cau.elect = none ∧ t.cau.holder = s.cau.holder ∧ t.rne = s.rne ∧
        t.pmt = s.pmt) ∧
    (s.cau.alive st = false →
      exec (.linkLoss st) s = .next (s.setLink st { s.link st with
        age := max (s.link st).age (s.cau.linkTimeout * 1000 + 1) }))

/-! ## Filtered inputs -/

/-- Filtered values of a pin's sensors, as an edge or as first values (R5, R105, R106): the pin takes the state that the
two values give, and nothing else of the steady view changes; a pin that the group does not have is a fault (log 25). -/
def Obligations.PinEventsGivePinState : Prop :=
  ∀ g pin (e w : Option Bool) (s d : State),
    d = { s with dic := (s.dic.deliver? (.pinEngaged g pin) e).deliver? (.pinWithdrawn g pin) w } →
    (∀ c, c ∈ [Instr.pinSensorEdge g pin e w, .pinSensorFirstValue g pin e w] →
      ((1 ≤ pin ∧ pin ≤ g.pinCount) →
        ∃ t, exec c s = .next t ∧
          t.steady = (d.setLock g ((d.lock g).modPin pin fun p => p.sense e w none)).steady ∧
          ∀ p q, (s.lock g).pin? pin = some p → (t.lock g).pin? pin = some q →
            q.engaged = e.or p.engaged ∧ q.withdrawn = w.or p.withdrawn ∧
            q.state = pinStateOf q.engaged q.withdrawn ∧
            (q.state ≠ p.state → q.conflict = if q.state = .conflict then some 100 else none)) ∧
      (¬(1 ≤ pin ∧ pin ≤ g.pinCount) → exec c s = .fault .noSuchInput))

/-- The conflict timer of a pin (R106): its expiry latches PIN_CONFLICT and reports it as a trip, or adds the pin to the
latch and marks the MEMBER subject, also where the latch names the pin already; the transit timer of a pin (R107): its
expiry makes the pin STUCK, also where it is so already, and marks the subject; one that does not run does nothing. -/
def Obligations.PinTimersLatchAndStick : Prop :=
  ∀ g pin p (s : State), s.agenda = [] → 1 ≤ pin → pin ≤ g.pinCount → (s.lock g).pin? pin = some p →
    (p.conflict ≠ none → (s.lock g).conflictPins = [] →
      ∃ t, exec (.conflictTimerExpiry g pin) s = .next t ∧ (t.lock g).conflictPins = [pin] ∧
        ((t.lock g).pin? pin).map (·.conflict) = some none ∧
        (s.tru.record = none → t.latched .pinConflict (some (.lock g)) .none)) ∧
    (p.conflict ≠ none → (s.lock g).conflictPins ≠ [] →
      exec (.conflictTimerExpiry g pin) s =
        .next (mark (.member (.lock g)) (s.setLock g { (s.lock g).modPin pin fun q => { q with conflict := none } with
          conflictPins := if pin ∈ (s.lock g).conflictPins then (s.lock g).conflictPins
            else (s.lock g).conflictPins ++ [pin] }))) ∧
    (p.conflict = none → exec (.conflictTimerExpiry g pin) s = .next s) ∧
    (p.transit ≠ none →
      exec (.transitLimitExpiry g pin) s =
        .next (mark (.member (.lock g))
          (s.setLock g ((s.lock g).modPin pin fun q => { q with transit := none, stuck := true })))) ∧
    (p.transit = none → exec (.transitLimitExpiry g pin) s = .next s)

/-- End switch values (R59, R101, R172): a first value is stored for later; an edge is stored and tested against the
last accepted coordinate, what disagrees joins the latch, and a first latching is a SENSOR trip. -/
def Obligations.EndSwitchesDisagree : Prop :=
  ∀ a (c o : Option Bool) (s d : State),
    d = ({ s with dic := (s.dic.deliver? (.endClosed a) c).deliver? (.endOpen a) o } : State).setAxis a
      { s.axis a with endClosed := c.or (s.axis a).endClosed, endOpen := o.or (s.axis a).endOpen } →
    exec (.endSwitchFirstValue a c o) s = .next d ∧
    ((s.axis a).x? = none → ∃ t, exec (.endSwitchEdge a c o) s = .next t ∧ t.steady = d.steady) ∧
    (∀ x, (s.axis a).x? = some x →
      ∃ t, exec (.endSwitchEdge a c o) s = .next t ∧
        t.steady = (d.setAxis a { d.axis a with
          disagree := (d.axis a).closedDisagrees x || (d.axis a).openDisagrees x
          latchClosed := (d.axis a).latchClosed || (d.axis a).closedDisagrees x
          latchOpen := (d.axis a).latchOpen || (d.axis a).openDisagrees x }).steady ∧
        (s.agenda = [] → s.tru.record = none → (s.axis a).switchLatched = false →
          ((d.axis a).closedDisagrees x || (d.axis a).openDisagrees x) = true →
          t.latched .sensor (some (.axis a)) .none))

/-- A pressure-ok edge (R125, R126): a STARTING unit reaches RUNNING and its holder is told, or with no holder its run-on
timer starts, or with RUN_ON 0 it stops at once (log 24); then the request list is served (R130); a RUNNING unit starts
or discards its pressure-loss timer, and any other unit keeps its state. -/
def Obligations.PressureOkMovesUnit : Prop :=
  ∀ w active (s d : State), s.agenda = [] → d = { s with dic := s.dic.deliver (.pressure w) active } →
    ((s.unit w).state = .running →
      ∃ t, exec (.pressureOkEdge w active) s = .next t ∧
        t.inner = (d.setUnit w { d.unit w with
          pressOk := some active, lossT := if active then none else some 500 }).inner) ∧
    ((s.unit w).state ≠ .running → ¬((s.unit w).state = .starting ∧ active = true) →
      ∃ t, exec (.pressureOkEdge w active) s = .next t ∧
        t.inner = (d.setUnit w { d.unit w with pressOk := some active }).inner) ∧
    (∀ c, (s.unit w).state = .starting → active = true → s.hsa.wants = [] → (s.unit w).holder = some c →
      ∃ u, exec (.pressureOkEdge w active) s = .next (settle u) ∧ u.agenda = [.unitReady c] ∧
        u.inner = (d.setUnit w { d.unit w with pressOk := some true, state := .running, startT := none }).inner) ∧
    ((s.unit w).state = .starting → active = true → s.hsa.wants = [] → (s.unit w).holder = none → s.hsa.runOn ≠ 0 →
      ∃ t, exec (.pressureOkEdge w active) s = .next t ∧
        t.inner = (d.setUnit w { d.unit w with
          pressOk := some true, state := .running, startT := none, runOnT := some (s.hsa.runOn * 1000) }).inner) ∧
    ((s.unit w).state = .starting → active = true → s.hsa.wants = [] → (s.unit w).holder = none → s.hsa.runOn = 0 →
      ∃ t, exec (.pressureOkEdge w active) s = .next t ∧
        t.inner = (d.setUnit w { d.unit w with
          pressOk := some true, state := .stopped, startT := none, lossT := none, runOnT := none }).inner) ∧
    (∀ v x, (s.unit w).state = .starting → active = true →
      (∀ c, (s.unit w).holder = some c →
        v = { d.unit w with pressOk := some true, state := .running, startT := none } ∧
        x = (d.setUnit w v).emit [.unitReady c]) →
      ((s.unit w).holder = none →
        v = (if s.hsa.runOn = 0 then
            { d.unit w with pressOk := some true, state := .stopped, startT := none, lossT := none, runOnT := none }
          else { d.unit w with
            pressOk := some true, state := .running, startT := none, runOnT := some (s.hsa.runOn * 1000) }) ∧
        x = d.setUnit w v) →
      ∃ u, exec (.pressureOkEdge w active) s = .next (settle u) ∧ u.inner = (serve x).inner ∧
        u.agenda = (serve x).agenda)

/-- A motor-trip value, as an edge or as the first value (R124, R127): active takes a unit that is not FAILED to FAILED
with kind MOTOR_TRIP; an edge that is inactive, or of a FAILED unit, changes its input alone. Another first value of
either input is stored, so that the unit's inputs are ready once both have one, and the request list is served (R130).
That the list is served by a message of its own at a first value is the model's choice (log 59). -/
def Obligations.MotorTripFailsUnit : Prop :=
  ∀ w (s : State), s.supplyOk → s.agenda = [] →
    (∀ c, c ∈ [Instr.motorTripEdge w true, .unitInputFirstValue w .motorTrip true] → (s.unit w).state ≠ .failed →
      ∃ t, exec c s = .next t ∧ (t.unit w).state = .failed ∧ (t.unit w).failure = some .motorTrip ∧
        (t.unit w).motorTrip = some true ∧ (t.unit w).holder = none) ∧
    (∀ active, (active = false ∨ (s.unit w).state = .failed) →
      ∃ t, exec (.motorTripEdge w active) s = .next t ∧
        t.inner = (({ s with dic := s.dic.deliver (.motorTrip w) active } : State).setUnit w
          { s.unit w with motorTrip := some active }).inner) ∧
    (∀ active d, (active = false ∨ (s.unit w).state = .failed) →
      d = ({ s with dic := s.dic.deliver (.motorTrip w) active } : State).setUnit w
        { s.unit w with motorTrip := some active } →
      (∃ u, exec (.unitInputFirstValue w .motorTrip active) s = .next (settle u) ∧ u.inner = d.inner ∧
        u.agenda = [.allocate]) ∧
      (d.unit w).ready = (s.unit w).pressOk.isSome ∧
      (s.hsa.wants = [] →
        ∃ t, exec (.unitInputFirstValue w .motorTrip active) s = .next t ∧ t.inner = d.inner)) ∧
    (∀ active d, d = ({ s with dic := s.dic.deliver (.pressure w) active } : State).setUnit w
        { s.unit w with pressOk := some active } →
      (∃ u, exec (.unitInputFirstValue w .pressureOk active) s = .next (settle u) ∧ u.inner = d.inner ∧
        u.agenda = [.allocate]) ∧
      (d.unit w).ready = (s.unit w).motorTrip.isSome ∧
      ∃ t, exec (.unitInputFirstValue w .pressureOk active) s = .next t ∧ t.steady = d.steady)

/-- The expiry of a unit's start timer or pressure-loss timer takes it to FAILED with that kind, and a holder that needs
the unit is stopped by SUPPLY_LOST; a timer that does not run does nothing (R125, R126, R134). -/
def Obligations.UnitTimersFailOrStop : Prop :=
  ∀ w (s : State), s.supplyOk → s.agenda = [] →
    (∀ c k, (c = .startLimitExpiry w ∧ k = .startFail ∧ (s.unit w).startT ≠ none) ∨
        (c = .pressureLossExpiry w ∧ k = .pressureLoss ∧ (s.unit w).lossT ≠ none) →
      ∃ t, exec c s = .next t ∧ (t.unit w).state = .failed ∧ (t.unit w).failure = some k ∧
        (t.unit w).holder = none ∧
        ∀ h, (s.unit w).holder = some h → s.needsUnit h = true → s.tru.record = none →
          t.latched .supplyLost (some h.member) (.supply w k)) ∧
    ((s.unit w).startT = none → exec (.startLimitExpiry w) s = .next s) ∧
    ((s.unit w).lossT = none → exec (.pressureLossExpiry w) s = .next s) ∧
    ((s.unit w).runOnT = none → exec (.runOnExpiry w) s = .next s) ∧
    ((s.unit w).runOnT ≠ none → s.hsa.wants = [] →
      ∃ t, exec (.runOnExpiry w) s = .next t ∧
        t.inner = (s.setUnit w { s.unit w with state := .stopped, lossT := none, runOnT := none }).inner)

/-- An emergency-stop loop's value, as an edge or as its first value (R160, R161, R167): the loop's state is recorded; an
OPEN loop sets a clear latch, which is an ESTOP trip naming the open loops; no other loop value sets or clears the
latch. -/
def Obligations.OpenLoopSetsLatch : Prop :=
  ∀ st isClosed (s d : State), s.agenda = [] →
    d = ({ s with dic := s.dic.deliver (.loop st) isClosed, tru := s.tru.setLoop st isClosed } : State) →
    ∀ c, c ∈ [Instr.loopEdge st isClosed, .loopFirstValue st isClosed] →
      ((isClosed = true ∨ s.tru.latch = true) →
        ∃ t, exec c s = .next t ∧
          t.inner = ({ d with tru := { d.tru with latch := d.tru.latch || !isClosed } } : State).inner) ∧
      (isClosed = false → s.tru.latch = false →
        ∃ t, exec c s = .next t ∧ t.tru.latch = true ∧ t.tru.loopBridge = d.tru.loopBridge ∧
          t.tru.loopDeck = d.tru.loopDeck ∧
          (s.tru.record = none →
            t.latched .estop none (.loops (d.tru.loopBridge == .opened) (d.tru.loopDeck == .opened))))

/-- The key position, by an edge or the first value (R141, R144, R145): the position is recorded; a handover that is due
with no group busy is made, and else is noted as deferred or called off. -/
def Obligations.KeyMovesHandover : Prop :=
  ∀ isLocal (s d : State), s.agenda = [] →
    d = ({ s with
      dic := s.dic.deliver .key isLocal,
      cau := { s.cau with key := if isLocal then .isLocal else .isRemote } } : State) →
    ∀ c, c ∈ [Instr.keyEdge isLocal, .keyFirstValue isLocal] →
      (∀ e, s.cau.elect = some e → d.cau.due = true → d.cau.busyEmpty = true →
        ∃ t, exec c s = .next t ∧ t.cau.holder = some e ∧ t.cau.elect = none ∧ t.pmt.live = false ∧
          t.steady = d.steady) ∧
      (¬(d.cau.due = true ∧ d.cau.busyEmpty = true) →
        ∃ t, exec c s = .next t ∧ t.inner = ({ d with cau := { d.cau with deferred := d.cau.due } } : State).inner)

/-! ## Periodic events -/

/-- A PWM period start (R69, R175): every output with its flag set takes its pending compare, the zero times follow, the
next start is 5 ms away, and nothing else changes. -/
def Obligations.PwmStartAdoptsCompares : Prop :=
  ∀ s : State, ∃ t, exec .pwmPeriodStart s = .next t ∧
    t = { s with
      vod := { vis := s.vod.vis.adopted, rmp := s.vod.rmp.adopted, inr := s.vod.inr.adopted,
               forced := s.vod.forced, pwm := 5 }
      vis := { s.vis with zero := s.vis.zero.after s.vod.vis s.vod.vis.adopted }
      rmp := { s.rmp with zero := s.rmp.zero.after s.vod.rmp s.vod.rmp.adopted }
      inr := { s.inr with zero := s.inr.zero.after s.vod.inr s.vod.inr.adopted } }

/-- A control period expiry (R55 to R57, R59, R100). A sample that fails on a cylinder leaves the position, sets the
condition flag by its failure (that one of JUMP alone clears the flag is the model's reading, log 38), and where no
position fault is latched latches one, with the kinds and raw counts, which is a SENSOR trip. An accepted sample stores the
positions, clears the suspensions and the condition flag, and is tested against the switches. -/
def Obligations.SampleAcceptedOrFault : Prop :=
  (∀ a (p q : ChannelSample) (s d : State) k, d = (s.setChannels a ⟨p, q⟩).setAxis a { s.axis a with control := 20 } →
    k = (s.axis a).sampleKinds p q → k ≠ (none, none) →
    ∃ t, exec (.controlPeriodExpiry a p q) s = .next t ∧
      ((s.axis a).posFault ≠ none →
        t.steady = (d.setAxis a { d.axis a with posCond := condFail k.1 || condFail k.2 }).steady) ∧
      ((s.axis a).posFault = none →
        t.steady = (d.setAxis a { d.axis a with
          posCond := condFail k.1 || condFail k.2
          posFault := some ⟨k.1, k.2, p.raw, q.raw⟩
          jumpSuspP := true
          jumpSuspS := true }).steady ∧
        (s.agenda = [] → s.tru.record = none → t.latched .sensor (some (.axis a)) .none))) ∧
  (∀ a (p q : ChannelSample) (s d : State) (c : CylPos),
    d = (s.setChannels a ⟨p, q⟩).setAxis a { s.axis a with control := 20 } →
    (s.axis a).sampleKinds p q = (none, none) → c = (s.axis a).offeredPos p q →
    ∃ t, exec (.controlPeriodExpiry a p q) s = .next t ∧
      t.steady = (d.setAxis a { d.axis a with
        pos := some c
        jumpSuspP := false
        jumpSuspS := false
        posCond := false
        disagree := (s.axis a).closedDisagrees c.x || (s.axis a).openDisagrees c.x
        latchClosed := (s.axis a).latchClosed || (s.axis a).closedDisagrees c.x
        latchOpen := (s.axis a).latchOpen || (s.axis a).openDisagrees c.x }).steady)

/-- The drive. A computation in MOVING (R79 to R91): the commanded speed takes one ramp step toward the target speed, it
and the u of the computation are stored, and the compares of the two duties are handed to VOD, none where the skew is
too large. A completed step leaves the axis IDLE with no step and Vc 0 (section 3.7, log 35). The arithmetic: the speed
never passes its target and never changes by more than its ramp (R85), the approach limit is at most 1000 and not
negative short of the target (R83), the skew correction is the truncated quotient held to 250 either way (R88), and each
duty is clamped on its own, the side against the direction getting 0 (R89, R91). That a completion sets Vc to 0 is the
model's reading of the table of section 3.7, which R87's list does not name (log 35). -/
def Obligations.DriveComputesCompares : Prop :=
  (∀ a (st : AxisStep) (x u : Nat) (e : Int) (s : State) (vc : Nat), (s.axis a).phase = .moving →
    vc = rampSpeed (targetSpeed .moving (s.axis a).breakaway st.jog (s.axis a).par.creep
      (cappedSpeed ((s.axis a).profileAt x st.dir).speed u) (approachLimit (distance st.target x st.dir)
        (s.axis a).par.approachGain)) (s.axis a).vc ((s.axis a).profileAt x st.dir).ramp →
    ((driveCompute a st x u e s).axis a).vc = vc ∧ ((driveCompute a st x u e s).axis a).u = u ∧
    (driveCompute a st x u e s).agenda = s.agenda ∧
    ((s.axis a).par.skewLimit < e.natAbs → (driveCompute a st x u e s).drives a = s.drives a) ∧
    (s.vod.forced = false → ¬(s.axis a).par.skewLimit < e.natAbs →
      ((driveCompute a st x u e s).drives a).portOpen.pending = (demand vc e (s.axis a).par.skewGain st.dir).portOpen ∧
      ((driveCompute a st x u e s).drives a).portClose.pending = (demand vc e (s.axis a).par.skewGain st.dir).portClose ∧
      ((driveCompute a st x u e s).drives a).stbdOpen.pending = (demand vc e (s.axis a).par.skewGain st.dir).stbdOpen ∧
      ((driveCompute a st x u e s).drives a).stbdClose.pending = (demand vc e (s.axis a).par.skewGain st.dir).stbdClose)) ∧
  (∀ a (s : State), ((completeStep a s).axis a).phase = .idle ∧ ((completeStep a s).axis a).step = none ∧
    ((completeStep a s).axis a).vc = 0) ∧
  (∀ (vt vc r gain : Nat) (e d : Int),
    (vc ≤ vt → vc ≤ rampSpeed vt vc r ∧ rampSpeed vt vc r ≤ vt ∧ rampSpeed vt vc r ≤ vc + r) ∧
    (vt < vc → vt ≤ rampSpeed vt vc r ∧ rampSpeed vt vc r ≤ vc ∧ vc ≤ rampSpeed vt vc r + 2 * r) ∧
    (-250 ≤ skewCorrection e gain ∧ skewCorrection e gain ≤ 250) ∧ skewCorrection (-e) gain = -skewCorrection e gain ∧
    (approachLimit d gain ≤ 1000 ∧ (0 ≤ d → 0 ≤ approachLimit d gain)) ∧
    ∀ c : Int, c = max (-250) (min 250 ((e * gain).tdiv 64)) →
      demand vc e gain .opening = ⟨(max 0 (min 1000 (vc - c))).toNat * 5, 0, (max 0 (min 1000 (vc + c))).toNat * 5, 0⟩ ∧
      demand vc e gain .closing = ⟨0, (max 0 (min 1000 (vc + c))).toNat * 5, 0, (max 0 (min 1000 (vc - c))).toNat * 5⟩)

/-- A stall sample (R95, R96, R99): where it finds no stall it takes a new reference; where it finds one and a breakaway
may be given, the breakaway begins; else it is a STALL trip. The end of a breakaway clears it (R97). -/
def Obligations.StallGivesBreakawayOrTrip : Prop :=
  ∀ a x st (s : State), s.agenda = [] → (s.axis a).x? = some x → (s.axis a).step = some st →
    ((s.axis a).sampleDue = true →
      ((s.axis a).stalled x st.dir = false →
        ∃ t, exec (.stallSample a) s = .next t ∧
          t.inner = (s.setAxis a { s.axis a with stallRef := some (x, (s.axis a).vc), stallLeft := some 25 }).inner) ∧
      ((s.axis a).stalled x st.dir = true → (s.axis a).par.breakaway = true → (s.axis a).bkCount < 2 →
        s.hsa.running (.axisStep a) = 2 →
        ∃ t, exec (.stallSample a) s = .next t ∧
          t.inner = (s.setAxis a { s.axis a with
            stallRef := some (x, (s.axis a).vc), stallLeft := some 25, breakaway := true, bkLeft := some 75,
            bkCount := (s.axis a).bkCount + 1 }).inner) ∧
      ((s.axis a).stalled x st.dir = true →
        ((s.axis a).par.breakaway = false ∨ 2 ≤ (s.axis a).bkCount ∨ s.hsa.running (.axisStep a) < 2) →
        s.tru.record = none →
        ∃ t, exec (.stallSample a) s = .next t ∧ t.latched .stall (some (.axis a)) .none)) ∧
    ((s.axis a).breakaway = true →
      ∃ t, exec (.breakawayEnd a) s = .next t ∧
        t.inner = (s.setAxis a { s.axis a with breakaway := false, bkLeft := none }).inner) ∧
    ((s.axis a).breakaway = false → exec (.breakawayEnd a) s = .next s)

/-- The step clock (R30, R38, R39): the group's elapsed time and the counting timeouts and dwells advance by one, and
what has then reached 0 is taken in step order (the model's choice, log 21); as commands of their own (log 9), a
timeout at 0 is a STEP_TIMEOUT or LOCK_TIMEOUT trip naming the member, and a dwell at 0 takes its step out of the set,
DONE. -/
def Obligations.StepClockCountsDown : Prop :=
  ∀ s : State, s.agenda = [] →
    (∃ u, exec .stepClockExpiry s = .next (settle u) ∧
      u = { s with
        rne := { s.rne with
          clock := 100, elapsed := s.rne.elapsed.map (fun n => min 65535 (n + 1)),
          inflight := s.rne.inflight.map s.rne.tickEntry },
        agenda := (s.rne.inflight.map s.rne.tickEntry).flatMap s.rne.tickMsg }) ∧
    (∃ t, exec .stepClockExpiry s = .next t ∧ t.rne.clock = 100) ∧
    (∀ m e, s.rne.entry? m = some e → s.rne.counts e = true → s.tru.record = none →
      ∃ t, exec (.stepTimeoutExpiry m) s = .next t ∧ t.latched (timeoutCause m) (some m) .none) ∧
    (∀ m e, s.rne.entry? m = some e → s.rne.counts e = false → exec (.stepTimeoutExpiry m) s = .next s) ∧
    (∀ a e, s.rne.entry? (.axis a) = some e → s.rne.dwells e = true →
      ∃ u, exec (.dwellExpiry (.axis a)) s = .next (settle u) ∧ u.agenda = [.groupDone] ∧
        u.inner = ({ s with rne := s.rne.leave e .done } : State).inner) ∧
    (∀ g e, s.rne.entry? (.lock g) = some e → s.rne.dwells e = true →
      ∃ u, exec (.dwellExpiry (.lock g)) s = .next (settle u) ∧ u.agenda = [.groupDone] ∧
        u.rne = s.rne.leave e .done ∧ u.hsa = s.hsa ∧ u.vod = s.vod ∧ ∀ a, u.axis a = s.axis a) ∧
    (∀ m e, s.rne.entry? m = some e → s.rne.dwells e = false → exec (.dwellExpiry m) s = .next s)

/-! ## Timers -/

/-- The timers of an axis (R68, R69, R76): the announce timer ends in REVERSING, for what is left of the dead time, the
reversal timer in MOVING with Vc 0 and a fresh stall reference, the switch-wait timer in an ENDSW trip; the drives stay
as they are, and a timer that does not run does nothing. -/
def Obligations.AxisTimersMovePhase : Prop :=
  ∀ a (s : State), s.agenda = [] →
    ((s.axis a).announce ≠ none → (s.axis a).phase = .announce → (s.axis a).reversalLeft ≠ 0 →
      ∃ u, exec (.announceExpiry a) s = .next (settle u) ∧ (u.axis a).phase = .reversing ∧ (u.axis a).announce = none ∧
        (u.axis a).reversal = some (s.axis a).reversalLeft ∧ u.drives a = s.drives a ∧ u.rne = s.rne ∧ u.hsa = s.hsa ∧
        u.steady = s.steady) ∧
    ((s.axis a).announce ≠ none → (s.axis a).phase = .announce → (s.axis a).reversalLeft = 0 →
      ∃ u, exec (.announceExpiry a) s = .next (settle u) ∧ (u.axis a).phase = .moving ∧ (u.axis a).vc = 0 ∧
        u.drives a = s.drives a ∧ u.steady = s.steady) ∧
    ((s.axis a).announce = none → exec (.announceExpiry a) s = .next s) ∧
    ((s.axis a).reversal ≠ none → (s.axis a).phase = .reversing →
      ∃ u, exec (.reversalExpiry a) s = .next (settle u) ∧ (u.axis a).phase = .moving ∧ (u.axis a).vc = 0 ∧
        (u.axis a).reversal = none ∧ (u.axis a).stallRef = (s.axis a).x?.map (fun x => (x, 0)) ∧
        (u.axis a).stallLeft = some 25 ∧ u.drives a = s.drives a ∧ u.rne = s.rne ∧ u.hsa = s.hsa ∧
        u.steady = s.steady) ∧
    ((s.axis a).reversal = none → exec (.reversalExpiry a) s = .next s) ∧
    ((s.axis a).switchWait ≠ none → (s.axis a).phase = .seeking → s.tru.record = none →
      ∃ t, exec (.switchWaitExpiry a) s = .next t ∧ t.latched .endsw (some (.axis a)) .none) ∧
    ((s.axis a).switchWait = none → exec (.switchWaitExpiry a) s = .next s)

/-- The staleness timer (R14) makes the speed UNKNOWN and stale and keeps its value; the permit timer (R151) lapses the
permit, under PERMIT_ACTION TRIP with an axis driving as a PERMIT_LAPSE trip naming the first such axis, else as a lapse
event to the run engine; a timer that does not run does nothing. -/
def Obligations.SpeedAndPermitLapse : Prop :=
  ∀ s : State, s.agenda = [] →
    (s.ilk.expiry ≠ none →
      (∃ u, exec .speedStaleExpiry s = .next (settle u) ∧ u.agenda = [.reeval] ∧
        u.inner = ({ s with ilk := { s.ilk with known := false, stale := true, expiry := none } } : State).inner) ∧
      ∃ t, exec .speedStaleExpiry s = .next t ∧ t.ilk.known = false ∧ t.ilk.stale = true ∧ t.ilk.expiry = none ∧
        t.ilk.speed = s.ilk.speed) ∧
    (s.ilk.expiry = none → exec .speedStaleExpiry s = .next s) ∧
    (s.pmt.timer ≠ none →
      (∃ t, exec .permitExpiry s = .next t ∧
        t.pmt = { s.pmt with live := false, timer := none, lapsed := true }) ∧
      (∀ a, s.pmt.tripAction = true → s.firstDriving = some a → s.tru.record = none →
        ∃ t, exec .permitExpiry s = .next t ∧ t.latched .permitLapse (some (.axis a)) .none) ∧
      (s.pmt.tripAction = false ∨ s.firstDriving = none →
        ∃ u, exec .permitExpiry s = .next (settle u) ∧ u.agenda = [.lapseEvent, .refreshBlocked] ∧
          u.inner = ({ s with pmt := { s.pmt with live := false, timer := none, lapsed := true } } : State).inner)) ∧
    (s.pmt.timer = none → exec .permitExpiry s = .next s)

/-- The timers of a lock group (R112, R114, R115, R120): settling ends in HOLDING with the hold timer, HOLDING ends with
the operation, a periodic expiry is a top-up trigger that a trip or a lock step drops, and an ACTIVE top-up ends; a
timer that does not run does nothing (the model's choice, log 6). That with HOLD_TIME 0 the group still stands in
HOLDING, with no hold timer, when settling has ended, and HOLDING closes by a later message, is the model's choice of an
order (log 40). -/
def Obligations.LockTimersMovePhase : Prop :=
  ∀ g (s : State), s.agenda = [] →
    (∀ o, (s.lock g).settleT ≠ none → (s.lock g).op = some o → o.phase = .settling →
      ∃ u, exec (.settleExpiry g) s = .next (settle u) ∧ (u.lock g).op = some { o with phase := .holding } ∧
        (u.lock g).settleT = none ∧
        (u.lock g).holdT = (if (s.lock g).par.holdTime = 0 then none else some ((s.lock g).par.holdTime * 1000)) ∧
        .completion (.lock g) ∈ u.agenda ∧ .busyExit g ∈ u.agenda ∧ u.rne = s.rne ∧ u.hsa = s.hsa ∧
        u.steady = s.steady) ∧
    ((s.lock g).settleT = none → exec (.settleExpiry g) s = .next s) ∧
    (∀ o, (s.lock g).holdT ≠ none → (s.lock g).op = some o → o.phase = .holding →
      ∃ u, exec (.holdExpiry g) s = .next (settle u) ∧ (u.lock g).op = none ∧ (u.lock g).holdT = none ∧
        (∀ e ∈ u.ilk.watch, e.member ≠ .lock g) ∧ .release (.lockOp g) ∈ u.agenda ∧ u.rne = s.rne ∧ u.hsa = s.hsa ∧
        u.steady = s.steady) ∧
    ((s.lock g).holdT = none → exec (.holdExpiry g) s = .next s) ∧
    ((s.lock g).periodic ≠ none → s.topupBarred g = true →
      exec (.periodicTopupExpiry g) s = .next (s.setLock g { s.lock g with periodic := (s.lock g).fullPeriod })) ∧
    ((s.lock g).periodic ≠ none → s.topupBarred g = false → (s.lock g).top.status = .none →
      ∃ u, exec (.periodicTopupExpiry g) s = .next (settle u) ∧
        (u.lock g).top = ⟨.pendingGuard, true, false, false, false⟩ ∧ (u.lock g).periodic = none ∧ u.rne = s.rne ∧
        u.hsa = s.hsa ∧ u.steady = s.steady) ∧
    ((s.lock g).periodic = none → exec (.periodicTopupExpiry g) s = .next s) ∧
    ((s.lock g).topupT ≠ none → (s.lock g).top.status = .active →
      ∃ u, exec (.topupTimerExpiry g) s = .next (settle u) ∧ (u.lock g).top = ⟨.none, false, false, false, false⟩ ∧
        (u.lock g).topupT = none ∧ .release (.topUp g) ∈ u.agenda ∧ (∀ e ∈ u.ilk.watch, e.member ≠ .lock g) ∧
        u.rne = s.rne ∧ u.hsa = s.hsa ∧ u.steady = s.steady ∧
        ((s.lock g).top.srcCreep = true → (s.lock g).allPins .engaged = false →
          (u.lock g).creep = true ∧ .tripReport .lockCreep (some (.lock g)) .none ∈ u.agenda)) ∧
    ((s.lock g).topupT = none → exec (.topupTimerExpiry g) s = .next s)

end Statements
end

