-- ==== Sys2Proof/Laws/State.lean ====
section
/-! SUPPORT. What each update of the state leaves and what it sets: one lemma per field and update, true by
computation, so that no later proof unfolds a record update. -/

namespace Sys2Proof.Machine

/-! ## Changes through a function are settings -/

@[simp] theorem modAxis_eq (s : State) (a : Axis) (f : AxisState → AxisState) :
    s.modAxis a f = s.setAxis a (f (s.axis a)) := rfl

@[simp] theorem modLock_eq (s : State) (g : Group) (f : LockState → LockState) :
    s.modLock g f = s.setLock g (f (s.lock g)) := rfl

@[simp] theorem modUnit_eq (s : State) (u : UnitId) (f : PumpUnit → PumpUnit) :
    s.modUnit u f = s.setUnit u (f (s.unit u)) := rfl

@[simp] theorem modLink_eq (s : State) (st : Station) (f : Link → Link) :
    s.modLink st f = s.setLink st (f (s.link st)) := rfl


/-! ## setAxis -/

@[simp] theorem ilk_setAxis (s : State) (b : Axis) (v : AxisState) : (s.setAxis b v).ilk = s.ilk := by cases b <;> rfl
@[simp] theorem rne_setAxis (s : State) (b : Axis) (v : AxisState) : (s.setAxis b v).rne = s.rne := by cases b <;> rfl
@[simp] theorem hsa_setAxis (s : State) (b : Axis) (v : AxisState) : (s.setAxis b v).hsa = s.hsa := by cases b <;> rfl
@[simp] theorem cau_setAxis (s : State) (b : Axis) (v : AxisState) : (s.setAxis b v).cau = s.cau := by cases b <;> rfl
@[simp] theorem pmt_setAxis (s : State) (b : Axis) (v : AxisState) : (s.setAxis b v).pmt = s.pmt := by cases b <;> rfl
@[simp] theorem tru_setAxis (s : State) (b : Axis) (v : AxisState) : (s.setAxis b v).tru = s.tru := by cases b <;> rfl
@[simp] theorem dic_setAxis (s : State) (b : Axis) (v : AxisState) : (s.setAxis b v).dic = s.dic := by cases b <;> rfl
@[simp] theorem vod_setAxis (s : State) (b : Axis) (v : AxisState) : (s.setAxis b v).vod = s.vod := by cases b <;> rfl
@[simp] theorem pending_setAxis (s : State) (b : Axis) (v : AxisState) : (s.setAxis b v).pending = s.pending := by cases b <;> rfl
@[simp] theorem agenda_setAxis (s : State) (b : Axis) (v : AxisState) : (s.setAxis b v).agenda = s.agenda := by cases b <;> rfl
@[simp] theorem fresh_setAxis (s : State) (b : Axis) (v : AxisState) : (s.setAxis b v).fresh = s.fresh := by cases b <;> rfl
@[simp] theorem lock_setAxis (s : State) (b : Axis) (v : AxisState) (g : Group) : (s.setAxis b v).lock g = s.lock g :=
  by cases b <;> cases g <;> rfl
@[simp] theorem link_setAxis (s : State) (b : Axis) (v : AxisState) (st : Station) : (s.setAxis b v).link st = s.link st :=
  by cases b <;> cases st <;> rfl
@[simp] theorem channels_setAxis (s : State) (b : Axis) (v : AxisState) (a : Axis) : (s.setAxis b v).channels a = s.channels a :=
  by cases b <;> cases a <;> rfl
@[simp] theorem drives_setAxis (s : State) (b : Axis) (v : AxisState) (a : Axis) : (s.setAxis b v).drives a = s.drives a :=
  by cases b <;> cases a <;> rfl
@[simp] theorem unit_setAxis (s : State) (b : Axis) (v : AxisState) (u : UnitId) : (s.setAxis b v).unit u = s.unit u :=
  by cases b <;> cases u <;> rfl
@[simp] theorem axis_setAxis_self (s : State) (b : Axis) (v : AxisState) : (s.setAxis b v).axis b = v := by cases b <;> rfl
@[simp] theorem axis_setAxis_of_ne (s : State) (b : Axis) (v : AxisState) (a : Axis) (hne : a ≠ b) :
    (s.setAxis b v).axis a = s.axis a := by
  cases b <;> cases a <;> first | rfl | exact absurd rfl hne

/-! ## setLock -/

@[simp] theorem ilk_setLock (s : State) (h : Group) (v : LockState) : (s.setLock h v).ilk = s.ilk := by cases h <;> rfl
@[simp] theorem rne_setLock (s : State) (h : Group) (v : LockState) : (s.setLock h v).rne = s.rne := by cases h <;> rfl
@[simp] theorem hsa_setLock (s : State) (h : Group) (v : LockState) : (s.setLock h v).hsa = s.hsa := by cases h <;> rfl
@[simp] theorem cau_setLock (s : State) (h : Group) (v : LockState) : (s.setLock h v).cau = s.cau := by cases h <;> rfl
@[simp] theorem pmt_setLock (s : State) (h : Group) (v : LockState) : (s.setLock h v).pmt = s.pmt := by cases h <;> rfl
@[simp] theorem tru_setLock (s : State) (h : Group) (v : LockState) : (s.setLock h v).tru = s.tru := by cases h <;> rfl
@[simp] theorem dic_setLock (s : State) (h : Group) (v : LockState) : (s.setLock h v).dic = s.dic := by cases h <;> rfl
@[simp] theorem vod_setLock (s : State) (h : Group) (v : LockState) : (s.setLock h v).vod = s.vod := by cases h <;> rfl
@[simp] theorem pending_setLock (s : State) (h : Group) (v : LockState) : (s.setLock h v).pending = s.pending := by cases h <;> rfl
@[simp] theorem agenda_setLock (s : State) (h : Group) (v : LockState) : (s.setLock h v).agenda = s.agenda := by cases h <;> rfl
@[simp] theorem fresh_setLock (s : State) (h : Group) (v : LockState) : (s.setLock h v).fresh = s.fresh := by cases h <;> rfl
@[simp] theorem axis_setLock (s : State) (h : Group) (v : LockState) (a : Axis) : (s.setLock h v).axis a = s.axis a :=
  by cases h <;> cases a <;> rfl
@[simp] theorem link_setLock (s : State) (h : Group) (v : LockState) (st : Station) : (s.setLock h v).link st = s.link st :=
  by cases h <;> cases st <;> rfl
@[simp] theorem channels_setLock (s : State) (h : Group) (v : LockState) (a : Axis) : (s.setLock h v).channels a = s.channels a :=
  by cases h <;> cases a <;> rfl
@[simp] theorem drives_setLock (s : State) (h : Group) (v : LockState) (a : Axis) : (s.setLock h v).drives a = s.drives a :=
  by cases h <;> cases a <;> rfl
@[simp] theorem unit_setLock (s : State) (h : Group) (v : LockState) (u : UnitId) : (s.setLock h v).unit u = s.unit u :=
  by cases h <;> cases u <;> rfl
@[simp] theorem lock_setLock_self (s : State) (h : Group) (v : LockState) : (s.setLock h v).lock h = v := by cases h <;> rfl
@[simp] theorem lock_setLock_of_ne (s : State) (h : Group) (v : LockState) (g : Group) (hne : g ≠ h) :
    (s.setLock h v).lock g = s.lock g := by
  cases h <;> cases g <;> first | rfl | exact absurd rfl hne

/-! ## setUnit -/

@[simp] theorem ilk_setUnit (s : State) (w : UnitId) (v : PumpUnit) : (s.setUnit w v).ilk = s.ilk := by cases w <;> rfl
@[simp] theorem rne_setUnit (s : State) (w : UnitId) (v : PumpUnit) : (s.setUnit w v).rne = s.rne := by cases w <;> rfl
@[simp] theorem cau_setUnit (s : State) (w : UnitId) (v : PumpUnit) : (s.setUnit w v).cau = s.cau := by cases w <;> rfl
@[simp] theorem pmt_setUnit (s : State) (w : UnitId) (v : PumpUnit) : (s.setUnit w v).pmt = s.pmt := by cases w <;> rfl
@[simp] theorem tru_setUnit (s : State) (w : UnitId) (v : PumpUnit) : (s.setUnit w v).tru = s.tru := by cases w <;> rfl
@[simp] theorem dic_setUnit (s : State) (w : UnitId) (v : PumpUnit) : (s.setUnit w v).dic = s.dic := by cases w <;> rfl
@[simp] theorem vod_setUnit (s : State) (w : UnitId) (v : PumpUnit) : (s.setUnit w v).vod = s.vod := by cases w <;> rfl
@[simp] theorem pending_setUnit (s : State) (w : UnitId) (v : PumpUnit) : (s.setUnit w v).pending = s.pending := by cases w <;> rfl
@[simp] theorem agenda_setUnit (s : State) (w : UnitId) (v : PumpUnit) : (s.setUnit w v).agenda = s.agenda := by cases w <;> rfl
@[simp] theorem fresh_setUnit (s : State) (w : UnitId) (v : PumpUnit) : (s.setUnit w v).fresh = s.fresh := by cases w <;> rfl
@[simp] theorem axis_setUnit (s : State) (w : UnitId) (v : PumpUnit) (a : Axis) : (s.setUnit w v).axis a = s.axis a :=
  by cases w <;> cases a <;> rfl
@[simp] theorem lock_setUnit (s : State) (w : UnitId) (v : PumpUnit) (g : Group) : (s.setUnit w v).lock g = s.lock g :=
  by cases w <;> cases g <;> rfl
@[simp] theorem link_setUnit (s : State) (w : UnitId) (v : PumpUnit) (st : Station) : (s.setUnit w v).link st = s.link st :=
  by cases w <;> cases st <;> rfl
@[simp] theorem channels_setUnit (s : State) (w : UnitId) (v : PumpUnit) (a : Axis) : (s.setUnit w v).channels a = s.channels a :=
  by cases w <;> cases a <;> rfl
@[simp] theorem drives_setUnit (s : State) (w : UnitId) (v : PumpUnit) (a : Axis) : (s.setUnit w v).drives a = s.drives a :=
  by cases w <;> cases a <;> rfl
@[simp] theorem unit_setUnit_self (s : State) (w : UnitId) (v : PumpUnit) : (s.setUnit w v).unit w = v := by cases w <;> rfl
@[simp] theorem unit_setUnit_of_ne (s : State) (w : UnitId) (v : PumpUnit) (u : UnitId) (hne : u ≠ w) :
    (s.setUnit w v).unit u = s.unit u := by
  cases w <;> cases u <;> first | rfl | exact absurd rfl hne

/-! ## setLink -/

@[simp] theorem ilk_setLink (s : State) (t : Station) (v : Link) : (s.setLink t v).ilk = s.ilk := by cases t <;> rfl
@[simp] theorem rne_setLink (s : State) (t : Station) (v : Link) : (s.setLink t v).rne = s.rne := by cases t <;> rfl
@[simp] theorem hsa_setLink (s : State) (t : Station) (v : Link) : (s.setLink t v).hsa = s.hsa := by cases t <;> rfl
@[simp] theorem cau_setLink (s : State) (t : Station) (v : Link) : (s.setLink t v).cau = s.cau := by cases t <;> rfl
@[simp] theorem pmt_setLink (s : State) (t : Station) (v : Link) : (s.setLink t v).pmt = s.pmt := by cases t <;> rfl
@[simp] theorem tru_setLink (s : State) (t : Station) (v : Link) : (s.setLink t v).tru = s.tru := by cases t <;> rfl
@[simp] theorem dic_setLink (s : State) (t : Station) (v : Link) : (s.setLink t v).dic = s.dic := by cases t <;> rfl
@[simp] theorem vod_setLink (s : State) (t : Station) (v : Link) : (s.setLink t v).vod = s.vod := by cases t <;> rfl
@[simp] theorem pending_setLink (s : State) (t : Station) (v : Link) : (s.setLink t v).pending = s.pending := by cases t <;> rfl
@[simp] theorem agenda_setLink (s : State) (t : Station) (v : Link) : (s.setLink t v).agenda = s.agenda := by cases t <;> rfl
@[simp] theorem fresh_setLink (s : State) (t : Station) (v : Link) : (s.setLink t v).fresh = s.fresh := by cases t <;> rfl
@[simp] theorem axis_setLink (s : State) (t : Station) (v : Link) (a : Axis) : (s.setLink t v).axis a = s.axis a :=
  by cases t <;> cases a <;> rfl
@[simp] theorem lock_setLink (s : State) (t : Station) (v : Link) (g : Group) : (s.setLink t v).lock g = s.lock g :=
  by cases t <;> cases g <;> rfl
@[simp] theorem channels_setLink (s : State) (t : Station) (v : Link) (a : Axis) : (s.setLink t v).channels a = s.channels a :=
  by cases t <;> cases a <;> rfl
@[simp] theorem drives_setLink (s : State) (t : Station) (v : Link) (a : Axis) : (s.setLink t v).drives a = s.drives a :=
  by cases t <;> cases a <;> rfl
@[simp] theorem unit_setLink (s : State) (t : Station) (v : Link) (u : UnitId) : (s.setLink t v).unit u = s.unit u :=
  by cases t <;> cases u <;> rfl
@[simp] theorem link_setLink_self (s : State) (t : Station) (v : Link) : (s.setLink t v).link t = v := by cases t <;> rfl
@[simp] theorem link_setLink_of_ne (s : State) (t : Station) (v : Link) (st : Station) (hne : st ≠ t) :
    (s.setLink t v).link st = s.link st := by
  cases t <;> cases st <;> first | rfl | exact absurd rfl hne

/-! ## setChannels -/

@[simp] theorem ilk_setChannels (s : State) (b : Axis) (v : Channels) : (s.setChannels b v).ilk = s.ilk := by cases b <;> rfl
@[simp] theorem rne_setChannels (s : State) (b : Axis) (v : Channels) : (s.setChannels b v).rne = s.rne := by cases b <;> rfl
@[simp] theorem hsa_setChannels (s : State) (b : Axis) (v : Channels) : (s.setChannels b v).hsa = s.hsa := by cases b <;> rfl
@[simp] theorem cau_setChannels (s : State) (b : Axis) (v : Channels) : (s.setChannels b v).cau = s.cau := by cases b <;> rfl
@[simp] theorem pmt_setChannels (s : State) (b : Axis) (v : Channels) : (s.setChannels b v).pmt = s.pmt := by cases b <;> rfl
@[simp] theorem tru_setChannels (s : State) (b : Axis) (v : Channels) : (s.setChannels b v).tru = s.tru := by cases b <;> rfl
@[simp] theorem dic_setChannels (s : State) (b : Axis) (v : Channels) : (s.setChannels b v).dic = s.dic := by cases b <;> rfl
@[simp] theorem vod_setChannels (s : State) (b : Axis) (v : Channels) : (s.setChannels b v).vod = s.vod := by cases b <;> rfl
@[simp] theorem pending_setChannels (s : State) (b : Axis) (v : Channels) : (s.setChannels b v).pending = s.pending := by cases b <;> rfl
@[simp] theorem agenda_setChannels (s : State) (b : Axis) (v : Channels) : (s.setChannels b v).agenda = s.agenda := by cases b <;> rfl
@[simp] theorem fresh_setChannels (s : State) (b : Axis) (v : Channels) : (s.setChannels b v).fresh = s.fresh := by cases b <;> rfl
@[simp] theorem axis_setChannels (s : State) (b : Axis) (v : Channels) (a : Axis) : (s.setChannels b v).axis a = s.axis a :=
  by cases b <;> cases a <;> rfl
@[simp] theorem lock_setChannels (s : State) (b : Axis) (v : Channels) (g : Group) : (s.setChannels b v).lock g = s.lock g :=
  by cases b <;> cases g <;> rfl
@[simp] theorem link_setChannels (s : State) (b : Axis) (v : Channels) (st : Station) : (s.setChannels b v).link st = s.link st :=
  by cases b <;> cases st <;> rfl
@[simp] theorem drives_setChannels (s : State) (b : Axis) (v : Channels) (a : Axis) : (s.setChannels b v).drives a = s.drives a :=
  by cases b <;> cases a <;> rfl
@[simp] theorem unit_setChannels (s : State) (b : Axis) (v : Channels) (u : UnitId) : (s.setChannels b v).unit u = s.unit u :=
  by cases b <;> cases u <;> rfl
@[simp] theorem channels_setChannels_self (s : State) (b : Axis) (v : Channels) : (s.setChannels b v).channels b = v := by cases b <;> rfl
@[simp] theorem channels_setChannels_of_ne (s : State) (b : Axis) (v : Channels) (a : Axis) (hne : a ≠ b) :
    (s.setChannels b v).channels a = s.channels a := by
  cases b <;> cases a <;> first | rfl | exact absurd rfl hne

/-! ## setDrives -/

@[simp] theorem ilk_setDrives (s : State) (b : Axis) (v : Drives) : (s.setDrives b v).ilk = s.ilk := by cases b <;> rfl
@[simp] theorem rne_setDrives (s : State) (b : Axis) (v : Drives) : (s.setDrives b v).rne = s.rne := by cases b <;> rfl
@[simp] theorem hsa_setDrives (s : State) (b : Axis) (v : Drives) : (s.setDrives b v).hsa = s.hsa := by cases b <;> rfl
@[simp] theorem cau_setDrives (s : State) (b : Axis) (v : Drives) : (s.setDrives b v).cau = s.cau := by cases b <;> rfl
@[simp] theorem pmt_setDrives (s : State) (b : Axis) (v : Drives) : (s.setDrives b v).pmt = s.pmt := by cases b <;> rfl
@[simp] theorem tru_setDrives (s : State) (b : Axis) (v : Drives) : (s.setDrives b v).tru = s.tru := by cases b <;> rfl
@[simp] theorem dic_setDrives (s : State) (b : Axis) (v : Drives) : (s.setDrives b v).dic = s.dic := by cases b <;> rfl
@[simp] theorem pending_setDrives (s : State) (b : Axis) (v : Drives) : (s.setDrives b v).pending = s.pending := by cases b <;> rfl
@[simp] theorem agenda_setDrives (s : State) (b : Axis) (v : Drives) : (s.setDrives b v).agenda = s.agenda := by cases b <;> rfl
@[simp] theorem fresh_setDrives (s : State) (b : Axis) (v : Drives) : (s.setDrives b v).fresh = s.fresh := by cases b <;> rfl
@[simp] theorem axis_setDrives (s : State) (b : Axis) (v : Drives) (a : Axis) : (s.setDrives b v).axis a = s.axis a :=
  by cases b <;> cases a <;> rfl
@[simp] theorem lock_setDrives (s : State) (b : Axis) (v : Drives) (g : Group) : (s.setDrives b v).lock g = s.lock g :=
  by cases b <;> cases g <;> rfl
@[simp] theorem link_setDrives (s : State) (b : Axis) (v : Drives) (st : Station) : (s.setDrives b v).link st = s.link st :=
  by cases b <;> cases st <;> rfl
@[simp] theorem channels_setDrives (s : State) (b : Axis) (v : Drives) (a : Axis) : (s.setDrives b v).channels a = s.channels a :=
  by cases b <;> cases a <;> rfl
@[simp] theorem unit_setDrives (s : State) (b : Axis) (v : Drives) (u : UnitId) : (s.setDrives b v).unit u = s.unit u :=
  by cases b <;> cases u <;> rfl
@[simp] theorem drives_setDrives_self (s : State) (b : Axis) (v : Drives) : (s.setDrives b v).drives b = v := by cases b <;> rfl
@[simp] theorem drives_setDrives_of_ne (s : State) (b : Axis) (v : Drives) (a : Axis) (hne : a ≠ b) :
    (s.setDrives b v).drives a = s.drives a := by
  cases b <;> cases a <;> first | rfl | exact absurd rfl hne

/-! ## setWatch -/

@[simp] theorem rne_setWatch (s : State) (l : List WatchEntry) : (s.setWatch l).rne = s.rne := rfl
@[simp] theorem hsa_setWatch (s : State) (l : List WatchEntry) : (s.setWatch l).hsa = s.hsa := rfl
@[simp] theorem cau_setWatch (s : State) (l : List WatchEntry) : (s.setWatch l).cau = s.cau := rfl
@[simp] theorem pmt_setWatch (s : State) (l : List WatchEntry) : (s.setWatch l).pmt = s.pmt := rfl
@[simp] theorem tru_setWatch (s : State) (l : List WatchEntry) : (s.setWatch l).tru = s.tru := rfl
@[simp] theorem dic_setWatch (s : State) (l : List WatchEntry) : (s.setWatch l).dic = s.dic := rfl
@[simp] theorem vod_setWatch (s : State) (l : List WatchEntry) : (s.setWatch l).vod = s.vod := rfl
@[simp] theorem pending_setWatch (s : State) (l : List WatchEntry) : (s.setWatch l).pending = s.pending := rfl
@[simp] theorem agenda_setWatch (s : State) (l : List WatchEntry) : (s.setWatch l).agenda = s.agenda := rfl
@[simp] theorem fresh_setWatch (s : State) (l : List WatchEntry) : (s.setWatch l).fresh = s.fresh := rfl
@[simp] theorem axis_setWatch (s : State) (l : List WatchEntry) (a : Axis) : (s.setWatch l).axis a = s.axis a :=
  by cases a <;> rfl
@[simp] theorem lock_setWatch (s : State) (l : List WatchEntry) (g : Group) : (s.setWatch l).lock g = s.lock g :=
  by cases g <;> rfl
@[simp] theorem link_setWatch (s : State) (l : List WatchEntry) (st : Station) : (s.setWatch l).link st = s.link st :=
  by cases st <;> rfl
@[simp] theorem channels_setWatch (s : State) (l : List WatchEntry) (a : Axis) : (s.setWatch l).channels a = s.channels a :=
  by cases a <;> rfl
@[simp] theorem drives_setWatch (s : State) (l : List WatchEntry) (a : Axis) : (s.setWatch l).drives a = s.drives a :=
  by cases a <;> rfl
@[simp] theorem unit_setWatch (s : State) (l : List WatchEntry) (u : UnitId) : (s.setWatch l).unit u = s.unit u :=
  by cases u <;> rfl

/-! ## setWants -/

@[simp] theorem ilk_setWants (s : State) (l : List Want) : (s.setWants l).ilk = s.ilk := rfl
@[simp] theorem rne_setWants (s : State) (l : List Want) : (s.setWants l).rne = s.rne := rfl
@[simp] theorem cau_setWants (s : State) (l : List Want) : (s.setWants l).cau = s.cau := rfl
@[simp] theorem pmt_setWants (s : State) (l : List Want) : (s.setWants l).pmt = s.pmt := rfl
@[simp] theorem tru_setWants (s : State) (l : List Want) : (s.setWants l).tru = s.tru := rfl
@[simp] theorem dic_setWants (s : State) (l : List Want) : (s.setWants l).dic = s.dic := rfl
@[simp] theorem vod_setWants (s : State) (l : List Want) : (s.setWants l).vod = s.vod := rfl
@[simp] theorem pending_setWants (s : State) (l : List Want) : (s.setWants l).pending = s.pending := rfl
@[simp] theorem agenda_setWants (s : State) (l : List Want) : (s.setWants l).agenda = s.agenda := rfl
@[simp] theorem fresh_setWants (s : State) (l : List Want) : (s.setWants l).fresh = s.fresh := rfl
@[simp] theorem axis_setWants (s : State) (l : List Want) (a : Axis) : (s.setWants l).axis a = s.axis a :=
  by cases a <;> rfl
@[simp] theorem lock_setWants (s : State) (l : List Want) (g : Group) : (s.setWants l).lock g = s.lock g :=
  by cases g <;> rfl
@[simp] theorem link_setWants (s : State) (l : List Want) (st : Station) : (s.setWants l).link st = s.link st :=
  by cases st <;> rfl
@[simp] theorem channels_setWants (s : State) (l : List Want) (a : Axis) : (s.setWants l).channels a = s.channels a :=
  by cases a <;> rfl
@[simp] theorem drives_setWants (s : State) (l : List Want) (a : Axis) : (s.setWants l).drives a = s.drives a :=
  by cases a <;> rfl
@[simp] theorem unit_setWants (s : State) (l : List Want) (u : UnitId) : (s.setWants l).unit u = s.unit u :=
  by cases u <;> rfl

/-! ## emit -/

@[simp] theorem ilk_emit (s : State) (l : List Msg) : (s.emit l).ilk = s.ilk := rfl
@[simp] theorem rne_emit (s : State) (l : List Msg) : (s.emit l).rne = s.rne := rfl
@[simp] theorem hsa_emit (s : State) (l : List Msg) : (s.emit l).hsa = s.hsa := rfl
@[simp] theorem cau_emit (s : State) (l : List Msg) : (s.emit l).cau = s.cau := rfl
@[simp] theorem pmt_emit (s : State) (l : List Msg) : (s.emit l).pmt = s.pmt := rfl
@[simp] theorem tru_emit (s : State) (l : List Msg) : (s.emit l).tru = s.tru := rfl
@[simp] theorem dic_emit (s : State) (l : List Msg) : (s.emit l).dic = s.dic := rfl
@[simp] theorem vod_emit (s : State) (l : List Msg) : (s.emit l).vod = s.vod := rfl
@[simp] theorem pending_emit (s : State) (l : List Msg) : (s.emit l).pending = s.pending := rfl
@[simp] theorem fresh_emit (s : State) (l : List Msg) : (s.emit l).fresh = s.fresh := rfl
@[simp] theorem axis_emit (s : State) (l : List Msg) (a : Axis) : (s.emit l).axis a = s.axis a :=
  by cases a <;> rfl
@[simp] theorem lock_emit (s : State) (l : List Msg) (g : Group) : (s.emit l).lock g = s.lock g :=
  by cases g <;> rfl
@[simp] theorem link_emit (s : State) (l : List Msg) (st : Station) : (s.emit l).link st = s.link st :=
  by cases st <;> rfl
@[simp] theorem channels_emit (s : State) (l : List Msg) (a : Axis) : (s.emit l).channels a = s.channels a :=
  by cases a <;> rfl
@[simp] theorem drives_emit (s : State) (l : List Msg) (a : Axis) : (s.emit l).drives a = s.drives a :=
  by cases a <;> rfl
@[simp] theorem unit_emit (s : State) (l : List Msg) (u : UnitId) : (s.emit l).unit u = s.unit u :=
  by cases u <;> rfl

/-! ## modRne -/

@[simp] theorem ilk_modRne (s : State) (f : Rne → Rne) : (s.modRne f).ilk = s.ilk := rfl
@[simp] theorem hsa_modRne (s : State) (f : Rne → Rne) : (s.modRne f).hsa = s.hsa := rfl
@[simp] theorem cau_modRne (s : State) (f : Rne → Rne) : (s.modRne f).cau = s.cau := rfl
@[simp] theorem pmt_modRne (s : State) (f : Rne → Rne) : (s.modRne f).pmt = s.pmt := rfl
@[simp] theorem tru_modRne (s : State) (f : Rne → Rne) : (s.modRne f).tru = s.tru := rfl
@[simp] theorem dic_modRne (s : State) (f : Rne → Rne) : (s.modRne f).dic = s.dic := rfl
@[simp] theorem vod_modRne (s : State) (f : Rne → Rne) : (s.modRne f).vod = s.vod := rfl
@[simp] theorem pending_modRne (s : State) (f : Rne → Rne) : (s.modRne f).pending = s.pending := rfl
@[simp] theorem agenda_modRne (s : State) (f : Rne → Rne) : (s.modRne f).agenda = s.agenda := rfl
@[simp] theorem fresh_modRne (s : State) (f : Rne → Rne) : (s.modRne f).fresh = s.fresh := rfl
@[simp] theorem axis_modRne (s : State) (f : Rne → Rne) (a : Axis) : (s.modRne f).axis a = s.axis a :=
  by cases a <;> rfl
@[simp] theorem lock_modRne (s : State) (f : Rne → Rne) (g : Group) : (s.modRne f).lock g = s.lock g :=
  by cases g <;> rfl
@[simp] theorem link_modRne (s : State) (f : Rne → Rne) (st : Station) : (s.modRne f).link st = s.link st :=
  by cases st <;> rfl
@[simp] theorem channels_modRne (s : State) (f : Rne → Rne) (a : Axis) : (s.modRne f).channels a = s.channels a :=
  by cases a <;> rfl
@[simp] theorem drives_modRne (s : State) (f : Rne → Rne) (a : Axis) : (s.modRne f).drives a = s.drives a :=
  by cases a <;> rfl
@[simp] theorem unit_modRne (s : State) (f : Rne → Rne) (u : UnitId) : (s.modRne f).unit u = s.unit u :=
  by cases u <;> rfl

/-! ## modCau -/

@[simp] theorem ilk_modCau (s : State) (f : Cau → Cau) : (s.modCau f).ilk = s.ilk := rfl
@[simp] theorem rne_modCau (s : State) (f : Cau → Cau) : (s.modCau f).rne = s.rne := rfl
@[simp] theorem hsa_modCau (s : State) (f : Cau → Cau) : (s.modCau f).hsa = s.hsa := rfl
@[simp] theorem pmt_modCau (s : State) (f : Cau → Cau) : (s.modCau f).pmt = s.pmt := rfl
@[simp] theorem tru_modCau (s : State) (f : Cau → Cau) : (s.modCau f).tru = s.tru := rfl
@[simp] theorem dic_modCau (s : State) (f : Cau → Cau) : (s.modCau f).dic = s.dic := rfl
@[simp] theorem vod_modCau (s : State) (f : Cau → Cau) : (s.modCau f).vod = s.vod := rfl
@[simp] theorem pending_modCau (s : State) (f : Cau → Cau) : (s.modCau f).pending = s.pending := rfl
@[simp] theorem agenda_modCau (s : State) (f : Cau → Cau) : (s.modCau f).agenda = s.agenda := rfl
@[simp] theorem fresh_modCau (s : State) (f : Cau → Cau) : (s.modCau f).fresh = s.fresh := rfl
@[simp] theorem axis_modCau (s : State) (f : Cau → Cau) (a : Axis) : (s.modCau f).axis a = s.axis a :=
  by cases a <;> rfl
@[simp] theorem lock_modCau (s : State) (f : Cau → Cau) (g : Group) : (s.modCau f).lock g = s.lock g :=
  by cases g <;> rfl
@[simp] theorem link_modCau (s : State) (f : Cau → Cau) (st : Station) : (s.modCau f).link st = s.link st :=
  by cases st <;> rfl
@[simp] theorem channels_modCau (s : State) (f : Cau → Cau) (a : Axis) : (s.modCau f).channels a = s.channels a :=
  by cases a <;> rfl
@[simp] theorem drives_modCau (s : State) (f : Cau → Cau) (a : Axis) : (s.modCau f).drives a = s.drives a :=
  by cases a <;> rfl
@[simp] theorem unit_modCau (s : State) (f : Cau → Cau) (u : UnitId) : (s.modCau f).unit u = s.unit u :=
  by cases u <;> rfl

/-! ## modPmt -/

@[simp] theorem ilk_modPmt (s : State) (f : Pmt → Pmt) : (s.modPmt f).ilk = s.ilk := rfl
@[simp] theorem rne_modPmt (s : State) (f : Pmt → Pmt) : (s.modPmt f).rne = s.rne := rfl
@[simp] theorem hsa_modPmt (s : State) (f : Pmt → Pmt) : (s.modPmt f).hsa = s.hsa := rfl
@[simp] theorem cau_modPmt (s : State) (f : Pmt → Pmt) : (s.modPmt f).cau = s.cau := rfl
@[simp] theorem tru_modPmt (s : State) (f : Pmt → Pmt) : (s.modPmt f).tru = s.tru := rfl
@[simp] theorem dic_modPmt (s : State) (f : Pmt → Pmt) : (s.modPmt f).dic = s.dic := rfl
@[simp] theorem vod_modPmt (s : State) (f : Pmt → Pmt) : (s.modPmt f).vod = s.vod := rfl
@[simp] theorem pending_modPmt (s : State) (f : Pmt → Pmt) : (s.modPmt f).pending = s.pending := rfl
@[simp] theorem agenda_modPmt (s : State) (f : Pmt → Pmt) : (s.modPmt f).agenda = s.agenda := rfl
@[simp] theorem fresh_modPmt (s : State) (f : Pmt → Pmt) : (s.modPmt f).fresh = s.fresh := rfl
@[simp] theorem axis_modPmt (s : State) (f : Pmt → Pmt) (a : Axis) : (s.modPmt f).axis a = s.axis a :=
  by cases a <;> rfl
@[simp] theorem lock_modPmt (s : State) (f : Pmt → Pmt) (g : Group) : (s.modPmt f).lock g = s.lock g :=
  by cases g <;> rfl
@[simp] theorem link_modPmt (s : State) (f : Pmt → Pmt) (st : Station) : (s.modPmt f).link st = s.link st :=
  by cases st <;> rfl
@[simp] theorem channels_modPmt (s : State) (f : Pmt → Pmt) (a : Axis) : (s.modPmt f).channels a = s.channels a :=
  by cases a <;> rfl
@[simp] theorem drives_modPmt (s : State) (f : Pmt → Pmt) (a : Axis) : (s.modPmt f).drives a = s.drives a :=
  by cases a <;> rfl
@[simp] theorem unit_modPmt (s : State) (f : Pmt → Pmt) (u : UnitId) : (s.modPmt f).unit u = s.unit u :=
  by cases u <;> rfl

/-! ## modTru -/

@[simp] theorem ilk_modTru (s : State) (f : Tru → Tru) : (s.modTru f).ilk = s.ilk := rfl
@[simp] theorem rne_modTru (s : State) (f : Tru → Tru) : (s.modTru f).rne = s.rne := rfl
@[simp] theorem hsa_modTru (s : State) (f : Tru → Tru) : (s.modTru f).hsa = s.hsa := rfl
@[simp] theorem cau_modTru (s : State) (f : Tru → Tru) : (s.modTru f).cau = s.cau := rfl
@[simp] theorem pmt_modTru (s : State) (f : Tru → Tru) : (s.modTru f).pmt = s.pmt := rfl
@[simp] theorem dic_modTru (s : State) (f : Tru → Tru) : (s.modTru f).dic = s.dic := rfl
@[simp] theorem vod_modTru (s : State) (f : Tru → Tru) : (s.modTru f).vod = s.vod := rfl
@[simp] theorem pending_modTru (s : State) (f : Tru → Tru) : (s.modTru f).pending = s.pending := rfl
@[simp] theorem agenda_modTru (s : State) (f : Tru → Tru) : (s.modTru f).agenda = s.agenda := rfl
@[simp] theorem fresh_modTru (s : State) (f : Tru → Tru) : (s.modTru f).fresh = s.fresh := rfl
@[simp] theorem axis_modTru (s : State) (f : Tru → Tru) (a : Axis) : (s.modTru f).axis a = s.axis a :=
  by cases a <;> rfl
@[simp] theorem lock_modTru (s : State) (f : Tru → Tru) (g : Group) : (s.modTru f).lock g = s.lock g :=
  by cases g <;> rfl
@[simp] theorem link_modTru (s : State) (f : Tru → Tru) (st : Station) : (s.modTru f).link st = s.link st :=
  by cases st <;> rfl
@[simp] theorem channels_modTru (s : State) (f : Tru → Tru) (a : Axis) : (s.modTru f).channels a = s.channels a :=
  by cases a <;> rfl
@[simp] theorem drives_modTru (s : State) (f : Tru → Tru) (a : Axis) : (s.modTru f).drives a = s.drives a :=
  by cases a <;> rfl
@[simp] theorem unit_modTru (s : State) (f : Tru → Tru) (u : UnitId) : (s.modTru f).unit u = s.unit u :=
  by cases u <;> rfl

/-! ## modDic -/

@[simp] theorem ilk_modDic (s : State) (f : Dic → Dic) : (s.modDic f).ilk = s.ilk := rfl
@[simp] theorem rne_modDic (s : State) (f : Dic → Dic) : (s.modDic f).rne = s.rne := rfl
@[simp] theorem hsa_modDic (s : State) (f : Dic → Dic) : (s.modDic f).hsa = s.hsa := rfl
@[simp] theorem cau_modDic (s : State) (f : Dic → Dic) : (s.modDic f).cau = s.cau := rfl
@[simp] theorem pmt_modDic (s : State) (f : Dic → Dic) : (s.modDic f).pmt = s.pmt := rfl
@[simp] theorem tru_modDic (s : State) (f : Dic → Dic) : (s.modDic f).tru = s.tru := rfl
@[simp] theorem vod_modDic (s : State) (f : Dic → Dic) : (s.modDic f).vod = s.vod := rfl
@[simp] theorem pending_modDic (s : State) (f : Dic → Dic) : (s.modDic f).pending = s.pending := rfl
@[simp] theorem agenda_modDic (s : State) (f : Dic → Dic) : (s.modDic f).agenda = s.agenda := rfl
@[simp] theorem fresh_modDic (s : State) (f : Dic → Dic) : (s.modDic f).fresh = s.fresh := rfl
@[simp] theorem axis_modDic (s : State) (f : Dic → Dic) (a : Axis) : (s.modDic f).axis a = s.axis a :=
  by cases a <;> rfl
@[simp] theorem lock_modDic (s : State) (f : Dic → Dic) (g : Group) : (s.modDic f).lock g = s.lock g :=
  by cases g <;> rfl
@[simp] theorem link_modDic (s : State) (f : Dic → Dic) (st : Station) : (s.modDic f).link st = s.link st :=
  by cases st <;> rfl
@[simp] theorem channels_modDic (s : State) (f : Dic → Dic) (a : Axis) : (s.modDic f).channels a = s.channels a :=
  by cases a <;> rfl
@[simp] theorem drives_modDic (s : State) (f : Dic → Dic) (a : Axis) : (s.modDic f).drives a = s.drives a :=
  by cases a <;> rfl
@[simp] theorem unit_modDic (s : State) (f : Dic → Dic) (u : UnitId) : (s.modDic f).unit u = s.unit u :=
  by cases u <;> rfl

/-! ## The fields that an update sets -/

@[simp] theorem ilk_setWatch (s : State) (l : List WatchEntry) : (s.setWatch l).ilk = { s.ilk with watch := l } := rfl
@[simp] theorem hsa_setWants (s : State) (l : List Want) : (s.setWants l).hsa = { s.hsa with wants := l } := rfl
@[simp] theorem agenda_emit (s : State) (l : List Msg) : (s.emit l).agenda = s.agenda ++ l := rfl
@[simp] theorem rne_modRne (s : State) (f : Rne → Rne) : (s.modRne f).rne = f s.rne := rfl
@[simp] theorem cau_modCau (s : State) (f : Cau → Cau) : (s.modCau f).cau = f s.cau := rfl
@[simp] theorem pmt_modPmt (s : State) (f : Pmt → Pmt) : (s.modPmt f).pmt = f s.pmt := rfl
@[simp] theorem tru_modTru (s : State) (f : Tru → Tru) : (s.modTru f).tru = f s.tru := rfl
@[simp] theorem dic_modDic (s : State) (f : Dic → Dic) : (s.modDic f).dic = f s.dic := rfl
@[simp] theorem wants_setUnit (s : State) (w : UnitId) (v : PumpUnit) : (s.setUnit w v).hsa.wants = s.hsa.wants := by
  cases w <;> rfl
@[simp] theorem startLimit_setUnit (s : State) (w : UnitId) (v : PumpUnit) :
    (s.setUnit w v).hsa.startLimit = s.hsa.startLimit := by cases w <;> rfl
@[simp] theorem runOn_setUnit (s : State) (w : UnitId) (v : PumpUnit) : (s.setUnit w v).hsa.runOn = s.hsa.runOn := by
  cases w <;> rfl
@[simp] theorem forced_setDrives (s : State) (b : Axis) (v : Drives) : (s.setDrives b v).vod.forced = s.vod.forced := by
  cases b <;> rfl
@[simp] theorem pwm_setDrives (s : State) (b : Axis) (v : Drives) : (s.setDrives b v).vod.pwm = s.vod.pwm := by
  cases b <;> rfl

/-- Sending nothing changes nothing. -/
@[simp] theorem emit_nil (s : State) : s.emit [] = s := by simp [State.emit]

end Sys2Proof.Machine
end

