-- ==== Sys2Proof/Laws/Moves.lean ====
section
/-! SUPPORT. What the part can do, said once: every handler and every command is a chain of the moves listed here, and
what a chain of moves keeps is proved by induction over it. -/

namespace Sys2Proof.Machine

/-- Four compares that drive no cylinder both ways (R91). -/
def Sides.apart (c : Sides) : Prop :=
  (c.portOpen = 0 ∨ c.portClose = 0) ∧ (c.stbdOpen = 0 ∨ c.stbdClose = 0) ∧
    c.portOpen ≤ 5000 ∧ c.portClose ≤ 5000 ∧ c.stbdOpen ≤ 5000 ∧ c.stbdClose ≤ 5000

/-- The pending request list stands in rank order (R129). -/
def wantsOk (l : List Want) : Prop := l.Pairwise fun v w => v.rank ≤ w.rank

/-- The moves of the part. At level 0, what the messages between blocks do: the steady view stays. At level 1, what a
command does that stores nothing and clears no trip. At level 2, what any command but a reset does. -/
inductive Moves (k : Nat) : State → State → Prop
  | refl (s) : Moves k s s
  | trans {s t u} : Moves k s t → Moves k t u → Moves k s u
  | axis (s a v) (h0 : k = 0 → v.steady = (s.axis a).steady) (h1 : k ≤ 1 → v.stored = (s.axis a).stored) :
      Moves k s (s.setAxis a v)
  | lock (s g v) (h0 : k = 0 → v.steady = (s.lock g).steady) (h1 : k ≤ 1 → v.par = (s.lock g).par) :
      Moves k s (s.setLock g v)
  | rne (s r) (h0 : k = 0 → r.steady = s.rne.steady)
      (h1 : k ≤ 1 → r.p0 = s.rne.p0 ∧ r.p1 = s.rne.p1 ∧ r.p2 = s.rne.p2 ∧ r.p3 = s.rne.p3) :
      Moves k s { s with rne := r }
  | watch (s l) (h : watchOk s.ilk.watch → watchOk l) : Moves k s (s.setWatch l)
  | ilk (s i) (hk : k ≠ 0) (hw : i.watch = s.ilk.watch)
      (h1 : k ≤ 1 → i.speedLimit = s.ilk.speedLimit ∧ i.speedStale = s.ilk.speedStale ∧ i.warnTime = s.ilk.warnTime) :
      Moves k s { s with ilk := i }
  | wants (s l) (h : wantsOk s.hsa.wants → wantsOk l) : Moves k s (s.setWants l)
  | limits (s a b) (hk : 2 ≤ k) : Moves k s { s with hsa := { s.hsa with startLimit := a, runOn := b } }
  | unit (s u v) (hok : (s.unit u).ok → v.ok) (h0 : k = 0 → v.steady = (s.unit u).steady)
      (h1 : k ≤ 1 → (s.unit u).ok → (s.unit u).state = .failed →
        v.state = .failed ∧ v.failure = (s.unit u).failure) : Moves k s (s.setUnit u v)
  | cau (s c) (hok : s.cau.ok → c.ok)
      (h0 : k = 0 → c.steady = s.cau.steady ∧ (s.cau.elect = none → c.elect = none ∧ c.holder = s.cau.holder))
      (h1 : k ≤ 1 → c.linkTimeout = s.cau.linkTimeout) : Moves k s { s with cau := c }
  | pmt (s p) (h0 : k = 0 → s.pmt.live = false → p = s.pmt)
      (h1 : k ≤ 1 → p.window = s.pmt.window ∧ p.tripAction = s.pmt.tripAction) : Moves k s { s with pmt := p }
  | tru (s t) (hk : k ≠ 0) (hr : t.record = s.tru.record) : Moves k s { s with tru := t }
  | trip (s c m d) : Moves k s (forcedOff (s.modTru fun _ => s.latchTrip c m d))
  | clear (s t) (hk : 2 ≤ k) (hr : t.record = none) :
      Moves k s { s with tru := t, vod := { s.vod with forced := false } }
  | zero (s a) : Moves k s (zeroAxis a s)
  | hand (s a c) (hc : c.apart) : Moves k s (handCompares a c s)
  | adopt (s a) : Moves k s (adoptAxis a s)
  | pwm (s n) (hk : k ≠ 0) : Moves k s { s with vod := { s.vod with pwm := n } }
  | dic (s d) (hk : k ≠ 0) (h1 : k ≤ 1 → d.counts = s.dic.counts) : Moves k s { s with dic := d }
  | channels (s a c) (hk : k ≠ 0) : Moves k s (s.setChannels a c)
  | link (s st l) (hok : (s.link st).reportsOk → l.reportsOk) (h0 : k = 0 → l.steady = (s.link st).steady)
      (h1 : k ≤ 1 → l.mask = (s.link st).mask) : Moves k s (s.setLink st l)
  | agenda (s l) : Moves k s { s with agenda := l }
  | queue (s l) (hk : k ≠ 0) : Moves k s { s with pending := l }
  | fresh (s n) (hk : k ≠ 0) : Moves k s { s with fresh := n }
  | warm (s) (hk : 2 ≤ k) : Moves k s (warmReset s)
  | power (s) (hk : 2 ≤ k) : Moves k s (powerOn s)

namespace Moves

variable {k : Nat} {s t u : State}

/-! ## What moves keep -/

/-- A zeroing keeps the valves apart. -/
theorem valvesApart_zeroAxis (a : Axis) (h : s.valvesApart) : (zeroAxis a s).valvesApart := by
  intro b
  by_cases hb : b = a
  · subst hb; simp [zeroAxis, State.putDrives, zeroDrives, Drives.apart, cylinderOk, zeroDrive]
  · simpa [zeroAxis, State.putDrives, hb] using h b

theorem cylinderOk_hand {o c : Drive} {x y : Nat} (h : cylinderOk o c) (hxy : x = 0 ∨ y = 0) (hx : x ≤ 5000)
    (hy : y ≤ 5000) : cylinderOk (o.hand x) (c.hand y) := by
  obtain ⟨h1, -, -, h4, h5, -, -⟩ := h
  exact ⟨h1, hxy, rfl, h4, h5, hx, hy⟩

theorem cylinderOk_adopt {o c : Drive} (h : cylinderOk o c) : cylinderOk o.adopt c.adopt := by
  obtain ⟨h1, h2, h3, h4, h5, h6, h7⟩ := h
  unfold Drive.adopt
  rw [← h3]
  split
  · exact ⟨h2, h2, rfl, h6, h7, h6, h7⟩
  · exact ⟨h1, h2, h3, h4, h5, h6, h7⟩

/-- No cylinder comes to be driven both ways. -/
theorem valvesApart (h : Moves k s t) (hs : s.valvesApart) : t.valvesApart := by
  induction h with
  | refl => exact hs
  | trans _ _ i j => exact j (i hs)
  | warm s => intro b; cases b <;> simp [warmReset, State.drives, vodAtReset, zeroDrives, Drives.apart, cylinderOk, zeroDrive]
  | power s =>
    intro b
    cases b <;> simp [powerOn, State.reset, State.drives, vodAtReset, zeroDrives, Drives.apart, cylinderOk, zeroDrive]
  | zero s a => exact valvesApart_zeroAxis a hs
  | trip s c m d =>
    have h3 := valvesApart_zeroAxis .inr (valvesApart_zeroAxis .rmp (valvesApart_zeroAxis .vis
      (s := s.modTru fun _ => s.latchTrip c m d) (fun a => by simpa using hs a)))
    intro a; cases a <;> [exact h3 .vis; exact h3 .rmp; exact h3 .inr]
  | hand s a c hc =>
    unfold handCompares
    split
    · exact hs
    · intro b
      obtain ⟨h1, h2, h3, h4, h5, h6⟩ := hc
      by_cases hb : b = a
      · subst hb
        simp only [drives_setDrives_self]
        exact ⟨cylinderOk_hand (hs b).1 h1 h3 h4, cylinderOk_hand (hs b).2 h2 h5 h6⟩
      · simpa [hb] using hs b
  | adopt s a =>
    intro b
    by_cases hb : b = a
    · subst hb
      simp only [adoptAxis, State.putDrives, modAxis_eq, drives_setAxis, drives_setDrives_self]
      exact ⟨cylinderOk_adopt (hs b).1, cylinderOk_adopt (hs b).2⟩
    · simpa [adoptAxis, State.putDrives, hb] using hs b
  | axis s a v => intro b; simpa using hs b
  | lock s g v => intro b; simpa using hs b
  | unit s w v => intro b; simpa using hs b
  | channels s a c => intro b; simpa using hs b
  | link s st l => intro b; simpa using hs b
  | watch s l => intro b; simpa using hs b
  | wants s l => intro b; simpa using hs b
  | _ => intro b; cases b <;> [exact hs .vis; exact hs .rmp; exact hs .inr]

theorem vod_zeroAxis_forced (a : Axis) (s : State) : (zeroAxis a s).vod.forced = s.vod.forced := by
  simp [zeroAxis, State.putDrives]

theorem tru_zeroAxis (a : Axis) (s : State) : (zeroAxis a s).tru = s.tru := by simp [zeroAxis, State.putDrives]

theorem drives_zeroAxis (a b : Axis) (h : s.drives b = zeroDrives) : (zeroAxis a s).drives b = zeroDrives := by
  by_cases hb : b = a
  · subst hb; simp [zeroAxis, State.putDrives]
  · simpa [zeroAxis, State.putDrives, hb] using h

theorem drives_zeroAxis_self (a : Axis) (s : State) : (zeroAxis a s).drives a = zeroDrives := by
  simp [zeroAxis, State.putDrives]

theorem record_latchTrip (s : State) (c : Cause) (m : Option Member) (d : Detail) :
    (s.latchTrip c m d).record.isSome = true := by
  unfold State.latchTrip
  split
  · rfl
  · next r hr => split <;> simp [hr]

theorem record_latchTrip_of_some {r : TripRecord} (h : s.tru.record = some r) (c : Cause) (m : Option Member)
    (d : Detail) : (s.latchTrip c m d).record = some r := by
  unfold State.latchTrip
  rw [h]
  simp only
  split <;> simp [h]

theorem tru_forcedOff (s : State) : (forcedOff s).tru = s.tru := by
  simp [forcedOff, zeroAxis, State.putDrives]

theorem forced_forcedOff (s : State) : (forcedOff s).vod.forced = true := rfl

theorem drives_forcedOff (s : State) (a : Axis) : (forcedOff s).drives a = zeroDrives := by
  have h : (forcedOff s).drives a = (zeroAxis .inr (zeroAxis .rmp (zeroAxis .vis s))).drives a := by cases a <;> rfl
  rw [h]
  cases a
  · exact drives_zeroAxis _ _ (drives_zeroAxis _ _ (drives_zeroAxis_self _ _))
  · exact drives_zeroAxis _ _ (drives_zeroAxis_self _ _)
  · exact drives_zeroAxis_self _ _

/-- A latched trip holds the outputs off. -/
theorem tripHoldsOff (h : Moves k s t) (hs : s.tripHoldsOff) : t.tripHoldsOff := by
  induction h with
  | refl => exact hs
  | trans _ _ i j => exact j (i hs)
  | warm s => exact ⟨rfl, fun h => absurd h (by simp [warmReset, vodAtReset])⟩
  | power s => exact ⟨rfl, fun h => absurd h (by simp [powerOn, State.reset, vodAtReset])⟩
  | zero s a =>
    refine ⟨?_, ?_⟩
    · rw [vod_zeroAxis_forced, tru_zeroAxis]; exact hs.1
    · rw [vod_zeroAxis_forced]; exact fun h b => drives_zeroAxis a b (hs.2 h b)
  | trip s c m d =>
    refine ⟨?_, fun _ a => ?_⟩
    · rw [tru_forcedOff, forced_forcedOff, tru_modTru, record_latchTrip]
    · exact drives_forcedOff _ a
  | hand s a c hc =>
    unfold handCompares
    split
    · exact hs
    · next hf => exact ⟨by simpa using hs.1, fun h => absurd (by simpa using h) hf⟩
  | adopt s a =>
    refine ⟨by simpa [adoptAxis, State.putDrives] using hs.1, fun h b => ?_⟩
    have hz := hs.2 (by simpa [adoptAxis, State.putDrives] using h)
    by_cases hb : b = a
    · subst hb; simp [adoptAxis, State.putDrives, hz, zeroDrives, zeroDrive, Drive.adopt]
    · simpa [adoptAxis, State.putDrives, hb] using hz b
  | axis s a v => exact ⟨by simpa using hs.1, fun h b => by simpa using hs.2 (by simpa using h) b⟩
  | lock s g v => exact ⟨by simpa using hs.1, fun h b => by simpa using hs.2 (by simpa using h) b⟩
  | unit s w v => exact ⟨by simpa using hs.1, fun h b => by simpa using hs.2 (by simpa using h) b⟩
  | channels s a c => exact ⟨by simpa using hs.1, fun h b => by simpa using hs.2 (by simpa using h) b⟩
  | link s st l => exact ⟨by simpa using hs.1, fun h b => by simpa using hs.2 (by simpa using h) b⟩
  | watch s l => exact ⟨by simpa using hs.1, fun h b => by simpa using hs.2 (by simpa using h) b⟩
  | wants s l => exact ⟨by simpa using hs.1, fun h b => by simpa using hs.2 (by simpa using h) b⟩
  | tru s t hk hr => exact ⟨by simpa [hr] using hs.1, hs.2⟩
  | clear s t hk hr => exact ⟨by simp [hr], by simp⟩
  | _ => exact ⟨hs.1, fun h b => by cases b <;> [exact hs.2 h .vis; exact hs.2 h .rmp; exact hs.2 h .inr]⟩

/-- The roles stay in order. -/
theorem cauOk (h : Moves k s t) (hs : s.cau.ok) : t.cau.ok := by
  induction h with
  | refl => exact hs
  | trans _ _ i j => exact j (i hs)
  | warm s => exact ⟨fun _ => rfl, fun _ => rfl, fun _ h => nomatch h⟩
  | power s => exact ⟨fun _ => rfl, fun _ => rfl, fun _ h => nomatch h⟩
  | cau s c hok => exact hok hs
  | zero s a => simpa [zeroAxis, State.putDrives] using hs
  | trip s c m d => simpa [forcedOff, zeroAxis, State.putDrives] using hs
  | hand s a c hc => unfold handCompares; split <;> simpa using hs
  | adopt s a => simpa [adoptAxis, State.putDrives] using hs
  | _ => simpa using hs

theorem hsa_zeroAxis (a : Axis) (s : State) : (zeroAxis a s).hsa = s.hsa := by simp [zeroAxis, State.putDrives]

theorem hsa_forcedOff (s : State) : (forcedOff s).hsa = s.hsa := by simp [forcedOff, zeroAxis, State.putDrives]

theorem hsa_handCompares (a : Axis) (c : Sides) (s : State) : (handCompares a c s).hsa = s.hsa := by
  unfold handCompares; split <;> simp

theorem hsa_adoptAxis (a : Axis) (s : State) : (adoptAxis a s).hsa = s.hsa := by simp [adoptAxis, State.putDrives]

/-- The supply stays in order. -/
theorem supplyOk (h : Moves k s t) (hs : s.supplyOk) : t.supplyOk := by
  induction h with
  | refl => exact hs
  | trans _ _ i j => exact j (i hs)
  | warm s => exact ⟨by simp [warmReset, hsaAtReset, unitAtReset, PumpUnit.ok],
      by simp [warmReset, hsaAtReset, unitAtReset, PumpUnit.ok], List.Pairwise.nil⟩
  | power s => exact ⟨by simp [powerOn, State.reset, hsaAtReset, unitAtReset, PumpUnit.ok],
      by simp [powerOn, State.reset, hsaAtReset, unitAtReset, PumpUnit.ok], List.Pairwise.nil⟩
  | unit s w v hok =>
    cases w
    · exact ⟨hok hs.1, hs.2.1, hs.2.2⟩
    · exact ⟨hs.1, hok hs.2.1, hs.2.2⟩
  | wants s l h => exact ⟨hs.1, hs.2.1, h hs.2.2⟩
  | zero s a => simpa [State.supplyOk, hsa_zeroAxis] using hs
  | trip s c m d => simpa [State.supplyOk, hsa_forcedOff] using hs
  | hand s a c hc => simpa [State.supplyOk, hsa_handCompares] using hs
  | adopt s a => simpa [State.supplyOk, hsa_adoptAxis] using hs
  | _ => simpa [State.supplyOk] using hs

/-- The watched-action list stays in member order. -/
theorem watchInOrder (h : Moves k s t) (hs : watchOk s.ilk.watch) : watchOk t.ilk.watch := by
  induction h with
  | refl => exact hs
  | trans _ _ i j => exact j (i hs)
  | warm s => exact List.Pairwise.nil
  | power s => exact List.Pairwise.nil
  | watch s l h => exact h hs
  | ilk s i hk hw => simpa [hw] using hs
  | zero s a => simpa [zeroAxis, State.putDrives] using hs
  | trip s c m d => simpa [forcedOff, zeroAxis, State.putDrives] using hs
  | hand s a c hc => unfold handCompares; split <;> simpa using hs
  | adopt s a => simpa [adoptAxis, State.putDrives] using hs
  | _ => simpa using hs

theorem link_zeroAxis (a : Axis) (s : State) (st : Station) : (zeroAxis a s).link st = s.link st := by
  simp [zeroAxis, State.putDrives]

theorem reportsOk_congr (h : ∀ st, t.link st = s.link st) (hs : s.reportsOk) : t.reportsOk := by
  have hb : t.bridge = s.bridge := h .bridge
  have hd : t.deck = s.deck := h .deck
  simpa [State.reportsOk, hb, hd] using hs

/-- The pending report sets stay in order. -/
theorem reportsOk (h : Moves k s t) (hs : s.reportsOk) : t.reportsOk := by
  induction h with
  | refl => exact hs
  | trans _ _ i j => exact j (i hs)
  | warm s => exact ⟨⟨List.nodup_nil, by simp [warmReset, linkAtReset]⟩, List.nodup_nil, by simp [warmReset, linkAtReset]⟩
  | power s => exact ⟨⟨List.nodup_nil, by simp [powerOn, State.reset, linkAtReset]⟩, List.nodup_nil,
      by simp [powerOn, State.reset, linkAtReset]⟩
  | link s st l hok =>
    cases st
    · exact ⟨hok hs.1, hs.2⟩
    · exact ⟨hs.1, hok hs.2⟩
  | zero s a => exact reportsOk_congr (fun st => link_zeroAxis a s st) hs
  | trip s c m d =>
    refine reportsOk_congr (fun st => ?_) hs
    cases st <;> simp [forcedOff, zeroAxis, State.putDrives, State.modTru, State.link, State.setDrives, State.setAxis]
  | hand s a c hc => unfold handCompares; split <;> [exact hs; exact reportsOk_congr (fun st => by simp) hs]
  | adopt s a => exact reportsOk_congr (fun st => by simp [adoptAxis, State.putDrives]) hs
  | axis s a v => exact reportsOk_congr (fun st => by simp) hs
  | lock s g v => exact reportsOk_congr (fun st => by simp) hs
  | unit s w v => exact reportsOk_congr (fun st => by simp) hs
  | channels s a c => exact reportsOk_congr (fun st => by simp) hs
  | watch s l => exact reportsOk_congr (fun st => by simp) hs
  | wants s l => exact reportsOk_congr (fun st => by simp) hs
  | _ => exact hs

/-! ## What messages keep -/

theorem steady_setAxis (a : Axis) (v : AxisState) (h : v.steady = (s.axis a).steady) :
    (s.setAxis a v).steady = s.steady := by
  cases a <;> simp only [State.axis] at h <;> simp only [State.setAxis, State.steady, h]

theorem steady_setLock (g : Group) (v : LockState) (h : v.steady = (s.lock g).steady) :
    (s.setLock g v).steady = s.steady := by
  cases g <;> simp only [State.lock] at h <;> simp only [State.setLock, State.steady, h]

theorem steady_setUnit (w : UnitId) (v : PumpUnit) (h : v.steady = (s.unit w).steady) :
    (s.setUnit w v).steady = s.steady := by
  cases w <;> simp only [State.unit] at h <;> simp only [State.setUnit, State.steady, h]

theorem steady_setLink (st : Station) (v : Link) (h : v.steady = (s.link st).steady) :
    (s.setLink st v).steady = s.steady := by
  cases st <;> simp only [State.link] at h <;> simp only [State.setLink, State.steady, h]

theorem steady_setDrives (a : Axis) (d : Drives) : (s.setDrives a d).steady = s.steady := by
  cases a <;> rfl

theorem steady_putDrives (a : Axis) (d : Drives) : (s.putDrives a d).steady = s.steady := by
  unfold State.putDrives
  rw [modAxis_eq, steady_setAxis _ _ (by simp [AxisState.steady]), steady_setDrives]

theorem steady_forcedOff : (forcedOff s).steady = s.steady := by
  have h : (forcedOff s).steady = (zeroAxis .inr (zeroAxis .rmp (zeroAxis .vis s))).steady := rfl
  rw [h]
  simp only [zeroAxis, steady_putDrives]

theorem steady_latchTrip (c : Cause) (m : Option Member) (d : Detail) :
    (s.modTru fun _ => s.latchTrip c m d).steady = s.steady := by
  have h : { s.latchTrip c m d with record := none, causes := [] } = { s.tru with record := none, causes := [] } := by
    unfold State.latchTrip
    split
    · rfl
    · split <;> rfl
  simp only [State.modTru, State.steady, h]

/-- Messages keep the steady view. -/
theorem steady (h : Moves k s t) (hk : k = 0) : t.steady = s.steady := by
  induction h with
  | refl => rfl
  | trans _ _ i j => exact j.trans i
  | warm s hk' => omega
  | power s hk' => omega
  | axis s a v h0 => exact steady_setAxis a v (h0 hk)
  | lock s g v h0 => exact steady_setLock g v (h0 hk)
  | rne s r h0 => simp only [State.steady, h0 hk]
  | watch s l => rfl
  | ilk s i hk' => exact absurd hk hk'
  | wants s l => rfl
  | limits s a b hk' => omega
  | unit s w v _ h0 => exact steady_setUnit w v (h0 hk)
  | cau s c _ h0 => simp only [State.steady, (h0 hk).1]
  | pmt s p h0 h1 => simp only [State.steady, (h1 (by omega)).1, (h1 (by omega)).2]
  | tru s t hk' => exact absurd hk hk'
  | trip s c m d => rw [steady_forcedOff, steady_latchTrip]
  | clear s t hk' => omega
  | zero s a => exact steady_putDrives a _
  | hand s a c =>
    unfold handCompares
    split
    · rfl
    · exact steady_setDrives a _
  | adopt s a => exact steady_putDrives a _
  | pwm s n hk' => exact absurd hk hk'
  | dic s d hk' => exact absurd hk hk'
  | channels s a c hk' => exact absurd hk hk'
  | link s st l _ h0 => exact steady_setLink st l (h0 hk)
  | agenda s l => rfl
  | queue s l hk' => exact absurd hk hk'
  | fresh s n hk' => exact absurd hk hk'

theorem cau_hand (a : Axis) (c : Sides) : (handCompares a c s).cau = s.cau ∧ (handCompares a c s).pmt = s.pmt ∧
    (handCompares a c s).tru = s.tru := by
  unfold handCompares; split <;> simp

/-- Where there is no elect, messages change neither role. -/
theorem rolesHeld (h : Moves k s t) (hk : k = 0) (hs : s.cau.elect = none) :
    t.cau.elect = none ∧ t.cau.holder = s.cau.holder := by
  induction h with
  | refl => exact ⟨hs, rfl⟩
  | trans _ _ i j => exact ⟨(j (i hs).1).1, (j (i hs).1).2.trans (i hs).2⟩
  | warm s hk' => omega
  | power s hk' => omega
  | cau s c _ h0 => exact (h0 hk).2 hs
  | zero s a => simpa [zeroAxis, State.putDrives] using hs
  | trip s c m d => simpa [forcedOff, zeroAxis, State.putDrives] using hs
  | hand s a c hc => simpa [(cau_hand a c).1] using hs
  | adopt s a => simpa [adoptAxis, State.putDrives] using hs
  | _ => simpa using hs

/-- Messages do not renew a lapsed permit. -/
theorem lapsedHeld (h : Moves k s t) (hk : k = 0) (hs : s.pmt.live = false) : t.pmt = s.pmt := by
  induction h with
  | refl => rfl
  | trans _ _ i j => have h1 := i hs; exact (j (by rw [h1]; exact hs)).trans h1
  | warm s hk' => omega
  | power s hk' => omega
  | pmt s p h0 => exact h0 hk hs
  | zero s a => simp [zeroAxis, State.putDrives]
  | trip s c m d => simp [forcedOff, zeroAxis, State.putDrives]
  | hand s a c hc => simp [(cau_hand a c).2.1]
  | adopt s a => simp [adoptAxis, State.putDrives]
  | _ => simp

/-- A latched trip record stays, and so does the forced state. -/
theorem recordHeld (h : Moves k s t) (hk : k ≤ 1) {r : TripRecord} (hs : s.tru.record = some r) :
    t.tru.record = some r := by
  induction h with
  | refl => exact hs
  | trans _ _ i j => exact j (i hs)
  | warm s hk' => omega
  | power s hk' => omega
  | tru s t _ hr => simpa [hr] using hs
  | clear s t hk' => omega
  | zero s a => simpa [zeroAxis, State.putDrives] using hs
  | trip s c m d => rw [tru_forcedOff]; exact record_latchTrip_of_some hs c m d
  | hand s a c hc => simpa [(cau_hand a c).2.2] using hs
  | adopt s a => simpa [adoptAxis, State.putDrives] using hs
  | _ => simpa using hs

/-- A FAILED unit stays FAILED with its kind. -/
theorem failedHeld (h : Moves k s t) (hk : k ≤ 1) (hok : s.supplyOk) (w : UnitId) (hs : (s.unit w).state = .failed) :
    (t.unit w).state = .failed ∧ (t.unit w).failure = (s.unit w).failure := by
  have unit_eq {s t : State} (h : t.hsa = s.hsa) : t.unit w = s.unit w := by cases w <;> simp [State.unit, h]
  induction h with
  | refl => exact ⟨hs, rfl⟩
  | trans h1 _ i j =>
    have h2 := i hok hs
    have h3 := j (h1.supplyOk hok) h2.1
    exact ⟨h3.1, h3.2.trans h2.2⟩
  | warm s hk' => omega
  | power s hk' => omega
  | unit s x v _ _ h1 =>
    by_cases hx : w = x
    · subst hx
      have ho : (s.unit w).ok := by cases w <;> [exact hok.1; exact hok.2.1]
      simpa using h1 hk ho hs
    · simpa [hx] using hs
  | limits s a b hk' => omega
  | wants s l => cases w <;> exact ⟨hs, rfl⟩
  | zero s a => rw [unit_eq (hsa_zeroAxis a s)]; exact ⟨hs, rfl⟩
  | trip s c m d =>
    rw [unit_eq (hsa_forcedOff _)]; cases w <;> exact ⟨hs, rfl⟩
  | hand s a c hc => rw [unit_eq (hsa_handCompares a c s)]; exact ⟨hs, rfl⟩
  | adopt s a => rw [unit_eq (hsa_adoptAxis a s)]; exact ⟨hs, rfl⟩
  | axis s a v => simpa using hs
  | lock s a v => simpa using hs
  | channels s a v => simpa using hs
  | link s a v => simpa using hs
  | watch s l => simpa using hs
  | _ => cases w <;> exact ⟨hs, rfl⟩

theorem stored_putDrives (a : Axis) (d : Drives) : (s.putDrives a d).stored = s.stored := by
  cases a <;> rfl

/-- What is stored stays. -/
theorem storedHeld (h : Moves k s t) (hk : k ≤ 1) : t.stored = s.stored := by
  induction h with
  | refl => rfl
  | trans _ _ i j => exact j.trans i
  | warm s hk' => omega
  | power s hk' => omega
  | axis s a v _ h1 =>
    have h := h1 hk
    cases a <;> simp only [State.axis] at h <;> simp only [State.setAxis, State.stored, h]
  | lock s g v _ h1 =>
    have h := h1 hk
    cases g <;> simp only [State.lock] at h <;> simp only [State.setLock, State.stored, h]
  | rne s r _ h1 =>
    obtain ⟨h1, h2, h3, h4⟩ := h1 hk
    simp only [State.stored, h1, h2, h3, h4]
  | ilk s i _ _ h1 =>
    obtain ⟨h1, h2, h3⟩ := h1 hk
    simp only [State.stored, h1, h2, h3]
  | limits s a b hk' => omega
  | unit s w v => cases w <;> rfl
  | cau s c _ _ h1 => simp only [State.stored, h1 hk]
  | pmt s p _ h1 => simp only [State.stored, h1 hk]
  | clear s t hk' => omega
  | dic s d _ h1 => simp only [State.stored, h1 hk]
  | link s st l _ _ h1 =>
    have h := h1 hk
    cases st <;> simp only [State.link] at h <;> simp only [State.setLink, State.stored, h]
  | zero s a => exact stored_putDrives a _
  | trip s c m d =>
    have h : (forcedOff (s.modTru fun _ => s.latchTrip c m d)).stored =
      (zeroAxis .inr (zeroAxis .rmp (zeroAxis .vis (s.modTru fun _ => s.latchTrip c m d)))).stored := rfl
    rw [h]
    simp only [zeroAxis, stored_putDrives]
    rfl
  | hand s a c hc =>
    unfold handCompares
    split
    · rfl
    · cases a <;> rfl
  | adopt s a => exact stored_putDrives a _
  | channels s a c => cases a <;> rfl
  | _ => rfl

end Moves

end Sys2Proof.Machine
end

