-- ==== Sys2Proof/Laws/Blocks.lean ====
section
/-! SUPPORT. Each function of the blocks as a chain of moves: one lemma for each, in the order of the model's files. -/

namespace Sys2Proof.Machine

open Moves

variable {k : Nat} {s t u : State}

namespace Moves

/-! ## Forms of the moves that the functions use -/

theorem ite {c : Prop} [Decidable c] (ht : c → Moves k s t) (hu : ¬c → Moves k s u) :
    Moves k s (if c then t else u) := by
  split
  · exact ht ‹_›
  · exact hu ‹_›

theorem emit (s : State) (l : List Msg) : Moves k s (s.emit l) := .agenda s _

theorem emitAfter (l : List Msg) (h : Moves k s t) : Moves k s (t.emit l) := h.trans (.emit t l)

/-- An axis changes only what messages may change. -/
theorem axisSteady (s : State) (a : Axis) {f : AxisState → AxisState} (h : (f (s.axis a)).steady = (s.axis a).steady) :
    Moves k s (s.modAxis a f) := by
  refine .axis s a _ (fun _ => h) fun _ => ?_
  have hp : ∀ x : AxisState, x.stored = x.steady.stored := fun _ => rfl
  rw [hp, h, ← hp]

/-- A lock group changes only what messages may change. -/
theorem lockSteady (s : State) (g : Group) {f : LockState → LockState} (h : (f (s.lock g)).steady = (s.lock g).steady) :
    Moves k s (s.modLock g f) := by
  refine .lock s g _ (fun _ => h) fun _ => ?_
  have hp : ∀ x : LockState, x.par = x.steady.par := fun _ => rfl
  rw [hp, h, ← hp]

/-- The run engine changes only what messages may change. -/
theorem rneSteady (s : State) {f : Rne → Rne} (h : (f s.rne).steady = s.rne.steady) : Moves k s (s.modRne f) := by
  have hp : ∀ g : Rne → Plan, (∀ x : Rne, g x = g x.steady) → g (f s.rne) = g s.rne := fun g hg => by
    rw [hg, h, ← hg]
  exact .rne s _ (fun _ => h) fun _ =>
    ⟨hp (·.p0) fun _ => rfl, hp (·.p1) fun _ => rfl, hp (·.p2) fun _ => rfl, hp (·.p3) fun _ => rfl⟩

/-- A link changes only what messages may change. -/
theorem linkSteady (s : State) (st : Station) {l : Link} (hok : (s.link st).reportsOk → l.reportsOk)
    (h : l.steady = (s.link st).steady) : Moves k s (s.setLink st l) := by
  refine .link s st l hok (fun _ => h) fun _ => ?_
  have hp : ∀ x : Link, x.mask = x.steady.mask := fun _ => rfl
  rw [hp, h, ← hp]

end Moves

/-! ## Links -/

theorem txChoose_moves (st : Station) (s : State) : Moves k s (txChoose st s) := by
  unfold txChoose
  dsimp only
  split
  · exact .refl s
  · exact .linkSteady s st id rfl
  · next h _ _ _ hr =>
    refine .linkSteady s st (fun hok => ?_) rfl
    rw [Link.reportsOk, hr] at hok
    exact ⟨hok.1.of_cons, fun x hx => hok.2 x (List.mem_cons_of_mem _ hx)⟩
  · exact .refl s

theorem enqueueReply_moves (st : Station) (f : Frame) (s : State) : Moves k s (enqueueReply st f s) :=
  .trans (.linkSteady s st (by exact id) (by rfl)) (txChoose_moves st _)

theorem enqueueRoles_moves (st : Station) (kind tag : Byte) (c : ReplyCode) (s : State) :
    Moves k s (enqueueRoles st kind tag c s) := enqueueReply_moves st _ s

theorem txDone_moves (st : Station) (s : State) : Moves k s (txDone st s) :=
  .trans (.linkSteady s st (by exact id) (by rfl)) (txChoose_moves st _)

theorem markAt_moves (st : Station) (sub : Subject) (s : State) : Moves k s (markAt st sub s) := by
  unfold markAt
  refine .ite (fun h => ?_) fun _ => .refl s
  refine .trans (.linkSteady s st (fun hok => ?_) (by rfl)) (txChoose_moves st _)
  simp only [Bool.and_eq_true, Bool.not_eq_true', List.contains_eq_mem, decide_eq_false_iff_not] at h
  refine ⟨List.nodup_append.mpr ⟨hok.1, by simp, ?_⟩, ?_⟩
  · intro x hx y hy
    simp only [List.mem_singleton] at hy
    rintro rfl
    exact h.2 (hy ▸ hx)
  · intro x hx
    rcases List.mem_append.mp hx with hx | hx
    · exact hok.2 x hx
    · rw [List.mem_singleton.mp hx]; exact h.1

theorem mark_moves (sub : Subject) (s : State) : Moves k s (mark sub s) :=
  (markAt_moves .bridge sub s).trans (markAt_moves .deck sub _)

theorem markIf_moves (c : Bool) (sub : Subject) (s : State) : Moves k s (markIf c sub s) := by
  unfold markIf
  exact .ite (fun _ => mark_moves sub s) fun _ => .refl s

theorem Moves.marked {sub : Subject} (h : Moves k s t) : Moves k s (mark sub t) := h.trans (mark_moves sub t)

theorem Moves.markedIf {c : Bool} {sub : Subject} (h : Moves k s t) : Moves k s (markIf c sub t) :=
  h.trans (markIf_moves c sub t)

/-! ## Watched-action list -/

theorem watchOk_putEntry (e : WatchEntry) {l : List WatchEntry} (h : watchOk l) : watchOk (putEntry e l) := by
  unfold putEntry
  refine List.pairwise_append.mpr ⟨h.filter _, List.pairwise_cons.mpr ⟨?_, h.filter _⟩, ?_⟩
  · intro x hx; simpa using (List.mem_filter.mp hx).2
  · intro x hx y hy
    have h1 : memberIndex x.member < memberIndex e.member := by simpa using (List.mem_filter.mp hx).2
    rcases List.mem_cons.mp hy with rfl | hy
    · exact h1
    · have h2 : memberIndex e.member < memberIndex y.member := by simpa using (List.mem_filter.mp hy).2
      omega

theorem watchOk_map {f : WatchEntry → WatchEntry} (hf : ∀ e, (f e).member = e.member) {l : List WatchEntry}
    (h : watchOk l) : watchOk (l.map f) :=
  List.pairwise_map.mpr (h.imp fun {d e} hd => by rw [hf, hf]; exact hd)

theorem watchAdd_moves (m : Member) (act : WatchAction) (target : Option Nat) (src : WatchSource) (s : State) :
    Moves k s (watchAdd m act target src s) := .watch s _ (watchOk_putEntry _)

theorem watchRemove_moves (m : Member) (s : State) : Moves k s (watchRemove m s) := .watch s _ fun h => h.filter _

theorem watchStage_moves (m : Member) (st : Stage) (s : State) : Moves k s (watchStage m st s) :=
  .watch s _ (watchOk_map fun e => by split <;> rfl)

theorem watchRefresh_moves (m : Member) (s : State) : Moves k s (watchRefresh m s) :=
  .watch s _ (watchOk_map fun e => by split <;> rfl)

/-! ## Events at members -/

theorem Moves.foldl {α : Type} {f : State → α → State} (hf : ∀ s x, Moves k s (f s x)) (l : List α) (s : State) :
    Moves k s (l.foldl f s) := by
  induction l generalizing s with
  | nil => exact .refl s
  | cons x l ih => exact .trans (hf s x) (ih _)

theorem markMembers_moves (s t : State) : Moves k t (markMembers s t) :=
  .foldl (fun u m => markIf_moves _ (.member m) u) _ t

/-- An event at members makes the moves of its own effect. -/
theorem memberEvent_moves {f : State → State} (s : State) (h : Moves k s (f s)) : Moves k s (memberEvent f s) :=
  .emitAfter _ (.trans h (markMembers_moves s _))

theorem deriveAxis_moves (a : Axis) (s : State) : Moves k s (deriveAxis a s) := .axisSteady s a (by rfl)

theorem deriveGroup_moves (g : Group) (s : State) : Moves k s (deriveGroup g s) := .lockSteady s g (by rfl)

/-! ## Supply -/

theorem wantsOk_insertWant (w : Want) {l : List Want} (h : wantsOk l) : wantsOk (insertWant w l) := by
  have mem : ∀ {l : List Want} {x : Want}, x ∈ insertWant w l → x = w ∨ x ∈ l := by
    intro l
    induction l with
    | nil => intro x hx; exact Or.inl (List.mem_singleton.mp hx)
    | cons y l ih =>
      intro x hx
      unfold insertWant at hx
      split at hx
      · rcases List.mem_cons.mp hx with h | h
        · exact Or.inl h
        · exact Or.inr h
      · rcases List.mem_cons.mp hx with h | h
        · exact Or.inr (h ▸ List.mem_cons_self)
        · exact (ih h).imp id (List.mem_cons_of_mem _)
  induction l with
  | nil => exact List.pairwise_singleton _ _
  | cons y l ih =>
    have hc := List.pairwise_cons.mp h
    unfold insertWant
    split
    · next hlt =>
      refine List.pairwise_cons.mpr ⟨fun x hx => ?_, h⟩
      rcases List.mem_cons.mp hx with rfl | hx
      · omega
      · have := hc.1 x hx; omega
    · next hlt =>
      refine List.pairwise_cons.mpr ⟨fun x hx => ?_, ih hc.2⟩
      rcases mem hx with rfl | hx
      · omega
      · exact hc.1 x hx

theorem addSecond_moves (a : Axis) (s : State) : Moves k s (addSecond a s) := .wants s _ (wantsOk_insertWant _)

theorem dropWants_moves (c : Consumer) (s : State) : Moves k s (s.setWants (dropWant c s.hsa.wants)) :=
  .wants s _ fun h => h.filter _

theorem tellRunning_moves (w : UnitId) (s : State) : Moves k s (tellRunning w s) := by
  unfold tellRunning
  split
  · exact .emit s _
  · exact .refl s

theorem zeroAxis_moves (a : Axis) (s : State) : Moves k s (zeroAxis a s) := .zero s a

theorem axisSupplyLess_moves (a : Axis) (s : State) : Moves k s (axisSupplyLess a s) := by
  have h : Moves k s (if (s.axis a).breakaway ∧ s.hsa.running (.axisStep a) < 2 then
      mark (.member (.axis a)) (s.modAxis a fun ax => { ax with breakaway := false, bkLeft := none }) else s) :=
    .ite (fun _ => (Moves.axisSteady s a (by rfl)).marked) fun _ => .refl s
  unfold axisSupplyLess
  exact .ite (fun _ => (h.trans (Moves.axisSteady _ a (by rfl))).trans (zeroAxis_moves a _)) fun _ => h

theorem PumpUnit.ok_start {r : PumpUnit} (sl ro : Nat) (h : r.ok) (hs : r.state = .stopped) (ht : r.runOnT = none) :
    (r.start sl ro).ok := by
  obtain ⟨h1, h2, h3, h4, h5⟩ := h
  simp only [hs, reduceCtorEq, imp_false, iff_false, Bool.not_eq_true, Option.isSome_eq_false_iff,
    Option.isNone_iff_eq_none] at h1 h2 h4
  unfold PumpUnit.start
  split
  · unfold PumpUnit.run
    dsimp only
    split
    · next hh =>
      rw [Option.isNone_iff_eq_none] at hh
      unfold PumpUnit.park
      split <;> simp [PumpUnit.ok, h2, h4, hh]
    · simp [PumpUnit.ok, h2, h4, ht]
  · simp [PumpUnit.ok, h2, h4, ht]

theorem PumpUnit.steady_start (r : PumpUnit) (sl ro : Nat) : (r.start sl ro).steady = r.steady := by
  unfold PumpUnit.start PumpUnit.run PumpUnit.park
  split
  · dsimp only; split <;> [split <;> rfl; rfl]
  · rfl

/-- A unit that is not FAILED, or that has a holder, takes another holder. -/
theorem setHolder_moves (w : UnitId) (c : Consumer) (s : State)
    (h : (s.unit w).ok → (s.unit w).state ≠ .failed) :
    Moves k s (s.modUnit w fun r => { r with holder := some c, runOnT := none }) := by
  refine .unit s w _ (fun hok => ?_) (fun _ => rfl) fun _ hok hf => absurd hf (h hok)
  have hf := h hok
  obtain ⟨h1, h2, -, h4, -⟩ := hok
  exact ⟨h1, h2, by simp, h4, fun h => absurd h hf⟩

theorem startUnit_moves (w : UnitId) (sl ro : Nat) (s : State) (hs : (s.unit w).state = .stopped)
    (ht : (s.unit w).runOnT = none) : Moves k s (s.modUnit w fun r => r.start sl ro) :=
  .unit s w _ (fun hok => PumpUnit.ok_start sl ro hok hs ht) (fun _ => PumpUnit.steady_start _ _ _) fun _ _ hf => by
    rw [hs] at hf; exact absurd hf (by decide)

theorem grant_moves (w : UnitId) (x : Want) (s : State) (h : (s.unit w).ok → (s.unit w).state ≠ .failed) :
    Moves k s (grant w x s) := by
  have h0 : ∀ y : State, y.unit w = s.unit w → Moves k y
      (let z := y.modUnit w fun r => { r with holder := some x.consumer, runOnT := none }
       let v := if (z.unit w).state = .stopped then z.modUnit w fun r => r.start z.hsa.startLimit z.hsa.runOn else z
       tellRunning w v) := by
    intro y hy
    refine (setHolder_moves w x.consumer y (by rw [hy]; exact h)).trans (.trans ?_ (tellRunning_moves w _))
    exact .ite (fun hs => startUnit_moves w _ _ _ hs (by simp)) fun _ => .refl _
  have hu : ∀ l, (s.setWants l).unit w = s.unit w := fun l => by simp
  unfold grant
  dsimp only
  split
  · refine (dropWants_moves _ s).trans ((addSecond_moves _ _).trans (h0 _ ?_))
    unfold addSecond; rw [unit_setWants, hu]
  · exact (dropWants_moves _ s).trans (h0 _ (hu _))

theorem free_not_failed {r : PumpUnit} (h : r.free = true) : r.state ≠ .failed := by
  unfold PumpUnit.free at h
  simp only [Bool.and_eq_true, bne_iff_ne, ne_eq] at h
  exact h.2

theorem firstUnit_free {p : PumpUnit → Bool} {w : UnitId} (h : s.firstUnit p = some w) : p (s.unit w) = true := by
  unfold State.firstUnit at h
  split at h
  · cases h; assumption
  · split at h
    · cases h; assumption
    · cases h

theorem chooseUnit_not_failed {w : UnitId} (h : s.chooseUnit = some w) : (s.unit w).state ≠ .failed := by
  unfold State.chooseUnit at h
  simp only [Option.or_eq_some_iff] at h
  rcases h with h | ⟨-, h | ⟨-, h⟩⟩ <;> have := firstUnit_free h <;>
    exact free_not_failed (by simp only [Bool.and_eq_true] at this; exact this.1)

theorem grantOne_moves (s : State) : Moves k s (grantOne s) := by
  unfold grantOne
  split
  · next h => exact grant_moves _ _ s fun _ => chooseUnit_not_failed h
  · exact .refl s

theorem preemptable_holds {cls : Nat} {a : Axis} (h : s.preemptable cls = some a) :
    (s.unit .u2).ok → (s.unit .u2).state ≠ .failed := by
  intro hok hf
  have hh := hok.2.2.2.2 hf
  have := List.find?_some h
  simp only [Bool.and_eq_true, beq_iff_eq, Hsa.held] at this
  have h2 : s.hsa.u2.holder = none := hh
  simp only [h2] at this
  have h1 : ((s.hsa.u1.holder == some (Consumer.axisStep a)).toNat) ≤ 1 := Bool.toNat_le _
  simp at this
  omega

theorem preempt_moves (s : State) : Moves k s (preempt s) := by
  unfold preempt
  split
  · split
    · next h =>
      exact .trans ((grant_moves _ _ s (preemptable_holds h)).trans (addSecond_moves _ _)) (axisSupplyLess_moves _ _)
    · next h =>
      exact .trans ((grant_moves _ _ s (preemptable_holds h)).trans (addSecond_moves _ _)) (axisSupplyLess_moves _ _)
    · exact .refl s
  · exact .refl s

theorem serve_moves (s : State) : Moves k s (serve s) :=
  ((grantOne_moves s).trans (grantOne_moves _)).trans (preempt_moves _)

theorem supplyEvent_moves {f : State → State} (s : State) (h : Moves k s (f s)) : Moves k s (supplyEvent f s) :=
  h.markedIf

theorem hsaRequest_moves (c : Consumer) (s : State) : Moves k s (hsaRequest c s) :=
  supplyEvent_moves s (.ite (fun _ => (Moves.wants s _ fun h => wantsOk_insertWant _ (h.filter _)).trans
    (serve_moves _)) fun _ => .refl s)

theorem unhold_ok {r : PumpUnit} (ro : Nat) (h : r.ok) (hh : r.holder.isSome) : (r.unhold ro).ok := by
  obtain ⟨h1, h2, h3, h4, h5⟩ := h
  have ht : r.runOnT = none := by
    cases hr : r.runOnT with
    | none => rfl
    | some n => have := (h3 (by simp [hr])).2; simp [this] at hh
  unfold PumpUnit.unhold
  dsimp only
  split
  · next hs =>
    have hs : r.state = .running := hs
    simp only [hs, reduceCtorEq, iff_false, Bool.not_eq_true, Option.isSome_eq_false_iff,
      Option.isNone_iff_eq_none] at h1 h4
    unfold PumpUnit.park
    split <;> simp [PumpUnit.ok, h1, h4, hs]
  · exact ⟨h1, h2, by simp [ht], h4, by simp⟩

theorem steady_unhold (r : PumpUnit) (ro : Nat) : (r.unhold ro).steady = r.steady := by
  unfold PumpUnit.unhold PumpUnit.park
  dsimp only
  split <;> [split <;> rfl; rfl]

theorem unholdUnit_moves (w : UnitId) (ro : Nat) (s : State) (hh : (s.unit w).holder.isSome) :
    Moves k s (s.modUnit w fun r => r.unhold ro) :=
  .unit s w _ (fun hok => unhold_ok ro hok hh) (fun _ => steady_unhold _ _) fun _ hok hf => by
    rw [hok.2.2.2.2 hf] at hh; exact absurd hh (by simp)

theorem releaseUnit_moves (c : Consumer) (w : UnitId) (s : State) : Moves k s (releaseUnit c w s) :=
  .ite (fun h => unholdUnit_moves w _ s (by simp [h])) fun _ => .refl s

theorem hsaRelease_moves (c : Consumer) (s : State) : Moves k s (hsaRelease c s) :=
  supplyEvent_moves s ((((dropWants_moves c s).trans (releaseUnit_moves c .u1 _)).trans
    (releaseUnit_moves c .u2 _)).trans (serve_moves _))

theorem hsaAllocate_moves (s : State) : Moves k s (hsaAllocate s) := supplyEvent_moves s (serve_moves s)

theorem holderLost_moves (c : Consumer) (w : UnitId) (f : UnitFail) (s : State) : Moves k s (holderLost c w f s) := by
  unfold holderLost
  split
  · exact .ite (fun _ => (Moves.emit s _).trans (axisSupplyLess_moves _ _)) fun _ =>
      (addSecond_moves _ s).trans (axisSupplyLess_moves _ _)
  · exact .emit s _

/-- A unit that is not FAILED fails. -/
theorem failUnit_moves (w : UnitId) (f : UnitFail) (s : State) (h : (s.unit w).ok → (s.unit w).state ≠ .failed) :
    Moves k s (s.modUnit w fun r => r.fail f) :=
  .unit s w _ (fun _ => by simp [PumpUnit.fail, PumpUnit.ok]) (fun _ => rfl) fun _ hok hf => absurd hf (h hok)

theorem unitDown_moves (w : UnitId) (f : UnitFail) (s : State) (h : (s.unit w).ok → (s.unit w).state ≠ .failed) :
    Moves k s (unitDown w f s) := by
  unfold unitDown
  refine .emitAfter _ ((failUnit_moves w f s h).trans ?_)
  split
  · exact holderLost_moves _ _ _ _
  · exact .refl _

theorem unitFail_moves (w : UnitId) (f : UnitFail) (s : State) (h : (s.unit w).ok → (s.unit w).state ≠ .failed) :
    Moves k s (unitFail w f s) := supplyEvent_moves s (unitDown_moves w f s h)

theorem hsaTrip_moves (s : State) : Moves k s (hsaTrip s) := by
  have h : ∀ (w : UnitId) (s : State), Moves k s
      (s.modUnit w fun r => if r.holder.isSome then r.unhold s.hsa.runOn else r) := by
    intro w s
    by_cases hh : (s.unit w).holder.isSome
    · have := unholdUnit_moves (k := k) w s.hsa.runOn s hh
      simpa [hh] using this
    · exact .unit s w _ (fun hok => by simpa [hh] using hok) (fun _ => by simp [hh]) fun _ _ hf => by simp [hh, hf]
  exact supplyEvent_moves s (((h .u1 s).trans (h .u2 _)).trans (.wants _ _ fun _ => List.Pairwise.nil))

theorem hsaEstop_moves (s : State) : Moves k s (hsaEstop s) := by
  have h : ∀ (w : UnitId) (s : State), Moves k s (s.modUnit w PumpUnit.estop) := by
    intro w s
    refine .unit s w _ (fun hok => ?_) (fun _ => ?_) fun _ _ hf => by simp [PumpUnit.estop, hf]
    · unfold PumpUnit.estop
      split
      · next hs =>
        obtain ⟨h1, h2, h3, h4, h5⟩ := hok
        have hf : (s.unit w).state ≠ .failed := by rcases hs with hs | hs <;> simp [hs]
        simp only [hf, iff_false, Bool.not_eq_true, Option.isSome_eq_false_iff, Option.isNone_iff_eq_none] at h4
        simp [PumpUnit.ok, h4]
      · exact hok
    · unfold PumpUnit.estop
      split <;> rfl
  exact Moves.emitAfter _ (supplyEvent_moves s ((h .u1 s).trans (h .u2 _)))

end Sys2Proof.Machine
end

