-- ==== Sys2Proof/Laws/Members.lean ====
section
/-! SUPPORT. The functions of the axis and lock group controllers as chains of moves. -/

namespace Sys2Proof.Machine

open Moves

variable {k : Nat} {s t u : State}

/-- An axis changes what it stores nothing of. -/
theorem axisFree (s : State) (a : Axis) {f : AxisState → AxisState} (hk : k ≠ 0)
    (h : (f (s.axis a)).stored = (s.axis a).stored) : Moves k s (s.modAxis a f) :=
  .axis s a _ (fun h => absurd h hk) fun _ => h

/-! ## Axes: phases -/

theorem steady_toPhase (ax : AxisState) (ph : AxisPhase) : (ax.toPhase ph).steady = ax.steady := by
  unfold AxisState.toPhase; split <;> rfl

theorem stageAxis_moves (a : Axis) (ph : AxisPhase) (s : State) : Moves k s (stageAxis a ph s) := by
  unfold stageAxis
  split
  · exact watchStage_moves _ _ s
  · exact .refl s

theorem passTo_moves (a : Axis) (ph : AxisPhase) {f : AxisState → AxisState} (s : State)
    (hf : ∀ ax, (f ax).steady = ax.steady) : Moves k s (passTo a ph f s) := by
  have h1 : Moves k s (s.modAxis a fun ax => f (ax.toPhase ph)) :=
    .axisSteady s a (by rw [hf, steady_toPhase])
  refine .trans (.trans (.trans h1 ?_) (stageAxis_moves a ph _)) (deriveAxis_moves a _)
  exact .ite (fun _ => zeroAxis_moves a _) fun _ => .refl _

theorem setPhase_moves (a : Axis) (ph : AxisPhase) {f : AxisState → AxisState} (s : State)
    (hf : ∀ ax, (f ax).steady = ax.steady) : Moves k s (setPhase a ph f s) :=
  memberEvent_moves s (passTo_moves a ph s hf)

theorem steady_cleared (ax : AxisState) : ax.cleared.steady = ax.steady := rfl

theorem enterMoving_moves (a : Axis) (s : State) : Moves k s (enterMoving a s) := setPhase_moves a _ s fun _ => by rfl

theorem enterReversing_moves (a : Axis) (s : State) : Moves k s (enterReversing a s) :=
  .ite (fun _ => .trans (setPhase_moves a _ s fun _ => by rfl) (enterMoving_moves a _)) fun _ =>
    setPhase_moves a _ s fun _ => by rfl

theorem enterAnnounce_moves (a : Axis) (s : State) : Moves k s (enterAnnounce a s) :=
  .ite (fun _ => .trans (setPhase_moves a _ s fun _ => by rfl) (enterReversing_moves a _)) fun _ =>
    setPhase_moves a _ s fun _ => by rfl

theorem axisUnitReady_moves (a : Axis) (s : State) : Moves k s (axisUnitReady a s) :=
  .ite (fun _ => enterAnnounce_moves a s) fun _ => .refl s

/-! ## Axes: hand-over and ends -/

theorem axisHandOver_moves (a : Axis) (num : Nat) (jog : Bool) (target : Nat) (s : State) :
    Moves k s (axisHandOver a num jog target s) := by
  have h : Moves k s (s.modAxis a fun ax => { ax with vc := 0, bkCount := 0 }) := .axisSteady s a (by rfl)
  exact .ite (fun _ => .trans h (watchRemove_moves _ _)) fun _ => .trans h (passTo_moves a _ _ fun _ => by rfl)

theorem completeStep_moves (a : Axis) (s : State) : Moves k s (completeStep a s) :=
  .emitAfter _ (.trans (.trans (.emit s _) (setPhase_moves a _ _ steady_cleared)) (watchRemove_moves _ _))

theorem endStep_moves (a : Axis) (s : State) : Moves k s (endStep a s) :=
  .emitAfter _ (.trans (.trans (.emit s _) (setPhase_moves a _ _ steady_cleared)) (watchRemove_moves _ _))

theorem axisReturn_moves (a : Axis) (s : State) : Moves k s (axisReturn a s) :=
  .trans (.emit s _) (passTo_moves a _ _ steady_cleared)

theorem axisStop_moves (a : Axis) (s : State) : Moves k s (axisStop a s) := by
  unfold axisStop
  split <;> first
    | exact .axisSteady s a (by rfl)
    | exact setPhase_moves a _ s fun _ => by rfl
    | exact .refl s

theorem axisResume_moves (a : Axis) (s : State) : Moves k s (axisResume a s) := by
  unfold axisResume
  split
  · exact .trans (.axisSteady s a (by rfl)) (axisUnitReady_moves a _)
  · exact .axisSteady s a (by rfl)
  · exact enterReversing_moves a s
  · exact .refl s

theorem axisEnd_moves (a : Axis) (s : State) : Moves k s (axisEnd a s) := by
  unfold axisEnd
  split <;> first
    | exact endStep_moves a s
    | exact setPhase_moves a _ s fun _ => by rfl
    | exact .axisSteady s a (by rfl)
    | exact .refl s

theorem stopEnd_moves (a : Axis) (d : StopDest) (s : State) : Moves k s (stopEnd a d s) := by
  unfold stopEnd
  split
  · exact setPhase_moves a _ s fun _ => by rfl
  · exact endStep_moves a s
  · exact .trans (setPhase_moves a _ s fun _ => by rfl) (enterMoving_moves a _)

theorem tripAxis_moves (a : Axis) (s : State) : Moves k s (tripAxis a s) :=
  .ite (fun _ => .refl s) fun _ => .trans (passTo_moves a _ s fun _ => by rfl) (watchRemove_moves _ _)

theorem endBreakaway_moves (a : Axis) (s : State) : Moves k s (endBreakaway a s) :=
  .ite (fun _ => .marked (.axisSteady s a (by rfl))) fun _ => .refl s

theorem stallEvent_moves (a : Axis) (s : State) : Moves k s (stallEvent a s) :=
  .ite (fun _ => .marked (.axisSteady s a (by rfl))) fun _ => .marked (.emit s _)

theorem stallSample_moves (a : Axis) (s : State) : Moves k s (stallSample a s) := by
  unfold stallSample
  dsimp only
  split
  · refine .ite (fun _ => .trans (.marked (.axisSteady s a (by rfl))) (stallEvent_moves a _)) fun _ =>
      .marked (.axisSteady s a (by rfl))
  · exact .refl s

theorem breakawayTick_moves (a : Axis) (s : State) : Moves k s (breakawayTick a s) := by
  unfold breakawayTick
  split
  · exact .ite (fun _ => endBreakaway_moves a s) fun _ => .axisSteady s a (by rfl)
  · exact .refl s

theorem stallTick_moves (a : Axis) (b : Bool) (s : State) : Moves k s (stallTick a b s) := by
  unfold stallTick
  split
  · refine .ite (fun _ => .axisSteady s a (by rfl)) fun _ => .ite (fun _ => .axisSteady s a (by rfl)) fun _ =>
      stallSample_moves a s
  · exact .refl s

/-! ## Axes: the drive -/

theorem duty_le (i : Int) : (clampInt 0 1000 i).toNat * 5 ≤ 5000 := by
  unfold clampInt; omega

theorem demand_apart (vc : Nat) (e : Int) (gain : Nat) (d : Dir) : (demand vc e gain d).apart := by
  cases d
  · exact ⟨.inr rfl, .inr rfl, duty_le _, Nat.zero_le _, duty_le _, Nat.zero_le _⟩
  · exact ⟨.inl rfl, .inl rfl, Nat.zero_le _, duty_le _, Nat.zero_le _, duty_le _⟩

theorem driveCompute_moves (a : Axis) (st : AxisStep) (x v : Nat) (e : Int) (s : State) :
    Moves k s (driveCompute a st x v e s) := by
  unfold driveCompute
  dsimp only
  split
  · exact .trans (.axisSteady s a (by rfl)) (stopEnd_moves a _ _)
  · exact .ite (fun _ => .axisSteady s a (by rfl)) fun _ =>
      .trans (.axisSteady s a (by rfl)) (.hand _ a _ (demand_apart _ _ _ _))

theorem driveless_moves (a : Axis) (s : State) : Moves k s (driveless a s) :=
  .trans (.trans (.axisSteady s a (by rfl)) (zeroAxis_moves a _)) (endBreakaway_moves a _)

theorem drivePeriod_moves (a : Axis) (st : AxisStep) (x : Nat) (e : Int) (s : State) :
    Moves k s (drivePeriod a st x e s) := by
  have h1 : Moves k s (if (s.axis a).overtravel st x then s.emit [.tripReport .endsw (some (.axis a)) .none] else s) :=
    .ite (fun _ => .emit s _) fun _ => .refl s
  unfold drivePeriod
  refine .ite (fun _ => completeStep_moves a s) fun _ => .trans h1 ?_
  generalize (if (s.axis a).overtravel st x then s.emit [.tripReport .endsw (some (.axis a)) .none] else s) = y
  dsimp only
  split
  · exact .trans (setPhase_moves a _ y fun _ => by rfl)
      (.ite (fun _ => driveless_moves a _) fun _ => driveCompute_moves a st x _ e _)
  · exact .ite (fun _ => driveless_moves a _) fun _ => driveCompute_moves a st x _ e _

theorem phaseWork_moves (a : Axis) (p : CylPos) (s : State) : Moves k s (phaseWork a p s) := by
  have h : Moves k s (match (s.axis a).phase.driving, (s.axis a).step with
      | true, some st => drivePeriod a st p.x p.e s
      | _, _ => s) := by
    split
    · exact drivePeriod_moves a _ _ _ s
    · exact .refl s
  exact .trans (.trans (.trans h (.ite (fun _ => .emit _ _) fun _ => .refl _)) (breakawayTick_moves a _))
    (.ite (fun _ => stallTick_moves a _ _) fun _ => .refl _)

theorem testDisagreement_moves (a : Axis) (x : Nat) (s : State) (hk : k ≠ 0) :
    Moves k s (testDisagreement a x s) := by
  have h : Moves k s (s.modAxis a fun ax => ax.testSwitches x) :=
    axisFree s a hk (by rfl)
  unfold testDisagreement
  dsimp only
  exact .trans (.trans h (.ite (fun _ => .emit _ _) fun _ => .refl _)) (deriveAxis_moves a _)

theorem acceptSample_moves (a : Axis) (p : CylPos) (s : State) (hk : k ≠ 0) : Moves k s (acceptSample a p s) := by
  unfold acceptSample
  exact .trans (.trans (memberEvent_moves s (.trans (axisFree s a hk (by rfl)) (testDisagreement_moves a p.x _ hk)))
    (.ite (fun _ => .emit _ _) fun _ => .refl _)) (phaseWork_moves a p _)

theorem failSample_moves (a : Axis) (port stbd : ChannelSample) (r : Option SampleFail × Option SampleFail) (s : State)
    (hk : k ≠ 0) : Moves k s (failSample a port stbd r s) := by
  have h : Moves k s (s.modAxis a fun ax => { ax with posCond := condFail r.1 || condFail r.2 }) :=
    axisFree s a hk (by rfl)
  refine memberEvent_moves s (.trans h (.ite (fun _ => .refl _) fun _ => ?_))
  exact .trans (.emitAfter _ (axisFree _ a hk (by rfl))) (deriveAxis_moves a _)

theorem controlPeriod_moves (a : Axis) (port stbd : ChannelSample) (s : State) (hk : k ≠ 0) :
    Moves k s (controlPeriod a port stbd s) := by
  unfold controlPeriod
  exact .trans (.trans (.channels s a ⟨port, stbd⟩ hk) (axisFree _ a hk (by rfl)))
    (.ite (fun _ => acceptSample_moves a _ _ hk) fun _ => failSample_moves a port stbd _ _ hk)

theorem storeSwitches_moves (a : Axis) (c o : Option Bool) (s : State) (hk : k ≠ 0) :
    Moves k s (storeSwitches a c o s) := axisFree s a hk (by rfl)

theorem switchEdge_moves (a : Axis) (c o : Option Bool) (s : State) (hk : k ≠ 0) : Moves k s (switchEdge a c o s) := by
  have h : ∀ y : State, Moves k y
      (if (y.axis a).phase.driving && edgeToActive c o (y.axis a).stepSwitch && !(y.axis a).disagree then
        completeStep a y else y) := fun y => .ite (fun _ => completeStep_moves a y) fun _ => .refl y
  unfold switchEdge
  refine .trans (storeSwitches_moves a c o s hk) ?_
  refine .trans (memberEvent_moves _ ?_) (h _)
  generalize ((storeSwitches a c o s).axis a).x? = x
  cases x with
  | some x => exact testDisagreement_moves a x _ hk
  | none => exact deriveAxis_moves a _

/-! ## Lock groups: operations -/

theorem steady_toOp (l : LockState) (ph : OpPhase) : (l.toOp ph).steady = l.steady := rfl

theorem map_steady {f : Pin → Pin} (hf : ∀ p, (f p).steady = p.steady) (l : List Pin) :
    (l.map f).map Pin.steady = l.map Pin.steady := by simp [List.map_map, Function.comp_def, hf]

theorem steady_noTransit (l : LockState) : l.noTransit.steady = l.steady := by
  simp only [LockState.noTransit, LockState.steady, map_steady (f := fun p => { p with transit := none }) fun _ => rfl]

theorem steady_startTransit (l : LockState) : l.startTransit.steady = l.steady := by
  simp only [LockState.startTransit, LockState.steady]
  rw [map_steady fun p => by split <;> rfl]

theorem steady_ended (l : LockState) : l.ended.steady = l.steady := by
  have h : l.ended.steady = l.noTransit.steady := rfl
  rw [h, steady_noTransit]

theorem opPassTo_moves (g : Group) (ph : OpPhase) {f : LockState → LockState} (s : State)
    (hf : ∀ l, (f l).steady = l.steady) : Moves k s (opPassTo g ph f s) :=
  .trans (.trans (.lockSteady s g (by rw [hf, steady_toOp])) (watchStage_moves _ _ _)) (deriveGroup_moves g _)

theorem setOpPhase_moves (g : Group) (ph : OpPhase) {f : LockState → LockState} (s : State)
    (hf : ∀ l, (f l).steady = l.steady) : Moves k s (setOpPhase g ph f s) :=
  memberEvent_moves s (opPassTo_moves g ph s hf)

theorem lockHandOver_moves (g : Group) (num : Nat) (jog engage : Bool) (s : State) :
    Moves k s (lockHandOver g num jog engage s) :=
  opPassTo_moves g _ s fun l => by
    simp only [LockState.steady, map_steady (f := fun p => { p with stuck := false }) fun _ => rfl]

theorem enterSettling_moves (g : Group) (s : State) : Moves k s (enterSettling g s) :=
  setOpPhase_moves g _ s fun l => by
    have h : ({ l.noTransit with settleT := some l.par.settle } : LockState).steady = l.noTransit.steady := rfl
    rw [h, steady_noTransit]

theorem enterDriving_moves (g : Group) (s : State) : Moves k s (enterDriving g s) := by
  have h : Moves k s ((setOpPhase g .driving LockState.startTransit s).emit [.busyEnter g]) :=
    .emitAfter _ (setOpPhase_moves g _ s steady_startTransit)
  unfold enterDriving
  exact .ite (fun _ => .trans h (enterSettling_moves g _)) fun _ => h

theorem opUnitReady_moves (g : Group) (s : State) : Moves k s (opUnitReady g s) :=
  .ite (fun _ => enterDriving_moves g s) fun _ => .refl s

theorem closeHolding_moves (g : Group) (s : State) : Moves k s (closeHolding g s) :=
  .trans (.trans (.trans (.emit s _) (.lockSteady _ g (steady_ended _))) (watchRemove_moves _ _))
    (deriveGroup_moves g _)

theorem closeEarly_moves (g : Group) (s : State) : Moves k s (closeEarly g s) :=
  .ite (fun _ => closeHolding_moves g s) fun _ => .refl s

theorem opReturn_moves (g : Group) (s : State) : Moves k s (opReturn g s) :=
  .trans (.trans (.emit s _) (.lockSteady _ g (steady_ended _))) (deriveGroup_moves g _)

theorem settleDone_moves (g : Group) (s : State) : Moves k s (settleDone g s) :=
  .emitAfter _ (setOpPhase_moves g _ s fun _ => by rfl)

theorem holdDone_moves (g : Group) (s : State) : Moves k s (holdDone g s) :=
  memberEvent_moves s (closeEarly_moves g s)

/-! ## Lock groups: top-ups -/

theorem startTopUp_moves (g : Group) (src : TopSource) (s : State) : Moves k s (startTopUp g src s) := by
  have h : ∀ x : State, Moves k x (mark (.member (.lock g)) (watchAdd (.lock g) .topUp none .topUp x)) :=
    fun x => .marked (watchAdd_moves _ _ _ _ x)
  unfold startTopUp
  refine .trans (.lockSteady s g (f := fun l =>
    { l with top := { noTopUp with status := .pendingGuard }.add src, periodic := none }) rfl) (.trans (h _) ?_)
  dsimp only
  split
  · exact .ite (fun _ => .emit _ _) fun _ => .refl _
  · exact .refl _

theorem topupTrigger_moves (g : Group) (src : TopSource) (s : State) : Moves k s (topupTrigger g src s) := by
  unfold topupTrigger
  refine .ite (fun _ => .ite (fun _ => .lockSteady s g (by rfl)) fun _ => .refl s) fun _ =>
    .ite (fun _ => startTopUp_moves g src s) fun _ => .markedIf (.lockSteady s g (by rfl))

theorem setTopStatus_moves (g : Group) (st : TopStatus) (sg : Stage) (s : State) : Moves k s (setTopStatus g st sg s) :=
  .trans (.lockSteady s g (by rfl)) (watchStage_moves _ _ _)

theorem topupAsk_moves (g : Group) (s : State) : Moves k s (topupAsk g s) :=
  .ite (fun _ => .emitAfter _ (setTopStatus_moves g _ _ s)) fun _ => .refl s

theorem topupGo_moves (g : Group) (s : State) : Moves k s (topupGo g s) := memberEvent_moves s (topupAsk_moves g s)

theorem topupReturn_moves (g : Group) (s : State) : Moves k s (topupReturn g s) :=
  .trans (.emit s _) (setTopStatus_moves g _ _ _)

theorem topUnitReady_moves (g : Group) (s : State) : Moves k s (topUnitReady g s) :=
  .ite (fun _ => .trans (.lockSteady s g (by rfl)) (memberEvent_moves _ (setTopStatus_moves g _ _ _))) fun _ => .refl s

theorem endTopUp_moves (g : Group) (s : State) : Moves k s (endTopUp g s) := by
  have h : Moves k s ((watchRemove (.lock g) (s.emit [.release (.topUp g)])).modLock g fun l =>
      { l with top := noTopUp, topupT := none }) :=
    .trans (.trans (.emit s _) (watchRemove_moves _ _)) (.lockSteady _ g (by rfl))
  unfold endTopUp
  exact .ite (fun _ => .trans (.emitAfter _ (.trans h (.lockSteady _ g (by rfl)))) (deriveGroup_moves g _)) fun _ =>
    .trans h (.lockSteady _ g (by rfl))

theorem cancelTopUp_moves (g : Group) (s : State) : Moves k s (cancelTopUp g s) :=
  .ite (fun _ => .refl s) fun _ => .emitAfter _ (.lockSteady s g (by rfl))

theorem topupTimerDone_moves (g : Group) (s : State) : Moves k s (topupTimerDone g s) :=
  .ite (fun _ => memberEvent_moves s (endTopUp_moves g s)) fun _ => .refl s

theorem restartPeriodic_moves (g : Group) (s : State) : Moves k s (restartPeriodic g s) :=
  .lockSteady s g (by split <;> rfl)

theorem unitReady_moves (c : Consumer) (s : State) : Moves k s (unitReady c s) := by
  unfold unitReady
  split
  · exact axisUnitReady_moves _ s
  · exact opUnitReady_moves _ s
  · exact topUnitReady_moves _ s

/-! ## Lock groups: pins, trip, acknowledgement -/

theorem lockPar_moves (g : Group) {f : LockState → LockState} (s : State) (hk : k ≠ 0)
    (h : (f (s.lock g)).par = (s.lock g).par) : Moves k s (s.modLock g f) :=
  .lock s g _ (fun h => absurd h hk) fun _ => h

theorem opOnPin_moves (g : Group) (s : State) : Moves k s (opOnPin g s) := by
  unfold opOnPin
  refine .ite (fun _ => enterSettling_moves g s) fun _ => .ite (fun _ => setOpPhase_moves g _ s fun l => ?_) fun _ =>
    .refl s
  have h : ({ l.startTransit with settleT := none } : LockState).steady = l.startTransit.steady := rfl
  rw [h, steady_startTransit]

theorem pinSense_moves (g : Group) (n : Nat) (e w : Option Bool) (s : State) (hk : k ≠ 0) :
    Moves k s (pinSense g n e w s) := by
  have hp : ∀ q : Pin, Moves k s (s.modLock g fun l => l.modPin n fun _ => q) := fun _ =>
    lockPar_moves g s hk (by rfl)
  have he : ∀ q : Pin, Moves k s (memberEvent (fun s => deriveGroup g (s.modLock g fun l => l.modPin n fun _ => q)) s) :=
    fun q => memberEvent_moves s (.trans (hp q) (deriveGroup_moves g _))
  unfold pinSense
  dsimp only
  split
  · exact .refl s
  · exact .ite (fun _ => hp _) fun _ =>
      .trans (.ite (fun _ => .emitAfter _ (he _)) fun _ => he _) (opOnPin_moves g _)

theorem par_addConflict (l : LockState) (n : Nat) : (l.addConflict n).par = l.par := by
  unfold LockState.addConflict; split <;> rfl

theorem latchConflict_moves (g : Group) (n : Nat) (s : State) (hk : k ≠ 0) : Moves k s (latchConflict g n s) :=
  .trans (.emitAfter _ (lockPar_moves g s hk (by rfl))) (deriveGroup_moves g _)

theorem conflictDone_moves (g : Group) (n : Nat) (s : State) (hk : k ≠ 0) : Moves k s (conflictDone g n s) :=
  .ite (fun _ => memberEvent_moves s (latchConflict_moves g n s hk)) fun _ =>
    .marked (lockPar_moves g s hk (par_addConflict _ _))

theorem transitDone_moves (g : Group) (n : Nat) (s : State) (hk : k ≠ 0) : Moves k s (transitDone g n s) :=
  .marked (lockPar_moves g s hk (by rfl))

theorem tripLock_moves (g : Group) (s : State) : Moves k s (tripLock g s) := by
  refine .trans (.lockSteady s g ?_) (deriveGroup_moves g _)
  have h : ({ (s.lock g).ended with top := noTopUp, topupT := none } : LockState).steady = (s.lock g).ended.steady := rfl
  rw [h, steady_ended]

theorem tripMembers_moves (s : State) : Moves k s (tripMembers s) :=
  .emitAfter _ (memberEvent_moves s (.trans (.foldl (fun s a => tripAxis_moves a s) _ s)
    (.foldl (fun s g => tripLock_moves g s) _ _)))

theorem ackLock_moves (g : Group) (s : State) (hk : k ≠ 0) : Moves k s (ackLock g s) :=
  .trans (lockPar_moves g s hk (by rfl)) (deriveGroup_moves g _)

theorem ackAxis_moves (a : Axis) (s : State) (hk : k ≠ 0) : Moves k s (ackAxis a s) := by
  have h : Moves k s (s.modAxis a AxisState.acknowledged) :=
    axisFree s a hk (by rfl)
  unfold ackAxis
  exact .ite (fun _ => .trans h (passTo_moves a _ _ fun _ => by rfl)) fun _ => .trans h (deriveAxis_moves a _)

theorem ackMembers_moves (s : State) (hk : k ≠ 0) : Moves k s (ackMembers s) :=
  memberEvent_moves s (.trans (.foldl (fun s a => ackAxis_moves a s hk) _ s)
    (.foldl (fun s g => ackLock_moves g s hk) _ _))

end Sys2Proof.Machine
end

