-- ==== Sys2Proof/Laws/Runs.lean ====
section
/-! SUPPORT. Authority, permit, run engine and trip unit as chains of moves, and with them every message handler and
the end of every command. -/

namespace Sys2Proof.Machine

open Moves

variable {k : Nat} {s t u : State}

/-! ## Authority and permit -/

theorem Cau.ok_setBusy {c : Cau} (g : Group) (v : Bool) (h : c.ok) : (c.setBusy g v).ok := by
  cases g <;> exact h

theorem Cau.ok_handover {c : Cau} : c.handover.ok := ⟨fun _ => rfl, fun _ => rfl, by simp [Cau.handover]⟩

theorem Cau.not_due {c : Cau} (h : c.elect = none) : c.due = false := by simp [Cau.due, h]

theorem handoverTest_moves (s : State) : Moves k s (handoverTest s) := by
  unfold handoverTest
  refine .ite (fun h => .emitAfter _ (.marked (.cau s _ (fun _ => Cau.ok_handover) (fun _ => ⟨rfl, fun hn => ?_⟩)
    fun _ => rfl))) fun _ => .markedIf (.cau s _ (by exact id) (fun _ => ⟨by rfl, fun hn => ⟨hn, by rfl⟩⟩) fun _ => by rfl)
  simp [Cau.not_due hn] at h

theorem busyEnter_moves (g : Group) (s : State) : Moves k s (busyEnter g s) :=
  .cau s _ (fun h => Cau.ok_setBusy g _ h) (fun _ => ⟨by cases g <;> rfl, fun hn => by cases g <;> exact ⟨hn, rfl⟩⟩)
    fun _ => by cases g <;> rfl

theorem busyExit_moves (g : Group) (s : State) : Moves k s (busyExit g s) :=
  .trans (.cau s _ (fun h => Cau.ok_setBusy g _ h)
    (fun _ => ⟨by cases g <;> rfl, fun hn => by cases g <;> exact ⟨hn, rfl⟩⟩) fun _ => by cases g <;> rfl)
    (handoverTest_moves _)

theorem permitLapse_moves (s : State) (h : s.pmt.live = true) : Moves k s (permitLapse s) := by
  unfold permitLapse
  refine .emitAfter _ (.markedIf (.markedIf (.pmt s _ (fun _ hl => ?_) fun _ => ⟨rfl, rfl⟩)))
  rw [h] at hl; exact absurd hl (by decide)

theorem holderChanged_moves (s : State) : Moves k s (holderChanged s) :=
  .ite (fun h => permitLapse_moves s h) fun _ => .refl s

/-! ## Run engine -/

theorem Rne.steady_setOutcome (r : Rne) (n : Nat) (o : StepOutcome) : (r.setOutcome n o).steady = r.steady := by
  simp only [Rne.steady, Rne.setOutcome, List.map_set]
  congr 1
  apply List.ext_getElem (by simp)
  intro i h1 h2
  simp

theorem runEvent_moves {f : Rne → Rne} (s : State) (h : (f s.rne).steady = s.rne.steady) : Moves k s (runEvent f s) :=
  .marked (.rneSteady s h)

theorem stepGone_moves (m : Member) (s : State) : Moves k s (stepGone m s) := by
  unfold stepGone
  split
  · exact restartPeriodic_moves _ s
  · exact .refl s

theorem Rne.steady_leave (r : Rne) (e : Entry) (o : StepOutcome) : (r.leave e o).steady = r.steady := by
  have h : (r.leave e o).steady = (r.setOutcome e.num o).steady := rfl
  rw [h, Rne.steady_setOutcome]

theorem leaveSet_moves (e : Entry) (o : StepOutcome) (s : State) : Moves k s (leaveSet e o s) :=
  .trans (runEvent_moves s (Rne.steady_leave _ _ _)) (stepGone_moves _ _)

theorem refreshBlocked_moves (s : State) : Moves k s (refreshBlocked s) := .markedIf (.rneSteady s (by rfl))

theorem closeForStep_moves (m : Member) (s : State) : Moves k s (closeForStep m s) := by
  unfold closeForStep
  split
  · exact closeEarly_moves _ s
  · exact .refl s

theorem cancelForStep_moves (m : Member) (s : State) : Moves k s (cancelForStep m s) := by
  unfold cancelForStep
  split
  · exact cancelTopUp_moves _ s
  · exact .refl s

theorem enterSet_moves (n : Nat) (st : Step) (ph : EntryPhase) (s : State) : Moves k s (enterSet n st ph s) := by
  unfold enterSet
  refine .trans (.trans (cancelForStep_moves _ s) (watchAdd_moves _ _ _ _ _)) (.rneSteady _ ?_)
  exact Eq.trans (by rfl) (Rne.steady_setOutcome _ n .inFlight)

theorem placeStep_moves (s : State) (n : Nat) : Moves k s (placeStep s n) := by
  unfold placeStep
  exact .trans (closeForStep_moves _ s) (.ite (fun _ => .rneSteady _ (Rne.steady_setOutcome _ _ _)) fun _ =>
    enterSet_moves _ _ _ _)

theorem groupStart_moves (first : Nat) (s : State) : Moves k s (groupStart first s) := by
  have h : ∀ x : State, Moves k x (mark .run
      (memberEvent (fun s => (s.rne.current.group first).foldl placeStep s) x)) :=
    fun x => .marked (memberEvent_moves x (.foldl placeStep_moves _ x))
  unfold groupStart
  exact .trans (.rneSteady s (by rfl)) (.trans (h _) (.ite (fun _ => .emit _ _) fun _ => .emit _ _))

theorem groupDone_moves (s : State) : Moves k s (groupDone s) := by
  unfold groupDone
  exact .ite (fun _ => .ite (fun _ => groupStart_moves _ s) fun _ => runEvent_moves s (by rfl)) fun _ => .emit s _

theorem abortCheck_moves (s : State) : Moves k s (abortCheck s) :=
  .ite (fun _ => runEvent_moves s (by rfl)) fun _ => .emit s _

theorem refreshAxes_moves (s : State) : Moves k s (refreshAxes s) :=
  .foldl (fun s e => by split <;> [exact watchRefresh_moves _ s; exact .refl s]) _ s

theorem handOver_moves (e : Entry) (s : State) : Moves k s (handOver e s) := by
  unfold handOver
  dsimp only
  split
  · exact .trans (runEvent_moves s (by rfl)) (axisHandOver_moves _ _ _ _ _)
  · exact .trans (runEvent_moves s (by rfl)) (lockHandOver_moves _ _ _ _ _)

theorem handTestAs_moves (own : Bool) (s : State) : Moves k s (handTestAs own s) := by
  unfold handTestAs
  dsimp only
  split
  · exact .trans (refreshAxes_moves s) (.emitAfter _ (.ite (fun _ => memberEvent_moves _ (handOver_moves _ _)) fun _ =>
      handOver_moves _ _))
  · exact .emitAfter _ (refreshAxes_moves s)

theorem handTest_moves (s : State) : Moves k s (handTest s) := handTestAs_moves true s

theorem skipIfSatisfied_moves (a : Axis) (s : State) : Moves k s (skipIfSatisfied a s) := by
  unfold skipIfSatisfied
  split
  · exact .ite (fun _ => .emitAfter _ (.trans (watchRemove_moves _ s) (leaveSet_moves _ _ _))) fun _ => .refl s
  · exact .refl s

theorem firstSample_moves (a : Axis) (s : State) : Moves k s (firstSample a s) :=
  .emitAfter _ (skipIfSatisfied_moves a s)

theorem memberReturn_moves (m : Member) (s : State) : Moves k s (memberReturn m s) := by
  unfold memberReturn
  split
  · exact axisReturn_moves _ s
  · exact opReturn_moves _ s

theorem planReturn_moves (m : Member) (s : State) : Moves k s (planReturn m s) :=
  .emitAfter _ (.trans (watchStage_moves m .waiting s) (runEvent_moves _ (by rfl)))

theorem jogReturn_moves (m : Member) (s : State) : Moves k s (jogReturn m s) := by
  unfold jogReturn
  dsimp only
  split
  · refine .trans (.trans (watchRemove_moves m s) (runEvent_moves _ ?_)) (stepGone_moves m _)
    exact Eq.trans (by rfl) (Rne.steady_leave _ _ .dropped)
  · exact watchRemove_moves m s

theorem takeBack_moves (s : State) (e : WatchEntry) : Moves k s (takeBack s e) := by
  unfold takeBack
  split
  · exact topupReturn_moves _ s
  · exact .trans (memberReturn_moves _ s) (planReturn_moves _ _)
  · exact .trans (memberReturn_moves _ s) (jogReturn_moves _ _)
  · exact endTopUp_moves _ s
  · exact closeHolding_moves _ s
  · exact .refl s

theorem stepTimeout_moves (m : Member) (s : State) : Moves k s (stepTimeout m s) := by
  unfold stepTimeout
  split
  · exact .ite (fun _ => .emitAfter _ (.rneSteady s (by rfl))) fun _ => .refl s
  · exact .refl s

theorem dwellDone_moves (m : Member) (s : State) : Moves k s (dwellDone m s) := by
  unfold dwellDone
  split
  · exact .ite (fun _ => .emitAfter _ (leaveSet_moves _ _ s)) fun _ => .refl s
  · exact .refl s

theorem completion_moves (m : Member) (s : State) : Moves k s (completion m s) := by
  unfold completion
  split
  · refine .ite (fun _ => .ite (fun _ => ?_) fun _ => .ite (fun _ => leaveSet_moves _ _ s) fun _ =>
      .refl s) fun _ => .refl s
    exact .trans (runEvent_moves s (by rfl)) (.ite (fun _ => leaveSet_moves _ _ _) fun _ => .refl _)
  · exact .refl s

theorem stepEnded_moves (a : Axis) (s : State) : Moves k s (stepEnded a s) := by
  unfold stepEnded
  split
  · exact .ite (fun _ => .emitAfter _ (leaveSet_moves _ _ s)) fun _ => .refl s
  · exact .refl s

theorem setReasons_moves {f : Rne → Rne} (s : State) (h : (f s.rne).steady = s.rne.steady) :
    Moves k s (setReasons f s) := by
  have h1 : ∀ c, Moves k s (markIf c .run (s.modRne fun r =>
      { f r with engine := if (f r).reasons then .paused else .running })) :=
    fun c => .markedIf (.rneSteady s h)
  unfold setReasons
  exact .ite (fun _ => .emitAfter _ (h1 _)) fun _ => .ite (fun _ => .emitAfter _ (h1 _)) fun _ => h1 _

theorem lapseEvent_moves (s : State) : Moves k s (lapseEvent s) :=
  .ite (fun _ => setReasons_moves s (by rfl)) fun _ => .refl s

theorem permitNotice_moves (s : State) : Moves k s (permitNotice s) :=
  .ite (fun _ => .emitAfter _ (setReasons_moves s (by rfl))) fun _ => .refl s

theorem Rne.steady_dropAll (l : List Entry) (r : Rne) : (r.dropAll l).steady = r.steady := by
  unfold Rne.dropAll
  induction l generalizing r with
  | nil => rfl
  | cons e l ih => rw [List.foldl_cons, ih, Rne.steady_leave]

theorem unwatchWaiting_moves (l : List Entry) (s : State) : Moves k s (unwatchWaiting l s) :=
  .foldl (fun s _ => .ite (fun _ => watchRemove_moves _ s) fun _ => .refl s) l s

theorem stepsGone_moves (l : List Entry) (s : State) : Moves k s (stepsGone l s) :=
  .foldl (fun s _ => stepGone_moves _ s) l s

theorem enterAborting_moves (s : State) : Moves k s (enterAborting s) := by
  unfold enterAborting
  refine .emitAfter _ (.trans (.trans (unwatchWaiting_moves _ s) (stepsGone_moves _ _)) (runEvent_moves _ ?_))
  exact Eq.trans (by rfl) (Rne.steady_dropAll _ _)

theorem tripRne_moves (s : State) : Moves k s (tripRne s) := by
  have h : Moves k s (s.setWatch []) := .watch s _ fun _ => List.Pairwise.nil
  unfold tripRne
  refine .ite (fun _ => h) fun _ => .trans (.trans h (runEvent_moves _ ?_)) (stepsGone_moves _ _)
  exact Eq.trans (by rfl) (Rne.steady_dropAll _ _)

theorem stepClock_moves (s : State) (hk : k ≠ 0) : Moves k s (stepClock s) :=
  .emitAfter _ (.rne s _ (fun h => absurd h hk) fun _ => ⟨by rfl, by rfl, by rfl, by rfl⟩)

theorem startRun_moves (p : PlanId) (st : Station) (s : State) (hk : k ≠ 0) : Moves k s (startRun p st s) :=
  .trans (.rne s _ (fun h => absurd h hk) fun _ => ⟨by rfl, by rfl, by rfl, by rfl⟩) (groupStart_moves 1 _)

theorem jogSatisfied_moves (st : Step) (b : Station) (s : State) (hk : k ≠ 0) : Moves k s (jogSatisfied st b s) :=
  .marked (.rne s _ (fun h => absurd h hk) fun _ => ⟨by rfl, by rfl, by rfl, by rfl⟩)

theorem jogStart_moves (st : Step) (b : Station) (s : State) (hk : k ≠ 0) : Moves k s (jogStart st b s) := by
  have h : ∀ x : State, Moves k x (memberEvent (enterSet 1 st .delegated) x) :=
    fun x => memberEvent_moves x (enterSet_moves 1 st _ x)
  have h2 : ∀ f : Rne → Rne, (f s.rne).p0 = s.rne.p0 ∧ (f s.rne).p1 = s.rne.p1 ∧ (f s.rne).p2 = s.rne.p2 ∧
      (f s.rne).p3 = s.rne.p3 → Moves k s (s.modRne f) := fun f h => .rne s _ (fun h => absurd h hk) fun _ => h
  unfold jogStart
  dsimp only
  split
  · exact .emitAfter _ (.trans (.trans (h2 _ ⟨by rfl, by rfl, by rfl, by rfl⟩) (h _))
      (memberEvent_moves _ (handOver_moves _ _)))
  · exact .trans (h2 _ ⟨by rfl, by rfl, by rfl, by rfl⟩) (h _)

/-! ## Trip unit -/

theorem tripReport_moves (c : Cause) (m : Option Member) (d : Detail) (s : State) : Moves k s (tripReport c m d s) :=
  .emitAfter _ (.marked (.trip s c m d))

/-! ## Re-evaluation -/

theorem handFalse_moves (r : Reason) (e : WatchEntry) (s : State) : Moves k s (handFalse r e s) :=
  .ite (fun _ => tripReport_moves _ _ _ s) fun _ => takeBack_moves s e

theorem handTrue_moves (e : WatchEntry) (s : State) : Moves k s (handTrue e s) := by
  unfold handTrue
  split
  · exact topupAsk_moves _ s
  · exact handTestAs_moves false s
  · exact .refl s

theorem handOn_moves (s : State) (e : WatchEntry) : Moves k s (handOn s e) := by
  unfold handOn
  split
  · exact handFalse_moves _ e s
  · exact handTrue_moves e s

theorem reevaluate_moves (s : State) : Moves k s (reevaluate s) :=
  .trans (.watch s _ (watchOk_map fun _ => by rfl)) (.emitAfter _ (memberEvent_moves _ (.foldl handOn_moves _ _)))

/-! ## Messages -/

/-- Every handler is a chain of the moves that messages may make. -/
theorem handle_moves (m : Msg) (s : State) : Moves k s (handle m s) := by
  cases m with
  | reeval => exact reevaluate_moves s
  | topupGo g => exact topupGo_moves g s
  | handTest => exact handTest_moves s
  | refreshBlocked => exact refreshBlocked_moves s
  | groupDone => exact groupDone_moves s
  | abortCheck => exact abortCheck_moves s
  | stepTimeout m => exact stepTimeout_moves m s
  | dwellDone m => exact dwellDone_moves m s
  | completion m => exact completion_moves m s
  | stepEnded a => exact stepEnded_moves a s
  | firstSample a => exact firstSample_moves a s
  | lapseEvent => exact lapseEvent_moves s
  | permitNotice => exact permitNotice_moves s
  | axisStop a => exact axisStop_moves a s
  | axisResume a => exact axisResume_moves a s
  | axisEnd a => exact axisEnd_moves a s
  | request c => exact hsaRequest_moves c s
  | release c => exact hsaRelease_moves c s
  | allocate => exact hsaAllocate_moves s
  | unitReady c => exact unitReady_moves c s
  | tripReport c m d => exact tripReport_moves c m d s
  | tripRne => exact tripRne_moves s
  | tripMembers => exact tripMembers_moves s
  | tripHsa => exact hsaTrip_moves s
  | estopNotice => exact hsaEstop_moves s
  | busyEnter g => exact busyEnter_moves g s
  | busyExit g => exact busyExit_moves g s
  | holderChanged => exact holderChanged_moves s
  | topupTrigger g src => exact topupTrigger_moves g src s
  | holdDone g => exact holdDone_moves g s
  | reply st f => exact enqueueReply_moves st f s
  | replyRoles st kind tag code => exact enqueueRoles_moves st kind tag code s

theorem deliver_moves (m : Msg) (rest : List Msg) (s : State) : Moves k s (deliver m rest s) :=
  .trans (.trans (.agenda s []) (handle_moves m _)) (.agenda _ _)

theorem drain_moves (n : Nat) (s : State) : Moves k s (drain n s) := by
  induction n generalizing s with
  | zero => exact .refl s
  | succ n ih =>
    unfold drain
    split
    · exact .refl s
    · exact .trans (deliver_moves _ _ s) (ih _)

/-- What ends a command is a chain of the moves that messages may make. -/
theorem settle_moves (s : State) : Moves k s (settle s) := .trans (drain_moves _ s) (.agenda _ [])

theorem settle_agenda (s : State) : (settle s).agenda = [] := rfl

/-- The messages of a command keep the steady view. -/
theorem settle_steady (s : State) : (settle s).steady = s.steady := (settle_moves (k := 0) s).steady rfl

/-- What holds of a state and is kept by every handler holds when the command ends. -/
theorem settle_of_drain {n : Nat} (hn : n ≤ Config.cascadeBound) (h : (drain n s).agenda = []) :
    settle s = drain n s := by
  have more : ∀ n m (s : State), (drain n s).agenda = [] → drain (n + m) s = drain n s := by
    intro n
    induction n with
    | zero =>
      intro m s h
      cases m with
      | zero => rfl
      | succ m => have h : s.agenda = [] := h; simp [drain, h]
    | succ n ih =>
      intro m s h
      rw [Nat.add_right_comm]
      unfold drain at h ⊢
      split
      · rfl
      · next hr => rw [hr] at h; exact ih m _ h
  obtain ⟨m, hm⟩ := Nat.exists_eq_add_of_le hn
  have h2 : drain Config.cascadeBound s = drain n s := by rw [hm]; exact more n m s h
  unfold settle
  rw [h2]
  generalize drain n s = y at h
  cases y
  simp_all

/-- With no message sent, a command has ended. -/
theorem settle_nil (h : s.agenda = []) : settle s = s := settle_of_drain (n := 0) (Nat.zero_le _) h

/-- With one message sent whose handler sends none, a command ends with that handler. -/
theorem settle_one {m : Msg} (h : s.agenda = [m]) (h2 : (handle m { s with agenda := [] }).agenda = []) :
    settle s = handle m { s with agenda := [] } := by
  have hd : drain 1 s = handle m { s with agenda := [] } := by
    simp only [drain, h, deliver, List.append_nil]
  rw [settle_of_drain (n := 1) (by decide) (by rw [hd]; exact h2), hd]

/-- The first message is delivered before the rest of the command. -/
theorem settle_moves_after (m : Msg) (rest : List Msg) (h : s.agenda = m :: rest) :
    Moves k (handle m { s with agenda := [] }) (settle s) := by
  have hd : drain Config.cascadeBound s = drain (Config.cascadeBound - 1) (deliver m rest s) := by
    show drain (4095 + 1) s = drain 4095 _
    conv_lhs => unfold drain
    rw [h]
  unfold settle
  rw [hd]
  exact .trans (.trans (.agenda _ _) (drain_moves _ _)) (.agenda _ [])

end Sys2Proof.Machine
end

