-- ==== Sys2Proof/Laws/Exec.lean ====
section
/-! SUPPORT. Every command as a chain of moves: at level 2 whatever it is, at level 1 where it stores nothing and
clears no trip; and what follows for the queue of messages. -/

namespace Sys2Proof.Machine

open Moves

variable {k : Nat} {s t u : State}

theorem answer_moves (st : Station) (kind tag : Byte) (c : ReplyCode) (d : List Byte) (s : State) :
    Moves k s (answer st kind tag c d s) := .emit s _

/-! ## Links and roles -/

theorem Cau.ok_let {c : Cau} (h : Option Station) : ({ c with holder := h, elect := none, yielded := false, deferred := false } : Cau).ok :=
  ⟨fun _ => rfl, fun _ => rfl, fun _ h => nomatch h⟩

theorem setHolder_moves' (h : Option Station) (s : State) (hk : k ≠ 0) : Moves k s (setHolder h s) :=
  .emitAfter _ (.marked (.cau s _ (fun _ => Cau.ok_let h) (fun h => absurd h hk) fun _ => rfl))

theorem cauFree (s : State) {f : Cau → Cau} (hk : k ≠ 0) (hok : s.cau.ok → (f s.cau).ok)
    (h : (f s.cau).linkTimeout = s.cau.linkTimeout) : Moves k s (s.modCau f) :=
  .cau s _ hok (fun h => absurd h hk) fun _ => h

theorem claim_moves (st : Station) (s : State) (hk : k ≠ 0) : Moves k s (claim st s).1 := by
  unfold claim
  split
  · exact .refl s
  · next hh =>
    split
    · exact setHolder_moves' _ s hk
    · next o ho he =>
      refine .trans (.marked (cauFree s hk (f := fun c => { c with elect := some st }) (fun hok => ?_) rfl))
        (handoverTest_moves _)
      have hy := hok.2.1 he
      refine ⟨fun h => ?_, fun h => absurd h (by simp), fun e hx => ?_⟩
      · rw [ho] at h; exact absurd h (by simp)
      · cases hx; simpa [State.holds] using hh
    · exact handoverTest_moves s

theorem dropElect_moves (s : State) (hk : k ≠ 0) : Moves k s (dropElect s) := by
  unfold dropElect
  refine .ite (fun _ => setHolder_moves' _ s hk) fun hy => .marked (cauFree s hk (fun hok => ?_) (by rfl))
  exact ⟨fun _ => rfl, fun _ => by simpa using hy, fun _ h => nomatch h⟩

theorem dropHolder_moves (s : State) (hk : k ≠ 0) : Moves k s (dropHolder s) := by
  unfold dropHolder
  split
  · exact setHolder_moves' _ s hk
  · next e he =>
    refine .ite (fun _ => .refl s) fun _ => .trans (.marked (cauFree s hk (f := fun c => { c with yielded := true })
      (fun hok => ?_) rfl)) (handoverTest_moves _)
    exact ⟨hok.1, fun h => by rw [he] at h; exact absurd h (by simp), hok.2.2⟩

theorem letGo_moves (st : Station) (s : State) (hk : k ≠ 0) : Moves k s (letGo st s) :=
  .ite (fun _ => dropHolder_moves s hk) fun _ => .ite (fun _ => dropElect_moves s hk) fun _ => .refl s

theorem alive_moves (st : Station) (v : Bool) (s : State) (hk : k ≠ 0) :
    Moves k s (s.modCau fun c => c.setAlive st v) :=
  cauFree s hk (fun h => by cases st <;> exact h) (by cases st <;> rfl)

theorem linkLost_moves (st : Station) (s : State) (hk : k ≠ 0) : Moves k s (linkLost st s) :=
  .ite (fun _ => .trans (.marked (alive_moves st false s hk)) (letGo_moves st _ hk)) fun _ => .refl s

theorem linkRestore_moves (st : Station) (s : State) (hk : k ≠ 0) : Moves k s (linkRestore st s) :=
  .ite (fun _ => .refl s) fun _ => .marked (alive_moves st true s hk)

theorem linkFree (s : State) (st : Station) {f : Link → Link} (hk : k ≠ 0)
    (hok : (s.link st).reportsOk → (f (s.link st)).reportsOk) (h : (f (s.link st)).mask = (s.link st).mask) :
    Moves k s (s.modLink st f) :=
  .link s st _ hok (fun h => absurd h hk) fun _ => h

theorem keyChange_moves (b : Bool) (s : State) (hk : k ≠ 0) : Moves k s (keyChange b s) :=
  .trans (.marked (cauFree s hk (by exact id) (by rfl))) (handoverTest_moves _)

theorem permitArrival_moves (st : Station) (s : State) (hk : k ≠ 0) : Moves k s (permitArrival st s) := by
  unfold permitArrival
  exact .ite (fun _ => .emitAfter _ (.markedIf (.markedIf (.pmt s _ (fun h => absurd h hk) fun _ => ⟨by rfl, by rfl⟩))))
    fun _ => .refl s

theorem permitLapse_moves' (s : State) (hk : k ≠ 0) : Moves k s (permitLapse s) := by
  unfold permitLapse
  exact .emitAfter _ (.markedIf (.markedIf (.pmt s _ (fun h => absurd h hk) fun _ => ⟨by rfl, by rfl⟩)))

theorem permitExpiry_moves (s : State) (hk : k ≠ 0) : Moves k s (permitExpiry s) :=
  .ite (fun _ => permitLapse_moves' s hk) fun _ => .refl s

/-! ## Requests that store nothing -/

theorem enqueued_moves (st : Station) (kind tag : Byte) (c : ReplyCode) (d : List Byte) (h : Moves k s t) :
    Moves k s (answer st kind tag c d t) := h.emitAfter _

theorem startBody_moves (st : Station) (tag code : Byte) (s : State) (hk : k ≠ 0) :
    Moves k s (startBody st tag code s) := by
  unfold startBody
  split
  · exact answer_moves _ _ _ _ _ s
  · exact enqueued_moves _ _ _ _ _ (startRun_moves _ st s hk)

theorem pauseBody_moves (st : Station) (tag : Byte) (s : State) : Moves k s (pauseBody st tag s) :=
  .ite (fun _ => enqueued_moves _ _ _ _ _ (setReasons_moves s (by rfl))) fun _ => answer_moves _ _ _ _ _ s

theorem continueBody_moves (st : Station) (tag : Byte) (s : State) : Moves k s (continueBody st tag s) :=
  .ite (fun _ => answer_moves _ _ _ _ _ s) fun _ =>
    .ite (fun _ => enqueued_moves _ _ _ _ _ (setReasons_moves s (by rfl))) fun _ => answer_moves _ _ _ _ _ s

theorem abortBody_moves (st : Station) (tag : Byte) (s : State) : Moves k s (abortBody st tag s) :=
  .ite (fun _ => enqueued_moves _ _ _ _ _ (enterAborting_moves s)) fun _ =>
    .ite (fun _ => answer_moves _ _ _ _ _ s) fun _ => answer_moves _ _ _ _ _ s

theorem jogBody_moves (st : Station) (tag code : Byte) (dist : Int) (s : State) (hk : k ≠ 0) :
    Moves k s (jogBody st tag code dist s) := by
  unfold jogBody
  split
  · exact answer_moves _ _ _ _ _ s
  · next step clamped _ =>
    refine .trans (memberEvent_moves s (closeForStep_moves step.member s)) ?_
    generalize memberEvent (closeForStep step.member) s = y
    dsimp only
    refine .ite (fun _ => enqueued_moves _ _ _ _ _ (jogSatisfied_moves _ _ y hk)) fun _ => ?_
    split
    · exact answer_moves _ _ _ _ _ y
    · exact enqueued_moves _ _ _ _ _ (jogStart_moves _ _ y hk)

theorem topupBody_moves (st : Station) (tag code : Byte) (s : State) : Moves k s (topupBody st tag code s) := by
  unfold topupBody
  split
  · exact answer_moves _ _ _ _ _ s
  · exact enqueued_moves _ _ _ _ _ (topupTrigger_moves _ _ s)

theorem ilkFree (s : State) (i : Ilk) (hk : k ≠ 0) (hw : i.watch = s.ilk.watch)
    (h : i.speedLimit = s.ilk.speedLimit ∧ i.speedStale = s.ilk.speedStale ∧ i.warnTime = s.ilk.warnTime) :
    Moves k s { s with ilk := i } := .ilk s i hk hw fun _ => h

theorem storedResult_moves (asked stored : Nat) (h : Moves k s t) : Moves k s (storedResult t asked stored).state := by
  unfold storedResult
  split <;> exact h

theorem shipBody_moves (st : Station) (tag lo hi : Byte) (s : State) (hk : k ≠ 0) :
    Moves k s (shipBody st tag lo hi s) := by
  unfold shipBody
  split
  · exact answer_moves _ _ _ _ _ s
  · exact enqueued_moves _ _ _ _ _ (storedResult_moves _ _
      (.emitAfter _ (.markedIf (ilkFree s _ hk (by rfl) ⟨by rfl, by rfl, by rfl⟩))))

theorem readRequest_moves (st : Station) (type a b : Byte) (s : State) :
    Moves k s (readRequest st type a b s).state := by
  unfold readRequest
  split <;> exact .refl s

/-! ## Requests that store -/

theorem hsaLimits_moves (s : State) (a b : Nat) (hk : 2 ≤ k) :
    Moves k s { s with hsa := { s.hsa with startLimit := a, runOn := b } } := .limits s a b hk

theorem loseOld_moves (st : Station) (s : State) (hk : k ≠ 0) : Moves k s (loseOld st s) :=
  .ite (fun _ => linkLost_moves st s hk) fun _ => .refl s

theorem setClamped_moves {f : Nat → State} (lo hi v : Nat) (h : ∀ w, Moves k s (f w)) :
    Moves k s (setClamped lo hi v f).state := storedResult_moves _ _ (h _)

theorem setParam_moves (p : Param) (v : Nat) (s : State) (hk : 2 ≤ k) : Moves k s (setParam p v s).state := by
  have h0 : k ≠ 0 := by omega
  have h1 : ∀ {P : Prop}, k ≤ 1 → P := fun h => by omega
  have ilk : ∀ i : Ilk, i.watch = s.ilk.watch → Moves k s { s with ilk := i } := fun i hw => .ilk s i h0 hw h1
  have pmt : ∀ p : Pmt, Moves k s { s with pmt := p } := fun p => .pmt s p (fun h => absurd h h0) h1
  cases p with
  | speedLimit => exact setClamped_moves _ _ _ fun w => .emitAfter _ (ilk _ (by rfl))
  | speedStale => exact setClamped_moves _ _ _ fun w => ilk _ rfl
  | warnTime => exact setClamped_moves _ _ _ fun w => ilk _ rfl
  | axis a i =>
    simp only [setParam]
    split
    · exact .refl s
    · split
      · exact .refl s
      · exact setClamped_moves _ _ _ fun w => .axis s a _ (fun h => absurd h h0) h1
  | lock g i =>
    simp only [setParam]
    split
    · exact .refl s
    · exact setClamped_moves _ _ _ fun w => .lock s g _ (fun h => absurd h h0) h1
  | startLimit => exact setClamped_moves _ _ _ fun w => hsaLimits_moves s w _ hk
  | runOn => exact setClamped_moves _ _ _ fun w => hsaLimits_moves s _ w hk
  | permitWindow => exact setClamped_moves _ _ _ fun w => pmt _
  | permitAction =>
    simp only [setParam]
    split
    · exact .refl s
    · exact storedResult_moves _ _ (pmt _)
  | linkTimeout =>
    exact setClamped_moves _ _ _ fun w => .trans (.trans (.cau s _ (by exact id) (fun h => absurd h h0) h1)
      (loseOld_moves .bridge _ h0)) (loseOld_moves .deck _ h0)
  | filter c => exact storedResult_moves _ _ (.dic s _ h0 h1)

theorem setRequest_moves (st : Station) (id lo hi : Byte) (s : State) (hk : 2 ≤ k) :
    Moves k s (setRequest st id lo hi s).state := by
  unfold setRequest
  split
  · exact .refl s
  · split
    · exact setParam_moves _ _ s hk
    · exact .refl s

theorem setwinRequest_moves (st : Station) (p : List Byte) (s : State) (hk : 2 ≤ k) :
    Moves k s (setwinRequest st p s).state := by
  have h : ∀ a v, Moves k s (s.setAxis a v) := fun a v => .axis s a v (by omega) (by omega)
  have h1 : ∀ a bs, Moves k s (storeProfile a bs s).state := fun a bs => by
    unfold storeProfile
    split
    · dsimp only; split <;> exact h _ _
    · exact .refl s
  have h2 : ∀ a n bs, Moves k s (storeWindow a n bs s).state := fun a n bs => by
    unfold storeWindow
    split
    · split
      · dsimp only; split <;> exact h _ _
      · exact .refl s
    · exact .refl s
  unfold setwinRequest
  split
  · split
    · split
      · exact .refl s
      · split
        · exact .refl s
        · split
          · exact h1 _ _
          · split
            · exact h2 _ _ _
            · exact .refl s
    · exact .refl s
  · exact .refl s

theorem setstepRequest_moves (st : Station) (p : List Byte) (s : State) (hk : 2 ≤ k) :
    Moves k s (setstepRequest st p s).state := by
  have h : ∀ q x l c y, Moves k s (stepResult (storeStep q x l s) y c).state := fun q x l c y => by
    have : Moves k s (storeStep q x l s) := .rne s _ (by omega) (by omega)
    unfold stepResult
    split <;> exact this
  unfold setstepRequest
  split
  · split
    · exact .refl s
    · split
      · exact .refl s
      · split
        · exact .refl s
        · split
          · exact h _ _ _ _ _
          · exact .refl s
  · exact .refl s

theorem setmaskRequest_moves (st : Station) (lo hi : Byte) (s : State) (hk : 2 ≤ k) :
    Moves k s (setmaskRequest st lo hi s).state := by
  unfold setmaskRequest
  dsimp only
  split
  · exact .refl s
  · refine .link s st _ (fun hok => ⟨hok.1.filter _, fun x hx => ?_⟩) (by omega) (by omega)
    exact (List.mem_filter.mp hx).2

/-! ## ACKNOWLEDGE and RESTART -/

theorem hsaRecover_moves (s : State) (hk : 2 ≤ k) : Moves k s (hsaRecover s) := by
  have h : ∀ (w : UnitId) (s : State), Moves k s (s.modUnit w PumpUnit.recover) := by
    intro w s
    refine .unit s w _ (fun hok => ?_) (by omega) (by omega)
    unfold PumpUnit.recover
    split
    · next hf =>
      obtain ⟨h1, h2, h3, h4, h5⟩ := hok
      simp only [hf.1, reduceCtorEq, iff_false, imp_false, false_and, Bool.not_eq_true, Option.isSome_eq_false_iff,
        Option.isNone_iff_eq_none] at h1 h2 h3
      simp [PumpUnit.ok, h1, h2, h3]
    · exact hok
  exact .emitAfter _ (supplyEvent_moves s (.trans (h .u1 s) (h .u2 _)))

theorem acceptAck_moves (s : State) (hk : 2 ≤ k) : Moves k s (acceptAck s) := by
  have h0 : k ≠ 0 := by omega
  have h1 : Moves k s (clearTrip s) := .marked (.clear s _ hk rfl)
  have h2 : Moves k s (if s.tru.latch then (clearTrip s).emit [.reeval] else clearTrip s) :=
    .ite (fun _ => h1.emitAfter _) fun _ => h1
  have h5 : ∀ x, Moves k x (runEvent (fun r => { r with engine := .idle }) (hsaRecover x)) := fun x =>
    .trans (hsaRecover_moves x hk) (runEvent_moves _ (by rfl))
  unfold acceptAck
  exact .trans (.trans h2 (ackMembers_moves _ h0)) (h5 _)

theorem ackBody_moves (st : Station) (tag : Byte) (s : State) (hk : 2 ≤ k) : Moves k s (ackBody st tag s) :=
  .ite (fun _ => answer_moves _ _ _ _ _ s) fun _ => .ite (fun _ => enqueued_moves _ _ _ _ _ (hsaRecover_moves s hk))
    fun _ => .ite (fun _ => enqueued_moves _ _ _ _ _ (acceptAck_moves s hk)) fun _ => answer_moves _ _ _ _ _ s

theorem outputsOff_moves (s : State) : Moves k s (outputsOff s) :=
  .trans (.trans (zeroAxis_moves .vis s) (zeroAxis_moves .rmp _)) (zeroAxis_moves .inr _)

theorem markAll_moves (s : State) : Moves k s (markAll s) := .foldl (fun s sub => mark_moves sub s) _ s

theorem restartBody_moves (st : Station) (tag : Byte) (s : State) (hk : 2 ≤ k) : Moves k s (restartBody st tag s) :=
  .ite (fun _ => answer_moves _ _ _ _ _ s) fun _ => .ite (fun _ => answer_moves _ _ _ _ _ s) fun _ =>
    .trans (.trans (.trans (outputsOff_moves s) (.warm _ hk)) (enqueueReply_moves _ _ _)) (markAll_moves _)

/-! ## Arrival -/

/-- The request kinds that store nothing and clear no trip. -/
def plainKind (kind : Byte) : Prop :=
  kind ≠ 0x0B ∧ kind ≠ 0x0C ∧ kind ≠ 0x0D ∧ kind ≠ 0x0E ∧ kind ≠ 0x10 ∧ kind ≠ 0x11

theorem dispatch_moves (st : Station) (kind tag : Byte) (p : List Byte) (s : State) (hk : 1 ≤ k)
    (h2 : ¬plainKind kind → 2 ≤ k) : Moves k s (dispatch st kind tag p s) := by
  have h0 : k ≠ 0 := by omega
  have hp : ∀ n : Byte, kind.toNat = n.toNat → kind = n := fun n h => BitVec.eq_of_toNat_eq h
  unfold dispatch
  split
  · exact .emitAfter _ (claim_moves st s h0)
  · exact .emitAfter _ (letGo_moves st s h0)
  · exact startBody_moves st tag _ s h0
  · exact pauseBody_moves st tag s
  · exact continueBody_moves st tag s
  · exact abortBody_moves st tag s
  · exact jogBody_moves st tag _ _ s h0
  · exact topupBody_moves st tag _ s
  · exact shipBody_moves st tag _ _ s h0
  · next h => exact enqueued_moves _ _ _ _ _ (setRequest_moves _ _ _ _ s (h2 fun q => q.1 (hp 0x0B h)))
  · next h => exact enqueued_moves _ _ _ _ _ (setwinRequest_moves _ _ s (h2 fun q => q.2.1 (hp 0x0C h)))
  · next h => exact enqueued_moves _ _ _ _ _ (setstepRequest_moves _ _ s (h2 fun q => q.2.2.1 (hp 0x0D h)))
  · next h => exact enqueued_moves _ _ _ _ _ (setmaskRequest_moves _ _ _ s (h2 fun q => q.2.2.2.1 (hp 0x0E h)))
  · exact enqueued_moves _ _ _ _ _ (readRequest_moves _ _ _ _ s)
  · next h => exact ackBody_moves st tag s (h2 fun q => q.2.2.2.2.1 (hp 0x10 h))
  · next h => exact restartBody_moves st tag s (h2 fun q => q.2.2.2.2.2 (hp 0x11 h))
  · exact .refl s

theorem frameDone_moves (st : Station) (s : State) (hk : 1 ≤ k) : Moves k s (frameDone st s) :=
  .trans (linkFree s st (by omega) (by exact id) (by rfl)) (linkRestore_moves st _ (by omega))

theorem takeRequest_moves (st : Station) (kind tag : Byte) (p : List Byte) (s : State) (hk : 1 ≤ k)
    (h2 : ¬plainKind kind → 2 ≤ k) : Moves k s (takeRequest st kind tag p s) := by
  unfold takeRequest
  refine .ite (fun _ => permitArrival_moves st s (by omega)) fun _ => .ite (fun _ => .refl s) fun _ => ?_
  split
  · exact .emit s _
  · exact .ite (fun _ => dispatch_moves st kind tag p s hk h2) fun _ => answer_moves _ _ _ _ _ s

theorem arrive_moves (st : Station) (kind tag : Byte) (p : List Byte) (s : State) (hk : 1 ≤ k)
    (h2 : ¬plainKind kind → 2 ≤ k) : Moves k s (settle (arrive st kind tag p s)) :=
  .trans (.trans (frameDone_moves st s hk) (takeRequest_moves st kind tag p _ hk h2)) (settle_moves _)

theorem setAsm_moves (st : Station) (asm : Option (List Byte)) (s : State) (hk : k ≠ 0) : Moves k s (setAsm st asm s) :=
  linkFree s st hk (by exact id) (by rfl)

theorem rxByte_moves (st : Station) (s : State) (b : Byte) (hk : 2 ≤ k) : Moves k s (rxByte st s b) := by
  have h : ∀ x, Moves k s (setAsm st x s) := fun x => setAsm_moves st x s (by omega)
  unfold rxByte
  split
  · exact .ite (fun _ => h _) fun _ => .refl s
  · refine .ite (fun _ => h _) fun _ => .ite (fun _ => h _) fun _ => ?_
    split
    · exact arrive_moves st _ _ _ s (by omega) fun _ => hk
    · exact h _

/-! ## Events -/

theorem unitFree (s : State) (w : UnitId) {f : PumpUnit → PumpUnit} (hk : k ≠ 0) (hok : (s.unit w).ok → (f (s.unit w)).ok)
    (h1 : (s.unit w).ok → (s.unit w).state = .failed → (f (s.unit w)).state = .failed ∧
      (f (s.unit w)).failure = (s.unit w).failure) : Moves k s (s.modUnit w f) :=
  .unit s w _ hok (fun h => absurd h hk) fun _ => h1

theorem dicFree (s : State) {f : Dic → Dic} (hk : k ≠ 0) (h : (f s.dic).counts = s.dic.counts) :
    Moves k s (s.modDic f) := .dic s _ hk fun _ => h

theorem counts_deliver? (d : Dic) (i : Input) (v : Option Bool) : (d.deliver? i v).counts = d.counts := by
  unfold Dic.deliver?
  split <;> rfl

theorem pressEdge_ok {r : PumpUnit} (b : Bool) (ro : Nat) (h : r.ok) : (r.pressEdge b ro).ok := by
  obtain ⟨h1, h2, h3, h4, h5⟩ := h
  unfold PumpUnit.pressEdge
  dsimp only
  split
  · next hs =>
    have hs : r.state = .starting := hs
    have hf : r.failure = none := by
      cases hr : r.failure with
      | none => rfl
      | some x => have := h4.mp (by simp [hr]); rw [hs] at this; exact absurd this (by decide)
    have ho : r.runOnT = none := by
      cases hr : r.runOnT with
      | none => rfl
      | some x => have := (h3 (by simp [hr])).1; rw [hs] at this; exact absurd this (by decide)
    have hl : r.lossT = none := by
      cases hr : r.lossT with
      | none => rfl
      | some x => have := h2 (by simp [hr]); rw [hs] at this; exact absurd this (by decide)
    unfold PumpUnit.run
    dsimp only
    split
    · next hh =>
      have hh : r.holder = none := Option.isNone_iff_eq_none.mp hh
      unfold PumpUnit.park
      split <;> simp [PumpUnit.ok, hf, hh, hl]
    · simp [PumpUnit.ok, hf, ho, hl]
  · exact ⟨h1, by simp, h3, h4, h5⟩
  · next hs => exact ⟨h1, fun _ => hs, h3, h4, h5⟩
  · exact ⟨h1, h2, h3, h4, h5⟩

theorem pressEdge_failed {r : PumpUnit} (b : Bool) (ro : Nat) (h : r.state = .failed) :
    (r.pressEdge b ro).state = .failed ∧ (r.pressEdge b ro).failure = r.failure := by
  unfold PumpUnit.pressEdge
  simp [h]

theorem pressureEdge_moves (w : UnitId) (b : Bool) (s : State) (hk : k ≠ 0) : Moves k s (pressureEdge w b s) := by
  have h : Moves k s (s.modUnit w fun r => r.pressEdge b s.hsa.runOn) :=
    unitFree s w hk (pressEdge_ok b _) fun _ hf => pressEdge_failed b _ hf
  unfold pressureEdge
  exact supplyEvent_moves s (.ite (fun _ => h) fun _ => .trans (.trans h (tellRunning_moves w _)) (serve_moves _))

theorem motorValue_moves (w : UnitId) (b : Bool) (s : State) (hk : k ≠ 0) : Moves k s (motorValue w b s) := by
  have h : Moves k s (s.modUnit w fun r => { r with motorTrip := some b }) :=
    unitFree s w hk (by exact id) fun _ hf => ⟨hf, by rfl⟩
  exact supplyEvent_moves s (.ite (fun hc => .trans h (unitDown_moves w _ _ fun _ => hc.2)) fun _ => h)

theorem unitFirst_moves (w : UnitId) (i : UnitInput) (b : Bool) (s : State) (hk : k ≠ 0) :
    Moves k s (unitFirst w i b s) := by
  refine .emitAfter _ ?_
  split
  · exact supplyEvent_moves s (unitFree s w hk (by exact id) fun _ hf => ⟨hf, by rfl⟩)
  · exact motorValue_moves w b s hk

theorem loopValue_moves (st : Station) (c : Bool) (s : State) (hk : k ≠ 0) : Moves k s (loopValue st c s) := by
  have h : Moves k s (mark .trip (s.modTru fun t => { t.setLoop st c with latch := t.latch || !c })) :=
    .marked (.tru s _ hk (by cases st <;> rfl))
  unfold loopValue
  exact .ite (fun _ => h) fun _ => .emitAfter _ h

theorem pwmStart_moves (s : State) (hk : k ≠ 0) : Moves k s (pwmStart s) :=
  .trans (.trans (.trans (.adopt s .vis) (.adopt _ .rmp)) (.adopt _ .inr)) (.pwm _ 5 hk)

theorem speedStale_moves (s : State) (hk : k ≠ 0) : Moves k s (speedStale s) :=
  .ite (fun _ => .emitAfter _ (.marked (ilkFree s _ hk (by rfl) ⟨by rfl, by rfl, by rfl⟩))) fun _ => .refl s

theorem runOnDone_moves (w : UnitId) (s : State) (hk : k ≠ 0) (h : (s.unit w).runOnT.isSome) :
    Moves k s (runOnDone w s) := by
  refine supplyEvent_moves s (.trans (unitFree s w hk (fun hok => ?_) fun hok hf => ?_) (serve_moves _))
  · obtain ⟨h1, h2, h3, h4, h5⟩ := hok
    have hs := (h3 h).1
    simp only [hs, reduceCtorEq, iff_false, Bool.not_eq_true, Option.isSome_eq_false_iff,
      Option.isNone_iff_eq_none] at h1 h4
    simp [PumpUnit.ok, h1, h4]
  · have hs := (hok.2.2.1 h).1
    rw [hs] at hf
    exact absurd hf (by decide)

theorem startT_not_failed {r : PumpUnit} (h : r.startT.isSome) (hok : r.ok) : r.state ≠ .failed := by
  rw [hok.1.mp h]; decide

theorem lossT_not_failed {r : PumpUnit} (h : r.lossT.isSome) (hok : r.ok) : r.state ≠ .failed := by
  rw [hok.2.1 h]; decide

/-- A command's meaning made of an end of moves. -/
theorem ends_moves (h : Moves k s t) {v : State} (hv : ends t = .next v) : Moves k s v := by
  cases hv; exact .trans h (settle_moves t)

theorem pinEvent_moves {g : Group} {n : Nat} {f : State → State} (h : Moves k s (f s)) {v : State}
    (hv : pinEvent g n f s = .next v) : Moves k s v := by
  unfold pinEvent at hv
  split at hv
  · exact ends_moves h hv
  · cases hv

theorem pinValues_moves (g : Group) (n : Nat) (e w : Option Bool) (s : State) (hk : k ≠ 0) :
    Moves k s (pinValues g n e w s) :=
  .trans (dicFree s hk (by rw [counts_deliver?, counts_deliver?])) (pinSense_moves g n e w _ hk)

theorem switchValues_moves (a : Axis) (c o : Option Bool) (s : State) (hk : k ≠ 0) :
    Moves k s (switchValues a c o s) := dicFree s hk (by rw [counts_deliver?, counts_deliver?])

/-- Every command's next state is reached by a chain of moves: at level 2, and at level 1 where the command stores
nothing and clears no trip. -/
theorem exec_moves {c : Instr} (hk : 1 ≤ k) (h2 : (plainCommand c && c.wellFormed) = false → 2 ≤ k)
    (h : exec c s = .next t) : Moves k s t := by
  have h0 : k ≠ 0 := by omega
  have req : ∀ {st : Station} {kind tag : Byte} {p : List Byte}, plainKind kind → arrival st kind tag p s = .next t →
      Moves k s t := fun hp h => by cases h; exact arrive_moves _ _ _ _ s hk fun h => absurd hp h
  have req2 : ∀ {st : Station} {kind tag : Byte} {p : List Byte}, 2 ≤ k → arrival st kind tag p s = .next t →
      Moves k s t := fun hp h => by cases h; exact arrive_moves _ _ _ _ s hk fun _ => hp
  cases c with
  | powerOnReset => cases h; exact .power s (h2 rfl)
  | claim => exact req (by unfold plainKind; decide) h
  | yieldAuthority => exact req (by unfold plainKind; decide) h
  | startPlan => exact req (by unfold plainKind; decide) h
  | pause => exact req (by unfold plainKind; decide) h
  | continueRun => exact req (by unfold plainKind; decide) h
  | abortRun => exact req (by unfold plainKind; decide) h
  | permit => exact req (by unfold plainKind; decide) h
  | jog => exact req (by unfold plainKind; decide) h
  | topup => exact req (by unfold plainKind; decide) h
  | ship => exact req (by unfold plainKind; decide) h
  | setGlobalParameter => exact req2 (h2 rfl) h
  | setAxisParameter => exact req2 (h2 rfl) h
  | setLockParameter => exact req2 (h2 rfl) h
  | setSupplyParameter => exact req2 (h2 rfl) h
  | setPermitParameter => exact req2 (h2 rfl) h
  | setFilterCount => exact req2 (h2 rfl) h
  | setwin => exact req2 (h2 rfl) h
  | setstep => exact req2 (h2 rfl) h
  | setmask => exact req2 (h2 rfl) h
  | readSubject => exact req (by unfold plainKind; decide) h
  | readParameter => exact req (by unfold plainKind; decide) h
  | readWindow => exact req (by unfold plainKind; decide) h
  | readStep => exact req (by unfold plainKind; decide) h
  | readPlanLength => exact req (by unfold plainKind; decide) h
  | readMask => exact req (by unfold plainKind; decide) h
  | acknowledge => exact req2 (h2 rfl) h
  | restart => exact req2 (h2 rfl) h
  | unknownKind st kind tag p =>
    by_cases hw : (Instr.unknownKind st kind tag p).wellFormed = true
    · refine req ?_ h
      simp only [Instr.wellFormed, Bool.and_eq_true, Bool.or_eq_true, beq_iff_eq, decide_eq_true_eq] at hw
      refine ⟨?_, ?_, ?_, ?_, ?_, ?_⟩ <;> rintro rfl <;> simp at hw
    · exact req2 (h2 (by simp [hw])) h
  | frameDiscard st bs =>
    have h3 := h2 rfl
    cases h
    exact .trans (.foldl (fun s b => rxByte_moves st s b h3) bs s) (settle_moves _)
  | frameGapExpiry st => cases h; exact .ite (fun _ => setAsm_moves st none s h0) fun _ => .refl s
  | frameSent st => cases h; exact .ite (fun _ => txDone_moves st s) fun _ => .refl s
  | linkLoss st => exact ends_moves (.trans (linkFree s st h0 (by exact id) (by rfl)) (linkLost_moves st _ h0)) h
  | pinSensorEdge g n e w => exact pinEvent_moves (pinValues_moves g n e w s h0) h
  | pinSensorFirstValue g n e w => exact pinEvent_moves (pinValues_moves g n e w s h0) h
  | endSwitchEdge a c o => exact ends_moves (.trans (switchValues_moves a c o s h0) (switchEdge_moves a c o _ h0)) h
  | pressureOkEdge w b => exact ends_moves (.trans (dicFree s h0 (by rfl)) (pressureEdge_moves w b _ h0)) h
  | motorTripEdge w b => exact ends_moves (.trans (dicFree s h0 (by rfl)) (motorValue_moves w b _ h0)) h
  | unitInputFirstValue w i b => exact ends_moves (.trans (dicFree s h0 (by rfl)) (unitFirst_moves w i b _ h0)) h
  | loopEdge st c => exact ends_moves (.trans (dicFree s h0 (by rfl)) (loopValue_moves st c _ h0)) h
  | loopFirstValue st c => exact ends_moves (.trans (dicFree s h0 (by rfl)) (loopValue_moves st c _ h0)) h
  | keyEdge b => exact ends_moves (.trans (dicFree s h0 (by rfl)) (keyChange_moves b _ h0)) h
  | keyFirstValue b => exact ends_moves (.trans (dicFree s h0 (by rfl)) (keyChange_moves b _ h0)) h
  | pwmPeriodStart => cases h; exact pwmStart_moves s h0
  | controlPeriodExpiry a p q => exact ends_moves (controlPeriod_moves a p q s h0) h
  | stallSample a => exact ends_moves (.ite (fun _ => stallSample_moves a s) fun _ => .refl s) h
  | breakawayEnd a => cases h; exact endBreakaway_moves a s
  | stepClockExpiry => exact ends_moves (stepClock_moves s h0) h
  | stepTimeoutExpiry m => exact ends_moves (stepTimeout_moves m s) h
  | dwellExpiry m => exact ends_moves (dwellDone_moves m s) h
  | announceExpiry a =>
    exact ends_moves (.ite (fun _ => .trans (.axisSteady s a (by rfl))
      (.ite (fun _ => enterReversing_moves a _) fun _ => .refl _)) fun _ => .refl s) h
  | reversalExpiry a =>
    exact ends_moves (.ite (fun _ => .trans (.axisSteady s a (by rfl))
      (.ite (fun _ => enterMoving_moves a _) fun _ => .refl _)) fun _ => .refl s) h
  | switchWaitExpiry a =>
    exact ends_moves (.ite (fun _ => .trans (.axisSteady s a (by rfl))
      (.ite (fun _ => .emit _ _) fun _ => .refl _)) fun _ => .refl s) h
  | speedStaleExpiry => exact ends_moves (speedStale_moves s h0) h
  | permitExpiry => exact ends_moves (permitExpiry_moves s h0) h
  | conflictTimerExpiry g n => exact pinEvent_moves (.ite (fun _ => conflictDone_moves g n s h0) fun _ => .refl s) h
  | transitLimitExpiry g n => exact pinEvent_moves (.ite (fun _ => transitDone_moves g n s h0) fun _ => .refl s) h
  | settleExpiry g =>
    exact ends_moves (.ite (fun _ => .trans (.lockSteady s g (by rfl))
      (.ite (fun _ => settleDone_moves g _) fun _ => .refl _)) fun _ => .refl s) h
  | holdExpiry g =>
    exact ends_moves (.ite (fun _ => .trans (.lockSteady s g (by rfl)) (holdDone_moves g _)) fun _ => .refl s) h
  | periodicTopupExpiry g =>
    exact ends_moves (.ite (fun _ => .trans (.lockSteady s g (by rfl)) (topupTrigger_moves g _ _)) fun _ => .refl s) h
  | topupTimerExpiry g =>
    exact ends_moves (.ite (fun _ => .trans (.lockSteady s g (by rfl)) (topupTimerDone_moves g _)) fun _ => .refl s) h
  | startLimitExpiry w =>
    exact ends_moves (.ite (fun ht => unitFail_moves w _ s (startT_not_failed ht)) fun _ => .refl s) h
  | pressureLossExpiry w =>
    exact ends_moves (.ite (fun ht => unitFail_moves w _ s (lossT_not_failed ht)) fun _ => .refl s) h
  | runOnExpiry w => exact ends_moves (.ite (fun ht => runOnDone_moves w s h0 ht) fun _ => .refl s) h
  | endSwitchFirstValue a c o =>
    cases h; exact .trans (switchValues_moves a c o s h0) (storeSwitches_moves a c o _ h0)

end Sys2Proof.Machine
end

