-- ==== Sys2Proof/Laws/Requests.lean ====
section
/-! SUPPORT. What reports and replies leave alone, and the request path up to the owner: one lemma for each field of
the state, and the forms in which a request's command is answered. -/

namespace Sys2Proof.Machine

variable {s t u : State}

/-! ## Reports and replies change links only -/

theorem inner_setLink (st : Station) (l : Link) (s : State) : (s.setLink st l).inner = s.inner := by cases st <;> rfl

theorem inner_emit (l : List Msg) (s : State) : (s.emit l).inner = s.inner := rfl

theorem inner_txChoose (st : Station) (s : State) : (txChoose st s).inner = s.inner := by
  unfold txChoose
  dsimp only
  split <;> first | rfl | exact inner_setLink _ _ s

@[simp] theorem agenda_txChoose (st : Station) (s : State) : (txChoose st s).agenda = s.agenda := by
  unfold txChoose
  dsimp only
  split <;> simp

theorem inner_enqueueReply (st : Station) (f : Frame) (s : State) : (enqueueReply st f s).inner = s.inner :=
  (inner_txChoose st _).trans (inner_setLink st _ s)

@[simp] theorem agenda_enqueueReply (st : Station) (f : Frame) (s : State) : (enqueueReply st f s).agenda = s.agenda :=
  (agenda_txChoose st _).trans (agenda_setLink s st _)

theorem inner_markAt (st : Station) (sub : Subject) (s : State) : (markAt st sub s).inner = s.inner := by
  unfold markAt
  dsimp only
  split
  · exact (inner_txChoose st _).trans (inner_setLink st _ s)
  · rfl

@[simp] theorem agenda_markAt (st : Station) (sub : Subject) (s : State) : (markAt st sub s).agenda = s.agenda := by
  unfold markAt
  dsimp only
  split
  · exact (agenda_txChoose st _).trans (agenda_setLink s st _)
  · rfl

theorem inner_mark (sub : Subject) (s : State) : (mark sub s).inner = s.inner :=
  (inner_markAt .deck sub _).trans (inner_markAt .bridge sub s)

@[simp] theorem agenda_mark (sub : Subject) (s : State) : (mark sub s).agenda = s.agenda :=
  (agenda_markAt .deck sub _).trans (agenda_markAt .bridge sub s)

theorem inner_markIf (c : Bool) (sub : Subject) (s : State) : (markIf c sub s).inner = s.inner := by
  unfold markIf; split <;> [exact inner_mark sub s; rfl]

@[simp] theorem agenda_markIf (c : Bool) (sub : Subject) (s : State) : (markIf c sub s).agenda = s.agenda := by
  unfold markIf; split <;> [exact agenda_mark sub s; rfl]

theorem axis_inner (s : State) (a : Axis) : s.inner.axis a = s.axis a := by cases a <;> rfl
theorem lock_inner (s : State) (g : Group) : s.inner.lock g = s.lock g := by cases g <;> rfl
theorem unit_inner (s : State) (w : UnitId) : s.inner.unit w = s.unit w := by cases w <;> rfl
theorem drives_inner (s : State) (a : Axis) : s.inner.drives a = s.drives a := by cases a <;> rfl
theorem channels_inner (s : State) (a : Axis) : s.inner.channels a = s.channels a := by cases a <;> rfl

/-! Two states that agree inside agree on each field. -/
theorem ilk_of_inner (h : t.inner = s.inner) : t.ilk = s.ilk := by
  have := congrArg State.ilk h; exact this
theorem rne_of_inner (h : t.inner = s.inner) : t.rne = s.rne := by
  have := congrArg State.rne h; exact this
theorem hsa_of_inner (h : t.inner = s.inner) : t.hsa = s.hsa := by
  have := congrArg State.hsa h; exact this
theorem cau_of_inner (h : t.inner = s.inner) : t.cau = s.cau := by
  have := congrArg State.cau h; exact this
theorem pmt_of_inner (h : t.inner = s.inner) : t.pmt = s.pmt := by
  have := congrArg State.pmt h; exact this
theorem tru_of_inner (h : t.inner = s.inner) : t.tru = s.tru := by
  have := congrArg State.tru h; exact this
theorem dic_of_inner (h : t.inner = s.inner) : t.dic = s.dic := by
  have := congrArg State.dic h; exact this
theorem vod_of_inner (h : t.inner = s.inner) : t.vod = s.vod := by
  have := congrArg State.vod h; exact this
theorem pending_of_inner (h : t.inner = s.inner) : t.pending = s.pending := by
  have := congrArg State.pending h; exact this
theorem fresh_of_inner (h : t.inner = s.inner) : t.fresh = s.fresh := by
  have := congrArg State.fresh h; exact this
/-- Two states that agree inside agree on an axis. -/
theorem axis_of_inner (h : t.inner = s.inner) (a : Axis) : t.axis a = s.axis a := by
  rw [← axis_inner t, h, axis_inner]

/-- Two states that agree inside agree on a lock group. -/
theorem lock_of_inner (h : t.inner = s.inner) (g : Group) : t.lock g = s.lock g := by
  rw [← lock_inner t, h, lock_inner]

/-- Two states that agree inside agree on a pump unit. -/
theorem unit_of_inner (h : t.inner = s.inner) (w : UnitId) : t.unit w = s.unit w := by
  rw [← unit_inner t, h, unit_inner]

/-- Two states that agree inside agree on an axis's outputs. -/
theorem drives_of_inner (h : t.inner = s.inner) (a : Axis) : t.drives a = s.drives a := by
  rw [← drives_inner t, h, drives_inner]

/-- Two states that agree inside agree on an axis's channels. -/
theorem channels_of_inner (h : t.inner = s.inner) (a : Axis) : t.channels a = s.channels a := by
  rw [← channels_inner t, h, channels_inner]


/-! ### txChoose -/

@[simp] theorem ilk_txChoose (st : Station) (s : State) : (txChoose st s).ilk = s.ilk :=
  ilk_of_inner (inner_txChoose st s)
@[simp] theorem rne_txChoose (st : Station) (s : State) : (txChoose st s).rne = s.rne :=
  rne_of_inner (inner_txChoose st s)
@[simp] theorem hsa_txChoose (st : Station) (s : State) : (txChoose st s).hsa = s.hsa :=
  hsa_of_inner (inner_txChoose st s)
@[simp] theorem cau_txChoose (st : Station) (s : State) : (txChoose st s).cau = s.cau :=
  cau_of_inner (inner_txChoose st s)
@[simp] theorem pmt_txChoose (st : Station) (s : State) : (txChoose st s).pmt = s.pmt :=
  pmt_of_inner (inner_txChoose st s)
@[simp] theorem tru_txChoose (st : Station) (s : State) : (txChoose st s).tru = s.tru :=
  tru_of_inner (inner_txChoose st s)
@[simp] theorem dic_txChoose (st : Station) (s : State) : (txChoose st s).dic = s.dic :=
  dic_of_inner (inner_txChoose st s)
@[simp] theorem vod_txChoose (st : Station) (s : State) : (txChoose st s).vod = s.vod :=
  vod_of_inner (inner_txChoose st s)
@[simp] theorem pending_txChoose (st : Station) (s : State) : (txChoose st s).pending = s.pending :=
  pending_of_inner (inner_txChoose st s)
@[simp] theorem fresh_txChoose (st : Station) (s : State) : (txChoose st s).fresh = s.fresh :=
  fresh_of_inner (inner_txChoose st s)
@[simp] theorem axis_txChoose (st : Station) (s : State) (a : Axis) : (txChoose st s).axis a = s.axis a :=
  axis_of_inner (inner_txChoose st s) a
@[simp] theorem lock_txChoose (st : Station) (s : State) (g : Group) : (txChoose st s).lock g = s.lock g :=
  lock_of_inner (inner_txChoose st s) g
@[simp] theorem unit_txChoose (st : Station) (s : State) (w : UnitId) : (txChoose st s).unit w = s.unit w :=
  unit_of_inner (inner_txChoose st s) w
@[simp] theorem drives_txChoose (st : Station) (s : State) (a : Axis) : (txChoose st s).drives a = s.drives a :=
  drives_of_inner (inner_txChoose st s) a
@[simp] theorem channels_txChoose (st : Station) (s : State) (a : Axis) : (txChoose st s).channels a = s.channels a :=
  channels_of_inner (inner_txChoose st s) a

/-! ### enqueueReply -/

@[simp] theorem ilk_enqueueReply (st : Station) (f : Frame) (s : State) : (enqueueReply st f s).ilk = s.ilk :=
  ilk_of_inner (inner_enqueueReply st f s)
@[simp] theorem rne_enqueueReply (st : Station) (f : Frame) (s : State) : (enqueueReply st f s).rne = s.rne :=
  rne_of_inner (inner_enqueueReply st f s)
@[simp] theorem hsa_enqueueReply (st : Station) (f : Frame) (s : State) : (enqueueReply st f s).hsa = s.hsa :=
  hsa_of_inner (inner_enqueueReply st f s)
@[simp] theorem cau_enqueueReply (st : Station) (f : Frame) (s : State) : (enqueueReply st f s).cau = s.cau :=
  cau_of_inner (inner_enqueueReply st f s)
@[simp] theorem pmt_enqueueReply (st : Station) (f : Frame) (s : State) : (enqueueReply st f s).pmt = s.pmt :=
  pmt_of_inner (inner_enqueueReply st f s)
@[simp] theorem tru_enqueueReply (st : Station) (f : Frame) (s : State) : (enqueueReply st f s).tru = s.tru :=
  tru_of_inner (inner_enqueueReply st f s)
@[simp] theorem dic_enqueueReply (st : Station) (f : Frame) (s : State) : (enqueueReply st f s).dic = s.dic :=
  dic_of_inner (inner_enqueueReply st f s)
@[simp] theorem vod_enqueueReply (st : Station) (f : Frame) (s : State) : (enqueueReply st f s).vod = s.vod :=
  vod_of_inner (inner_enqueueReply st f s)
@[simp] theorem pending_enqueueReply (st : Station) (f : Frame) (s : State) : (enqueueReply st f s).pending = s.pending :=
  pending_of_inner (inner_enqueueReply st f s)
@[simp] theorem fresh_enqueueReply (st : Station) (f : Frame) (s : State) : (enqueueReply st f s).fresh = s.fresh :=
  fresh_of_inner (inner_enqueueReply st f s)
@[simp] theorem axis_enqueueReply (st : Station) (f : Frame) (s : State) (a : Axis) : (enqueueReply st f s).axis a = s.axis a :=
  axis_of_inner (inner_enqueueReply st f s) a
@[simp] theorem lock_enqueueReply (st : Station) (f : Frame) (s : State) (g : Group) : (enqueueReply st f s).lock g = s.lock g :=
  lock_of_inner (inner_enqueueReply st f s) g
@[simp] theorem unit_enqueueReply (st : Station) (f : Frame) (s : State) (w : UnitId) : (enqueueReply st f s).unit w = s.unit w :=
  unit_of_inner (inner_enqueueReply st f s) w
@[simp] theorem drives_enqueueReply (st : Station) (f : Frame) (s : State) (a : Axis) : (enqueueReply st f s).drives a = s.drives a :=
  drives_of_inner (inner_enqueueReply st f s) a
@[simp] theorem channels_enqueueReply (st : Station) (f : Frame) (s : State) (a : Axis) : (enqueueReply st f s).channels a = s.channels a :=
  channels_of_inner (inner_enqueueReply st f s) a

/-! ### mark -/

@[simp] theorem ilk_mark (sub : Subject) (s : State) : (mark sub s).ilk = s.ilk :=
  ilk_of_inner (inner_mark sub s)
@[simp] theorem rne_mark (sub : Subject) (s : State) : (mark sub s).rne = s.rne :=
  rne_of_inner (inner_mark sub s)
@[simp] theorem hsa_mark (sub : Subject) (s : State) : (mark sub s).hsa = s.hsa :=
  hsa_of_inner (inner_mark sub s)
@[simp] theorem cau_mark (sub : Subject) (s : State) : (mark sub s).cau = s.cau :=
  cau_of_inner (inner_mark sub s)
@[simp] theorem pmt_mark (sub : Subject) (s : State) : (mark sub s).pmt = s.pmt :=
  pmt_of_inner (inner_mark sub s)
@[simp] theorem tru_mark (sub : Subject) (s : State) : (mark sub s).tru = s.tru :=
  tru_of_inner (inner_mark sub s)
@[simp] theorem dic_mark (sub : Subject) (s : State) : (mark sub s).dic = s.dic :=
  dic_of_inner (inner_mark sub s)
@[simp] theorem vod_mark (sub : Subject) (s : State) : (mark sub s).vod = s.vod :=
  vod_of_inner (inner_mark sub s)
@[simp] theorem pending_mark (sub : Subject) (s : State) : (mark sub s).pending = s.pending :=
  pending_of_inner (inner_mark sub s)
@[simp] theorem fresh_mark (sub : Subject) (s : State) : (mark sub s).fresh = s.fresh :=
  fresh_of_inner (inner_mark sub s)
@[simp] theorem axis_mark (sub : Subject) (s : State) (a : Axis) : (mark sub s).axis a = s.axis a :=
  axis_of_inner (inner_mark sub s) a
@[simp] theorem lock_mark (sub : Subject) (s : State) (g : Group) : (mark sub s).lock g = s.lock g :=
  lock_of_inner (inner_mark sub s) g
@[simp] theorem unit_mark (sub : Subject) (s : State) (w : UnitId) : (mark sub s).unit w = s.unit w :=
  unit_of_inner (inner_mark sub s) w
@[simp] theorem drives_mark (sub : Subject) (s : State) (a : Axis) : (mark sub s).drives a = s.drives a :=
  drives_of_inner (inner_mark sub s) a
@[simp] theorem channels_mark (sub : Subject) (s : State) (a : Axis) : (mark sub s).channels a = s.channels a :=
  channels_of_inner (inner_mark sub s) a

/-! ### markIf -/

@[simp] theorem ilk_markIf (c : Bool) (sub : Subject) (s : State) : (markIf c sub s).ilk = s.ilk :=
  ilk_of_inner (inner_markIf c sub s)
@[simp] theorem rne_markIf (c : Bool) (sub : Subject) (s : State) : (markIf c sub s).rne = s.rne :=
  rne_of_inner (inner_markIf c sub s)
@[simp] theorem hsa_markIf (c : Bool) (sub : Subject) (s : State) : (markIf c sub s).hsa = s.hsa :=
  hsa_of_inner (inner_markIf c sub s)
@[simp] theorem cau_markIf (c : Bool) (sub : Subject) (s : State) : (markIf c sub s).cau = s.cau :=
  cau_of_inner (inner_markIf c sub s)
@[simp] theorem pmt_markIf (c : Bool) (sub : Subject) (s : State) : (markIf c sub s).pmt = s.pmt :=
  pmt_of_inner (inner_markIf c sub s)
@[simp] theorem tru_markIf (c : Bool) (sub : Subject) (s : State) : (markIf c sub s).tru = s.tru :=
  tru_of_inner (inner_markIf c sub s)
@[simp] theorem dic_markIf (c : Bool) (sub : Subject) (s : State) : (markIf c sub s).dic = s.dic :=
  dic_of_inner (inner_markIf c sub s)
@[simp] theorem vod_markIf (c : Bool) (sub : Subject) (s : State) : (markIf c sub s).vod = s.vod :=
  vod_of_inner (inner_markIf c sub s)
@[simp] theorem pending_markIf (c : Bool) (sub : Subject) (s : State) : (markIf c sub s).pending = s.pending :=
  pending_of_inner (inner_markIf c sub s)
@[simp] theorem fresh_markIf (c : Bool) (sub : Subject) (s : State) : (markIf c sub s).fresh = s.fresh :=
  fresh_of_inner (inner_markIf c sub s)
@[simp] theorem axis_markIf (c : Bool) (sub : Subject) (s : State) (a : Axis) : (markIf c sub s).axis a = s.axis a :=
  axis_of_inner (inner_markIf c sub s) a
@[simp] theorem lock_markIf (c : Bool) (sub : Subject) (s : State) (g : Group) : (markIf c sub s).lock g = s.lock g :=
  lock_of_inner (inner_markIf c sub s) g
@[simp] theorem unit_markIf (c : Bool) (sub : Subject) (s : State) (w : UnitId) : (markIf c sub s).unit w = s.unit w :=
  unit_of_inner (inner_markIf c sub s) w
@[simp] theorem drives_markIf (c : Bool) (sub : Subject) (s : State) (a : Axis) : (markIf c sub s).drives a = s.drives a :=
  drives_of_inner (inner_markIf c sub s) a
@[simp] theorem channels_markIf (c : Bool) (sub : Subject) (s : State) (a : Axis) : (markIf c sub s).channels a = s.channels a :=
  channels_of_inner (inner_markIf c sub s) a

/-! ## The end of a frame -/

@[simp] theorem agenda_linkRestore (st : Station) (s : State) : (linkRestore st s).agenda = s.agenda := by
  unfold linkRestore; split <;> simp [agenda_mark]

@[simp] theorem agenda_frameDone (st : Station) (s : State) : (frameDone st s).agenda = s.agenda := by
  unfold frameDone; rw [agenda_linkRestore]; simp

theorem inner_frameDone (st : Station) (s : State) :
    (frameDone st s).inner = ({ s with cau := s.cau.setAlive st true } : State).inner := by
  have hl : ∀ l, (s.setLink st l).inner = s.inner := fun l => inner_setLink st l s
  have ha : s.cau.alive st = true → s.cau.setAlive st true = s.cau := by
    cases hs : s.cau
    cases st <;> simp [Cau.alive, Cau.setAlive]
  unfold frameDone linkRestore
  simp only [modLink_eq, cau_setLink]
  split
  · next h => rw [hl, ha h]
  · rw [inner_mark]
    have : ∀ (x : State) c, ({ x with cau := c } : State).inner = { x.inner with cau := c } := fun _ _ => rfl
    show ({ s.setLink st _ with cau := _ } : State).inner = _
    rw [this, hl]
    simp [State.inner]

theorem cau_frameDone (st : Station) (s : State) : (frameDone st s).cau = s.cau.setAlive st true := by
  have h := cau_of_inner (inner_frameDone st s); exact h

@[simp] theorem ilk_frameDone (st : Station) (s : State) : (frameDone st s).ilk = s.ilk := by
  have h := ilk_of_inner (inner_frameDone st s); exact h
@[simp] theorem rne_frameDone (st : Station) (s : State) : (frameDone st s).rne = s.rne := by
  have h := rne_of_inner (inner_frameDone st s); exact h
@[simp] theorem hsa_frameDone (st : Station) (s : State) : (frameDone st s).hsa = s.hsa := by
  have h := hsa_of_inner (inner_frameDone st s); exact h
@[simp] theorem pmt_frameDone (st : Station) (s : State) : (frameDone st s).pmt = s.pmt := by
  have h := pmt_of_inner (inner_frameDone st s); exact h
@[simp] theorem tru_frameDone (st : Station) (s : State) : (frameDone st s).tru = s.tru := by
  have h := tru_of_inner (inner_frameDone st s); exact h
@[simp] theorem dic_frameDone (st : Station) (s : State) : (frameDone st s).dic = s.dic := by
  have h := dic_of_inner (inner_frameDone st s); exact h
@[simp] theorem vod_frameDone (st : Station) (s : State) : (frameDone st s).vod = s.vod := by
  have h := vod_of_inner (inner_frameDone st s); exact h
@[simp] theorem pending_frameDone (st : Station) (s : State) : (frameDone st s).pending = s.pending := by
  have h := pending_of_inner (inner_frameDone st s); exact h
@[simp] theorem fresh_frameDone (st : Station) (s : State) : (frameDone st s).fresh = s.fresh := by
  have h := fresh_of_inner (inner_frameDone st s); exact h
@[simp] theorem axis_frameDone (st : Station) (s : State) (a : Axis) : (frameDone st s).axis a = s.axis a := by
  rw [axis_of_inner (inner_frameDone st s) a]; cases a <;> rfl
@[simp] theorem lock_frameDone (st : Station) (s : State) (g : Group) : (frameDone st s).lock g = s.lock g := by
  rw [lock_of_inner (inner_frameDone st s) g]; cases g <;> rfl
@[simp] theorem unit_frameDone (st : Station) (s : State) (w : UnitId) : (frameDone st s).unit w = s.unit w := by
  rw [unit_of_inner (inner_frameDone st s) w]; cases w <;> rfl
@[simp] theorem drives_frameDone (st : Station) (s : State) (a : Axis) : (frameDone st s).drives a = s.drives a := by
  rw [drives_of_inner (inner_frameDone st s) a]; cases a <;> rfl
@[simp] theorem holder_frameDone (st : Station) (s : State) : (frameDone st s).cau.holder = s.cau.holder := by
  rw [cau_frameDone]; cases st <;> rfl
@[simp] theorem elect_frameDone (st : Station) (s : State) : (frameDone st s).cau.elect = s.cau.elect := by
  rw [cau_frameDone]; cases st <;> rfl
@[simp] theorem yielded_frameDone (st : Station) (s : State) : (frameDone st s).cau.yielded = s.cau.yielded := by
  rw [cau_frameDone]; cases st <;> rfl
@[simp] theorem key_frameDone (st : Station) (s : State) : (frameDone st s).cau.key = s.cau.key := by
  rw [cau_frameDone]; cases st <;> rfl
@[simp] theorem busyVlk_frameDone (st : Station) (s : State) : (frameDone st s).cau.busyVlk = s.cau.busyVlk := by
  rw [cau_frameDone]; cases st <;> rfl
@[simp] theorem busyRlk_frameDone (st : Station) (s : State) : (frameDone st s).cau.busyRlk = s.cau.busyRlk := by
  rw [cau_frameDone]; cases st <;> rfl
@[simp] theorem busyIcl_frameDone (st : Station) (s : State) : (frameDone st s).cau.busyIcl = s.cau.busyIcl := by
  rw [cau_frameDone]; cases st <;> rfl
@[simp] theorem deferred_frameDone (st : Station) (s : State) : (frameDone st s).cau.deferred = s.cau.deferred := by
  rw [cau_frameDone]; cases st <;> rfl
@[simp] theorem linkTimeout_frameDone (st : Station) (s : State) : (frameDone st s).cau.linkTimeout = s.cau.linkTimeout := by
  rw [cau_frameDone]; cases st <;> rfl

@[simp] theorem holds_frameDone (st q : Station) (s : State) : (frameDone st s).holds q = s.holds q := by
  simp [State.holds]

theorem replies_txChoose (st : Station) (s : State) (q : Station) :
    ((txChoose st s).link q).replies.length ≤ (s.link q).replies.length := by
  unfold txChoose
  dsimp only
  by_cases hq : q = st
  · subst hq
    split <;> simp_all
  · split <;> simp [hq]

theorem replies_markAt (st : Station) (sub : Subject) (s : State) (q : Station) :
    ((markAt st sub s).link q).replies.length ≤ (s.link q).replies.length := by
  unfold markAt
  dsimp only
  split
  · refine (replies_txChoose st _ q).trans ?_
    by_cases hq : q = st
    · subst hq; simp
    · simp [hq]
  · exact le_rfl

theorem replies_mark (sub : Subject) (s : State) (q : Station) :
    ((mark sub s).link q).replies.length ≤ (s.link q).replies.length :=
  (replies_markAt .deck sub _ q).trans (replies_markAt .bridge sub s q)

/-- The end of a frame leaves room in a reply queue that has it. -/
theorem hasRoom_frameDone {st : Station} (h : s.hasRoom st) : ((frameDone st s).link st).replies.length < 4 := by
  unfold State.hasRoom at h
  unfold frameDone linkRestore
  split
  · simpa using h
  · refine lt_of_le_of_lt (replies_mark _ _ st) ?_
    have : ∀ (x : State) c, ({ x with cau := c } : State).link st = x.link st := fun _ _ => by cases st <;> rfl
    simpa using h

/-! ## Requests -/

theorem exec_of_requestOf {c : Instr} {st : Station} {kind tag : Byte} {p : List Byte}
    (h : requestOf c = some (st, kind, tag, p)) (s : State) :
    exec c s = .next (settle (takeRequest st kind tag p (frameDone st s))) := by
  cases c <;> simp only [requestOf, reduceCtorEq, Option.some.injEq, Prod.mk.injEq] at h <;>
    obtain ⟨rfl, rfl, rfl, rfl⟩ := h <;> rfl

/-- A request of the right length, with room for its reply, is handled by its owner. -/
theorem exec_dispatch {c : Instr} {st : Station} {kind tag : Byte} {p : List Byte}
    (h : requestOf c = some (st, kind, tag, p)) (hr : s.hasRoom st) (h7 : kind ≠ 0x07)
    (hl : lengthOf kind = some p.length) :
    exec c s = .next (settle (dispatch st kind tag p (frameDone st s))) := by
  rw [exec_of_requestOf h]
  have h4 : ¬4 ≤ ((frameDone st s).link st).replies.length := Nat.not_le.mpr (hasRoom_frameDone hr)
  unfold takeRequest
  rw [if_neg (fun h => h7 h.1), if_neg h4, hl]
  simp

/-- A request that has sent nothing but its reply ends with the reply. -/
theorem settle_answer (st : Station) (kind tag : Byte) (c : ReplyCode) (d : List Byte) (h : s.agenda = []) :
    settle (answer st kind tag c d s) = replied st kind tag c d s := by
  have ha : (answer st kind tag c d s).agenda = [.reply st (replyFrame kind tag c d)] := by
    simp [answer, h]
  have hb : { answer st kind tag c d s with agenda := [] } = s := by
    cases s; simp_all [answer, State.emit]
  have hh : handle (.reply st (replyFrame kind tag c d)) { answer st kind tag c d s with agenda := [] } =
      replied st kind tag c d s := by rw [hb]; rfl
  rw [settle_one ha (by rw [hh]; exact (agenda_enqueueReply _ _ s).trans h), hh]

/-- As `settle_answer`, for the reply that carries the roles. -/
theorem settle_roles (st : Station) (kind tag : Byte) (c : ReplyCode) (h : s.agenda = []) :
    settle (s.emit [.replyRoles st kind tag c]) = enqueueRoles st kind tag c s := by
  have ha : (s.emit [.replyRoles st kind tag c]).agenda = [.replyRoles st kind tag c] := by simp [h]
  have hb : { s.emit [.replyRoles st kind tag c] with agenda := [] } = s := by
    cases s; simp_all [State.emit]
  have hh : handle (.replyRoles st kind tag c) { s.emit [.replyRoles st kind tag c] with agenda := [] } =
      enqueueRoles st kind tag c s := by rw [hb]; rfl
  rw [settle_one ha (by rw [hh]; exact (agenda_enqueueReply _ _ s).trans h), hh]

end Sys2Proof.Machine
end

