-- ==== Sys2Proof/Laws/Step.lean ====
section
/-! SUPPORT. What a step is: the front command, a due event, or a millisecond; and what the millisecond keeps. -/

namespace Sys2Proof.Machine

variable {s t : State}

/-- The event taken on an empty queue is one that is due. -/
theorem chosen_mem {l : List Instr} {k : Nat} {c : Instr} (h : chosen l k = some c) : c ∈ l :=
  List.mem_of_getElem? h

/-- Some event is taken where one is due. -/
theorem chosen_isSome {l : List Instr} (h : l ≠ []) (k : Nat) : ∃ c, chosen l k = some c := by
  have hp : 0 < l.length := List.length_pos_iff.mpr h
  exact ⟨_, List.getElem?_eq_getElem (Nat.mod_lt k hp)⟩

/-- What a step that goes on has done. -/
inductive Stepped (s t : State) : Prop
  | command (c : Instr) (rest : List Instr) (h : exec c { s with pending := rest } = .next t)
  | event (c : Instr) (several : Bool) (hc : c ∈ s.due) (h : exec c (s.taken c several) = .next t)
  | tick (h : t = advance s)

theorem step_cases (h : step s = .next t) : Stepped s t := by
  unfold step at h
  split at h
  · exact .command _ _ h
  · unfold idle State.nextEvent at h
    cases hc : chosen s.due (if 1 < s.due.length then Config.freeOrder s.fresh else 0) with
    | none => rw [hc] at h; simp only [Option.map_none, Host.Outcome.next.injEq] at h; exact .tick h.symm
    | some c => rw [hc] at h; exact .event c _ (chosen_mem hc) h

/-- What every command keeps and a millisecond keeps, a step keeps; the queue and the model's own fields take no part. -/
theorem step_keeps {P : State → Prop} (hstep : step s = .next t) (hs : P s)
    (hm : ∀ {s t : State}, Moves 2 s t → P s → P t) (ht : P s → P (advance s)) : P t := by
  cases step_cases hstep with
  | command c rest h =>
    exact hm (exec_moves (by decide) (fun _ => le_refl 2) h) (hm (Moves.queue (k := 2) s rest (by decide)) hs)
  | event c several hc h =>
    have h1 : Moves 2 s { s with dic := { s.dic with owed := s.dic.owed.erase c } } :=
      .dic s _ (by decide) fun h => absurd h (by decide)
    exact hm (exec_moves (by decide) (fun _ => le_refl 2) h) (hm (.trans h1 (.fresh _ _ (by decide))) hs)
  | tick h => rw [h]; exact ht hs

end Sys2Proof.Machine
end

