-- ==== Sys2Proof/Laws/Effects.lean ====
section
/-! SUPPORT. What the shared operations come to inside the part, reports and messages apart, and how a command with one
or two messages ends. -/

namespace Sys2Proof.Machine

variable {s t : State}

/-! ## The inner view under updates -/

theorem inner_setAxis (a : Axis) (v : AxisState) (s : State) : (s.setAxis a v).inner = s.inner.setAxis a v := by
  cases a <;> rfl
theorem inner_setLock (g : Group) (v : LockState) (s : State) : (s.setLock g v).inner = s.inner.setLock g v := by
  cases g <;> rfl
theorem inner_setUnit (w : UnitId) (v : PumpUnit) (s : State) : (s.setUnit w v).inner = s.inner.setUnit w v := by
  cases w <;> rfl
theorem inner_setDrives (a : Axis) (v : Drives) (s : State) : (s.setDrives a v).inner = s.inner.setDrives a v := by
  cases a <;> rfl
theorem inner_setChannels (a : Axis) (v : Channels) (s : State) :
    (s.setChannels a v).inner = s.inner.setChannels a v := by cases a <;> rfl
theorem inner_setWatch (l : List WatchEntry) (s : State) : (s.setWatch l).inner = s.inner.setWatch l := rfl
theorem inner_setWants (l : List Want) (s : State) : (s.setWants l).inner = s.inner.setWants l := rfl
theorem inner_modRne (f : Rne → Rne) (s : State) : (s.modRne f).inner = s.inner.modRne f := rfl
theorem inner_modCau (f : Cau → Cau) (s : State) : (s.modCau f).inner = s.inner.modCau f := rfl
theorem inner_modPmt (f : Pmt → Pmt) (s : State) : (s.modPmt f).inner = s.inner.modPmt f := rfl
theorem inner_modTru (f : Tru → Tru) (s : State) : (s.modTru f).inner = s.inner.modTru f := rfl
theorem inner_modDic (f : Dic → Dic) (s : State) : (s.modDic f).inner = s.inner.modDic f := rfl

/-! ## Events at members -/

theorem inner_foldl_markIf {α : Type} (c : α → Bool) (sub : α → Subject) (l : List α) (s : State) :
    (l.foldl (fun u x => markIf (c x) (sub x) u) s).inner = s.inner := by
  induction l generalizing s with
  | nil => rfl
  | cons x l ih => rw [List.foldl_cons, ih, inner_markIf]

theorem agenda_foldl_markIf {α : Type} (c : α → Bool) (sub : α → Subject) (l : List α) (s : State) :
    (l.foldl (fun u x => markIf (c x) (sub x) u) s).agenda = s.agenda := by
  induction l generalizing s with
  | nil => rfl
  | cons x l ih => rw [List.foldl_cons, ih, agenda_markIf]

/-- The marks of an event at members touch the links alone (R1, R188). -/
theorem inner_markMembers (s t : State) : (markMembers s t).inner = t.inner := inner_foldl_markIf _ _ _ _

@[simp] theorem agenda_markMembers (s t : State) : (markMembers s t).agenda = t.agenda := agenda_foldl_markIf _ _ _ _

/-- An event at members is its own effect, its marks apart. -/
theorem inner_memberEvent (f : State → State) (s : State) : (memberEvent f s).inner = (f s).inner :=
  (inner_emit _ _).trans (inner_markMembers _ _)

/-- An event at members sends what its own effect sends, and ILK a change of member state (R17). -/
theorem agenda_memberEvent (f : State → State) (s : State) :
    (memberEvent f s).agenda = (f s).agenda ++ if s.moved (f s) then [.reeval] else [] := by
  unfold memberEvent
  simp

/-- An event at one axis has changed a member state where it has changed that axis's. -/
theorem moved_of_axis (a : Axis) (hx : ∀ b, b ≠ a → (t.axis b).member = (s.axis b).member)
    (hl : ∀ g, (t.lock g).gstate = (s.lock g).gstate) : s.moved t = ((s.axis a).member != (t.axis a).member) := by
  unfold State.moved
  have h1 := hx .vis
  have h2 := hx .rmp
  have h3 := hx .inr
  cases a <;> simp_all [allAxes, allGroups]

/-- An event at one lock group has changed a member state where it has changed that group's. -/
theorem moved_of_lock (g : Group) (hx : ∀ b, (t.axis b).member = (s.axis b).member)
    (hl : ∀ h, h ≠ g → (t.lock h).gstate = (s.lock h).gstate) : s.moved t = ((s.lock g).gstate != (t.lock g).gstate) := by
  unfold State.moved
  have h1 := hl .vlk
  have h2 := hl .rlk
  have h3 := hl .icl
  cases g <;> simp_all [allAxes, allGroups]

/-- No message sent. -/
theorem State.emit_nil (s : State) : s.emit [] = s := by
  cases s
  simp [State.emit]

/-- An event that leaves the members' controllers as they are marks nothing and sends ILK nothing. -/
theorem memberEvent_same {f : State → State} (ha : ∀ a, (f s).axis a = s.axis a) (hl : ∀ g, (f s).lock g = s.lock g) :
    memberEvent f s = f s := by
  have hr : ∀ m, s.remarks (f s) m = false := by
    intro m
    cases m <;> simp [State.remarks, State.secured, ha, hl]
  have hm : s.moved (f s) = false := by simp [State.moved, ha, hl]
  have hk : markMembers s (f s) = f s := by simp [markMembers, hr, markIf]
  show (markMembers s (f s)).emit (if s.moved (f s) then [.reeval] else []) = f s
  rw [hk, hm]
  exact State.emit_nil _

/-- A derivation stores the member state (R3). -/
@[simp] theorem deriveAxis_eq (a : Axis) (s : State) :
    deriveAxis a s = s.setAxis a { s.axis a with member := (s.axis a).derive } := rfl

/-- A derivation stores the group state and moves the periodic timer (R7, R115). -/
@[simp] theorem deriveGroup_eq (g : Group) (s : State) :
    deriveGroup g s = s.setLock g { s.lock g with
      gstate := (s.lock g).derive, periodic := periodicAfter (s.lock g) (s.lock g).gstate (s.lock g).derive } := rfl

/-- An HSA event is its own effect, its report apart (R138). -/
theorem inner_supplyEvent (f : State → State) (s : State) : (supplyEvent f s).inner = (f s).inner := inner_markIf _ _ _

@[simp] theorem agenda_supplyEvent (f : State → State) (s : State) : (supplyEvent f s).agenda = (f s).agenda :=
  agenda_markIf _ _ _

/-! ## Field by field -/

@[simp] theorem ilk_memberEvent (f : State → State) (s : State) : (memberEvent f s).ilk = (f s).ilk :=
  ilk_of_inner (inner_memberEvent f s)
@[simp] theorem rne_memberEvent (f : State → State) (s : State) : (memberEvent f s).rne = (f s).rne :=
  rne_of_inner (inner_memberEvent f s)
@[simp] theorem hsa_memberEvent (f : State → State) (s : State) : (memberEvent f s).hsa = (f s).hsa :=
  hsa_of_inner (inner_memberEvent f s)
@[simp] theorem cau_memberEvent (f : State → State) (s : State) : (memberEvent f s).cau = (f s).cau :=
  cau_of_inner (inner_memberEvent f s)
@[simp] theorem pmt_memberEvent (f : State → State) (s : State) : (memberEvent f s).pmt = (f s).pmt :=
  pmt_of_inner (inner_memberEvent f s)
@[simp] theorem tru_memberEvent (f : State → State) (s : State) : (memberEvent f s).tru = (f s).tru :=
  tru_of_inner (inner_memberEvent f s)
@[simp] theorem dic_memberEvent (f : State → State) (s : State) : (memberEvent f s).dic = (f s).dic :=
  dic_of_inner (inner_memberEvent f s)
@[simp] theorem pending_memberEvent (f : State → State) (s : State) : (memberEvent f s).pending = (f s).pending :=
  pending_of_inner (inner_memberEvent f s)
@[simp] theorem fresh_memberEvent (f : State → State) (s : State) : (memberEvent f s).fresh = (f s).fresh :=
  fresh_of_inner (inner_memberEvent f s)
@[simp] theorem vod_memberEvent (f : State → State) (s : State) : (memberEvent f s).vod = (f s).vod :=
  vod_of_inner (inner_memberEvent f s)
@[simp] theorem axis_memberEvent (f : State → State) (s : State) (a : Axis) :
    (memberEvent f s).axis a = (f s).axis a := axis_of_inner (inner_memberEvent f s) a
@[simp] theorem lock_memberEvent (f : State → State) (s : State) (g : Group) :
    (memberEvent f s).lock g = (f s).lock g := lock_of_inner (inner_memberEvent f s) g
@[simp] theorem unit_memberEvent (f : State → State) (s : State) (w : UnitId) :
    (memberEvent f s).unit w = (f s).unit w := unit_of_inner (inner_memberEvent f s) w
@[simp] theorem drives_memberEvent (f : State → State) (s : State) (a : Axis) :
    (memberEvent f s).drives a = (f s).drives a := drives_of_inner (inner_memberEvent f s) a
@[simp] theorem channels_memberEvent (f : State → State) (s : State) (a : Axis) :
    (memberEvent f s).channels a = (f s).channels a := channels_of_inner (inner_memberEvent f s) a

@[simp] theorem rne_watchStage (m : Member) (st : Stage) (s : State) : (watchStage m st s).rne = s.rne := rfl
@[simp] theorem hsa_watchStage (m : Member) (st : Stage) (s : State) : (watchStage m st s).hsa = s.hsa := rfl
@[simp] theorem cau_watchStage (m : Member) (st : Stage) (s : State) : (watchStage m st s).cau = s.cau := rfl
@[simp] theorem pmt_watchStage (m : Member) (st : Stage) (s : State) : (watchStage m st s).pmt = s.pmt := rfl
@[simp] theorem tru_watchStage (m : Member) (st : Stage) (s : State) : (watchStage m st s).tru = s.tru := rfl
@[simp] theorem dic_watchStage (m : Member) (st : Stage) (s : State) : (watchStage m st s).dic = s.dic := rfl
@[simp] theorem pending_watchStage (m : Member) (st : Stage) (s : State) : (watchStage m st s).pending = s.pending := rfl
@[simp] theorem fresh_watchStage (m : Member) (st : Stage) (s : State) : (watchStage m st s).fresh = s.fresh := rfl
@[simp] theorem vod_watchStage (m : Member) (st : Stage) (s : State) : (watchStage m st s).vod = s.vod := rfl
@[simp] theorem agenda_watchStage (m : Member) (st : Stage) (s : State) : (watchStage m st s).agenda = s.agenda := rfl
@[simp] theorem axis_watchStage (m : Member) (st : Stage) (s : State) (c : Axis) : (watchStage m st s).axis c = s.axis c := by
  cases c <;> rfl
@[simp] theorem lock_watchStage (m : Member) (st : Stage) (s : State) (h : Group) : (watchStage m st s).lock h = s.lock h := by
  cases h <;> rfl
@[simp] theorem unit_watchStage (m : Member) (st : Stage) (s : State) (w : UnitId) : (watchStage m st s).unit w = s.unit w := by
  cases w <;> rfl
@[simp] theorem drives_watchStage (m : Member) (st : Stage) (s : State) (c : Axis) : (watchStage m st s).drives c = s.drives c := by
  cases c <;> rfl
@[simp] theorem channels_watchStage (m : Member) (st : Stage) (s : State) (c : Axis) : (watchStage m st s).channels c = s.channels c := by
  cases c <;> rfl
@[simp] theorem link_watchStage (m : Member) (st : Stage) (s : State) (q : Station) : (watchStage m st s).link q = s.link q := by
  cases q <;> rfl

@[simp] theorem rne_watchRemove (m : Member) (s : State) : (watchRemove m s).rne = s.rne := rfl
@[simp] theorem hsa_watchRemove (m : Member) (s : State) : (watchRemove m s).hsa = s.hsa := rfl
@[simp] theorem cau_watchRemove (m : Member) (s : State) : (watchRemove m s).cau = s.cau := rfl
@[simp] theorem pmt_watchRemove (m : Member) (s : State) : (watchRemove m s).pmt = s.pmt := rfl
@[simp] theorem tru_watchRemove (m : Member) (s : State) : (watchRemove m s).tru = s.tru := rfl
@[simp] theorem dic_watchRemove (m : Member) (s : State) : (watchRemove m s).dic = s.dic := rfl
@[simp] theorem pending_watchRemove (m : Member) (s : State) : (watchRemove m s).pending = s.pending := rfl
@[simp] theorem fresh_watchRemove (m : Member) (s : State) : (watchRemove m s).fresh = s.fresh := rfl
@[simp] theorem vod_watchRemove (m : Member) (s : State) : (watchRemove m s).vod = s.vod := rfl
@[simp] theorem agenda_watchRemove (m : Member) (s : State) : (watchRemove m s).agenda = s.agenda := rfl
@[simp] theorem axis_watchRemove (m : Member) (s : State) (c : Axis) : (watchRemove m s).axis c = s.axis c := by
  cases c <;> rfl
@[simp] theorem lock_watchRemove (m : Member) (s : State) (h : Group) : (watchRemove m s).lock h = s.lock h := by
  cases h <;> rfl
@[simp] theorem unit_watchRemove (m : Member) (s : State) (w : UnitId) : (watchRemove m s).unit w = s.unit w := by
  cases w <;> rfl
@[simp] theorem drives_watchRemove (m : Member) (s : State) (c : Axis) : (watchRemove m s).drives c = s.drives c := by
  cases c <;> rfl
@[simp] theorem channels_watchRemove (m : Member) (s : State) (c : Axis) : (watchRemove m s).channels c = s.channels c := by
  cases c <;> rfl
@[simp] theorem link_watchRemove (m : Member) (s : State) (q : Station) : (watchRemove m s).link q = s.link q := by
  cases q <;> rfl

@[simp] theorem rne_watchAdd (m : Member) (act : WatchAction) (target : Option Nat) (src : WatchSource) (s : State) : (watchAdd m act target src s).rne = s.rne := rfl
@[simp] theorem hsa_watchAdd (m : Member) (act : WatchAction) (target : Option Nat) (src : WatchSource) (s : State) : (watchAdd m act target src s).hsa = s.hsa := rfl
@[simp] theorem cau_watchAdd (m : Member) (act : WatchAction) (target : Option Nat) (src : WatchSource) (s : State) : (watchAdd m act target src s).cau = s.cau := rfl
@[simp] theorem pmt_watchAdd (m : Member) (act : WatchAction) (target : Option Nat) (src : WatchSource) (s : State) : (watchAdd m act target src s).pmt = s.pmt := rfl
@[simp] theorem tru_watchAdd (m : Member) (act : WatchAction) (target : Option Nat) (src : WatchSource) (s : State) : (watchAdd m act target src s).tru = s.tru := rfl
@[simp] theorem dic_watchAdd (m : Member) (act : WatchAction) (target : Option Nat) (src : WatchSource) (s : State) : (watchAdd m act target src s).dic = s.dic := rfl
@[simp] theorem pending_watchAdd (m : Member) (act : WatchAction) (target : Option Nat) (src : WatchSource) (s : State) : (watchAdd m act target src s).pending = s.pending := rfl
@[simp] theorem fresh_watchAdd (m : Member) (act : WatchAction) (target : Option Nat) (src : WatchSource) (s : State) : (watchAdd m act target src s).fresh = s.fresh := rfl
@[simp] theorem vod_watchAdd (m : Member) (act : WatchAction) (target : Option Nat) (src : WatchSource) (s : State) : (watchAdd m act target src s).vod = s.vod := rfl
@[simp] theorem agenda_watchAdd (m : Member) (act : WatchAction) (target : Option Nat) (src : WatchSource) (s : State) : (watchAdd m act target src s).agenda = s.agenda := rfl
@[simp] theorem axis_watchAdd (m : Member) (act : WatchAction) (target : Option Nat) (src : WatchSource) (s : State) (c : Axis) : (watchAdd m act target src s).axis c = s.axis c := by
  cases c <;> rfl
@[simp] theorem lock_watchAdd (m : Member) (act : WatchAction) (target : Option Nat) (src : WatchSource) (s : State) (h : Group) : (watchAdd m act target src s).lock h = s.lock h := by
  cases h <;> rfl
@[simp] theorem unit_watchAdd (m : Member) (act : WatchAction) (target : Option Nat) (src : WatchSource) (s : State) (w : UnitId) : (watchAdd m act target src s).unit w = s.unit w := by
  cases w <;> rfl
@[simp] theorem drives_watchAdd (m : Member) (act : WatchAction) (target : Option Nat) (src : WatchSource) (s : State) (c : Axis) : (watchAdd m act target src s).drives c = s.drives c := by
  cases c <;> rfl
@[simp] theorem channels_watchAdd (m : Member) (act : WatchAction) (target : Option Nat) (src : WatchSource) (s : State) (c : Axis) : (watchAdd m act target src s).channels c = s.channels c := by
  cases c <;> rfl
@[simp] theorem link_watchAdd (m : Member) (act : WatchAction) (target : Option Nat) (src : WatchSource) (s : State) (q : Station) : (watchAdd m act target src s).link q = s.link q := by
  cases q <;> rfl

@[simp] theorem rne_watchRefresh (m : Member) (s : State) : (watchRefresh m s).rne = s.rne := rfl
@[simp] theorem hsa_watchRefresh (m : Member) (s : State) : (watchRefresh m s).hsa = s.hsa := rfl
@[simp] theorem cau_watchRefresh (m : Member) (s : State) : (watchRefresh m s).cau = s.cau := rfl
@[simp] theorem pmt_watchRefresh (m : Member) (s : State) : (watchRefresh m s).pmt = s.pmt := rfl
@[simp] theorem tru_watchRefresh (m : Member) (s : State) : (watchRefresh m s).tru = s.tru := rfl
@[simp] theorem dic_watchRefresh (m : Member) (s : State) : (watchRefresh m s).dic = s.dic := rfl
@[simp] theorem pending_watchRefresh (m : Member) (s : State) : (watchRefresh m s).pending = s.pending := rfl
@[simp] theorem fresh_watchRefresh (m : Member) (s : State) : (watchRefresh m s).fresh = s.fresh := rfl
@[simp] theorem vod_watchRefresh (m : Member) (s : State) : (watchRefresh m s).vod = s.vod := rfl
@[simp] theorem agenda_watchRefresh (m : Member) (s : State) : (watchRefresh m s).agenda = s.agenda := rfl
@[simp] theorem axis_watchRefresh (m : Member) (s : State) (c : Axis) : (watchRefresh m s).axis c = s.axis c := by
  cases c <;> rfl
@[simp] theorem lock_watchRefresh (m : Member) (s : State) (h : Group) : (watchRefresh m s).lock h = s.lock h := by
  cases h <;> rfl
@[simp] theorem unit_watchRefresh (m : Member) (s : State) (w : UnitId) : (watchRefresh m s).unit w = s.unit w := by
  cases w <;> rfl
@[simp] theorem drives_watchRefresh (m : Member) (s : State) (c : Axis) : (watchRefresh m s).drives c = s.drives c := by
  cases c <;> rfl
@[simp] theorem channels_watchRefresh (m : Member) (s : State) (c : Axis) : (watchRefresh m s).channels c = s.channels c := by
  cases c <;> rfl
@[simp] theorem link_watchRefresh (m : Member) (s : State) (q : Station) : (watchRefresh m s).link q = s.link q := by
  cases q <;> rfl

/-- An axis in a new phase: what `f` gives, with its dead-time reckoning and its member state (section 3.5). -/
theorem axis_passTo_self (a : Axis) (ph : AxisPhase) (f : AxisState → AxisState) (s : State) :
    ∃ z, (passTo a ph f s).axis a =
      { f ((s.axis a).toPhase ph) with zero := z, member := (f ((s.axis a).toPhase ph)).derive } ∧
      ((s.axis a).phase.driving = false ∨ ph.driving = true → z = (f ((s.axis a).toPhase ph)).zero) := by
  have hd : ∀ (v : AxisState) z, ({ v with zero := z } : AxisState).derive = v.derive := fun _ _ => rfl
  unfold passTo stageAxis
  dsimp only
  by_cases he : ((s.axis a).phase.driving && !ph.driving) = true
  · refine ⟨(f ((s.axis a).toPhase ph)).zero.after (s.drives a) zeroDrives, ?_, fun h => ?_⟩
    · rw [if_pos he]
      split <;> simp [zeroAxis, State.putDrives, Sides.after, AxisState.derive, AxisState.faulted, AxisState.switchLatched,
        AxisState.positional, AxisState.x?, AxisState.switchActive]
    · rcases h with h | h <;> simp [h] at he
  · refine ⟨(f ((s.axis a).toPhase ph)).zero, ?_, fun _ => rfl⟩
    rw [if_neg he]
    split <;> simp

theorem axis_passTo_of_ne (a c : Axis) (ph : AxisPhase) (f : AxisState → AxisState) (s : State) (h : c ≠ a) :
    (passTo a ph f s).axis c = s.axis c := by
  unfold passTo stageAxis
  dsimp only
  split <;> split <;> simp [zeroAxis, State.putDrives, h]

theorem drives_passTo (a c : Axis) (ph : AxisPhase) (f : AxisState → AxisState) (s : State) :
    (passTo a ph f s).drives c =
      if c = a ∧ (s.axis a).phase.driving = true ∧ ph.driving = false then zeroDrives else s.drives c := by
  unfold passTo stageAxis
  dsimp only
  by_cases hc : c = a
  · subst hc
    by_cases h1 : (s.axis c).phase.driving = true <;> by_cases h2 : ph.driving = true <;> split <;>
      simp_all [zeroAxis, State.putDrives]
  · split <;> split <;> simp [zeroAxis, State.putDrives, hc]

theorem forced_passTo (a : Axis) (ph : AxisPhase) (f : AxisState → AxisState) (s : State) :
    (passTo a ph f s).vod.forced = s.vod.forced := by
  unfold passTo stageAxis
  dsimp only
  split <;> split <;> simp [zeroAxis, State.putDrives]

@[simp] theorem rne_passTo (a : Axis) (ph : AxisPhase) (f : AxisState → AxisState) (s : State) :
    (passTo a ph f s).rne = s.rne := by
  unfold passTo stageAxis
  dsimp only
  split <;> split <;> simp [zeroAxis, State.putDrives]
@[simp] theorem agenda_passTo (a : Axis) (ph : AxisPhase) (f : AxisState → AxisState) (s : State) :
    (passTo a ph f s).agenda = s.agenda := by
  unfold passTo stageAxis
  dsimp only
  split <;> split <;> simp [zeroAxis, State.putDrives]
@[simp] theorem hsa_passTo (a : Axis) (ph : AxisPhase) (f : AxisState → AxisState) (s : State) :
    (passTo a ph f s).hsa = s.hsa := by
  unfold passTo stageAxis
  dsimp only
  split <;> split <;> simp [zeroAxis, State.putDrives]
@[simp] theorem cau_passTo (a : Axis) (ph : AxisPhase) (f : AxisState → AxisState) (s : State) :
    (passTo a ph f s).cau = s.cau := by
  unfold passTo stageAxis
  dsimp only
  split <;> split <;> simp [zeroAxis, State.putDrives]
@[simp] theorem pmt_passTo (a : Axis) (ph : AxisPhase) (f : AxisState → AxisState) (s : State) :
    (passTo a ph f s).pmt = s.pmt := by
  unfold passTo stageAxis
  dsimp only
  split <;> split <;> simp [zeroAxis, State.putDrives]
@[simp] theorem tru_passTo (a : Axis) (ph : AxisPhase) (f : AxisState → AxisState) (s : State) :
    (passTo a ph f s).tru = s.tru := by
  unfold passTo stageAxis
  dsimp only
  split <;> split <;> simp [zeroAxis, State.putDrives]
@[simp] theorem dic_passTo (a : Axis) (ph : AxisPhase) (f : AxisState → AxisState) (s : State) :
    (passTo a ph f s).dic = s.dic := by
  unfold passTo stageAxis
  dsimp only
  split <;> split <;> simp [zeroAxis, State.putDrives]
@[simp] theorem pending_passTo (a : Axis) (ph : AxisPhase) (f : AxisState → AxisState) (s : State) :
    (passTo a ph f s).pending = s.pending := by
  unfold passTo stageAxis
  dsimp only
  split <;> split <;> simp [zeroAxis, State.putDrives]
@[simp] theorem fresh_passTo (a : Axis) (ph : AxisPhase) (f : AxisState → AxisState) (s : State) :
    (passTo a ph f s).fresh = s.fresh := by
  unfold passTo stageAxis
  dsimp only
  split <;> split <;> simp [zeroAxis, State.putDrives]
@[simp] theorem lock_passTo (a : Axis) (ph : AxisPhase) (f : AxisState → AxisState) (s : State) (h : Group) :
    (passTo a ph f s).lock h = s.lock h := by
  unfold passTo stageAxis
  dsimp only
  split <;> split <;> simp [zeroAxis, State.putDrives]
@[simp] theorem unit_passTo (a : Axis) (ph : AxisPhase) (f : AxisState → AxisState) (s : State) (w : UnitId) :
    (passTo a ph f s).unit w = s.unit w := by
  unfold passTo stageAxis
  dsimp only
  split <;> split <;> simp [zeroAxis, State.putDrives]
@[simp] theorem channels_passTo (a : Axis) (ph : AxisPhase) (f : AxisState → AxisState) (s : State) (c : Axis) :
    (passTo a ph f s).channels c = s.channels c := by
  unfold passTo stageAxis
  dsimp only
  split <;> split <;> simp [zeroAxis, State.putDrives]

/-- As `axis_passTo_self`, for the change of phase as an event (section 3.5). -/
theorem axis_setPhase_self (a : Axis) (ph : AxisPhase) (f : AxisState → AxisState) (s : State) :
    ∃ z, (setPhase a ph f s).axis a =
      { f ((s.axis a).toPhase ph) with zero := z, member := (f ((s.axis a).toPhase ph)).derive } ∧
      ((s.axis a).phase.driving = false ∨ ph.driving = true → z = (f ((s.axis a).toPhase ph)).zero) :=
  (axis_memberEvent (passTo a ph f) s a).symm ▸ axis_passTo_self a ph f s

theorem axis_setPhase_of_ne (a c : Axis) (ph : AxisPhase) (f : AxisState → AxisState) (s : State) (h : c ≠ a) :
    (setPhase a ph f s).axis c = s.axis c := (axis_memberEvent _ _ _).trans (axis_passTo_of_ne a c ph f s h)

theorem drives_setPhase (a c : Axis) (ph : AxisPhase) (f : AxisState → AxisState) (s : State) :
    (setPhase a ph f s).drives c =
      if c = a ∧ (s.axis a).phase.driving = true ∧ ph.driving = false then zeroDrives else s.drives c :=
  (drives_memberEvent _ _ _).trans (drives_passTo a c ph f s)

theorem forced_setPhase (a : Axis) (ph : AxisPhase) (f : AxisState → AxisState) (s : State) :
    (setPhase a ph f s).vod.forced = s.vod.forced :=
  (congrArg Vod.forced (vod_memberEvent _ _)).trans (forced_passTo a ph f s)

@[simp] theorem rne_setPhase (a : Axis) (ph : AxisPhase) (f : AxisState → AxisState) (s : State) :
    (setPhase a ph f s).rne = s.rne := by unfold setPhase; simp
@[simp] theorem hsa_setPhase (a : Axis) (ph : AxisPhase) (f : AxisState → AxisState) (s : State) :
    (setPhase a ph f s).hsa = s.hsa := by unfold setPhase; simp
@[simp] theorem cau_setPhase (a : Axis) (ph : AxisPhase) (f : AxisState → AxisState) (s : State) :
    (setPhase a ph f s).cau = s.cau := by unfold setPhase; simp
@[simp] theorem pmt_setPhase (a : Axis) (ph : AxisPhase) (f : AxisState → AxisState) (s : State) :
    (setPhase a ph f s).pmt = s.pmt := by unfold setPhase; simp
@[simp] theorem tru_setPhase (a : Axis) (ph : AxisPhase) (f : AxisState → AxisState) (s : State) :
    (setPhase a ph f s).tru = s.tru := by unfold setPhase; simp
@[simp] theorem dic_setPhase (a : Axis) (ph : AxisPhase) (f : AxisState → AxisState) (s : State) :
    (setPhase a ph f s).dic = s.dic := by unfold setPhase; simp
@[simp] theorem pending_setPhase (a : Axis) (ph : AxisPhase) (f : AxisState → AxisState) (s : State) :
    (setPhase a ph f s).pending = s.pending := by unfold setPhase; simp
@[simp] theorem fresh_setPhase (a : Axis) (ph : AxisPhase) (f : AxisState → AxisState) (s : State) :
    (setPhase a ph f s).fresh = s.fresh := by unfold setPhase; simp
@[simp] theorem lock_setPhase (a : Axis) (ph : AxisPhase) (f : AxisState → AxisState) (s : State) (h : Group) :
    (setPhase a ph f s).lock h = s.lock h := by unfold setPhase; simp
@[simp] theorem unit_setPhase (a : Axis) (ph : AxisPhase) (f : AxisState → AxisState) (s : State) (w : UnitId) :
    (setPhase a ph f s).unit w = s.unit w := by unfold setPhase; simp
@[simp] theorem channels_setPhase (a : Axis) (ph : AxisPhase) (f : AxisState → AxisState) (s : State) (c : Axis) :
    (setPhase a ph f s).channels c = s.channels c := by unfold setPhase; simp

@[simp] theorem rne_setOpPhase (g : Group) (ph : OpPhase) (f : LockState → LockState) (s : State) :
    (setOpPhase g ph f s).rne = s.rne := by unfold setOpPhase opPassTo; simp
@[simp] theorem hsa_setOpPhase (g : Group) (ph : OpPhase) (f : LockState → LockState) (s : State) :
    (setOpPhase g ph f s).hsa = s.hsa := by unfold setOpPhase opPassTo; simp
@[simp] theorem cau_setOpPhase (g : Group) (ph : OpPhase) (f : LockState → LockState) (s : State) :
    (setOpPhase g ph f s).cau = s.cau := by unfold setOpPhase opPassTo; simp
@[simp] theorem pmt_setOpPhase (g : Group) (ph : OpPhase) (f : LockState → LockState) (s : State) :
    (setOpPhase g ph f s).pmt = s.pmt := by unfold setOpPhase opPassTo; simp
@[simp] theorem tru_setOpPhase (g : Group) (ph : OpPhase) (f : LockState → LockState) (s : State) :
    (setOpPhase g ph f s).tru = s.tru := by unfold setOpPhase opPassTo; simp
@[simp] theorem dic_setOpPhase (g : Group) (ph : OpPhase) (f : LockState → LockState) (s : State) :
    (setOpPhase g ph f s).dic = s.dic := by unfold setOpPhase opPassTo; simp
@[simp] theorem pending_setOpPhase (g : Group) (ph : OpPhase) (f : LockState → LockState) (s : State) :
    (setOpPhase g ph f s).pending = s.pending := by unfold setOpPhase opPassTo; simp
@[simp] theorem fresh_setOpPhase (g : Group) (ph : OpPhase) (f : LockState → LockState) (s : State) :
    (setOpPhase g ph f s).fresh = s.fresh := by unfold setOpPhase opPassTo; simp
@[simp] theorem vod_setOpPhase (g : Group) (ph : OpPhase) (f : LockState → LockState) (s : State) :
    (setOpPhase g ph f s).vod = s.vod := by unfold setOpPhase opPassTo; simp
@[simp] theorem axis_setOpPhase (g : Group) (ph : OpPhase) (f : LockState → LockState) (s : State) (c : Axis) :
    (setOpPhase g ph f s).axis c = s.axis c := by unfold setOpPhase opPassTo; simp
@[simp] theorem unit_setOpPhase (g : Group) (ph : OpPhase) (f : LockState → LockState) (s : State) (w : UnitId) :
    (setOpPhase g ph f s).unit w = s.unit w := by unfold setOpPhase opPassTo; simp
@[simp] theorem drives_setOpPhase (g : Group) (ph : OpPhase) (f : LockState → LockState) (s : State) (c : Axis) :
    (setOpPhase g ph f s).drives c = s.drives c := by unfold setOpPhase opPassTo; simp
@[simp] theorem channels_setOpPhase (g : Group) (ph : OpPhase) (f : LockState → LockState) (s : State) (c : Axis) :
    (setOpPhase g ph f s).channels c = s.channels c := by unfold setOpPhase opPassTo; simp
/-- A group with a phase of its operation: what `f` gives, with its group state and periodic timer (section 6.2). -/
theorem lock_setOpPhase_self (g : Group) (ph : OpPhase) (f : LockState → LockState) (s : State) :
    (setOpPhase g ph f s).lock g = { f ((s.lock g).toOp ph) with
      gstate := (f ((s.lock g).toOp ph)).derive,
      periodic := periodicAfter (f ((s.lock g).toOp ph)) (f ((s.lock g).toOp ph)).gstate (f ((s.lock g).toOp ph)).derive } := by
  unfold setOpPhase opPassTo; simp

theorem lock_setOpPhase_of_ne (g h : Group) (ph : OpPhase) (f : LockState → LockState) (s : State) (hn : h ≠ g) :
    (setOpPhase g ph f s).lock h = s.lock h := by
  unfold setOpPhase opPassTo; simp [hn]

/-! ## Guards and take-backs (R9 to R20) -/

/-- A guard reads the inside of the part alone. -/
theorem guardOf_of_inner (h : s.inner = t.inner) (e : WatchEntry) : s.guardOf e = t.guardOf e := by
  have ha := axis_of_inner h
  have hl := lock_of_inner h
  have ht := tru_of_inner h
  have hi := ilk_of_inner h
  have hx : ∀ a d, s.axisGuard a d = t.axisGuard a d := fun a d => by
    unfold State.axisGuard State.axisRow State.speedConds State.notFault State.lockNotBusy State.axisIs State.lockIs
    simp only [ha, hl, ht, hi]
  have hg : ∀ g b, s.lockGuard g b = t.lockGuard g b := fun g b => by
    unfold State.lockGuard State.lockRow State.speedConds State.notFault State.axisIs State.lockIs
    simp only [ha, hl, ht, hi]
  unfold State.guardOf State.entryDir
  simp only [ha, hx, hg]

@[simp] theorem rne_memberReturn (m : Member) (s : State) : (memberReturn m s).rne = s.rne := by
  cases m
  · unfold memberReturn axisReturn; simp
  · unfold memberReturn opReturn; simp
@[simp] theorem tru_memberReturn (m : Member) (s : State) : (memberReturn m s).tru = s.tru := by
  cases m
  · unfold memberReturn axisReturn; simp
  · unfold memberReturn opReturn; simp
@[simp] theorem rne_stepGone (m : Member) (s : State) : (stepGone m s).rne = s.rne := by
  cases m
  · rfl
  · unfold stepGone restartPeriodic; simp
@[simp] theorem tru_stepGone (m : Member) (s : State) : (stepGone m s).tru = s.tru := by
  cases m
  · rfl
  · unfold stepGone restartPeriodic; simp
@[simp] theorem ilk_stepGone (m : Member) (s : State) : (stepGone m s).ilk = s.ilk := by
  cases m
  · rfl
  · unfold stepGone restartPeriodic; simp
@[simp] theorem agenda_stepGone (m : Member) (s : State) : (stepGone m s).agenda = s.agenda := by
  cases m
  · rfl
  · unfold stepGone restartPeriodic; simp

/-- What a guard result gives up is nothing of TRU's. -/
theorem tru_takeBack (s : State) (e : WatchEntry) : (takeBack s e).tru = s.tru := by
  unfold takeBack
  split
  · unfold topupReturn setTopStatus; simp
  · unfold planReturn runEvent; simp
  · unfold jogReturn; dsimp only; split <;> simp [runEvent]
  · unfold endTopUp; dsimp only; split <;> simp
  · unfold closeHolding; simp
  · rfl

/-! ## Hand-over -/

@[simp] theorem rne_opPassTo (g : Group) (ph : OpPhase) (f : LockState → LockState) (s : State) :
    (opPassTo g ph f s).rne = s.rne := by unfold opPassTo; simp
@[simp] theorem tru_opPassTo (g : Group) (ph : OpPhase) (f : LockState → LockState) (s : State) :
    (opPassTo g ph f s).tru = s.tru := by unfold opPassTo; simp

/-- A hand-over changes RNE's entry of the step alone (R36). -/
theorem rne_handOver (e : Entry) (s : State) :
    (handOver e s).rne = s.rne.modEntry e.member fun x => { x with phase := .delegated, wait := none } := by
  unfold handOver
  dsimp only
  split
  · unfold axisHandOver; dsimp only; split <;> simp [runEvent, State.modRne]
  · unfold lockHandOver; simp [runEvent, State.modRne]

theorem tru_handOver (e : Entry) (s : State) : (handOver e s).tru = s.tru := by
  unfold handOver
  dsimp only
  split
  · unfold axisHandOver; dsimp only; split <;> simp [runEvent]
  · unfold lockHandOver; simp [runEvent]

/-- The guards evaluated afresh at the hand-over test are a matter of ILK's list alone: the entry of each waiting axis
step has the guard of the state as it stands (R35). -/
theorem refreshAxes_eq (s : State) : ∃ l, refreshAxes s = s.setWatch l ∧
    ∀ a, (∃ x ∈ s.rne.inflight, x.member = .axis a ∧ x.phase = .waitGuard) →
      ∀ e ∈ l, e.member = .axis a → e.result = s.guardOf e := by
  have h : ∀ (es : List Entry) (l0 : List WatchEntry), ∃ l, es.foldl (fun s e =>
      match e.phase, e.member with
      | .waitGuard, .axis a => watchRefresh (.axis a) s
      | _, _ => s) (s.setWatch l0) = s.setWatch l ∧
      ∀ a, ((∃ x ∈ es, x.member = .axis a ∧ x.phase = .waitGuard) ∨
          ∀ e ∈ l0, e.member = .axis a → e.result = s.guardOf e) →
        ∀ e ∈ l, e.member = .axis a → e.result = s.guardOf e := by
    intro es
    induction es with
    | nil => exact fun l0 => ⟨l0, rfl, fun a h => h.resolve_left (by simp)⟩
    | cons x es ih =>
      intro l0
      have skip : (x.phase ≠ .waitGuard ∨ ∀ a, x.member ≠ .axis a) →
          ∀ a, ((∃ y ∈ x :: es, y.member = .axis a ∧ y.phase = .waitGuard) ∨
            ∀ e ∈ l0, e.member = .axis a → e.result = s.guardOf e) →
          (∃ y ∈ es, y.member = .axis a ∧ y.phase = .waitGuard) ∨
            ∀ e ∈ l0, e.member = .axis a → e.result = s.guardOf e := by
        rintro hx a (⟨y, hy, hm, hp⟩ | h)
        · rcases List.mem_cons.1 hy with rfl | hy
          · rcases hx with hx | hx
            · exact absurd hp hx
            · exact absurd hm (hx a)
          · exact .inl ⟨y, hy, hm, hp⟩
        · exact .inr h
      obtain ⟨n, m, ph, t, d, w⟩ := x
      rw [List.foldl_cons]
      cases ph with
      | waitGuard =>
        cases m with
        | axis b =>
          obtain ⟨l, hl, hr⟩ := ih (l0.map fun e : WatchEntry =>
            if e.member = .axis b then ({ e with result := s.guardOf e } : WatchEntry) else e)
          refine ⟨l, hl, fun a ha => hr a ?_⟩
          by_cases hab : a = b
          · subst hab
            right
            simp only [List.mem_map]
            rintro e ⟨y, -, rfl⟩ hm
            split
            · rfl
            · next hn => rw [if_neg hn] at hm; exact absurd hm hn
          · rcases ha with ⟨y, hy, hm, hp⟩ | ha
            · rcases List.mem_cons.1 hy with rfl | hy
              · exact absurd (Member.axis.inj hm).symm hab
              · exact .inl ⟨y, hy, hm, hp⟩
            · right
              simp only [List.mem_map]
              rintro e ⟨y, hy, rfl⟩ hm
              split
              · rfl
              · next hn => rw [if_neg hn] at hm; exact ha y hy hm
        | lock g =>
          obtain ⟨l, hl, hr⟩ := ih l0
          exact ⟨l, hl, fun a ha => hr a (skip (.inr fun _ => by simp) a ha)⟩
      | delegated =>
        obtain ⟨l, hl, hr⟩ := ih l0
        exact ⟨l, hl, fun a ha => hr a (skip (.inl (by simp)) a ha)⟩
      | dwell =>
        obtain ⟨l, hl, hr⟩ := ih l0
        exact ⟨l, hl, fun a ha => hr a (skip (.inl (by simp)) a ha)⟩
  obtain ⟨l, hl, hr⟩ := h s.rne.inflight s.ilk.watch
  exact ⟨l, hl, fun a ha => hr a (.inl ha)⟩

@[simp] theorem rne_refreshAxes (s : State) : (refreshAxes s).rne = s.rne := by
  obtain ⟨l, h, -⟩ := refreshAxes_eq s; rw [h]; rfl
@[simp] theorem tru_refreshAxes (s : State) : (refreshAxes s).tru = s.tru := by
  obtain ⟨l, h, -⟩ := refreshAxes_eq s; rw [h]; rfl

theorem tru_handTestAs (own : Bool) (s : State) : (handTestAs own s).tru = s.tru := by
  unfold handTestAs
  dsimp only
  split
  · split <;> simp [tru_handOver]
  · simp

/-! ## Guard results -/

/-- A guard result that is no guard loss in DRIVING is nothing to TRU (R18, R20). -/
theorem tru_handOn (s : State) (e : WatchEntry) (h : e.stage = .driving → e.source ≠ .topUp → e.result = none) :
    (handOn s e).tru = s.tru := by
  unfold handOn
  split
  · next r hr =>
    unfold handFalse
    rw [if_neg (fun hn => by have := h hn.1 hn.2; rw [hr] at this; cases this), tru_takeBack]
  · unfold handTrue
    split
    · unfold topupAsk setTopStatus; split <;> simp
    · exact tru_handTestAs _ s
    · rfl

theorem tru_foldl_handOn (l : List WatchEntry) (s : State)
    (h : ∀ e ∈ l, e.stage = .driving → e.source ≠ .topUp → e.result = none) : (l.foldl handOn s).tru = s.tru := by
  induction l generalizing s with
  | nil => rfl
  | cons a l ih =>
    rw [List.foldl_cons, ih _ fun e he => h e (List.mem_cons_of_mem _ he), tru_handOn s a (h a (List.mem_cons_self ..))]

/-! ## The steady view -/

theorem steady_mark (sub : Subject) (s : State) : (mark sub s).steady = s.steady := (mark_moves (k := 0) sub s).steady rfl

theorem steady_markIf (c : Bool) (sub : Subject) (s : State) : (markIf c sub s).steady = s.steady :=
  (markIf_moves (k := 0) c sub s).steady rfl

theorem steady_emit (l : List Msg) (s : State) : (s.emit l).steady = s.steady := rfl

/-- Two states of one steady view agree on the plan, the station and the number of steps of the run, and on plan J. -/
theorem run_of_steady (h : s.steady = t.steady) : s.rne.planId = t.rne.planId ∧ s.rne.startedBy = t.rne.startedBy ∧
    s.rne.outcomes.length = t.rne.outcomes.length ∧ s.rne.jog = t.rne.jog := by
  have hr : s.rne.steady = t.rne.steady := congrArg State.rne h
  refine ⟨(congrArg Rne.planId hr :), (congrArg Rne.startedBy hr :), ?_, (congrArg Rne.jog hr :)⟩
  have := congrArg List.length (congrArg Rne.outcomes hr : _)
  simpa [Rne.steady] using this

/-! ## How a command ends -/

theorem emptied (h : s.agenda = []) : ({ s with agenda := [] } : State) = s := by rw [← h]

/-- One message sent, whose handler sends none. -/
theorem settle_emit_one (m : Msg) (h : s.agenda = []) (h1 : (handle m s).agenda = []) :
    settle (s.emit [m]) = handle m s := by
  have he : ({ s.emit [m] with agenda := [] } : State) = s := emptied (s := s) h
  rw [settle_one (m := m) (by simp [h]) (by rw [he]; exact h1), he]

/-- Two messages sent, whose handlers send none. -/
theorem settle_emit_two (m n : Msg) (h : s.agenda = []) (h1 : (handle m s).agenda = [])
    (h2 : (handle n (handle m s)).agenda = []) : settle (s.emit [m, n]) = handle n (handle m s) := by
  have he : ∀ {x : State} (l : List Msg), x.agenda = [] → ({ x.emit l with agenda := [] } : State) = x :=
    fun {x} l hx => emptied (s := x) hx
  have d1 : deliver m [n] (s.emit [m, n]) = (handle m s).emit [n] := by
    unfold deliver; rw [he _ h]; rfl
  have d2 : deliver n [] ((handle m s).emit [n]) = handle n (handle m s) := by
    unfold deliver; rw [he _ h1]; dsimp only; rw [List.append_nil]
  have hd : drain 2 (s.emit [m, n]) = handle n (handle m s) := by
    have e1 : (s.emit [m, n]).agenda = [m, n] := by simp [h]
    have e2 : ((handle m s).emit [n]).agenda = [n] := by simp [h1]
    simp only [drain, e1, d1, e2, d2]
  rw [settle_of_drain (n := 2) (by decide) (by rw [hd]; exact h2), hd]

/-- A request that came to a result and sent nothing else ends with its reply. -/
theorem settle_result (r : Result) (st : Station) (kind tag : Byte) (h : r.state.agenda = []) :
    settle (r.reply st kind tag) = replied st kind tag r.code r.data r.state := settle_answer _ _ _ _ _ h

/-- A SET that is no refusal ends with its stored value and its reply. -/
theorem settle_stored (t : State) (v w : Nat) (st : Station) (tag : Byte) (h : t.agenda = []) :
    settle ((storedResult t v w).reply st 0x0B tag) = setReplied st tag v w t := by
  unfold storedResult setReplied
  split <;> rw [settle_result _ _ _ _ h]

theorem settle_clamped (st : Station) (tag : Byte) (lo hi v : Nat) (f : Nat → State) (h : ∀ w, (f w).agenda = []) :
    settle ((setClamped lo hi v f).reply st 0x0B tag) = setReplied st tag v (clamp lo hi v) (f (clamp lo hi v)) :=
  settle_stored _ _ _ _ _ (h _)

/-- A SET from the holder is the write of its parameter. -/
theorem exec_set {c : Instr} {st : Station} {tag id lo hi : Byte} {f : State} {p : Param}
    (hc : requestOf c = some (st, 0x0B, tag, [id, lo, hi])) (hr : s.hasRoom st) (hh : s.cau.holder = some st)
    (hf : f = frameDone st s) (hp : paramOfId id.toNat = some p) :
    exec c s = .next (settle ((setParam p (wordVal lo hi) f).reply st 0x0B tag)) := by
  rw [exec_dispatch hc hr (by decide) rfl, ← hf]
  show Host.Outcome.next (settle ((setRequest st id lo hi f).reply st 0x0B tag)) = _
  have : f.holds st = true := by rw [hf]; simp [State.holds, hh]
  simp only [setRequest, hp, this, if_true]

/-- A change of holder, as the messages it sends leave it: the role stands, and the permit is LAPSED (R152). -/
theorem settle_handed {x f : State} {c : Cau} {m : Msg}
    (hm : x = (mark .authority { f with cau := c }).emit [.holderChanged]) (hfa : f.agenda = []) (hc : c.elect = none)
    (hs : ({ f with cau := c } : State).steady = f.steady) :
    (settle (x.emit [m])).cau.holder = c.holder ∧ (settle (x.emit [m])).cau.elect = none ∧
      (settle (x.emit [m])).pmt.live = false ∧ (settle (x.emit [m])).steady = f.steady := by
  have hxc : x.cau = c := by rw [hm]; simp
  have r := (settle_moves (k := 0) (x.emit [m])).rolesHeld rfl (by simp [hxc, hc])
  have ag : (x.emit [m]).agenda = .holderChanged :: [m] := by rw [hm]; simp [hfa]
  have mv := settle_moves_after (k := 0) .holderChanged [m] ag
  refine ⟨by rw [r.2]; simp [hxc], r.1, ?_, ?_⟩
  · have hl : (handle .holderChanged { (x.emit [m]) with agenda := [] }).pmt.live = false := by
      show (holderChanged _).pmt.live = false
      unfold holderChanged
      split
      · unfold permitLapse; simp
      · next h => simpa using h
    rw [mv.lapsedHeld rfl hl, hl]
  · rw [settle_steady, ← hs, steady_emit, hm, steady_emit, steady_mark]

/-- As `settle_handed`, where nothing follows the change of holder. -/
theorem settle_handed_alone {x f : State} {c : Cau}
    (hm : x = (mark .authority { f with cau := c }).emit [.holderChanged]) (hfa : f.agenda = []) (hc : c.elect = none) :
    (settle x).cau.holder = c.holder ∧ (settle x).cau.elect = none ∧ (settle x).pmt.live = false := by
  have hxc : x.cau = c := by rw [hm]; simp
  have r := (settle_moves (k := 0) x).rolesHeld rfl (by simp [hxc, hc])
  have ag : x.agenda = .holderChanged :: [] := by rw [hm]; simp [hfa]
  have mv := settle_moves_after (k := 0) .holderChanged [] ag
  refine ⟨by rw [r.2]; simp [hxc], r.1, ?_⟩
  have hl : (handle .holderChanged { x with agenda := [] }).pmt.live = false := by
    show (holderChanged _).pmt.live = false
    unfold holderChanged
    split
    · unfold permitLapse; simp
    · next h => simpa using h
  rw [mv.lapsedHeld rfl hl, hl]

/-- A trip report with no trip latched: its record is written, and the outputs are held off (R157, R159). -/
theorem handle_report (c : Cause) (m : Option Member) (d : Detail) (hr : s.tru.record = none) :
    (handle (.tripReport c m d) s).tru.record = some (s.recordFor c m d) ∧
      (handle (.tripReport c m d) s).tripHoldsOff := by
  have hh : (handle (.tripReport c m d) s).tru.record = some (s.recordFor c m d) := by
    show (tripReport c m d s).tru.record = _
    unfold tripReport
    simp [Moves.tru_forcedOff, State.latchTrip, hr]
  refine ⟨hh, ?_, ?_⟩
  · rw [hh]
    show (tripReport c m d s).vod.forced = true
    unfold tripReport
    simp [Moves.forced_forcedOff]
  · intro _ a
    show (tripReport c m d s).drives a = zeroDrives
    unfold tripReport
    rw [drives_emit, drives_mark]
    exact Moves.drives_forcedOff _ _

/-- A trip that has been reported with none latched stays latched through the messages that follow. -/
theorem latched_of_moves {c : Cause} {m : Option Member} {d : Detail} (hr : s.tru.record = none)
    (h : ∀ k, Moves k (handle (.tripReport c m d) s) t) : t.latched c m d := by
  obtain ⟨hh, ho⟩ := handle_report c m d hr
  have h1 := (h 1).recordHeld le_rfl hh
  have h2 := (h 0).tripHoldsOff ho
  have hf : t.vod.forced = true := by rw [h2.1, h1]; rfl
  exact ⟨⟨_, h1, rfl, rfl, rfl⟩, hf, h2.2 hf⟩

/-- A command whose first message is a trip report, with no trip latched, latches that trip (R157, R159). -/
theorem settle_report {c : Cause} {m : Option Member} {d : Detail} (rest : List Msg)
    (h : s.agenda = .tripReport c m d :: rest) (hr : s.tru.record = none) : (settle s).latched c m d :=
  latched_of_moves (s := { s with agenda := [] }) hr fun _ => settle_moves_after _ rest h

/-- A command whose first message is a re-evaluation that finds a guard lost in DRIVING, the first in member order, with
no trip latched, latches the INTERLOCK trip of that member (R19). -/
theorem settle_guardLoss {l1 l2 : List WatchEntry} {e : WatchEntry} {r : Reason} (rest : List Msg)
    (h : s.agenda = .reeval :: rest) (hr : s.tru.record = none)
    (hl : s.ilk.watch.map (fun e => { e with result := s.guardOf e }) = l1 ++ e :: l2)
    (h1 : ∀ x ∈ l1, x.stage = .driving → x.source ≠ .topUp → x.result = none)
    (hs : e.stage = .driving) (ht : e.source ≠ .topUp) (he : e.result = some r) :
    (settle s).latched .interlock (some e.member) (.guard r) := by
  generalize hc : ({ s with agenda := [] } : State) = c
  have hw : c.ilk.watch.map (fun e => { e with result := c.guardOf e }) = l1 ++ e :: l2 := by
    rw [← hl, ← hc]; rfl
  have hx : handOn (l1.foldl handOn (c.setWatch (l1 ++ e :: l2))) e =
      handle (.tripReport .interlock (some e.member) (.guard r)) (l1.foldl handOn (c.setWatch (l1 ++ e :: l2))) := by
    unfold handOn handFalse
    rw [he]
    exact if_pos ⟨hs, ht⟩
  have ho : handle .reeval c = (memberEvent (fun s => l2.foldl handOn (handOn (l1.foldl handOn s) e))
      (c.setWatch (l1 ++ e :: l2))).emit [.refreshBlocked] := by
    show reevaluate c = _
    unfold reevaluate
    dsimp only
    rw [hw]
    simp only [List.foldl_append, List.foldl_cons]
  refine latched_of_moves (s := l1.foldl handOn (c.setWatch (l1 ++ e :: l2)))
    (by rw [tru_foldl_handOn _ _ h1, ← hc]; exact hr) fun k => ?_
  refine .trans ?_ (settle_moves_after .reeval rest h)
  rw [hc, ho, ← hx]
  exact .emitAfter _ (.emitAfter _ (.trans (.foldl handOn_moves _ _) (markMembers_moves _ _)))

/-! ## Links under marks -/

/-- A choice of the transmitter touches the two queues and the transmitter alone, and interrupts no frame (R189). -/
theorem link_txChoose (st q : Station) (s : State) :
    ((txChoose st s).link q).asm = (s.link q).asm ∧ ((txChoose st s).link q).age = (s.link q).age ∧
      ((txChoose st s).link q).mask = (s.link q).mask ∧
      ((s.link q).replies = [] → ((txChoose st s).link q).replies = []) ∧
      ∀ z, (s.link q).tx = some z → ((txChoose st s).link q).tx = some z := by
  unfold txChoose
  dsimp only
  by_cases hq : q = st
  · subst hq
    split <;> simp_all
  · split <;> simp [hq]

theorem link_markAt (st q : Station) (sub : Subject) (s : State) :
    ((markAt st sub s).link q).asm = (s.link q).asm ∧ ((markAt st sub s).link q).age = (s.link q).age ∧
      ((markAt st sub s).link q).mask = (s.link q).mask ∧
      ((s.link q).replies = [] → ((markAt st sub s).link q).replies = []) ∧
      ∀ z, (s.link q).tx = some z → ((markAt st sub s).link q).tx = some z := by
  unfold markAt
  dsimp only
  split
  · have h := link_txChoose st q (s.setLink st { s.link st with reports := (s.link st).reports ++ [sub] })
    by_cases hq : q = st
    · subst hq; simpa using h
    · simpa [hq] using h
  · exact ⟨rfl, rfl, rfl, id, fun _ => id⟩

/-- A mark touches the pending sets and idle transmitters alone (R188). -/
theorem link_mark (q : Station) (sub : Subject) (s : State) :
    ((mark sub s).link q).asm = (s.link q).asm ∧ ((mark sub s).link q).age = (s.link q).age ∧
      ((mark sub s).link q).mask = (s.link q).mask ∧
      ((s.link q).replies = [] → ((mark sub s).link q).replies = []) ∧
      ∀ z, (s.link q).tx = some z → ((mark sub s).link q).tx = some z := by
  have h1 := link_markAt .bridge q sub s
  have h2 := link_markAt .deck q sub (markAt .bridge sub s)
  exact ⟨h2.1.trans h1.1, h2.2.1.trans h1.2.1, h2.2.2.1.trans h1.2.2.1, fun h => h2.2.2.2.1 (h1.2.2.2.1 h),
    fun z h => h2.2.2.2.2 z (h1.2.2.2.2 z h)⟩

/-- A subject is pending at a link or being sent by it. -/
def State.shows (s : State) (q : Station) (sub : Subject) : Prop :=
  sub ∈ (s.link q).reports ∨ ∃ p left, (s.link q).tx = some ⟨⟨reportKind sub, 0, p⟩, left⟩

theorem shows_txChoose {q : Station} {sub : Subject} (st : Station) (h : s.shows q sub) : (txChoose st s).shows q sub := by
  unfold txChoose
  dsimp only
  by_cases hq : q = st
  · subst hq
    unfold State.shows at *
    split
    · exact h
    · rcases h with h | ⟨p, l, h⟩
      · left; simpa using h
      · simp_all
    · rename_i sub' rest _ _ hr
      rcases h with h | ⟨p, l, h⟩
      · simp only [hr, List.mem_cons] at h
        rcases h with rfl | h
        · exact .inr ⟨_, _, by rw [link_setLink_self]; rfl⟩
        · left; simpa using h
      · simp_all
    · exact h
  · unfold State.shows at *
    split <;> simpa [hq] using h

theorem shows_markAt {q : Station} {sub : Subject} (st : Station) (sub' : Subject) (h : s.shows q sub) :
    (markAt st sub' s).shows q sub := by
  unfold markAt
  dsimp only
  split
  · apply shows_txChoose
    unfold State.shows at *
    by_cases hq : q = st
    · subst hq
      rcases h with h | h
      · left; simp [h]
      · right; simpa using h
    · simpa [hq] using h
  · exact h

theorem shows_mark {q : Station} {sub : Subject} (sub' : Subject) (h : s.shows q sub) : (mark sub' s).shows q sub :=
  shows_markAt .deck sub' (shows_markAt .bridge sub' h)

theorem shows_markAt_self {st : Station} {sub : Subject} (h : (s.link st).unmasked sub = true) :
    (markAt st sub s).shows st sub := by
  unfold markAt
  dsimp only
  split
  · exact shows_txChoose _ (.inl (by simp))
  · next h2 => left; simpa [h] using h2

end Sys2Proof.Machine
end

