-- ==== Sys2Proof/Laws/PerInstr.lean ====
section
/-! SUPPORT. The facts that hold of every command as syntax, one lemma for each constructor. -/

namespace Sys2Proof.Laws

open Sys2Proof.Machine

/-- The KINDs of the requests that store something or clear a trip: SET, SETWIN, SETSTEP, SETMASK, ACKNOWLEDGE, RESTART. -/
def storingKinds : List Byte := [0x0B, 0x0C, 0x0D, 0x0E, 0x10, 0x11]

/-- A well-formed command that carries a frame carries one that fits a frame (R179), and its KIND alone says whether
it is a plain command. -/
def Classify.Statement (c : Instr) : Prop :=
  c.wellFormed = true → ∀ st kind tag p, requestOf c = some (st, kind, tag, p) →
    p.length ≤ 62 ∧ plainCommand c = !storingKinds.contains kind

/-- A command that carries no frame. -/
theorem classify_event {c : Instr} (h : requestOf c = none) : Classify.Statement c := by
  intro _ st kind tag p hr
  rw [h] at hr
  cases hr

/-- A command that carries a frame of a fixed KIND. -/
theorem classify_request {c : Instr} {st : Station} {kind tag : Byte} {p : List Byte}
    (hr : requestOf c = some (st, kind, tag, p)) (hw : c.wellFormed = true → payloadFits p = true)
    (hk : plainCommand c = !storingKinds.contains kind) : Classify.Statement c := by
  intro h st' kind' tag' p' hr'
  rw [hr] at hr'
  cases hr'
  exact ⟨by simpa [payloadFits] using hw h, hk⟩

/-- The row of a SET is told apart by its payload, which fits a frame. -/
theorem payloadFits_of_setFits {row : SetRow} {p : List Byte} (h : setFits row p = true) : payloadFits p = true := by
  unfold setFits at h
  exact (Bool.and_eq_true_iff.1 h).1

/-- The row of a READ is told apart by its payload, which fits a frame. -/
theorem payloadFits_of_readFits {type : Nat} {p : List Byte} (h : readFits type p = true) : payloadFits p = true := by
  unfold readFits at h
  exact (Bool.and_eq_true_iff.1 h).1

theorem Classify.powerOnReset : Classify.Statement .powerOnReset := classify_event rfl

theorem Classify.claim (st : Station) (tag : Byte) (payload : List Byte) :
    Classify.Statement (.claim st tag payload) := classify_request rfl id rfl

theorem Classify.yieldAuthority (st : Station) (tag : Byte) (payload : List Byte) :
    Classify.Statement (.yieldAuthority st tag payload) := classify_request rfl id rfl

theorem Classify.startPlan (st : Station) (tag : Byte) (payload : List Byte) :
    Classify.Statement (.startPlan st tag payload) := classify_request rfl id rfl

theorem Classify.pause (st : Station) (tag : Byte) (payload : List Byte) :
    Classify.Statement (.pause st tag payload) := classify_request rfl id rfl

theorem Classify.continueRun (st : Station) (tag : Byte) (payload : List Byte) :
    Classify.Statement (.continueRun st tag payload) := classify_request rfl id rfl

theorem Classify.abortRun (st : Station) (tag : Byte) (payload : List Byte) :
    Classify.Statement (.abortRun st tag payload) := classify_request rfl id rfl

theorem Classify.permit (st : Station) (tag : Byte) (payload : List Byte) :
    Classify.Statement (.permit st tag payload) := classify_request rfl id rfl

theorem Classify.jog (st : Station) (tag : Byte) (payload : List Byte) :
    Classify.Statement (.jog st tag payload) := classify_request rfl id rfl

theorem Classify.topup (st : Station) (tag : Byte) (payload : List Byte) :
    Classify.Statement (.topup st tag payload) := classify_request rfl id rfl

theorem Classify.ship (st : Station) (tag : Byte) (payload : List Byte) :
    Classify.Statement (.ship st tag payload) := classify_request rfl id rfl

theorem Classify.setGlobalParameter (st : Station) (tag : Byte) (payload : List Byte) :
    Classify.Statement (.setGlobalParameter st tag payload) := classify_request rfl payloadFits_of_setFits rfl

theorem Classify.setAxisParameter (st : Station) (tag : Byte) (payload : List Byte) :
    Classify.Statement (.setAxisParameter st tag payload) := classify_request rfl payloadFits_of_setFits rfl

theorem Classify.setLockParameter (st : Station) (tag : Byte) (payload : List Byte) :
    Classify.Statement (.setLockParameter st tag payload) := classify_request rfl payloadFits_of_setFits rfl

theorem Classify.setSupplyParameter (st : Station) (tag : Byte) (payload : List Byte) :
    Classify.Statement (.setSupplyParameter st tag payload) := classify_request rfl payloadFits_of_setFits rfl

theorem Classify.setPermitParameter (st : Station) (tag : Byte) (payload : List Byte) :
    Classify.Statement (.setPermitParameter st tag payload) := classify_request rfl payloadFits_of_setFits rfl

theorem Classify.setFilterCount (st : Station) (tag : Byte) (payload : List Byte) :
    Classify.Statement (.setFilterCount st tag payload) := classify_request rfl payloadFits_of_setFits rfl

theorem Classify.setwin (st : Station) (tag : Byte) (payload : List Byte) :
    Classify.Statement (.setwin st tag payload) := classify_request rfl id rfl

theorem Classify.setstep (st : Station) (tag : Byte) (payload : List Byte) :
    Classify.Statement (.setstep st tag payload) := classify_request rfl id rfl

theorem Classify.setmask (st : Station) (tag : Byte) (payload : List Byte) :
    Classify.Statement (.setmask st tag payload) := classify_request rfl id rfl

theorem Classify.readSubject (st : Station) (tag : Byte) (payload : List Byte) :
    Classify.Statement (.readSubject st tag payload) := classify_request rfl payloadFits_of_readFits rfl

theorem Classify.readParameter (st : Station) (tag : Byte) (payload : List Byte) :
    Classify.Statement (.readParameter st tag payload) := classify_request rfl payloadFits_of_readFits rfl

theorem Classify.readWindow (st : Station) (tag : Byte) (payload : List Byte) :
    Classify.Statement (.readWindow st tag payload) := classify_request rfl payloadFits_of_readFits rfl

theorem Classify.readStep (st : Station) (tag : Byte) (payload : List Byte) :
    Classify.Statement (.readStep st tag payload) := classify_request rfl payloadFits_of_readFits rfl

theorem Classify.readPlanLength (st : Station) (tag : Byte) (payload : List Byte) :
    Classify.Statement (.readPlanLength st tag payload) := classify_request rfl payloadFits_of_readFits rfl

theorem Classify.readMask (st : Station) (tag : Byte) (payload : List Byte) :
    Classify.Statement (.readMask st tag payload) := classify_request rfl payloadFits_of_readFits rfl

theorem Classify.acknowledge (st : Station) (tag : Byte) (payload : List Byte) :
    Classify.Statement (.acknowledge st tag payload) := classify_request rfl id rfl

theorem Classify.restart (st : Station) (tag : Byte) (payload : List Byte) :
    Classify.Statement (.restart st tag payload) := classify_request rfl id rfl

theorem Classify.unknownKind (st : Station) (kind : Byte) (tag : Byte) (payload : List Byte) : Classify.Statement (.unknownKind st kind tag payload) := by
  intro h st' kind' tag' p' hr
  simp only [requestOf, Option.some.injEq, Prod.mk.injEq] at hr
  obtain ⟨rfl, rfl, rfl, rfl⟩ := hr
  simp only [Instr.wellFormed, payloadFits, Bool.and_eq_true, decide_eq_true_eq, Bool.or_eq_true, beq_iff_eq] at h
  refine ⟨h.1, ?_⟩
  have h1 : storingKinds.contains kind = false := by
    rw [Bool.eq_false_iff]
    intro hc
    simp only [storingKinds, List.contains_iff_mem, List.mem_cons, List.not_mem_nil, or_false] at hc
    rcases h.2 with h2 | h2 <;> rcases hc with rfl | rfl | rfl | rfl | rfl | rfl <;> revert h2 <;> decide
  rw [h1]
  rfl

theorem Classify.frameDiscard (st : Station) (bytes : List Byte) : Classify.Statement (.frameDiscard st bytes) :=
  classify_event rfl

theorem Classify.frameGapExpiry (st : Station) : Classify.Statement (.frameGapExpiry st) := classify_event rfl

theorem Classify.frameSent (st : Station) : Classify.Statement (.frameSent st) := classify_event rfl

theorem Classify.linkLoss (st : Station) : Classify.Statement (.linkLoss st) := classify_event rfl

theorem Classify.pinSensorEdge (g : Group) (pin : Nat) (engaged withdrawn : Option Bool) :
    Classify.Statement (.pinSensorEdge g pin engaged withdrawn) := classify_event rfl

theorem Classify.pinSensorFirstValue (g : Group) (pin : Nat) (engaged withdrawn : Option Bool) :
    Classify.Statement (.pinSensorFirstValue g pin engaged withdrawn) := classify_event rfl

theorem Classify.endSwitchEdge (a : Axis) (closedSw openSw : Option Bool) :
    Classify.Statement (.endSwitchEdge a closedSw openSw) := classify_event rfl

theorem Classify.pressureOkEdge (u : UnitId) (active : Bool) : Classify.Statement (.pressureOkEdge u active) :=
  classify_event rfl

theorem Classify.motorTripEdge (u : UnitId) (active : Bool) : Classify.Statement (.motorTripEdge u active) :=
  classify_event rfl

theorem Classify.unitInputFirstValue (u : UnitId) (input : UnitInput) (active : Bool) :
    Classify.Statement (.unitInputFirstValue u input active) := classify_event rfl

theorem Classify.loopEdge (st : Station) (isClosed : Bool) : Classify.Statement (.loopEdge st isClosed) :=
  classify_event rfl

theorem Classify.loopFirstValue (st : Station) (isClosed : Bool) :
    Classify.Statement (.loopFirstValue st isClosed) := classify_event rfl

theorem Classify.keyEdge (isLocal : Bool) : Classify.Statement (.keyEdge isLocal) := classify_event rfl

theorem Classify.keyFirstValue (isLocal : Bool) : Classify.Statement (.keyFirstValue isLocal) := classify_event rfl

theorem Classify.pwmPeriodStart : Classify.Statement .pwmPeriodStart := classify_event rfl

theorem Classify.controlPeriodExpiry (a : Axis) (port stbd : ChannelSample) :
    Classify.Statement (.controlPeriodExpiry a port stbd) := classify_event rfl

theorem Classify.stallSample (a : Axis) : Classify.Statement (.stallSample a) := classify_event rfl

theorem Classify.breakawayEnd (a : Axis) : Classify.Statement (.breakawayEnd a) := classify_event rfl

theorem Classify.stepClockExpiry : Classify.Statement .stepClockExpiry := classify_event rfl

theorem Classify.stepTimeoutExpiry (m : Member) : Classify.Statement (.stepTimeoutExpiry m) := classify_event rfl

theorem Classify.dwellExpiry (m : Member) : Classify.Statement (.dwellExpiry m) := classify_event rfl

theorem Classify.announceExpiry (a : Axis) : Classify.Statement (.announceExpiry a) := classify_event rfl

theorem Classify.reversalExpiry (a : Axis) : Classify.Statement (.reversalExpiry a) := classify_event rfl

theorem Classify.switchWaitExpiry (a : Axis) : Classify.Statement (.switchWaitExpiry a) := classify_event rfl

theorem Classify.speedStaleExpiry : Classify.Statement .speedStaleExpiry := classify_event rfl

theorem Classify.permitExpiry : Classify.Statement .permitExpiry := classify_event rfl

theorem Classify.conflictTimerExpiry (g : Group) (pin : Nat) : Classify.Statement (.conflictTimerExpiry g pin) :=
  classify_event rfl

theorem Classify.transitLimitExpiry (g : Group) (pin : Nat) : Classify.Statement (.transitLimitExpiry g pin) :=
  classify_event rfl

theorem Classify.settleExpiry (g : Group) : Classify.Statement (.settleExpiry g) := classify_event rfl

theorem Classify.holdExpiry (g : Group) : Classify.Statement (.holdExpiry g) := classify_event rfl

theorem Classify.periodicTopupExpiry (g : Group) : Classify.Statement (.periodicTopupExpiry g) := classify_event rfl

theorem Classify.topupTimerExpiry (g : Group) : Classify.Statement (.topupTimerExpiry g) := classify_event rfl

theorem Classify.startLimitExpiry (u : UnitId) : Classify.Statement (.startLimitExpiry u) := classify_event rfl

theorem Classify.pressureLossExpiry (u : UnitId) : Classify.Statement (.pressureLossExpiry u) := classify_event rfl

theorem Classify.runOnExpiry (u : UnitId) : Classify.Statement (.runOnExpiry u) := classify_event rfl

theorem Classify.endSwitchFirstValue (a : Axis) (closedSw openSw : Option Bool) :
    Classify.Statement (.endSwitchFirstValue a closedSw openSw) := classify_event rfl

end Sys2Proof.Laws
end

