-- ==== Sys2Proof/Tests/Slice0.lean ====
section
/-! SUPPORT. Small tests: a command that each check of well-formedness refuses, the worked figures of the manual, what
single commands do on small states, and for each statement with hypotheses a state that meets them. -/

namespace Sys2Proof.Tests

open Sys2Proof.Machine

/-! ## Well-formedness -/

theorem test_wf_payload_too_long : (Instr.claim .bridge 0 (List.replicate 63 0)).wellFormed = false := by decide
theorem test_wf_payload_longest : (Instr.claim .bridge 0 (List.replicate 62 0)).wellFormed = true := by decide
theorem test_wf_set_of_another_row : (Instr.setLockParameter .deck 0 [0x10, 0, 0]).wellFormed = false := by decide
theorem test_wf_set_of_its_row : (Instr.setAxisParameter .deck 0 [0x3F, 0, 0]).wellFormed = true := by decide
theorem test_wf_read_of_another_row : (Instr.readWindow .deck 0 [3, 0, 1]).wellFormed = false := by decide
theorem test_wf_read_of_its_row : (Instr.readStep .deck 0 [3, 0, 1]).wellFormed = true := by decide
theorem test_wf_pin_zero : (Instr.pinSensorEdge .rlk 0 (some true) none).wellFormed = false := by decide
theorem test_wf_pin_too_high : (Instr.transitLimitExpiry .rlk 5).wellFormed = false := by decide
theorem test_wf_pin_last : (Instr.conflictTimerExpiry .rlk 4).wellFormed = true := by decide
theorem test_wf_edge_without_value : (Instr.endSwitchEdge .vis none none).wellFormed = false := by decide
theorem test_wf_known_kind : (Instr.unknownKind .deck 0x11 0 []).wellFormed = false := by decide
theorem test_wf_unknown_kind : (Instr.unknownKind .deck 0x12 0 []).wellFormed = true := by decide
theorem test_wf_no_bytes : (Instr.frameDiscard .deck []).wellFormed = false := by decide

/-! ## Worked figures of the manual -/

/-- The CRC over 31h to 39h (R180). -/
theorem test_crc_check_value : crc16 [0x31, 0x32, 0x33, 0x34, 0x35, 0x36, 0x37, 0x38, 0x39] = 0x29B1 := by decide +kernel

/-- The samples of section 3.1.1: the first and the third pass, the second is a jump, the fourth out of range. -/
theorem test_calibration :
    cylinderFail ⟨21000, false⟩ 1000 1100 28000 none = none ∧ offered ⟨21000, false⟩ 1000 1100 28000 = 21484 ∧
      cylinderFail ⟨21200, false⟩ 1000 1100 28000 (some 21484) = some .jump ∧
      cylinderFail ⟨900, false⟩ 1000 1100 28000 none = none ∧ offered ⟨900, false⟩ 1000 1100 28000 = 0 ∧
      cylinderFail ⟨700, false⟩ 1000 1100 28000 none = some .range := by decide

/-- The coordinate and skew of section 3.1.1. -/
theorem test_coordinate : (CylPos.mk 21484 21471).x = 21477 ∧ (CylPos.mk 21484 21471).e = 13 := by decide

/-- VIS as it cruises or approaches in section 4.8: in MOVING, with the commanded speed of the last computation. -/
def movingVis (vc : Nat) : AxisState := { State.reset.vis with phase := .moving, vc := vc }

/-- The step to 27800 of section 4.8. -/
def to27800 : AxisStep := ⟨1, false, .opening, 27800, .position⟩

/-- Cases 1 and 2 of section 4.8: cruise, and the first sample of the approach. -/
theorem test_drive_cruise :
    (movingVis 690).newSpeed to27800 12000 2 = 700 ∧ demand 700 12 16 .opening = ⟨3485, 0, 3515, 0⟩ ∧
      (movingVis 150).newSpeed to27800 27650 2 = 130 ∧ demand 130 (-4) 16 .opening = ⟨655, 0, 645, 0⟩ := by decide

/-- The approach of section 4.8, expiries 2 to 8. -/
theorem test_drive_approach :
    (movingVis 130).newSpeed to27800 27680 2 = 110 ∧ (movingVis 110).newSpeed to27800 27705 2 = 90 ∧
      (movingVis 90).newSpeed to27800 27726 2 = 70 ∧ (movingVis 70).newSpeed to27800 27742 2 = 50 ∧
      (movingVis 50).newSpeed to27800 27754 2 = 40 ∧ (movingVis 40).newSpeed to27800 27763 2 = 40 := by decide

/-- Case 3 of section 4.8: the one-pump cap is reached by twice the ramp. -/
theorem test_drive_one_pump :
    (movingVis 700).newSpeed to27800 12000 1 = 660 ∧ (movingVis 540).newSpeed to27800 12000 1 = 500 ∧
      (movingVis 500).newSpeed to27800 12000 1 = 500 := by decide

/-- Case 4 of section 4.8: the clamps of the correction and of the duties. -/
theorem test_drive_clamps : demand 200 100 255 .opening = ⟨0, 0, 2250, 0⟩ ∧ skewCorrection (-13) 16 = -3 := by decide

/-- An input through its samples. -/
def samples (x : DicInput) (levels : List Bool) : DicInput :=
  levels.foldl (fun y l => ({ y with level := l } : DicInput).sample 8 16) x

/-- The filtering of section 10.1.1: no edge before sample 12, the edge at it. -/
theorem test_filtering :
    samples ⟨.pinEngaged .vlk 5, true, some true, 0⟩
        [false, false, false, false, true, false, false, false, false, false, false, false] =
      ⟨.pinEngaged .vlk 5, false, some true, 7⟩ ∧
    samples ⟨.pinEngaged .vlk 5, false, some true, 7⟩ [false] = ⟨.pinEngaged .vlk 5, false, some false, 0⟩ := by decide

/-- The first filtered value comes at sample N (R172). -/
theorem test_first_value :
    (DicInput.sample ⟨.key, true, none, 0⟩ 16 15).filtered = none ∧
      (DicInput.sample ⟨.key, true, none, 0⟩ 16 16).filtered = some true := by decide

/-- The defaults of a power-on reset stand in the plan store, and the default plans fit (R25, R29). -/
theorem test_default_plans :
    State.reset.rne.p0.len = 6 ∧ State.reset.rne.p0.groupsFit = true ∧ State.reset.rne.p1.groupsFit = true ∧
      State.reset.rne.p0.group 4 = [4, 5] ∧ State.reset.rne.p1.group 2 = [2, 3] := by decide

/-! ## Single commands -/

/-- What an outcome leaves, asked of its next state. -/
def after (o : Host.Outcome State Fault Refusal) (p : State → Bool) : Bool :=
  match o with
  | .next s => p s
  | _ => false

/-- BRIDGE is the holder. -/
def held : State := { State.reset with cau := { State.reset.cau with holder := some .bridge } }

/-- BRIDGE is the holder and DECK its elect. -/
def elected : State := { held with cau := { held.cau with elect := some .deck } }

/-- DECK is the holder, the key stands at LOCAL, the permit is live. -/
def deckLocal : State :=
  { State.reset with
    cau := { State.reset.cau with holder := some .deck, key := .isLocal }
    pmt := { State.reset.pmt with live := true, timer := some 500 } }

theorem test_claim_makes_holder : after (exec (.claim .deck 7 []) .reset) (fun t =>
    t.cau.holder == some .deck && t.agenda.isEmpty && t.deck.tx.isSome) = true := by decide

theorem test_claim_beside_holder_is_pending : after (exec (.claim .deck 7 []) held) (fun t =>
    t.cau.holder == some .bridge && t.cau.elect == some .deck) = true := by decide

theorem test_start_runs : after (exec (.startPlan .bridge 1 [0]) held) (fun t =>
    t.rne.engine == .running && t.rne.inflight.length == 1 && t.ilk.watch.length == 1 &&
      t.rne.blocked == some (1, .visNotClosed)) = true := by decide

theorem test_ship_clamps : after (exec (.ship .bridge 1 [0xFF, 0xFF]) .reset) (fun t =>
    t.ilk.speed == 400 && t.ilk.known && t.ilk.expiry == some 10000) = true := by decide

theorem test_loop_open_is_a_trip : after (exec (.loopFirstValue .deck false) .reset) (fun t =>
    t.tru.latch && t.vod.forced && t.rne.engine == .tripped && t.vis.phase == .halted &&
      t.tru.record.any (fun r => r.cause == .estop)) = true := by decide

theorem test_bytes_make_a_frame : after (exec (.frameDiscard .bridge (Frame.bytes ⟨0x01, 0x05, []⟩)) .reset) (fun t =>
    t.cau.holder == some .bridge && t.bridge.asm == none) = true := by decide +kernel

theorem test_no_such_pin : exec (.pinSensorEdge .rlk 5 (some true) none) .reset = .fault .noSuchInput := rfl

theorem test_no_word_spells_a_command : decodeTableWord 8 1 = none ∧ State.reset.withFetchWord 8 1 = .reset := ⟨rfl, rfl⟩

/-! ## States that meet the hypotheses of the statements -/

/-- A request can be taken at a link: no message is under way, and there is room for its reply. -/
def ready (s : State) (st : Station) : Bool := s.agenda.isEmpty && decide ((s.link st).replies.length < 4)

/-- What `ready` says. -/
theorem ready_says {s : State} {st : Station} (h : ready s st = true) : s.agenda = [] ∧ s.hasRoom st := by
  simpa [ready, State.hasRoom, and_comm] using h

/-- A trip is latched, with what it holds off. -/
def tripped : State :=
  { State.reset with
    tru := { State.reset.tru with record := some (State.reset.recordFor .stall (some (.axis .vis)) .none), causes := [.estop] }
    vod := { State.reset.vod with forced := true } }

/-- Unit U1 has failed; an INR step waits before a top-up. -/
def failedUnit : State :=
  { State.reset with
    hsa := { State.reset.hsa with
      u1 := { unitAtReset with state := .failed, failure := some .motorTrip, motorTrip := some true }
      wants := [⟨.axisStep .inr, .first, 3⟩, ⟨.topUp .vlk, .topUp, 6⟩] } }

/-- An entry of the watched-action list in WAITING. -/
def watched (m : Member) : WatchEntry := ⟨m, .moveTo, none, .planStep, .waiting, none⟩

/-- The step on an empty queue: nothing due, one event due, two events due. -/
theorem test_hyp_StepOnEmptyQueue :
    (State.reset.pending = [] ∧ State.reset.due = []) ∧
      ({ State.reset with pmt := { State.reset.pmt with timer := some 0 } } : State).due = [.permitExpiry] ∧
      ({ State.reset with
          pmt := { State.reset.pmt with timer := some 0 }, rne := { State.reset.rne with clock := 0 } } : State).due =
        [.stepClockExpiry, .permitExpiry] := by decide

/-- An input before and at the sample of its first value, at its value, and differing before and at its count. -/
theorem test_hyp_StepOnEmptyQueue_sample :
    (DicInput.mk .key true none 0).filtered = none ∧ (15 < 16 ∧ 16 ≤ 16) ∧
      (DicInput.mk .key true (some true) 3).level = true ∧ (DicInput.mk .key true (some false) 3).level ≠ false ∧
      ((DicInput.mk .key true (some false) 14).run + 1 < 16 ∧ 16 ≤ (DicInput.mk .key true (some false) 15).run + 1) := by
  decide

/-- DIC with one input at a value. -/
def dicWith (i : Input) (v : Option Bool) : Dic :=
  { dicAtReset [] defaultCounts with inputs := [⟨i, false, v, 0⟩] }

/-- A first value and an edge of a pin, a switch and each single input; and no delivery without a change. -/
theorem test_hyp_StepOnEmptyQueue_deliveries :
    deliveries (dicWith (.pinEngaged .rlk 4) none) (dicWith (.pinEngaged .rlk 4) (some true)) =
        [.pinSensorFirstValue .rlk 4 (some true) none] ∧
      deliveries (dicWith (.endOpen .inr) (some true)) (dicWith (.endOpen .inr) (some false)) =
        [.endSwitchEdge .inr none (some false)] ∧
      deliveries (dicWith (.pressure .u2) none) (dicWith (.pressure .u2) (some true)) =
        [.unitInputFirstValue .u2 .pressureOk true] ∧
      deliveries (dicWith (.motorTrip .u1) (some true)) (dicWith (.motorTrip .u1) (some false)) =
        [.motorTripEdge .u1 false] ∧
      deliveries (dicWith (.loop .deck) (some true)) (dicWith (.loop .deck) (some false)) = [.loopEdge .deck false] ∧
      deliveries (dicWith .key none) (dicWith .key (some true)) = [.keyFirstValue true] ∧
      deliveries (dicWith .key (some true)) (dicWith .key (some true)) = [] := by decide

/-- A step is taken from a state without messages. -/
theorem test_hyp_MessagesEndWithTheStep :
    ({ held with pending := [.permitExpiry] } : State).agendaEmpty ∧
      ∃ t, step { held with pending := [.permitExpiry] } = .next t := ⟨rfl, _, rfl⟩

/-- A cylinder that closes is apart. -/
theorem test_hyp_ValvesApartKept :
    ({ State.reset with vod := { State.reset.vod with rmp := ⟨⟨0, 0, true⟩, ⟨5000, 5000, true⟩, zeroDrive, zeroDrive⟩ },
                        pending := [.pwmPeriodStart] } : State).valvesApart ∧
      ∃ t, step { State.reset with
        vod := { State.reset.vod with rmp := ⟨⟨0, 0, true⟩, ⟨5000, 5000, true⟩, zeroDrive, zeroDrive⟩ },
        pending := [.pwmPeriodStart] } = .next t := by
  refine ⟨fun a => ?_, _, rfl⟩
  cases a <;> simp [State.drives, Drives.apart, cylinderOk, State.reset, vodAtReset, zeroDrives, zeroDrive]

/-- A latched trip holds the outputs off. -/
theorem test_hyp_TripHoldsOffKept :
    ({ tripped with pending := [.permitExpiry] } : State).tripHoldsOff ∧ tripped.tru.record.isSome = true ∧
      ∃ t, step { tripped with pending := [.permitExpiry] } = .next t := by
  refine ⟨⟨rfl, fun _ a => ?_⟩, rfl, _, rfl⟩
  cases a <;> rfl

/-- A holder, an elect and a yielded flag are in order. -/
theorem test_hyp_AuthorityKept :
    ({ elected with cau := { elected.cau with yielded := true }, pending := [.permitExpiry] } : State).cau.ok ∧
      ∃ t, step { elected with cau := { elected.cau with yielded := true }, pending := [.permitExpiry] } = .next t := by
  refine ⟨⟨?_, ?_, ?_⟩, _, rfl⟩ <;> simp [elected, held, State.reset, cauAtReset]

/-- A FAILED unit and two wants are in order. -/
theorem supplyOk_failedUnit : failedUnit.supplyOk := by
  refine ⟨?_, ?_, ?_⟩ <;>
    simp [failedUnit, State.reset, hsaAtReset, unitAtReset, PumpUnit.ok, Want.rank, Consumer.order, axisClass, groupIndex]

theorem test_hyp_SupplyKept : ({ failedUnit with pending := [.permitExpiry] } : State).supplyOk ∧
    ∃ t, step { failedUnit with pending := [.permitExpiry] } = .next t := ⟨supplyOk_failedUnit, _, rfl⟩

/-- Two watched entries in member order. -/
theorem test_hyp_WatchedListKept :
    watchOk [watched (.axis .rmp), watched (.lock .icl)] ∧
      ∃ t, step { State.reset.setWatch [watched (.axis .rmp), watched (.lock .icl)] with pending := [.permitExpiry] } =
        .next t := by
  refine ⟨?_, _, rfl⟩
  simp [watchOk, watched, memberIndex]

/-- Two pending subjects that the mask lets through. -/
theorem test_hyp_ReportSetsKept :
    ({ State.reset with
        deck := { linkAtReset 0x03FF with reports := [.trip, .run] }, pending := [.permitExpiry] } : State).reportsOk ∧
      ∃ t, step { State.reset with
        deck := { linkAtReset 0x03FF with reports := [.trip, .run] }, pending := [.permitExpiry] } = .next t := by
  refine ⟨⟨⟨?_, ?_⟩, ?_, ?_⟩, _, rfl⟩ <;> simp [State.reset, linkAtReset, Link.unmasked, subjectCode]

/-- A plain command, an ACKNOWLEDGE and a RESTART that give a next state. -/
theorem test_hyp_StoredItemsKept :
    (plainCommand (.claim .deck 0 []) = true ∧ (Instr.claim .deck 0 []).wellFormed = true ∧
      ∃ t, exec (.claim .deck 0 []) .reset = .next t) ∧
      (∃ t, exec (.acknowledge .deck 0 []) .reset = .next t) ∧ ∃ t, exec (.restart .bridge 0 []) .reset = .next t :=
  ⟨⟨rfl, rfl, _, rfl⟩, ⟨_, rfl⟩, _, rfl⟩

/-- A latched record, and a FAILED unit, at a plain command. -/
theorem test_hyp_RecordsKept :
    (plainCommand .permitExpiry = true ∧ Instr.permitExpiry.wellFormed = true ∧
      (∃ t, exec .permitExpiry tripped = .next t) ∧ ∃ r, tripped.tru.record = some r) ∧
      (failedUnit.supplyOk ∧ (failedUnit.unit .u1).state = .failed ∧ ∃ t, exec .permitExpiry failedUnit = .next t) :=
  ⟨⟨rfl, rfl, ⟨_, rfl⟩, _, rfl⟩, supplyOk_failedUnit, rfl, _, rfl⟩

/-- A full queue; a KIND 12h, the first above the requests; a SHIP of three bytes. -/
theorem test_hyp_RequestGateAnswersItself :
    (requestOf (.pause .deck 1 []) = some (.deck, 0x04, 1, []) ∧
      4 ≤ ((frameDone .deck { State.reset with
        deck := { linkAtReset 0 with replies := List.replicate 4 ⟨0, 0, []⟩ } }).link .deck).replies.length) ∧
      (requestOf (.unknownKind .deck 0x12 1 []) = some (.deck, 0x12, 1, []) ∧ lengthOf 0x12 = none ∧
        ((frameDone .deck State.reset).link .deck).replies.length < 4) ∧
      (requestOf (.ship .bridge 1 [1, 2, 3]) = some (.bridge, 0x0A, 1, [1, 2, 3]) ∧ lengthOf 0x0A = some 2) := by
  decide

/-- The first and last items of each type. -/
theorem test_hyp_ReadAnswersItems :
    ready .reset .deck = true ∧ subjectOfCode 0 = some (.member (.axis .vis)) ∧ subjectOfCode 9 = some .trip ∧
      paramOfId 0x01 = some .speedLimit ∧ paramOfId 0x75 = some (.filter .key) ∧ axisOfCode 0 = some .vis ∧
      axisOfCode 2 = some .inr ∧ ((frameDone .deck State.reset).axis .inr).windows[6 - 1]? = some invalidWindow ∧
      ((frameDone .deck State.reset).axis .vis).windows[1 - 1]? = some ⟨true, 0, 1500, .both, 150, 10, true, 30⟩ ∧
      planOfCode 0 = some .p0 ∧ planOfCode 4 = some .j ∧ readsStep .p3 1 = true ∧ readsStep .p3 12 = true ∧
      readsStep .j 1 = true := by decide

/-- The operands next to those that are taken, and a station that is not the holder. -/
theorem test_hyp_RequestRefusedUnchanged :
    ready held .deck = true ∧ requestOf (.readMask .deck 1 [5, 0, 1]) = some (.deck, 0x0F, 1, [5, 0, 1]) ∧
      requestOf (.setSupplyParameter .deck 1 [0x60, 1, 0]) = some (.deck, 0x0B, 1, [0x60, 1, 0]) ∧
      5 < (6 : Byte).toNat ∧ 9 < (10 : Byte).toNat ∧ (1 : Byte) ≠ 0 ∧ paramOfId 0x04 = none ∧ paramOfId 0x76 = none ∧
      2 < (3 : Byte).toNat ∧ 4 < (5 : Byte).toNat ∧ 12 < (13 : Byte).toNat ∧ paramOfId 0x60 = some .startLimit ∧
      held.cau.holder ≠ some .deck ∧ 6 < (7 : Byte).toNat ∧
      (∀ ax, axisOfCode (2 : Byte).toNat = some ax → ((frameDone .deck held).axis ax).windows.length = 6) := by
  refine ⟨by decide, by decide, by decide, by decide, by decide, by decide, by decide, by decide, by decide,
    by decide, by decide, by decide, by decide, by decide, fun ax h => ?_⟩
  cases ax <;> decide

/-- The holder's request at a state that is ready; values at and beyond the ends of the ranges. -/
theorem test_hyp_SetStoresGlobalAndSupply :
    ready held .bridge = true ∧ held.cau.holder = some .bridge ∧ wordVal 0 0 = 0 ∧ wordVal 0x59 0x02 = 601 ∧
      max 1 (min 10 0) = 1 ∧ max 0 (min 600 601) = 600 := by decide

/-- The steps of the filter counts. -/
theorem test_hyp_SetRoundsFilterCounts :
    ready held .bridge = true ∧ held.cau.holder = some .bridge ∧ paramOfId 0x70 = some (.filter .pin) ∧
      wordVal 2 0 = 2 ∧ wordVal 3 0 = 3 ∧ wordVal 4 0 = 4 ∧ wordVal 5 0 = 5 ∧ wordVal 8 0 = 8 ∧ wordVal 9 0 = 9 := by
  decide

/-- BRIDGE is the holder and INR stands in a phase. -/
def inrIn (ph : AxisPhase) : State := held.setAxis .inr { held.inr with phase := ph }

/-- An axis in a step, at rest in IDLE, and in HALTED; BREAKAWAY at its last code and past it. -/
theorem test_hyp_SetStoresAxisParameters :
    ready (inrIn .paused) .bridge = true ∧ (inrIn .paused).cau.holder = some .bridge ∧
      ((inrIn .paused).axis .inr).phase ≠ .idle ∧ ((inrIn .paused).axis .inr).phase ≠ .halted ∧
      ready (inrIn .halted) .bridge = true ∧ ((inrIn .halted).axis .inr).phase = .halted ∧
      ((inrIn .idle).axis .inr).phase = .idle ∧ paramOfId 0x3D = some (.axis .inr 13) ∧ wordVal 2 0 = 2 ∧
      wordVal 1 0 = 1 ∧ paramOfId 0x30 = some (.axis .inr 0) ∧ axisParamRange 0 = (1000, 40000) := by decide

/-- BRIDGE is the holder and RLK has an operation in hand. -/
def rlkBusy : State := held.setLock .rlk { held.rlk with op := some ⟨.driving, true, 1, false⟩ }

/-- A group with and without an operation; the interval and another parameter. -/
theorem test_hyp_SetStoresLockParameters :
    ready rlkBusy .bridge = true ∧ rlkBusy.cau.holder = some .bridge ∧ (rlkBusy.lock .rlk).op ≠ none ∧
      (held.lock .rlk).op = none ∧ ready held .bridge = true ∧ held.cau.holder = some .bridge ∧
      paramOfId 0x4B = some (.lock .rlk 3) ∧ paramOfId 0x4C = some (.lock .rlk 4) ∧
      paramOfId 0x48 = some (.lock .rlk 0) := by decide

/-- PERMIT_ACTION at its last code and past it, LINK_TIMEOUT at the ends of its range. -/
theorem test_hyp_SetStoresPermitParameters :
    ready held .bridge = true ∧ held.cau.holder = some .bridge ∧ wordVal 1 0 ≤ 1 ∧ 1 < wordVal 2 0 ∧
      max 1 (min 30 (wordVal 0 0)) = 1 ∧ max 1 (min 30 (wordVal 31 0)) = 30 ∧
      max 200 (min 2000 (wordVal 0 0)) = 200 := by decide

/-- A window of equal ends, a window that stands, W0; window numbers 6 and 7, axis codes 2 and 3. -/
theorem test_hyp_SetwinStoresWindows :
    ready held .bridge = true ∧ ready held .deck = true ∧ held.cau.holder = some .bridge ∧ held.cau.holder ≠ some .deck ∧
      2 < (3 : Byte).toNat ∧ axisOfCode 2 = some .inr ∧ ready (inrIn .moving) .bridge = true ∧
      ((inrIn .moving).axis .inr).phase ≠ .idle ∧ ((inrIn .moving).axis .inr).phase ≠ .halted ∧
      (held.axis .inr).phase = .idle ∧ ((inrIn .halted).axis .inr).phase = .halted ∧ 6 < (7 : Byte).toNat ∧
      windowOf [1, 10, 0, 11, 0, 2, 100, 0, 5, 0, 3] = some ⟨true, 10, 11, .both, 100, 5, false, 3⟩ ∧
      windowOf [1, 10, 0, 10, 0, 2, 100, 0, 5, 0, 3] = some ⟨true, 10, 10, .both, 100, 5, false, 3⟩ ∧
      profileOf [0, 0, 0, 0, 0, 0, 100, 0, 5, 0, 0] = some ⟨100, 5⟩ := by decide

/-- BRIDGE is the holder and the engine stands in a state. -/
def engineIn (e : Engine) : State := { held with rne := { held.rne with engine := e } }

/-- The eight bytes of a step of RMP to 100, within 5 s. -/
def rmpStep : List Byte := [1, 0, 100, 0, 50, 0, 0xFF, 0]

/-- The flags 0 to 4, the lengths and step numbers 0, 12 and 13, plan codes 3 and 4, a record and none. -/
theorem test_hyp_SetstepStoresSteps :
    rmpStep.length = 8 ∧ ready held .bridge = true ∧ ready held .deck = true ∧ held.cau.holder ≠ some .deck ∧
      held.cau.holder = some .bridge ∧ (engineIn .aborting).rne.engine ≠ .idle ∧
      (engineIn .aborting).rne.engine ≠ .tripped ∧ (engineIn .tripped).rne.engine = .tripped ∧
      held.rne.engine = .idle ∧ 3 < (4 : Byte).toNat ∧ (2 : Byte).getLsbD 1 = true ∧ 12 < (13 : Byte).toNat ∧
      (1 : Byte).getLsbD 0 = true ∧ (frameDone .bridge held).stepOf [1, 1, 100, 0, 50, 0, 0xFF, 0] = none ∧
      (frameDone .bridge held).stepOf [1, 0, 100, 0, 50, 0, 0xFF, 2] = none ∧
      storedPlanOfCode 3 = some .p3 ∧
      (frameDone .bridge held).stepOf rmpStep = some (⟨.axis .rmp, .moveTo, some 100, 50, none, false⟩, false) := by
  decide

/-- The masks 03FFh and 0400h. -/
theorem test_hyp_SetmaskStoresTheMask :
    ready .reset .deck = true ∧ (BitVec.ofNat 16 ((0xFF : Byte).toNat + 256 * (3 : Byte).toNat)).toNat ≤ 0x03FF ∧
      0x03FF < (BitVec.ofNat 16 ((0 : Byte).toNat + 256 * (4 : Byte).toNat)).toNat := by decide

/-- SHIP at both links. -/
theorem test_hyp_ShipStoresTheSpeed : ready .reset .bridge = true ∧ ready .reset .deck = true ∧ wordVal 0x90 0x01 = 400 := by
  decide

/-- DECK is elect and the higher, and a group is busy. -/
def electBusy : State := { elected with cau := { elected.cau with key := .isLocal, busyVlk := true } }

/-- A holder, no holder, and another holder, with a handover that is due and made and one that is not. -/
theorem test_hyp_ClaimByRole :
    held.cau.ok ∧ State.reset.cau.ok ∧ elected.cau.ok ∧ ready held .bridge = true ∧ ready .reset .deck = true ∧
      held.cau.holder = some .bridge ∧ State.reset.cau.holder = none ∧ Station.bridge ≠ .deck ∧
      ({ electBusy.cau with busyVlk := false } : Cau).due = true ∧
      ({ electBusy.cau with busyVlk := false } : Cau).busyEmpty = true ∧ elected.cau.due = false := by
  refine ⟨⟨?_, ?_, ?_⟩, ⟨?_, ?_, ?_⟩, ⟨?_, ?_, ?_⟩, ?_⟩ <;>
    decide

/-- The roles from which a YIELD comes, with the busy set empty and not. -/
theorem test_hyp_YieldByRole :
    ready elected .bridge = true ∧ ready elected .deck = true ∧ elected.cau.ok ∧ held.cau.elect = none ∧
      elected.cau.holder = some .bridge ∧ elected.cau.elect = some .deck ∧ elected.cau.yielded = false ∧
      elected.cau.busyEmpty = true ∧ electBusy.cau.busyEmpty = false ∧
      ({ elected.cau with yielded := true } : Cau).ok ∧ held.cau.holder ≠ some .deck ∧ held.cau.elect ≠ some .deck := by
  refine ⟨by decide, by decide +kernel, ⟨?_, ?_, ?_⟩, by decide, by decide, by decide, by decide, by decide,
    by decide, ⟨?_, ?_, ?_⟩, by decide, by decide⟩ <;> simp [elected, held, State.reset, cauAtReset]

/-- Plan P2 is empty, P0 fits, and a plan of three lock steps for one group in one group of steps does not. -/
theorem test_hyp_StartByItsTests :
    ready held .bridge = true ∧ held.cau.holder = some .bridge ∧ held.cau.holder ≠ some .deck ∧
      (engineIn .paused).rne.engine ≠ .idle ∧ held.rne.engine = .idle ∧ 3 < (4 : Byte).toNat ∧
      storedPlanOfCode 2 = some .p2 ∧ (held.rne.plan .p2).len = 0 ∧ storedPlanOfCode 0 = some .p0 ∧
      (held.rne.plan .p0).len ≠ 0 ∧ (held.rne.plan .p0).groupsFit = true ∧
      (planOf [⟨.axis .vis, .moveTo, some 0, 1, none, true⟩, clearedStep]).groupsFit = false := by decide

/-- The first step of P0 is not satisfied after a reset. -/
theorem test_hyp_StartWaitsForGuardOrPermit :
    held.rne.inflight = [] ∧ held.pmt.live = false ∧ (∀ g, (held.lock g).op = none ∧ (held.lock g).top.status = .none) ∧
      ∃ n ∈ (held.rne.plan .p0).group 1, held.satisfied ((held.rne.plan .p0).step n) = false := by
  refine ⟨rfl, rfl, fun g => ?_, 1, by decide, by decide⟩
  cases g <;> exact ⟨rfl, rfl⟩

/-- The engine states of PAUSE and CONTINUE, with the lapse reason and without. -/
theorem test_hyp_PauseAndContinueSetReasons :
    ready (engineIn .running) .bridge = true ∧ (engineIn .running).rne.engine = .running ∧
      (engineIn .running).rne.axisMsgs .axisStop = [] ∧ (engineIn .paused).rne.engine = .paused ∧
      (engineIn .paused).rne.lapse = false ∧ held.rne.engine ≠ .running ∧ held.rne.engine ≠ .paused ∧
      ready held .deck = true ∧ held.cau.holder ≠ some .deck ∧ (engineIn .paused).cau.holder = some .bridge ∧
      ready (engineIn .paused) .bridge = true ∧
      ({ (engineIn .paused) with rne := { (engineIn .paused).rne with lapse := true } } : State).rne.lapse = true := by
  decide

/-- The engine states of ABORT, with a step that waits. -/
theorem test_hyp_AbortEndsTheRun :
    ready (engineIn .running) .deck = true ∧ (engineIn .running).rne.engine = .running ∧
      (engineIn .aborting).rne.engine = .aborting ∧ held.rne.engine = .idle ∧ (engineIn .tripped).rne.engine = .tripped ∧
      ∀ e ∈ ({ (engineIn .running).rne with inflight := [⟨1, .axis .vis, .waitGuard, 10, none, none⟩] } : Rne).inflight,
        e.phase ≠ .delegated := by decide

/-- DECK holds with the key at LOCAL and VIS has a coordinate of 0. -/
def visAtZero : State := deckLocal.setAxis .vis { deckLocal.vis with pos := some ⟨0, 0⟩, member := .closed }

/-- The tests of JOG one by one, a jog that is satisfied and one whose guard is false. -/
theorem test_hyp_JogByItsTests :
    ready held .bridge = true ∧ ready deckLocal .deck = true ∧ held.cau.holder ≠ some .deck ∧
      held.cau.holder = some .bridge ∧ deckLocal.cau.holder = some .deck ∧ deckLocal.rne.engine = .idle ∧
      deckLocal.cau.key = .isLocal ∧ (engineIn .running).rne.engine ≠ .idle ∧ held.cau.key ≠ .isLocal ∧
      (frameDone .deck deckLocal).jogStep 6 1 = .error .badValue ∧
      (frameDone .deck visAtZero).jogStep 0 (-1) = .ok (⟨.axis .vis, .moveTo, some 0, 300, none, false⟩, true) ∧
      visAtZero.pmt.live = true ∧ held.pmt.live = false ∧
      (frameDone .deck visAtZero).jogGuard ⟨.axis .vis, .moveTo, some 0, 300, none, false⟩ (-1) =
        some .vlkNotWithdrawn ∧
      (frameDone .deck (visAtZero.setAxis .vis { visAtZero.vis with windows := [] })).satisfied
        ⟨.axis .vis, .moveTo, some 0, 300, none, false⟩ = true ∧
      (frameDone .deck visAtZero).satisfied ⟨.axis .vis, .moveTo, some 0, 300, none, false⟩ = false := by decide

/-- A jog of VIS at its coordinate, of an axis without one, of a group, and of no member. -/
theorem test_hyp_JogBuildsItsStep :
    axisOfCode (0 : Byte).toNat = some .vis ∧ (visAtZero.axis .vis).x? = some 0 ∧ (visAtZero.axis .rmp).x? = none ∧
      groupOfCode (5 : Byte).toNat = some .icl ∧ 5 < (6 : Byte).toNat := by decide

/-- A jog within its limits, one past each limit of the distance, and one past each end of the stroke (R52). -/
theorem test_jog_targets :
    (visAtZero.vis.jogTarget 5000 2000, visAtZero.vis.jogTarget 5000 2001, visAtZero.vis.jogTarget 5000 (-2001),
      visAtZero.vis.jogTarget 500 (-501), visAtZero.vis.jogTarget 27900 101) =
      ((7000, false), (7000, true), (3000, true), (0, true), (28000, true)) := by decide

/-- VLK stands ENGAGED, with a top-up in hand or none. -/
def vlkEngaged (top : TopUp) : State := held.setLock .vlk { held.vlk with gstate := .engaged, top := top }

theorem test_hyp_TopupStartsOrJoins :
    ready (vlkEngaged noTopUp) .bridge = true ∧ (vlkEngaged noTopUp).cau.holder = some .bridge ∧
      held.cau.holder ≠ some .deck ∧ groupOfCode (2 : Byte).toNat = none ∧ groupOfCode (3 : Byte).toNat = some .vlk ∧
      (held.lock .vlk).gstate ≠ .engaged ∧ ((vlkEngaged noTopUp).lock .vlk).gstate = .engaged ∧
      (vlkEngaged noTopUp).tru.record = none ∧ (vlkEngaged noTopUp).rne.stepFor (.lock .vlk) = false ∧
      ((vlkEngaged noTopUp).lock .vlk).top.status = .none ∧
      ((vlkEngaged ⟨.active, true, false, false, false⟩).lock .vlk).top.status ≠ .none := by decide

/-- PERMIT from the holder and from another station. -/
theorem test_hyp_PermitRenewsForHolder :
    held.agenda = [] ∧ held.cau.holder = some .bridge ∧ held.cau.holder ≠ some .deck ∧ held.rne.engine ≠ .running ∧
      held.rne.engine ≠ .paused ∧ held.pmt.live = false ∧
      ({ held with pmt := { held.pmt with live := true, timer := some 1 } } : State).pmt.live = true := by decide

/-- In ABORTING a step that waits for the permit loses that wait reason with the PERMIT that makes it live (R34). -/
theorem test_permit_in_aborting : after (exec (.permit .bridge 0 [])
    { engineIn .aborting with
      rne := { (engineIn .aborting).rne with
        inflight := [⟨1, .lock .vlk, .waitGuard, 150, none, some .noPermit⟩], blocked := some (1, .noPermit) }
      ilk := { held.ilk with watch := [⟨.lock .vlk, .withdraw, none, .planStep, .waiting, none⟩] } }) (fun t =>
    t.rne.blocked.isNone && t.rne.inflight.all (·.wait.isNone)) = true := by decide

/-- ACKNOWLEDGE without a trip, with a FAILED unit whose input is inactive and one whose input is active. -/
theorem test_hyp_AcknowledgeRecoversUnits :
    ready failedUnit .deck = true ∧ failedUnit.cau.holder = none ∧ held.cau.holder = some .bridge ∧
      failedUnit.tru.record = none ∧ held.hsa.wants = [] ∧
      ({ unitAtReset with state := .failed, motorTrip := some false } : PumpUnit).motorTrip ≠ some true ∧
      (failedUnit.unit .u1).motorTrip = some true := by decide

/-- ACKNOWLEDGE of a trip, with its causes gone and with one still present. -/
theorem test_hyp_AcknowledgeClearsTrip :
    ready tripped .deck = true ∧ tripped.cau.holder = none ∧ tripped.tru.record ≠ none ∧
      (frameDone .deck tripped).stillPresent ≠ [] ∧
      (frameDone .deck ({ tripped with tru := { tripped.tru with causes := [] } } : State)).stillPresent = [] ∧
      ready held .deck = true ∧ held.cau.holder = some .bridge ∧ Station.bridge ≠ .deck := by decide

/-- The roles and engine states of RESTART. -/
theorem test_hyp_RestartResetsBlocks :
    ready held .bridge = true ∧ ready held .deck = true ∧ ready .reset .deck = true ∧ held.cau.holder ≠ some .deck ∧
      held.cau.holder ≠ none ∧ State.reset.cau.holder = none ∧ held.cau.holder = some .bridge ∧
      (engineIn .paused).rne.engine ≠ .idle ∧ (engineIn .paused).rne.engine ≠ .tripped ∧ held.rne.engine = .idle ∧
      (engineIn .tripped).rne.engine = .tripped := by decide

/-- A watched action whose guard is false, at a stage. -/
def guardFalse (m : Member) (src : WatchSource) (st : Stage) : WatchEntry :=
  ⟨m, .moveTo, some 30000, src, st, some .speedHigh⟩

/-- The entries, stages and sources of the take-backs, and the entry of a jog in the set. -/
theorem test_hyp_GuardsActByStage :
    (guardFalse (.lock .icl) .topUp .preparing).member = .lock .icl ∧
      (guardFalse (.axis .vis) .planStep .driving).stage ≠ .waiting ∧
      (held.setAxis .vis { held.vis with step := some to27800 }).vis.step = some to27800 ∧
      (guardFalse (.axis .vis) .planStep .waiting).stage = .waiting ∧ (held.axis .vis).x? = none ∧
      (visAtZero.axis .vis).x? = some 0 ∧ (guardFalse (.axis .vis) .planStep .waiting).target = some 30000 ∧
      (guardFalse (.axis .vis) .planStep .waiting).result = some .speedHigh ∧ (watched (.axis .vis)).result = none ∧
      (guardFalse (.axis .vis) .planStep .driving).source ≠ .topUp ∧
      ({ held.rne with inflight := [⟨1, .axis .vis, .delegated, 300, none, none⟩] } : Rne).entry? (.axis .vis) =
        some ⟨1, .axis .vis, .delegated, 300, none, none⟩ := by decide

/-- INR opens, with its lock WITHDRAWN, as the last SHIP is about to go stale. -/
def inrOpening : State :=
  { (held.setAxis .inr { held.inr with
      phase := .moving, member := .opening, step := some ⟨1, false, .opening, 9000, .position⟩ }).setLock .icl
      { held.icl with gstate := .withdrawn } with
    ilk := { held.ilk with
      known := true, expiry := some 0, watch := [⟨.axis .inr, .moveTo, some 9000, .planStep, .driving, none⟩] } }

/-- A state once the speed has gone stale. -/
def staled (s : State) : State := { s with ilk := { s.ilk with known := false, stale := true, expiry := none } }

/-- The hypotheses of the interlock trip: before the expiry the guard is TRUE, after it the speed is unknown, for the
first entry of the list and for one behind another. -/
theorem test_hyp_GuardsActByStage_trip :
    inrOpening.agenda = [] ∧ inrOpening.tru.record = none ∧ inrOpening.ilk.expiry ≠ none ∧
      inrOpening.axisGuard .inr .opening = none ∧
      (staled inrOpening).ilk.watch.map (fun e => { e with result := (staled inrOpening).guardOf e }) =
        [] ++ ⟨.axis .inr, .moveTo, some 9000, .planStep, .driving, some .speedUnknown⟩ :: [] ∧
      (∀ x ∈ [watched (.axis .vis), guardFalse (.axis .vis) .planStep .preparing],
        x.stage = .driving → x.source ≠ .topUp → x.result = none) ∧
      (staled inrOpening).axisGuard .inr .opening = some .speedUnknown := by decide

/-- VIS waits for its first step, with a guard that ILK last found TRUE; the permit is live, no coordinate is known. -/
def visWaiting (e : Engine) : State :=
  { engineIn e with
    pmt := { held.pmt with live := true, timer := some 500 }
    rne := { held.rne with
      engine := e, planId := some .p0, inflight := [⟨1, .axis .vis, .waitGuard, 300, none, none⟩] }
    ilk := { held.ilk with watch := [watched (.axis .vis)] } }

/-- RLK waits for its ENGAGE, RMP for its first sample; the hand-over test has RLK's guard as TRUE. -/
def rlkWaiting : State :=
  { visWaiting .running with
    rne := { (visWaiting .running).rne with inflight := [⟨1, .lock .rlk, .waitGuard, 100, none, none⟩] }
    ilk := { held.ilk with watch := [⟨.lock .rlk, .withdraw, none, .planStep, .waiting, none⟩] } }

/-- The forms of the hand-over test: not RUNNING, none eligible, one eligible; a top-up whose guard is TRUE. -/
theorem test_hyp_GuardsActByStage_handOver :
    (visWaiting .paused).rne.engine ≠ .running ∧ (visWaiting .running).rne.engine = .running ∧
      (visWaiting .running).rne.inflight.find? (refreshAxes (visWaiting .running)).eligible = none ∧
      rlkWaiting.rne.inflight.find? (refreshAxes rlkWaiting).eligible =
        some ⟨1, .lock .rlk, .waitGuard, 100, none, none⟩ ∧
      (∃ e ∈ (refreshAxes (visWaiting .paused)).ilk.watch, e.member = .axis .vis) ∧
      (watched (.lock .rlk)).result = none ∧ (watched (.lock .rlk)).stage = .waiting ∧
      (guardFalse (.lock .icl) .topUp .driving).stage ≠ .waiting ∧ (watched (.lock .rlk)).source ≠ .topUp ∧
      ({ held.rlk with top := { noTopUp with status := .pendingGuard } } : LockState).top.status = .pendingGuard := by
  decide

/-- In PAUSED nothing is handed over, but the hand-over test evaluates the waiting axis guard afresh (R35, R43). -/
theorem test_hand_over_test_paused :
    (handTest (visWaiting .paused)).rne.inflight = (visWaiting .paused).rne.inflight ∧
      (handTest (visWaiting .paused)).ilk.watch.map (·.result) = [some .vlkNotWithdrawn] := by decide

/-- The signal of a first sample brings the hand-over test also where that axis has no waiting step (R33, R35). -/
theorem test_first_sample_hands_over :
    (firstSample .rmp rlkWaiting).agenda = [.handTest] ∧
      (handTest rlkWaiting).rne.inflight.map (·.phase) = [.delegated] := by decide

/-- VLK in HOLDING with the only unit that works, and ICL waiting for it; both withdrawals need a known speed. -/
def twoWithdrawals : State :=
  { (engineIn .running).setLock .vlk { held.vlk with op := some ⟨.holding, false, 1, false⟩ } with
    icl := { held.icl with op := some ⟨.waitSupply, false, 2, false⟩ }
    rne := { (engineIn .running).rne with
      planId := some .p0, inflight := [⟨2, .lock .icl, .delegated, 100, none, none⟩] }
    ilk := { held.ilk with
      known := true, expiry := some 0
      watch := [⟨.lock .vlk, .withdraw, none, .planStep, .holding, none⟩,
        ⟨.lock .icl, .withdraw, none, .planStep, .preparing, none⟩] }
    hsa := { held.hsa with
      u1 := { unitAtReset with
        state := .running, holder := some (.lockOp .vlk), pressOk := some true, motorTrip := some false }
      u2 := { unitAtReset with state := .failed, failure := some .startFail }
      wants := [⟨.lockOp .icl, .operation, 2⟩] } }

/-- Two guards lost at once: the waiting operation goes back to waiting, and no trip comes of the unit that the other
one gives up (R18, log 33). -/
theorem test_guards_lost_together : after (exec .speedStaleExpiry twoWithdrawals) (fun t =>
    t.tru.record.isNone && t.icl.op.isNone && t.vlk.op.isNone && t.hsa.wants.isEmpty && t.hsa.u1.holder.isNone &&
      t.rne.inflight.all (fun e => e.phase == .waitGuard && e.wait == some .inrNotClosed)) = true := by decide

/-- INR opens and ICL waits for supply as the speed goes stale: INR's loss reaches TRU before ICL is given back, and what
the two send comes after (R1, R18, R19). -/
theorem test_results_in_member_order : after (exec .speedStaleExpiry
    { twoWithdrawals with
      inr := inrOpening.inr
      bridge := { State.reset.bridge with tx := some ⟨⟨0, 0, []⟩, 1⟩, reports := [.run] }
      ilk := { twoWithdrawals.ilk with
        watch := [⟨.axis .inr, .moveTo, some 9000, .planStep, .driving, none⟩,
          ⟨.lock .icl, .withdraw, none, .planStep, .preparing, none⟩] } }) (fun t =>
    t.bridge.reports.take 3 == [.run, .trip, .member (.lock .icl)] && t.icl.op.isNone &&
      (t.tru.record.map fun r => (r.cause, r.member)) == some (.interlock, some (.axis .inr))) = true := by decide

/-- VIS CLOSED with VLK ENGAGED, at links that are sending. -/
def visSecured : State :=
  { State.reset with
    vis := { State.reset.vis with member := .closed }
    vlk := { State.reset.vlk with
      gstate := .engaged, pins := List.replicate 6 ⟨some true, some false, .engaged, none, false, none⟩ }
    bridge := { State.reset.bridge with tx := some ⟨⟨0, 0, []⟩, 1⟩ } }

/-- One event that changes VLK and with it the secured flag marks the two MEMBER subjects in member order (R1, R8). -/
theorem test_marks_in_member_order : after (exec (.pinSensorEdge .vlk 1 (some false) none) visSecured) (fun t =>
    t.bridge.reports.take 2 == [.member (.axis .vis), .member (.lock .vlk)]) = true := by decide

/-- The assembler in HUNTING, after SYNC, inside a frame, and at its last byte with a good and a bad CRC. -/
theorem test_hyp_ReceivedByteAssembles :
    (State.reset.link .deck).asm = none ∧ (0xC3 : Byte).toNat = 195 ∧ (1 : Byte).toNat < 2 ∧ 64 < (65 : Byte).toNat ∧
      2 ≤ (2 : Byte).toNat ∧ (64 : Byte).toNat ≤ 64 ∧ ([0x01, 0x05, 0x00] : List Byte).length + 2 = (2 : Byte).toNat + 3 ∧
      ([0x01, 0x05] : List Byte).length + 2 < (2 : Byte).toNat + 3 ∧
      frameOf ((Frame.mk 0x01 0x05 []).body ++ [0, 0]) = none ∧
      frameOf ((Frame.mk 0x01 0x05 []).bytes.drop 1) = some (0x01, 0x05, []) := by decide +kernel

/-- The longest and the shortest payload of a frame that is sent. -/
theorem test_hyp_SentFramesAreWellFormed :
    (Frame.mk 0x40 0 (List.replicate 62 0)).payload.length ≤ 62 ∧ (Frame.mk 0x40 0 []).payload.length ≤ 62 := by decide

/-- A link that sends, with replies, with reports, and with neither; a gap timer that runs. -/
theorem test_hyp_LinkTimersExpire :
    (State.reset.link .deck).gap = none ∧ (State.reset.link .deck).tx = none ∧
      ({ linkAtReset 0 with asm := some [], gap := some 11 } : Link).gap ≠ none ∧
      ({ linkAtReset 0 with tx := some ⟨⟨0, 0, []⟩, 1⟩ } : Link).tx ≠ none ∧ (linkAtReset 0).replies = [] ∧
      (linkAtReset 0).reports = [] ∧
      ({ linkAtReset 0x03FF with tx := some ⟨⟨0, 0, []⟩, 1⟩, reports := [.run] } : Link).reports = [.run] := by decide

/-- The first and the last subject, with the mask bit set and clear. -/
theorem test_hyp_MarkingShowsSubject :
    (linkAtReset 0x0200).unmasked .trip = true ∧ (linkAtReset 0x01FF).unmasked .trip = false ∧
      (linkAtReset 0x0001).unmasked (.member (.axis .vis)) = true ∧
      .run ∈ ({ linkAtReset 0x03FF with reports := [.run] } : Link).reports := by decide

/-- The roles at the loss of a link, alive and lost. -/
theorem test_hyp_LinkLossEndsRole :
    held.cau.ok ∧ elected.cau.ok ∧ held.agenda = [] ∧ elected.agenda = [] ∧ held.cau.alive .bridge = true ∧
      held.cau.holder = some .bridge ∧ held.cau.elect = none ∧ elected.cau.elect = some .deck ∧
      elected.cau.alive .deck = true ∧ elected.cau.busyEmpty = true ∧ elected.cau.yielded = false ∧
      (held.cau.setAlive .deck false).alive .deck = false := by
  refine ⟨⟨?_, ?_, ?_⟩, ⟨?_, ?_, ?_⟩, by decide, by decide, by decide, by decide, by decide, by decide, by decide,
    by decide, by decide, by decide⟩ <;> simp [elected, held, State.reset, cauAtReset]

/-- The holder lost beside an elect with a group busy, and holder or elect lost after a YIELD. -/
theorem test_hyp_LinkLossEndsRole_beside :
    electBusy.cau.ok ∧ electBusy.agenda = [] ∧ electBusy.cau.alive .bridge = true ∧
      electBusy.cau.holder = some .bridge ∧ electBusy.cau.busyEmpty = false ∧ electBusy.cau.yielded = false ∧
      ({ elected.cau with yielded := true } : Cau).ok ∧ ({ elected.cau with yielded := true } : Cau).elect = some .deck ∧
      ({ elected.cau with yielded := true } : Cau).alive .deck = true := by
  refine ⟨⟨?_, ?_, ?_⟩, by decide, by decide, by decide, by decide, by decide, ⟨?_, ?_, ?_⟩, by decide, by decide⟩ <;>
    simp [electBusy, elected, held, State.reset, cauAtReset]

/-- The first and the last pin of a group, and the numbers beside them. -/
theorem test_hyp_PinEventsGivePinState :
    (1 ≤ 1 ∧ 4 ≤ Group.rlk.pinCount) ∧ ¬(1 ≤ 0 ∧ 0 ≤ Group.rlk.pinCount) ∧ ¬(1 ≤ 5 ∧ 5 ≤ Group.rlk.pinCount) ∧
      Instr.pinSensorFirstValue .rlk 4 (some true) none ∈
        [Instr.pinSensorEdge .rlk 4 (some true) none, .pinSensorFirstValue .rlk 4 (some true) none] ∧
      (State.reset.lock .rlk).pin? 4 = some pinAtReset := by decide

/-- RLK with a pin in its last place, and with pins that have latched a conflict. -/
def rlkPin (p : Pin) (latched : List Nat) : State :=
  held.setLock .rlk { held.rlk with pins := [pinAtReset, pinAtReset, pinAtReset, p], conflictPins := latched }

theorem test_hyp_PinTimersLatchAndStick :
    (rlkPin pinAtReset []).agenda = [] ∧ 4 ≤ Group.rlk.pinCount ∧
      ((rlkPin { pinAtReset with conflict := some 0 } []).lock .rlk).pin? 4 = some { pinAtReset with conflict := some 0 } ∧
      ((rlkPin pinAtReset []).lock .rlk).conflictPins = [] ∧ (rlkPin pinAtReset []).tru.record = none ∧
      ((rlkPin pinAtReset [1]).lock .rlk).conflictPins ≠ [] ∧ 4 ∉ ((rlkPin pinAtReset [1]).lock .rlk).conflictPins ∧
      4 ∈ ((rlkPin pinAtReset [4]).lock .rlk).conflictPins ∧ pinAtReset.conflict = none ∧ pinAtReset.transit = none ∧ ({ pinAtReset with transit := some 0 } : Pin).transit ≠ none :=
  by decide

/-- A pin that the latch names already and one that is STUCK already mark MEMBER again when their timers expire (R106,
R107). -/
theorem test_pin_timers_mark_again :
    after (exec (.conflictTimerExpiry .rlk 4) { rlkPin { pinAtReset with conflict := some 0 } [4] with
      bridge := visSecured.bridge }) (fun t => t.bridge.reports == [.member (.lock .rlk)]) = true ∧
    after (exec (.transitLimitExpiry .rlk 4) { rlkPin { pinAtReset with transit := some 0, stuck := true } [] with
      bridge := visSecured.bridge }) (fun t => t.bridge.reports == [.member (.lock .rlk)]) = true := by decide

/-- VIS past its closed band by 100 and by 101, with the closed switch active. -/
theorem test_hyp_EndSwitchesDisagree :
    (State.reset.axis .vis).x? = none ∧ (visAtZero.axis .vis).x? = some 0 ∧ visAtZero.agenda = [] ∧
      visAtZero.tru.record = none ∧ (visAtZero.axis .vis).switchLatched = false ∧
      ({ State.reset.vis with endClosed := some true } : AxisState).closedDisagrees 120 = false ∧
      ({ State.reset.vis with endClosed := some true } : AxisState).closedDisagrees 121 = true ∧
      ({ State.reset.vis with endOpen := some true } : AxisState).openDisagrees 27880 = false ∧
      ({ State.reset.vis with endOpen := some true } : AxisState).openDisagrees 27879 = true := by decide

/-- U2 in a state, with a holder. -/
def u2In (st : UnitState) (c : Option Consumer) : State :=
  held.setUnit .u2 { unitAtReset with
    state := st, holder := c
    startT := if st = .starting then some 1 else none
    failure := if st = .failed then some .startFail else none }

theorem test_hyp_PressureOkMovesUnit :
    (u2In .running none).agenda = [] ∧ ((u2In .running none).unit .u2).state = .running ∧
      ((u2In .stopped none).unit .u2).state ≠ .running ∧ ((u2In .starting none).unit .u2).state = .starting ∧
      (u2In .starting none).hsa.wants = [] ∧ ((u2In .starting (some (.topUp .vlk))).unit .u2).holder = some (.topUp .vlk) ∧
      ((u2In .starting none).unit .u2).holder = none ∧ (u2In .starting none).hsa.runOn ≠ 0 := by decide

/-- U2 STARTING, its motor needed no longer, with RUN_ON 0; and U2 with a holder beside a want that waits. -/
theorem test_hyp_PressureOkMovesUnit_served :
    (({ u2In .starting none with hsa := { (u2In .starting none).hsa with runOn := 0 } } : State).unit .u2).state = .starting ∧
      ({ u2In .starting none with hsa := { (u2In .starting none).hsa with runOn := 0 } } : State).hsa.runOn = 0 ∧
      (∀ c, ((u2In .starting none).unit .u2).holder ≠ some c) ∧
      ((u2In .starting (some (.topUp .vlk))).setWants [⟨.axisStep .inr, .first, 3⟩]).hsa.wants ≠ [] ∧
      (((u2In .starting (some (.topUp .vlk))).setWants [⟨.axisStep .inr, .first, 3⟩]).unit .u2).holder =
        some (.topUp .vlk) := by
  refine ⟨by decide, by decide, fun c h => ?_, by decide, by decide⟩
  exact nomatch h

/-- The units of `u2In` are in order. -/
theorem supplyOk_u2In : (u2In .starting (some (.topUp .vlk))).supplyOk ∧ (u2In .failed none).supplyOk := by
  refine ⟨⟨?_, ?_, ?_⟩, ?_, ?_, ?_⟩ <;>
    simp [u2In, held, State.reset, hsaAtReset, unitAtReset, PumpUnit.ok, State.setUnit]

theorem test_hyp_MotorTripFailsUnit :
    (u2In .starting (some (.topUp .vlk))).supplyOk ∧ (u2In .failed none).supplyOk ∧ (u2In .failed none).agenda = [] ∧
      ((u2In .starting (some (.topUp .vlk))).unit .u2).state ≠ .failed ∧
      ((u2In .failed none).unit .u2).state = .failed ∧
      Instr.unitInputFirstValue .u2 .motorTrip true ∈
        [Instr.motorTripEdge .u2 true, .unitInputFirstValue .u2 .motorTrip true] ∧
      (u2In .failed none).hsa.wants = [] :=
  ⟨supplyOk_u2In.1, supplyOk_u2In.2, by decide, by decide, by decide, by decide, by decide⟩

/-- The SUPPLY report of a first motor-trip value shows the inputs ready (R124, R138). -/
theorem test_first_value_marks_supply_as_stored :
    after (exec (.unitInputFirstValue .u1 .motorTrip false)
      (State.reset.setUnit .u1 { unitAtReset with pressOk := some false })) (fun t =>
        (t.unit .u1).ready && t.bridge.tx.any (fun f => f.frame.payload == t.report .supply)) = true := by decide

/-- A start timer that runs, of a unit that its holder needs; a pressure-loss timer and a run-on timer that run. -/
theorem test_hyp_UnitTimersFailOrStop :
    (u2In .starting (some (.topUp .vlk))).supplyOk ∧ (u2In .starting (some (.topUp .vlk))).agenda = [] ∧
      ((u2In .starting (some (.topUp .vlk))).unit .u2).startT ≠ none ∧
      (u2In .starting (some (.topUp .vlk))).needsUnit (.topUp .vlk) = true ∧
      (u2In .starting (some (.topUp .vlk))).tru.record = none ∧
      ((u2In .starting none).unit .u2).lossT = none ∧ ((u2In .starting none).unit .u2).runOnT = none ∧
      ((u2In .stopped none).unit .u2).startT = none ∧
      ({ unitAtReset with state := .running, lossT := some 0 } : PumpUnit).ok ∧
      ({ unitAtReset with state := .running, runOnT := some 0 } : PumpUnit).ok := by
  refine ⟨supplyOk_u2In.1, by decide, by decide, by decide, by decide, by decide, by decide, by decide, ?_, ?_⟩ <;>
    simp [PumpUnit.ok, unitAtReset]

/-- A loop that closes, one that opens, with the latch set and clear. -/
theorem test_hyp_OpenLoopSetsLatch :
    State.reset.agenda = [] ∧ State.reset.tru.latch = false ∧ State.reset.tru.record = none ∧
      ({ truAtReset with latch := true } : Tru).latch = true ∧
      Instr.loopFirstValue .deck false ∈ [Instr.loopEdge .deck false, .loopFirstValue .deck false] := by decide

/-- An emergency stop with INR in DRIVING halts it by the trip event before ILK's re-evaluation: the first case of R19,
in which no guard loss results (log 58). -/
theorem test_estop_halts_before_reevaluation :
    after (exec (.loopEdge .deck false) inrOpening) (fun t =>
      t.tru.record.any (fun r => r.cause == .estop) && t.tru.causes.isEmpty && t.ilk.watch.isEmpty &&
        t.inr.phase == .halted) = true := by decide

/-- A handover that the key makes due, with the busy set empty and not. -/
theorem test_hyp_KeyMovesHandover :
    elected.agenda = [] ∧ elected.cau.elect = some .deck ∧ ({ elected.cau with key := .isLocal } : Cau).due = true ∧
      ({ elected.cau with key := .isLocal } : Cau).busyEmpty = true ∧ electBusy.cau.busyEmpty = false ∧
      Instr.keyFirstValue true ∈ [Instr.keyEdge true, .keyFirstValue true] := by decide

/-- A sample that fails and one that passes, with a fault latched and none. -/
theorem test_hyp_SampleAcceptedOrFault :
    (State.reset.axis .vis).sampleKinds ⟨0, true⟩ ⟨0, false⟩ = (some .channel, none) ∧
      (State.reset.axis .vis).sampleKinds ⟨0, false⟩ ⟨0, false⟩ = (none, none) ∧
      (State.reset.axis .vis).posFault = none ∧ State.reset.agenda = [] ∧ State.reset.tru.record = none ∧
      ({ State.reset.vis with posFault := some ⟨some .range, none, 0, 0⟩ } : AxisState).posFault ≠ none := by decide

/-- A sample that jumps is failed; after the ACKNOWLEDGE of a latched position fault it is accepted (R57). -/
theorem test_jump_test_after_acknowledge :
    (visAtZero.axis .vis).acknowledged.sampleKinds ⟨3000, false⟩ ⟨3000, false⟩ = (some .jump, some .jump) ∧
      ({ visAtZero.axis .vis with posFault := some ⟨some .range, none, 0, 0⟩ } : AxisState).acknowledged.sampleKinds
        ⟨3000, false⟩ ⟨3000, false⟩ = (none, none) := by decide

/-- VIS in MOVING, with a skew at the limit and above it. -/
theorem test_hyp_DriveComputesCompares :
    ((held.setAxis .vis (movingVis 700)).axis .vis).phase = .moving ∧ held.vod.forced = false ∧
      (held.axis .vis).par.skewLimit < (-121 : Int).natAbs ∧ ¬(held.axis .vis).par.skewLimit < (120 : Int).natAbs := by
  decide

/-- VIS moves on two units and has a stall sample due. -/
def stalling (bk : Bool) : State :=
  { held.setAxis .vis { movingVis 700 with
      pos := some ⟨1000, 1000⟩, step := some to27800, stallRef := some (1000, 700), stallLeft := some 1, breakaway := bk
      bkLeft := if bk then some 1 else none } with
    hsa := { held.hsa with
      u1 := { unitAtReset with state := .running, holder := some (.axisStep .vis) }
      u2 := { unitAtReset with state := .running, holder := some (.axisStep .vis) } } }

theorem test_hyp_StallGivesBreakawayOrTrip :
    (stalling false).agenda = [] ∧ ((stalling false).axis .vis).x? = some 1000 ∧
      ((stalling false).axis .vis).step = some to27800 ∧ ((stalling false).axis .vis).sampleDue = true ∧
      ((stalling false).axis .vis).stalled 1000 .opening = true ∧
      ({ (stalling false).axis .vis with stallRef := some (990, 700) } : AxisState).stalled 1000 .opening = false ∧
      ((stalling false).axis .vis).par.breakaway = true ∧ ((stalling false).axis .vis).bkCount < 2 ∧
      (stalling false).hsa.running (.axisStep .vis) = 2 ∧ held.hsa.running (.axisStep .vis) < 2 ∧
      (stalling false).tru.record = none ∧ ((stalling true).axis .vis).breakaway = true := by decide

/-- A computation stores its u, and a completion leaves it and sets Vc to 0 (R87, section 3.7). -/
theorem test_speed_and_units_stored :
    after (exec (.controlPeriodExpiry .vis ⟨1050, false⟩ ⟨1050, false⟩) (stalling false)) (fun t => t.vis.u == 2) = true ∧
      ({ movingVis 700 with u := 2 } : AxisState).cleared.vc = 0 ∧ ({ movingVis 700 with u := 2 } : AxisState).cleared.u = 2 := by
  decide

/-- VIS comes to rest in STOPPING on its way back to MOVING. -/
def stopsToMove : State :=
  { stalling false with vis := { (stalling false).vis with phase := .stopping .moving, vc := 0, stallRef := none, stallLeft := none } }

/-- The countdown of a stall sample stands at 25 after the expiry that enters MOVING (R94). -/
theorem test_stall_countdown_starts_full :
    after (exec (.controlPeriodExpiry .vis ⟨1000, false⟩ ⟨1000, false⟩) stopsToMove) (fun t =>
      t.vis.phase == .moving && t.vis.stallLeft == some 25) = true := by decide

/-- Entries that count their timeout, that count their dwell, and that count neither. -/
theorem test_hyp_StepClockCountsDown :
    (engineIn .running).agenda = [] ∧ (engineIn .running).tru.record = none ∧
      (engineIn .running).rne.counts ⟨1, .axis .vis, .delegated, 1, none, none⟩ = true ∧
      (engineIn .paused).rne.counts ⟨1, .axis .vis, .delegated, 1, none, none⟩ = false ∧
      (engineIn .paused).rne.counts ⟨1, .lock .vlk, .delegated, 1, none, none⟩ = true ∧
      (engineIn .running).rne.dwells ⟨1, .axis .vis, .dwell, 1, some 1, none⟩ = true ∧
      (engineIn .paused).rne.dwells ⟨1, .axis .vis, .dwell, 1, some 1, none⟩ = false ∧
      ({ (engineIn .running).rne with inflight := [⟨1, .lock .vlk, .dwell, 1, some 1, none⟩] } : Rne).entry? (.lock .vlk) =
        some ⟨1, .lock .vlk, .dwell, 1, some 1, none⟩ := by decide

/-- An axis with its timers; DEAD_TIME passed at 150 and not at 149. -/
theorem test_hyp_AxisTimersMovePhase :
    held.agenda = [] ∧ held.tru.record = none ∧ (held.axis .vis).announce = none ∧ (held.axis .vis).reversal = none ∧
      (held.axis .vis).switchWait = none ∧
      ({ movingVis 0 with phase := .announce, announce := some 0, step := some to27800,
                          zero := ⟨0, 149, 0, 150⟩ } : AxisState).reversalLeft ≠ 0 ∧
      ({ movingVis 0 with phase := .announce, announce := some 0, step := some to27800,
                          zero := ⟨0, 150, 0, 150⟩ } : AxisState).reversalLeft = 0 := by decide

/-- The permit timer and the staleness timer, and an axis that drives. -/
theorem test_hyp_SpeedAndPermitLapse :
    State.reset.agenda = [] ∧ State.reset.ilk.expiry = none ∧ (ilkAtReset 0 0 0).expiry = none ∧
      ({ State.reset.ilk with expiry := some 0 } : Ilk).expiry ≠ none ∧ deckLocal.pmt.timer ≠ none ∧
      State.reset.pmt.timer = none ∧ (pmtAtReset 500 true).tripAction = true ∧
      (stalling false).firstDriving = some .vis ∧ State.reset.firstDriving = none ∧ State.reset.tru.record = none := by
  decide

/-- BRIDGE is the holder, and VLK is changed. -/
def vlkWith (f : LockState → LockState) : State := held.setLock .vlk (f held.vlk)

/-- An operation of VLK in a phase, for plan step 1. -/
def vlkOp (p : OpPhase) : Option LockOp := some ⟨p, true, 1, false⟩

/-- The settle timer and the hold timer run, each in its phase, also where HOLD_TIME is 0. -/
theorem test_hyp_LockTimersMovePhase_operation :
    (let s := vlkWith fun l => { l with settleT := some 0, op := vlkOp .settling };
      s.agenda = [] ∧ (s.lock .vlk).settleT ≠ none ∧ (s.lock .vlk).op = vlkOp .settling ∧ (s.lock .vlk).par.holdTime ≠ 0) ∧
    (let s := vlkWith fun l =>
        { l with settleT := some 0, op := vlkOp .settling, par := { l.par with holdTime := 0 } };
      s.agenda = [] ∧ (s.lock .vlk).settleT ≠ none ∧ (s.lock .vlk).op = vlkOp .settling ∧ (s.lock .vlk).par.holdTime = 0) ∧
    (let s := vlkWith fun l => { l with holdT := some 0, op := vlkOp .holding };
      s.agenda = [] ∧ (s.lock .vlk).holdT ≠ none ∧ (s.lock .vlk).op = vlkOp .holding) := by decide

/-- The periodic timer runs, with a trigger barred by an operation and not barred; the top-up timer runs, of an ACTIVE
top-up that creep started and that leaves a pin short of ENGAGED. -/
theorem test_hyp_LockTimersMovePhase_topUp :
    (let s := vlkWith fun l => { l with periodic := some 0, op := vlkOp .driving };
      s.agenda = [] ∧ (s.lock .vlk).periodic ≠ none ∧ s.topupBarred .vlk = true) ∧
    (let s := vlkWith fun l => { l with periodic := some 0, gstate := .engaged };
      s.agenda = [] ∧ (s.lock .vlk).periodic ≠ none ∧ s.topupBarred .vlk = false ∧ (s.lock .vlk).top.status = .none) ∧
    (let s := vlkWith fun l =>
        { l with topupT := some 0, gstate := .engaged, top := ⟨.active, false, true, false, false⟩ };
      s.agenda = [] ∧ (s.lock .vlk).topupT ≠ none ∧ (s.lock .vlk).top.status = .active ∧
        (s.lock .vlk).top.srcCreep = true ∧ (s.lock .vlk).allPins .engaged = false) := by decide

/-- VLK with an operation in a phase, and its timers. -/
theorem test_hyp_LockTimersMovePhase :
    held.agenda = [] ∧ (held.lock .vlk).settleT = none ∧ (held.lock .vlk).holdT = none ∧
      (held.lock .vlk).periodic = none ∧ (held.lock .vlk).topupT = none ∧
      ({ held.vlk with settleT := some 0, op := some ⟨.settling, true, 1, false⟩ } : LockState).op =
        some ⟨.settling, true, 1, false⟩ ∧
      rlkBusy.topupBarred .rlk = true ∧ held.topupBarred .rlk = false ∧ (held.lock .rlk).top.status = .none ∧
      ((vlkEngaged ⟨.active, false, true, false, false⟩).lock .vlk).top.status = .active ∧
      ((vlkEngaged ⟨.active, false, true, false, false⟩).lock .vlk).top.srcCreep = true ∧
      ((vlkEngaged ⟨.active, false, true, false, false⟩).lock .vlk).allPins .engaged = false := by decide

end Sys2Proof.Tests
end

