-- ==== Sys2Proof/Proofs/Ship.lean ====
section
/-! PROOFS. SHIP (R12, R13): what the request leaves inside the part and which messages it sends, and that the messages
leave the ship-speed record as it was stored. -/

namespace Sys2Proof.Machine

variable {s t : State}

/-! ## The record under the blocks' messages -/

/-- Two states with one steady view agree on the ship-speed record and its timer (R12): messages move neither. -/
theorem shipRecord_of_steady (h : t.steady = s.steady) : t.ilk.known = s.ilk.known ∧ t.ilk.stale = s.ilk.stale ∧
    t.ilk.speed = s.ilk.speed ∧ t.ilk.expiry = s.ilk.expiry := by
  have hi : ({ t.ilk with watch := [] } : Ilk) = { s.ilk with watch := [] } := congrArg State.ilk h
  exact ⟨(congrArg Ilk.known hi :), (congrArg Ilk.stale hi :), (congrArg Ilk.speed hi :), (congrArg Ilk.expiry hi :)⟩

/-! ## The request -/

/-- The answer to a stored value: OK, or CLAMPED with the stored value where it differs from the value asked (R185). -/
theorem reply_storedResult (s : State) (asked stored : Nat) (st : Station) (kind tag : Byte) :
    (storedResult s asked stored).reply st kind tag =
      answer st kind tag (if asked = stored then .ok else .clamped) (if asked = stored then [] else wordOf stored) s := by
  unfold storedResult
  split <;> rfl

/-- A two-byte SHIP with room for its reply is handled by ILK (R183). -/
theorem exec_ship (st : Station) (tag lo hi : Byte) (hr : s.hasRoom st) :
    exec (.ship st tag [lo, hi]) s = .next (settle (shipBody st tag lo hi (frameDone st s))) :=
  exec_dispatch (kind := 0x0A) (tag := tag) (p := [lo, hi]) rfl hr (by decide) rfl

/-- At the bridge link SHIP changes the ship-speed record alone, reports apart (R13). -/
theorem inner_shipBody_bridge (tag lo hi : Byte) (s : State) :
    (shipBody .bridge tag lo hi s).inner =
      ({ s with ilk := s.ilk.ship (min 400 (wordVal lo hi)) } : State).inner := by
  simp only [shipBody, reply_storedResult, answer, inner_emit, inner_markIf]

/-- At the bridge link SHIP sends the re-evaluation of the guards and then its reply (R13, R183). -/
theorem agenda_shipBody_bridge (tag lo hi : Byte) (h : s.agenda = []) :
    (shipBody .bridge tag lo hi s).agenda =
      [.reeval, .reply .bridge (replyFrame 0x0A tag
        (if wordVal lo hi = min 400 (wordVal lo hi) then .ok else .clamped)
        (if wordVal lo hi = min 400 (wordVal lo hi) then [] else wordOf (min 400 (wordVal lo hi))))] := by
  simp [shipBody, reply_storedResult, answer, h]

/-- The ship-speed record that a SHIP at the bridge link has stored stands when its messages have been delivered. -/
theorem shipRecord_settle_shipBody (tag lo hi : Byte) (s : State) :
    let t := settle (shipBody .bridge tag lo hi s)
    t.ilk.known = true ∧ t.ilk.stale = false ∧ t.ilk.speed = min 400 (wordVal lo hi) ∧
      t.ilk.expiry = some (s.ilk.speedStale * 1000) := by
  obtain ⟨hk, hs, hv, he⟩ := shipRecord_of_steady (settle_steady (shipBody .bridge tag lo hi s))
  have hi : (shipBody .bridge tag lo hi s).ilk = s.ilk.ship (min 400 (wordVal lo hi)) :=
    ilk_of_inner (inner_shipBody_bridge tag lo hi s)
  rw [hi] at hk hs hv he
  exact ⟨hk, hs, hv, he⟩

/-- At the deck link SHIP is refused with WRONG_STATION and nothing changes but the reply queue (R13). -/
theorem settle_shipBody_deck (tag lo hi : Byte) (h : s.agenda = []) :
    settle (shipBody .deck tag lo hi s) = replied .deck 0x0A tag .wrongStation [] s :=
  settle_answer .deck 0x0A tag .wrongStation [] h

/-- Settles O25: the bridge link's record from what SHIP leaves inside the part and from the steady view that its
messages keep; the deck link's refusal as a request that sends its reply alone. -/
theorem shipStoresTheSpeed : Obligations.ShipStoresTheSpeed := by
  unfold Obligations.ShipStoresTheSpeed
  rintro tag lo hi s _ _ ha rfl rfl
  have hf (st : Station) : (frameDone st s).agenda = [] := (agenda_frameDone st s).trans ha
  refine ⟨?bridge, ?deck⟩
  case bridge =>
    rintro _ hr rfl
    have hrec := shipRecord_settle_shipBody tag lo hi (frameDone .bridge s)
    rw [ilk_frameDone] at hrec
    exact ⟨⟨_, exec_ship .bridge tag lo hi hr, inner_shipBody_bridge tag lo hi _,
      agenda_shipBody_bridge tag lo hi (hf .bridge)⟩, _, exec_ship .bridge tag lo hi hr, hrec⟩
  case deck =>
    rintro _ hr rfl
    rw [exec_ship .deck tag lo hi hr, settle_shipBody_deck tag lo hi (hf .deck)]

end Sys2Proof.Machine
end

