-- ==== Sys2Proof/Proofs/Pause.lean ====
section
/-! PROOFS. PAUSE and CONTINUE (R41, R42, R44, R45): what a change of the pause reasons leaves inside the part and which
messages it sends, and from these the outcome of each request. -/

namespace Sys2Proof.Machine

variable {s : State} {g : Rne → Rne}

/-! ## The pause reasons -/

/-- A plan is running in RUNNING and in PAUSED alone. -/
theorem Rne.active_iff (r : Rne) : r.active = true ↔ r.engine = .running ∨ r.engine = .paused := by
  simp [Rne.active]

/-- A change of the pause reasons that leaves one has the engine in PAUSED, reports apart (R44). -/
theorem inner_setReasons_paused (h : (g s.rne).reasons = true) :
    (setReasons g s).inner = ({ s with rne := { g s.rne with engine := .paused } } : State).inner := by
  unfold setReasons
  dsimp only
  split_ifs <;> simp [inner_emit, inner_markIf, State.modRne, h]

/-- A change of the pause reasons that leaves none has the engine in RUNNING, reports apart (R45). -/
theorem inner_setReasons_running (h : (g s.rne).reasons = false) :
    (setReasons g s).inner = ({ s with rne := { g s.rne with engine := .running } } : State).inner := by
  unfold setReasons
  dsimp only
  split_ifs <;> simp [inner_emit, inner_markIf, State.modRne, h]

/-- With the first pause reason in RUNNING each DELEGATED axis step is told to stop (R44); with the last one gone in
PAUSED each is told to resume and the hand-over test follows (R45); any other change of the reasons sends nothing. -/
theorem agenda_setReasons (g : Rne → Rne) (s : State) :
    (setReasons g s).agenda = s.agenda ++
      if s.rne.engine = .running ∧ (g s.rne).reasons = true then s.rne.axisMsgs .axisStop
      else if s.rne.engine = .paused ∧ (g s.rne).reasons = false then s.rne.axisMsgs .axisResume ++ [.handTest]
      else [] := by
  unfold setReasons
  cases hr : (g s.rne).reasons <;> cases he : s.rne.engine <;> simp [hr, he]

/-! ## The OPERATOR reason -/

/-- The run context with the OPERATOR reason added (R41). -/
def Rne.addOperator (r : Rne) : Rne := { r with operator := true }

/-- The run context with the OPERATOR reason removed (R42). -/
def Rne.dropOperator (r : Rne) : Rne := { r with operator := false }

/-- With OPERATOR added a pause reason stands. -/
theorem reasons_addOperator (r : Rne) : r.addOperator.reasons = true := Bool.or_true _

/-- With OPERATOR removed a pause reason stands where LAPSE does: CONTINUE does not remove LAPSE (R42). -/
theorem reasons_dropOperator (r : Rne) : r.dropOperator.reasons = r.lapse := Bool.or_false _

/-- OPERATOR added, the engine is PAUSED, reports apart (R41, R44). -/
theorem inner_setReasons_addOperator (s : State) : (setReasons Rne.addOperator s).inner =
    ({ s with rne := { s.rne with operator := true, engine := .paused } } : State).inner :=
  inner_setReasons_paused (reasons_addOperator s.rne)

/-- OPERATOR removed without LAPSE, the engine is RUNNING, reports apart (R42, R45). -/
theorem inner_setReasons_dropOperator_running (hl : s.rne.lapse = false) :
    (setReasons Rne.dropOperator s).inner =
      ({ s with rne := { s.rne with operator := false, engine := .running } } : State).inner :=
  inner_setReasons_running ((reasons_dropOperator _).trans hl)

/-- Where the engine already stands as LAPSE alone has it, removing OPERATOR leaves it there, reports apart (R42). -/
theorem inner_setReasons_dropOperator_same (h : s.rne.engine = if s.rne.lapse then .paused else .running) :
    (setReasons Rne.dropOperator s).inner = ({ s with rne := { s.rne with operator := false } } : State).inner := by
  cases hl : s.rne.lapse with
  | false =>
    have he : s.rne.engine = .running := by simpa [hl] using h
    simp only [inner_setReasons_dropOperator_running hl, ← he]
  | true =>
    have he : s.rne.engine = .paused := by simpa [hl] using h
    simp only [inner_setReasons_paused ((reasons_dropOperator _).trans hl), ← he, Rne.dropOperator]

/-! ## PAUSE -/

/-- PAUSE with room for its reply is handled by RNE (R183). -/
theorem exec_pause (st : Station) (tag : Byte) (hr : s.hasRoom st) :
    exec (.pause st tag []) s = .next (settle (pauseBody st tag (frameDone st s))) :=
  exec_dispatch (kind := 0x04) (tag := tag) (p := []) rfl hr (by decide) rfl

/-- In RUNNING and PAUSED, PAUSE adds OPERATOR from either station (R41). -/
theorem pauseBody_active (st : Station) (tag : Byte) (h : s.rne.engine = .running ∨ s.rne.engine = .paused) :
    pauseBody st tag s = answer st 0x04 tag .ok [] (setReasons Rne.addOperator s) :=
  if_pos (s.rne.active_iff.2 h)

/-- In any other engine state PAUSE is refused (R41). -/
theorem pauseBody_inactive (st : Station) (tag : Byte) (h1 : s.rne.engine ≠ .running) (h2 : s.rne.engine ≠ .paused) :
    pauseBody st tag s = answer st 0x04 tag .wrongState [] s :=
  if_neg fun ha => (s.rne.active_iff.1 ha).elim h1 h2

/-- A PAUSE in RUNNING tells each DELEGATED axis step to stop and then answers OK (R41, R44). -/
theorem agenda_pauseBody_running (st : Station) (tag : Byte) (ha : s.agenda = []) (he : s.rne.engine = .running) :
    (pauseBody st tag s).agenda = s.rne.axisMsgs .axisStop ++ [.reply st (replyFrame 0x04 tag .ok [])] := by
  rw [pauseBody_active st tag (.inl he)]
  simp [answer, agenda_setReasons, reasons_addOperator, ha, he]

/-- A PAUSE in PAUSED, or in RUNNING with no DELEGATED axis step, ends with its reply (R41). -/
theorem settle_pauseBody_quiet (st : Station) (tag : Byte) (ha : s.agenda = [])
    (h : s.rne.engine = .paused ∨ (s.rne.engine = .running ∧ s.rne.axisMsgs .axisStop = [])) :
    settle (pauseBody st tag s) = replied st 0x04 tag .ok [] (setReasons Rne.addOperator s) := by
  rw [pauseBody_active st tag (h.symm.imp_left And.left), settle_answer]
  rcases h with he | ⟨he, hm⟩
  · simp [agenda_setReasons, ha, he, reasons_addOperator]
  · simp [agenda_setReasons, ha, he, hm]

/-! ## CONTINUE -/

/-- CONTINUE with room for its reply is handled by RNE (R183). -/
theorem exec_continueRun (st : Station) (tag : Byte) (hr : s.hasRoom st) :
    exec (.continueRun st tag []) s = .next (settle (continueBody st tag (frameDone st s))) :=
  exec_dispatch (kind := 0x05) (tag := tag) (p := []) rfl hr (by decide) rfl

/-- CONTINUE from a station that is not the holder is refused (R42). -/
theorem continueBody_notHolder (st : Station) (tag : Byte) (hh : s.cau.holder ≠ some st) :
    continueBody st tag s = answer st 0x05 tag .noAuthority [] s :=
  if_pos (by simpa [State.holds] using hh)

/-- The holder's CONTINUE goes by the engine state alone (R42). -/
theorem continueBody_holder (st : Station) (tag : Byte) (hh : s.cau.holder = some st) :
    continueBody st tag s =
      if s.rne.active then answer st 0x05 tag .ok [] (setReasons Rne.dropOperator s)
      else answer st 0x05 tag .wrongState [] s :=
  if_neg (by simp [State.holds, hh])

/-- In RUNNING and PAUSED the holder's CONTINUE removes OPERATOR (R42). -/
theorem continueBody_active (st : Station) (tag : Byte) (hh : s.cau.holder = some st)
    (h : s.rne.engine = .running ∨ s.rne.engine = .paused) :
    continueBody st tag s = answer st 0x05 tag .ok [] (setReasons Rne.dropOperator s) :=
  (continueBody_holder st tag hh).trans (if_pos (s.rne.active_iff.2 h))

/-- In any other engine state the holder's CONTINUE is refused (R42). -/
theorem continueBody_inactive (st : Station) (tag : Byte) (hh : s.cau.holder = some st)
    (h1 : s.rne.engine ≠ .running) (h2 : s.rne.engine ≠ .paused) :
    continueBody st tag s = answer st 0x05 tag .wrongState [] s :=
  (continueBody_holder st tag hh).trans (if_neg fun ha => (s.rne.active_iff.1 ha).elim h1 h2)

/-- A CONTINUE that empties the reasons in PAUSED tells each DELEGATED axis step to resume, has the hand-over test
applied and then answers OK (R42, R45). -/
theorem agenda_continueBody_resumed (st : Station) (tag : Byte) (ha : s.agenda = []) (hh : s.cau.holder = some st)
    (he : s.rne.engine = .paused) (hl : s.rne.lapse = false) :
    (continueBody st tag s).agenda =
      s.rne.axisMsgs .axisResume ++ [.handTest, .reply st (replyFrame 0x05 tag .ok [])] := by
  rw [continueBody_active st tag hh (.inr he)]
  simp [answer, agenda_setReasons, reasons_dropOperator, ha, he, hl]

/-- A CONTINUE where the engine already stands as LAPSE alone has it ends with its reply (R42). -/
theorem settle_continueBody_quiet (st : Station) (tag : Byte) (ha : s.agenda = []) (hh : s.cau.holder = some st)
    (h : s.rne.engine = if s.rne.lapse then .paused else .running) :
    settle (continueBody st tag s) = replied st 0x05 tag .ok [] (setReasons Rne.dropOperator s) := by
  have hact : s.rne.engine = .running ∨ s.rne.engine = .paused := by cases hl : s.rne.lapse <;> simp [h, hl]
  rw [continueBody_active st tag hh hact, settle_answer]
  cases hl : s.rne.lapse <;> simp [agenda_setReasons, reasons_dropOperator, ha, h, hl]

/-! ## The two requests together -/

/-- Settles O30: by clause, whether the request is refused, ends with its reply or sends messages before it, and what
the change of the OPERATOR reason leaves inside the part. -/
theorem pauseAndContinueSetReasons : Obligations.PauseAndContinueSetReasons := by
  unfold Obligations.PauseAndContinueSetReasons
  rintro st tag s f ha hr rfl
  have hf : (frameDone st s).agenda = [] := (agenda_frameDone st s).trans ha
  rw [exec_pause st tag hr, exec_continueRun st tag hr, ← rne_frameDone st s, ← holder_frameDone st s]
  generalize frameDone st s = f at hf ⊢
  refine ⟨?pauseRunning, ?pauseQuiet, ?pauseRefused, ?continueNotHolder, ?continueRefused, ?continueLapse,
    ?continueResumed, ?continueRunning⟩
  case pauseRunning =>
    intro he
    refine ⟨_, rfl, ?_, agenda_pauseBody_running st tag hf he⟩
    rw [pauseBody_active st tag (.inl he)]
    exact inner_setReasons_addOperator f
  case pauseQuiet =>
    intro h
    exact ⟨_, congrArg _ (settle_pauseBody_quiet st tag hf h), inner_setReasons_addOperator f⟩
  case pauseRefused =>
    intro h1 h2
    rw [pauseBody_inactive st tag h1 h2, settle_answer _ _ _ _ _ hf]
  case continueNotHolder =>
    intro hh
    rw [continueBody_notHolder st tag hh, settle_answer _ _ _ _ _ hf]
  case continueRefused =>
    intro hh h1 h2
    rw [continueBody_inactive st tag hh h1 h2, settle_answer _ _ _ _ _ hf]
  case continueLapse =>
    intro hh he hl
    have h : f.rne.engine = if f.rne.lapse then .paused else .running := by simp [he, hl]
    exact ⟨_, congrArg _ (settle_continueBody_quiet st tag hf hh h), inner_setReasons_dropOperator_same h⟩
  case continueResumed =>
    intro hh he hl
    refine ⟨_, rfl, ?_, agenda_continueBody_resumed st tag hf hh he hl⟩
    rw [continueBody_active st tag hh (.inr he)]
    exact inner_setReasons_dropOperator_running hl
  case continueRunning =>
    intro hh he hl
    have h : f.rne.engine = if f.rne.lapse then .paused else .running := by simp [he, hl]
    exact ⟨_, congrArg _ (settle_continueBody_quiet st tag hf hh h), inner_setReasons_dropOperator_same h⟩

end Sys2Proof.Machine
end

