-- ==== Sys2Proof/Proofs/Restart.lean ====
section
/-! PROOFS. RESTART (R165, R166, R191): who may restart and when, what the zeroing and the reset leave in each block, and
what the links send after them. -/

namespace Sys2Proof.Machine

variable {s : State}

/-! ## Authority and engine state (R165) -/

/-- RESTART is for the holder, and for the bridge station where there is no holder. -/
theorem mayRestart_iff (s : State) (st : Station) :
    s.mayRestart st = true ↔ s.cau.holder = some st ∨ (s.cau.holder = none ∧ st = .bridge) := by
  simp [State.mayRestart, State.holds]

/-- RESTART with room for its reply is handled by TRU (R183). -/
theorem exec_restart (st : Station) (tag : Byte) (hr : s.hasRoom st) :
    exec (.restart st tag []) s = .next (settle (restartBody st tag (frameDone st s))) :=
  exec_dispatch (kind := 0x11) (tag := tag) (p := []) rfl hr (by decide) rfl

/-- The part after an accepted RESTART: the blocks reset, the reply enqueued, the ten subjects marked. -/
def restarted (st : Station) (tag : Byte) (s : State) : State :=
  markAll (enqueueReply st (replyFrame 0x11 tag .ok []) (warmReset (outputsOff s)))

theorem restartBody_noAuthority (st : Station) (tag : Byte) (h : ¬s.mayRestart st = true) :
    restartBody st tag s = answer st 0x11 tag .noAuthority [] s :=
  if_pos (by simpa using h)

theorem restartBody_wrongState (st : Station) (tag : Byte) (h : s.mayRestart st = true) (h1 : s.rne.engine ≠ .idle)
    (h2 : s.rne.engine ≠ .tripped) : restartBody st tag s = answer st 0x11 tag .wrongState [] s :=
  (if_neg (by simp [h])).trans (if_pos ⟨h1, h2⟩)

theorem restartBody_accepted (st : Station) (tag : Byte) (h : s.mayRestart st = true)
    (he : s.rne.engine = .idle ∨ s.rne.engine = .tripped) : restartBody st tag s = restarted st tag s :=
  (if_neg (by simp [h])).trans (if_neg fun hn => he.elim hn.1 hn.2)

/-! ## The zeroing before the reset (R69, R178) -/

/-- The zeroing restarts the zero times of the outputs that were on, and leaves the rest of an axis. -/
theorem axis_outputsOff (s : State) (a : Axis) :
    (outputsOff s).axis a = { s.axis a with zero := (s.axis a).zero.after (s.drives a) zeroDrives } := by
  cases a <;> rfl

theorem lock_outputsOff (s : State) (g : Group) : (outputsOff s).lock g = s.lock g := by cases g <;> rfl

/-- The zeroing leaves what the stations have stored. -/
theorem stored_outputsOff (s : State) : (outputsOff s).stored = s.stored :=
  (outputsOff_moves (k := 0) s).storedHeld (Nat.zero_le 1)

/-! ## The reset of the blocks (R166) -/

theorem axis_warmReset (s : State) (a : Axis) : (warmReset s).axis a =
    axisAtReset (s.axis a).par (s.axis a).w0 (s.axis a).windows (s.axis a).zero := by
  cases a <;> rfl

theorem lock_warmReset (s : State) (g : Group) : (warmReset s).lock g = lockAtReset g (s.lock g).par := by
  cases g <;> rfl

theorem unit_warmReset (s : State) (w : UnitId) : (warmReset s).unit w = State.reset.unit w := by cases w <;> rfl

theorem drives_warmReset (s : State) (a : Axis) : (warmReset s).drives a = zeroDrives := by cases a <;> rfl

theorem link_warmReset (s : State) (q : Station) : (warmReset s).link q = linkAtReset (s.link q).mask := by
  cases q <;> rfl

/-- What the stations have stored is kept (R166). -/
theorem stored_warmReset (s : State) : (warmReset s).stored = s.stored := rfl

/-- DIC starts over: no input has a filtered value or a count (R172). -/
theorem mem_inputs_warmReset {x : DicInput} (h : x ∈ (warmReset s).dic.inputs) : x.filtered = none ∧ x.run = 0 := by
  obtain ⟨i, -, rfl⟩ := List.mem_map.1 h
  exact ⟨rfl, rfl⟩

/-! ## A reply at an idle link (R189) -/

/-- A link in HUNTING, just heard from, with no reply waiting: as a reset leaves it, whatever it has begun to send
(R191). -/
def Link.cleared (l : Link) : Prop := l.asm = none ∧ l.age = 0 ∧ l.replies = []

/-- An idle transmitter with no reply waiting sends the reply at once. -/
theorem link_enqueueReply_idle (st : Station) (r : Frame) (ht : (s.link st).tx = none)
    (hq : (s.link st).replies = []) :
    (enqueueReply st r s).link st = { s.link st with tx := some ⟨r, r.lineTime⟩ } := by
  simp [enqueueReply, txChoose, ht, hq]

/-- A reply leaves the other link. -/
theorem link_enqueueReply_of_ne {st q : Station} (r : Frame) (h : q ≠ st) : (enqueueReply st r s).link q = s.link q := by
  unfold enqueueReply txChoose
  dsimp only
  split <;> simp [h]

/-! ## The ten subjects (R166, R188, R191) -/

theorem mem_allSubjects (sub : Subject) : sub ∈ allSubjects := by
  cases sub with
  | member m =>
    cases m with
    | axis a => cases a <;> decide
    | lock g => cases g <;> decide
  | _ => decide

/-- Marks change no mask. -/
theorem unmasked_mark (sub sub' : Subject) (s : State) (q : Station) :
    ((mark sub s).link q).unmasked sub' = (s.link q).unmasked sub' := by
  obtain ⟨-, -, hmask, -, -⟩ := link_mark q sub s
  rw [Link.unmasked, hmask, Link.unmasked]

/-- A marked subject that a link's mask lets through is pending at that link or being sent. -/
theorem shows_mark_self {q : Station} {sub : Subject} (h : (s.link q).unmasked sub = true) :
    (mark sub s).shows q sub := by
  cases q with
  | bridge => exact shows_markAt .deck sub (shows_markAt_self h)
  | deck =>
    obtain ⟨-, -, hmask, -, -⟩ := link_markAt .bridge .deck sub s
    exact shows_markAt_self (by rwa [Link.unmasked, hmask])

/-- What every mark keeps stands after all ten. -/
theorem markAll_keeps {P : State → Prop} (hP : ∀ sub u, P u → P (mark sub u)) (h : P s) : P (markAll s) :=
  List.foldlRecOn (motive := P) allSubjects _ h fun u hu sub _ => hP sub u hu

theorem inner_markAll (s : State) : (markAll s).inner = s.inner :=
  markAll_keeps (P := fun u => u.inner = s.inner) (fun sub u hu => (inner_mark sub u).trans hu) rfl

theorem agenda_markAll (s : State) : (markAll s).agenda = s.agenda :=
  markAll_keeps (P := fun u => u.agenda = s.agenda) (fun sub u hu => (agenda_mark sub u).trans hu) rfl

theorem unmasked_markAll (s : State) (q : Station) (sub : Subject) :
    ((markAll s).link q).unmasked sub = (s.link q).unmasked sub :=
  markAll_keeps (P := fun u => (u.link q).unmasked sub = (s.link q).unmasked sub)
    (fun sub' u hu => (unmasked_mark sub' sub u q).trans hu) rfl

theorem cleared_markAll {q : Station} (h : (s.link q).cleared) : ((markAll s).link q).cleared :=
  markAll_keeps (P := fun u => (u.link q).cleared)
    (fun sub u ⟨hasm, hage, hreplies⟩ => by
      obtain ⟨hasm', hage', -, hreplies', -⟩ := link_mark q sub u
      exact ⟨hasm'.trans hasm, hage'.trans hage, hreplies' hreplies⟩) h

/-- A frame being sent goes on under the marks (R189). -/
theorem tx_markAll {q : Station} {z : Sending} (h : (s.link q).tx = some z) : ((markAll s).link q).tx = some z :=
  markAll_keeps (P := fun u => (u.link q).tx = some z)
    (fun sub u hu => by
      obtain ⟨-, -, -, -, htx⟩ := link_mark q sub u
      exact htx z hu) h

/-- Of the subjects in a run of marks, those that a link's mask lets through are pending at it or being sent. -/
theorem shows_foldl_mark {q : Station} {sub : Subject} {l : List Subject} (hl : sub ∈ l)
    (h : (s.link q).unmasked sub = true) : (l.foldl (fun s sub => mark sub s) s).shows q sub := by
  induction l generalizing s with
  | nil => cases hl
  | cons sub' l ih =>
    rcases List.mem_cons.1 hl with rfl | hl
    · exact List.foldlRecOn (motive := fun u : State => u.shows q sub) l _ (shows_mark_self h) fun _ hu _ _ => shows_mark _ hu
    · exact ih hl (by rwa [unmasked_mark])

/-- After the ten marks every subject that a link's mask lets through is pending at it or being sent. -/
theorem shows_markAll {q : Station} {sub : Subject} (h : ((markAll s).link q).unmasked sub = true) :
    (markAll s).shows q sub :=
  shows_foldl_mark (mem_allSubjects sub) (by rwa [unmasked_markAll] at h)

/-! ## The part after an accepted RESTART -/

/-- Inside the part RESTART does no more than the reset: reply and marks are the links' (R166). -/
theorem inner_restarted (st : Station) (tag : Byte) (s : State) :
    (restarted st tag s).inner = (warmReset (outputsOff s)).inner :=
  (inner_markAll _).trans (inner_enqueueReply _ _ _)

/-- RESTART sends no messages between blocks: it ends as its handler leaves it. -/
theorem settle_restarted (st : Station) (tag : Byte) (s : State) : settle (restarted st tag s) = restarted st tag s :=
  settle_nil ((agenda_markAll _).trans (agenda_enqueueReply _ _ _))

/-- The items that the stations have stored are kept (R166). -/
theorem stored_restarted (st : Station) (tag : Byte) (s : State) : (restarted st tag s).stored = s.stored :=
  calc (restarted st tag s).stored
    _ = (warmReset (outputsOff s)).stored :=
      ((enqueueReply_moves (k := 0) _ _ _).trans (markAll_moves _)).storedHeld (Nat.zero_le 1)
    _ = (outputsOff s).stored := stored_warmReset _
    _ = s.stored := stored_outputsOff s

theorem axis_restarted (st : Station) (tag : Byte) (s : State) (a : Axis) : (restarted st tag s).axis a =
    axisAtReset (s.axis a).par (s.axis a).w0 (s.axis a).windows ((s.axis a).zero.after (s.drives a) zeroDrives) := by
  rw [axis_of_inner (inner_restarted st tag s), axis_warmReset, axis_outputsOff]

theorem lock_restarted (st : Station) (tag : Byte) (s : State) (g : Group) :
    (restarted st tag s).lock g = lockAtReset g (s.lock g).par := by
  rw [lock_of_inner (inner_restarted st tag s), lock_warmReset, lock_outputsOff]

/-- At the station that asked, the link at its reset values sends the reply (R189, R191). -/
theorem link_replied_warmReset_self (st : Station) (r : Frame) (s : State) :
    (enqueueReply st r (warmReset s)).link st =
      { linkAtReset (s.link st).mask with tx := some ⟨r, r.lineTime⟩ } := by
  have h := link_warmReset s st
  rw [link_enqueueReply_idle st r (by rw [h]; rfl) (by rw [h]; rfl), h]

theorem cleared_replied_warmReset (st : Station) (r : Frame) (s : State) (q : Station) :
    ((enqueueReply st r (warmReset s)).link q).cleared := by
  by_cases hq : q = st
  · subst hq
    rw [link_replied_warmReset_self]
    exact ⟨rfl, rfl, rfl⟩
  · rw [link_enqueueReply_of_ne r hq, link_warmReset]
    exact ⟨rfl, rfl, rfl⟩

/-- The reply is under way and waits no longer, so both links stand cleared (R191). -/
theorem cleared_restarted (st : Station) (tag : Byte) (s : State) (q : Station) :
    ((restarted st tag s).link q).cleared :=
  cleared_markAll (cleared_replied_warmReset st _ _ q)

/-- The reply is the first frame that its link sends after the reset (R166). -/
theorem tx_restarted (st : Station) (tag : Byte) (s : State) :
    ∃ left, ((restarted st tag s).link st).tx = some ⟨replyFrame 0x11 tag .ok [], left⟩ :=
  ⟨_, tx_markAll (by rw [link_replied_warmReset_self])⟩

/-- Settles O38: the two refusals as requests that send their reply alone; of an accepted RESTART, the blocks from what
the reset leaves inside the part, the links from the reply and the ten marks. -/
theorem restartResetsBlocks : Obligations.RestartResetsBlocks := by
  unfold Obligations.RestartResetsBlocks
  rintro st tag s f ha hr rfl
  have hf : (frameDone st s).agenda = [] := (agenda_frameDone st s).trans ha
  have hstored : (frameDone st s).stored = s.stored := (frameDone_moves (k := 1) st s le_rfl).storedHeld le_rfl
  rw [exec_restart st tag hr, ← rne_frameDone st s, ← holder_frameDone st s, ← hstored]
  generalize frameDone st s = f at hf ⊢
  refine ⟨?noAuthority, fun hmay => ?_⟩
  case noAuthority =>
    intro hh hd
    have hmay : ¬f.mayRestart st = true := by
      rw [mayRestart_iff]
      rintro (h | ⟨h, rfl⟩)
      · exact hh h
      · exact hd.elim (· h) nofun
    rw [restartBody_noAuthority st tag hmay, settle_answer _ _ _ _ _ hf]
  have hmay := (mayRestart_iff f st).2 hmay
  refine ⟨?wrongState, ?accepted⟩
  case wrongState =>
    intro h1 h2
    rw [restartBody_wrongState st tag hmay h1 h2, settle_answer _ _ _ _ _ hf]
  case accepted =>
    intro he
    rw [restartBody_accepted st tag hmay he, settle_restarted]
    have hi := inner_restarted st tag f
    refine ⟨_, rfl, stored_restarted st tag f, rne_of_inner hi, ilk_of_inner hi, (tru_of_inner hi :), fun a => ?axis,
      lock_restarted st tag f, fun w => (unit_of_inner hi w).trans (unit_warmReset _ w), ?wants, cau_of_inner hi,
      pmt_of_inner hi, ?forced, ?inputs, cleared_restarted st tag f, tx_restarted st tag f, fun _ _ => shows_markAll⟩
    case axis =>
      rw [axis_restarted, drives_of_inner hi, drives_warmReset]
      exact ⟨rfl, rfl, rfl, rfl, rfl⟩
    case wants => rw [hsa_of_inner hi]; rfl
    case forced => rw [vod_of_inner hi]; rfl
    case inputs =>
      rw [dic_of_inner hi]
      exact fun _ => mem_inputs_warmReset

end Sys2Proof.Machine
end

