-- ==== Sys2Proof/Proofs/Setmask.lean ====
section
/-! PROOFS. SETMASK (R187): the word that its two bytes make, what the request comes to, and its two outcomes. -/

namespace Sys2Proof.Machine

variable {s : State}

/-! ## The word of two bytes (R179, R190) -/

/-- The word of two bytes fits in 16 bits. -/
theorem wordVal_lt (lo hi : Byte) : wordVal lo hi < 2 ^ 16 := by
  unfold wordVal
  omega

/-- A word keeps the value of its two bytes. -/
theorem toNat_ofNat_wordVal (lo hi : Byte) : (BitVec.ofNat 16 (wordVal lo hi)).toNat = wordVal lo hi :=
  Nat.mod_eq_of_lt (wordVal_lt lo hi)

/-- Sent least significant byte first, the word of two bytes gives them back. -/
theorem wordOf_wordVal (lo hi : Byte) : wordOf (wordVal lo hi) = [lo, hi] := by
  have hlo : byteOf (wordVal lo hi) = lo := by
    apply BitVec.eq_of_toNat_eq
    simp only [byteOf, wordVal, BitVec.toNat_ofNat]
    omega
  have hhi : byteOf (wordVal lo hi / 256) = hi := by
    apply BitVec.eq_of_toNat_eq
    simp only [byteOf, wordVal, BitVec.toNat_ofNat]
    omega
  rw [wordOf, hlo, hhi]

/-! ## The request -/

/-- A link with a mask in place and the subjects that it masks gone from the pending report set (R187). -/
def Link.setMask (l : Link) (m : Word) : Link :=
  { l with mask := m, reports := l.reports.filter fun sub => m.getLsbD (subjectCode sub) }

/-- A mask with a bit above 9 is refused (R187). -/
theorem setmaskRequest_refused (st : Station) (lo hi : Byte)
    (h : 0x3FF < (BitVec.ofNat 16 (wordVal lo hi)).toNat) : setmaskRequest st lo hi s = refuse s .badValue :=
  if_pos h

/-- Any other mask is put in place at its link, and the reply gives it as it came (R187). -/
theorem setmaskRequest_stored (st : Station) (lo hi : Byte)
    (h : (BitVec.ofNat 16 (wordVal lo hi)).toNat ≤ 0x3FF) : setmaskRequest st lo hi s =
      ⟨s.setLink st ((s.link st).setMask (BitVec.ofNat 16 (wordVal lo hi))), .ok, [lo, hi]⟩ :=
  calc setmaskRequest st lo hi s
    _ = ⟨s.setLink st ((s.link st).setMask (BitVec.ofNat 16 (wordVal lo hi))), .ok,
          wordOf (BitVec.ofNat 16 (wordVal lo hi)).toNat⟩ := if_neg (Nat.not_lt.2 h)
    _ = _ := by rw [toNat_ofNat_wordVal, wordOf_wordVal]

/-- A two-byte SETMASK with room for its reply is handled by the link it arrived at (R183). -/
theorem exec_setmask (st : Station) (tag lo hi : Byte) (hr : s.hasRoom st) :
    exec (.setmask st tag [lo, hi]) s =
      .next (settle ((setmaskRequest st lo hi (frameDone st s)).reply st 0x0E tag)) :=
  exec_dispatch (kind := 0x0E) (tag := tag) (p := [lo, hi]) rfl hr (by decide) rfl

/-- Settles O24: SETMASK sends its reply alone, so each outcome is the reply enqueued where the request's own effect
leaves the part. -/
theorem setmaskStoresTheMask : Obligations.SetmaskStoresTheMask := by
  unfold Obligations.SetmaskStoresTheMask
  rintro st tag lo hi s _ _ ha hr rfl rfl
  have hf : (frameDone st s).agenda = [] := (agenda_frameDone st s).trans ha
  rw [exec_setmask st tag lo hi hr]
  refine ⟨?refused, ?stored⟩
  case refused =>
    intro h
    rw [setmaskRequest_refused st lo hi h]
    exact congrArg _ (settle_result (refuse _ .badValue) st 0x0E tag hf)
  case stored =>
    intro h
    rw [setmaskRequest_stored st lo hi h]
    exact congrArg _ (settle_result ⟨_, .ok, [lo, hi]⟩ st 0x0E tag ((agenda_setLink _ st _).trans hf))

end Sys2Proof.Machine
end

