-- ==== Sys2Proof/Proofs/Invariants.lean ====
section
/-! PROOFS. What every step keeps (O4 to O10, O12, O13): a command is a chain of moves and moves keep each invariant, so
that what is left for each is one millisecond; and that the invariants hold after a power-on reset. -/

namespace Sys2Proof.Machine

variable {s t : State}

/-! ## The messages of a command -/

/-- An event with all it brings ends with no message under way. -/
theorem agenda_of_ends {u : State} (h : ends u = .next t) : t.agenda = [] := by cases h; rfl

theorem agenda_of_pinEvent {g : Group} {n : Nat} {f : State → State} (h : pinEvent g n f s = .next t) :
    t.agenda = [] := by
  unfold pinEvent at h
  split at h
  · exact agenda_of_ends h
  · cases h

@[simp] theorem agenda_adoptAxis (a : Axis) (s : State) : (adoptAxis a s).agenda = s.agenda := by
  simp [adoptAxis, State.putDrives]

/-- A command sends no message that outlives it: most end in `settle`, and the few that do not send none. -/
theorem exec_agenda {c : Instr} (hs : s.agenda = []) (h : exec c s = .next t) : t.agenda = [] := by
  cases c with
  | powerOnReset => cases h; rfl
  | frameGapExpiry st => cases h; split <;> simpa [setAsm] using hs
  | frameSent st => cases h; split <;> simpa [txDone] using hs
  | pwmPeriodStart => cases h; simpa [pwmStart] using hs
  | breakawayEnd a => cases h; unfold endBreakaway; split <;> simpa using hs
  | endSwitchFirstValue a c o => cases h; simpa [storeSwitches, switchValues, State.modDic] using hs
  | pinSensorEdge g n e w => exact agenda_of_pinEvent h
  | pinSensorFirstValue g n e w => exact agenda_of_pinEvent h
  | conflictTimerExpiry g n => exact agenda_of_pinEvent h
  | transitLimitExpiry g n => exact agenda_of_pinEvent h
  | _ => cases h; rfl

/-- Settles O4: no command leaves a message, and a millisecond sends none. -/
theorem messagesEndWithTheStep : Obligations.MessagesEndWithTheStep := by
  unfold Obligations.MessagesEndWithTheStep State.agendaEmpty
  intro s t hs h
  cases step_cases h with
  | command c rest h => exact exec_agenda (s := { s with pending := rest }) hs h
  | event c several _ h => exact exec_agenda (s := s.taken c several) hs h
  | tick h => rw [h]; exact hs

/-! ## One millisecond -/

@[simp] theorem drives_advance (s : State) (a : Axis) : (advance s).drives a = s.drives a := by cases a <;> rfl
@[simp] theorem link_advance (s : State) (q : Station) : (advance s).link q = (s.link q).tick := by cases q <;> rfl
@[simp] theorem unit_advance (s : State) (w : UnitId) : (advance s).unit w = (s.unit w).tick := by cases w <;> rfl

theorem isSome_down (t : Option Nat) : (down t).isSome = t.isSome := Option.isSome_map

/-- A timer that runs on runs still, so the unit's timers fit its state as before (R124 to R126). -/
theorem PumpUnit.ok_tick {u : PumpUnit} (h : u.ok) : u.tick.ok := by
  unfold PumpUnit.ok PumpUnit.tick at *
  simpa only [isSome_down] using h

/-- Settles O5: a millisecond moves no output. -/
theorem valvesApartKept : Obligations.ValvesApartKept := fun s _ hs h =>
  step_keeps (P := State.valvesApart) h hs (fun m => m.valvesApart) fun hs a => by
    rw [drives_advance]; exact hs a

/-- The forced state holds every solenoid off (R177). -/
theorem solenoidsOff_of_forced (h : s.vod.forced = true) (g : Group) :
    s.engageOn g = false ∧ s.withdrawOn g = false := by
  simp [State.engageOn, State.withdrawOn, h]

/-- Settles O6: a millisecond moves no output and latches nothing; under a latched trip VOD is in the forced state. -/
theorem tripHoldsOffKept : Obligations.TripHoldsOffKept := by
  refine ⟨fun s _ hs h => ?kept, fun s hs hr => ?off⟩
  case kept =>
    exact step_keeps (P := State.tripHoldsOff) h hs (fun m => m.tripHoldsOff) fun hs =>
      ⟨hs.1, fun hf a => by rw [drives_advance]; exact hs.2 hf a⟩
  case off =>
    have hf : s.vod.forced = true := hs.1.trans hr
    exact ⟨hs.2 hf, solenoidsOff_of_forced hf⟩

/-- Settles O7: a millisecond changes no role. -/
theorem authorityKept : Obligations.AuthorityKept := fun _ _ hs h =>
  step_keeps (P := fun s => s.cau.ok) h hs (fun m => m.cauOk) id

/-- Settles O8: a millisecond moves the timers of the units alone. -/
theorem supplyKept : Obligations.SupplyKept := fun _ _ hs h =>
  step_keeps (P := State.supplyOk) h hs (fun m => m.supplyOk) fun ⟨h1, h2, hw⟩ =>
    ⟨PumpUnit.ok_tick h1, PumpUnit.ok_tick h2, hw⟩

/-- Settles O9: a millisecond leaves the watched-action list. -/
theorem watchedListKept : Obligations.WatchedListKept := fun _ _ hs h =>
  step_keeps (P := fun s => watchOk s.ilk.watch) h hs (fun m => m.watchInOrder) id

/-- Settles O10: a millisecond leaves the pending report sets and the masks. -/
theorem reportSetsKept : Obligations.ReportSetsKept := fun _ _ hs h =>
  step_keeps (P := State.reportsOk) h hs (fun m => m.reportsOk) id

/-! ## Commands that store nothing and clear no trip -/

/-- Such a command is a chain of moves at level 1. -/
theorem exec_moves_plain {c : Instr} (hp : plainCommand c = true) (hw : c.wellFormed = true)
    (h : exec c s = .next t) : Moves 1 s t :=
  exec_moves le_rfl (fun hn => by simp [hp, hw] at hn) h

/-- Messages move nothing that the stations have stored. -/
theorem stored_settle (s : State) : (settle s).stored = s.stored :=
  (settle_moves (k := 0) s).storedHeld (Nat.zero_le 1)

theorem stored_frameDone (st : Station) (s : State) : (frameDone st s).stored = s.stored :=
  (frameDone_moves (k := 1) st s le_rfl).storedHeld le_rfl

theorem stored_setUnit (w : UnitId) (v : PumpUnit) (s : State) : (s.setUnit w v).stored = s.stored := by
  cases w <;> rfl

theorem stored_hsaRecover (s : State) : (hsaRecover s).stored = s.stored :=
  calc (hsaRecover s).stored
    _ = ((s.modUnit .u1 PumpUnit.recover).modUnit .u2 PumpUnit.recover).stored :=
      (markIf_moves (k := 0) _ .supply _).storedHeld (Nat.zero_le 1)
    _ = s.stored := (stored_setUnit _ _ _).trans (stored_setUnit _ _ _)

theorem stored_clearTrip (s : State) : (clearTrip s).stored = s.stored :=
  (mark_moves (k := 0) .trip _).storedHeld (Nat.zero_le 1)

/-- An accepted ACKNOWLEDGE clears the trip and the latches, and no item that is stored (R163). -/
theorem stored_acceptAck (s : State) : (acceptAck s).stored = s.stored := by
  have reeval : ∀ u : State, (if s.tru.latch then u.emit [.reeval] else u).stored = u.stored := fun u => by
    split <;> rfl
  calc (acceptAck s).stored
    _ = (hsaRecover (ackMembers (if s.tru.latch then (clearTrip s).emit [.reeval] else clearTrip s))).stored :=
      (runEvent_moves (k := 0) _ (by rfl)).storedHeld (Nat.zero_le 1)
    _ = (ackMembers (if s.tru.latch then (clearTrip s).emit [.reeval] else clearTrip s)).stored :=
      stored_hsaRecover _
    _ = (if s.tru.latch then (clearTrip s).emit [.reeval] else clearTrip s).stored :=
      (ackMembers_moves (k := 1) _ (by decide)).storedHeld le_rfl
    _ = s.stored := (reeval _).trans (stored_clearTrip s)

/-- ACKNOWLEDGE leaves what the stations have stored (R162 to R164). -/
theorem stored_ackBody (st : Station) (tag : Byte) (s : State) : (ackBody st tag s).stored = s.stored := by
  unfold ackBody
  split_ifs
  · rfl
  · exact stored_hsaRecover s
  · exact stored_acceptAck s
  · rfl

/-- RESTART leaves what the stations have stored (R166). -/
theorem stored_restartBody (st : Station) (tag : Byte) (s : State) : (restartBody st tag s).stored = s.stored := by
  unfold restartBody
  split_ifs
  · rfl
  · rfl
  · exact stored_restarted st tag s

/-- A request leaves what the stations have stored where its owner does: every other answer is the link's. -/
theorem stored_request {c : Instr} {st : Station} {kind tag : Byte} {p : List Byte}
    (hc : requestOf c = some (st, kind, tag, p)) (h7 : kind ≠ 0x07)
    (hd : ∀ u, (dispatch st kind tag p u).stored = u.stored) (h : exec c s = .next t) : t.stored = s.stored := by
  rw [exec_of_requestOf hc] at h
  cases h
  rw [stored_settle, ← stored_frameDone st s]
  generalize frameDone st s = f
  unfold takeRequest
  rw [if_neg fun h => h7 h.1]
  split
  · rfl
  · split
    · rfl
    · split
      · exact hd f
      · rfl

/-- Settles O12: plain commands by their moves, ACKNOWLEDGE and RESTART by what their owners do. -/
theorem storedItemsKept : Obligations.StoredItemsKept :=
  ⟨fun _ _ _ hp hw h => (exec_moves_plain hp hw h).storedHeld le_rfl,
    fun st tag p _ _ h => stored_request (kind := 0x10) (tag := tag) (p := p) rfl (by decide) (stored_ackBody st tag) h,
    fun st tag p _ _ h =>
      stored_request (kind := 0x11) (tag := tag) (p := p) rfl (by decide) (stored_restartBody st tag) h⟩

/-- Settles O13: the moves of such a command keep a latched record and a FAILED unit's. -/
theorem recordsKept : Obligations.RecordsKept :=
  ⟨fun _ _ _ _ hp hw h hr => (exec_moves_plain hp hw h).recordHeld le_rfl hr,
    fun _ _ _ w hok hp hw h hf => (exec_moves_plain hp hw h).failedHeld le_rfl hok w hf⟩

/-! ## After a power-on reset -/

/-- Settles O11. -/
theorem invariantsAtReset : Obligations.InvariantsAtReset := by
  have link : (linkAtReset 0x03FF).reportsOk := ⟨List.nodup_nil, by simp [linkAtReset]⟩
  have unit : unitAtReset.ok := by simp [unitAtReset, PumpUnit.ok]
  have roles : (cauAtReset 3).ok := ⟨fun _ => rfl, fun _ => rfl, fun _ h => nomatch h⟩
  refine ⟨rfl, fun a => ?valves, ⟨rfl, nofun⟩, roles, ⟨unit, unit, List.Pairwise.nil⟩, List.Pairwise.nil, link, link⟩
  case valves =>
    have hz : State.reset.drives a = zeroDrives := by cases a <;> rfl
    rw [hz]
    simp [zeroDrives, zeroDrive, Drives.apart, cylinderOk]

/-- Settles O2. -/
theorem stepTakesFront : Obligations.StepTakesFront := fun _ _ => rfl

end Sys2Proof.Machine
end

