-- ==== Sys2Proof/Proofs/ResetTime.lean ====
section
/-! PROOFS. What a power-on reset leaves (O1), the step on an empty queue and one millisecond (O3), and the start of a
PWM period (O53). -/

namespace Sys2Proof.Machine

variable {s t : State}

/-! ## Power-on reset (R178) -/

/-- The lines stay as they are, and every input starts over (R172, R178). -/
theorem powerOn_eq (s : State) : powerOn s = { State.reset with
    dic := { State.reset.dic with inputs := s.dic.inputs.map fun x => { x with filtered := none, run := 0 } },
    chVis := s.chVis, chRmp := s.chRmp, chInr := s.chInr, pending := s.pending, fresh := s.fresh } := rfl

theorem axis_reset (a : Axis) : State.reset.axis a =
    axisAtReset (defaultAxisParams a) defaultW0 (defaultWindows a) longZeros := by cases a <;> rfl

theorem lock_reset (g : Group) : State.reset.lock g = lockAtReset g defaultLockParams := by cases g <;> rfl

theorem unit_reset (w : UnitId) : State.reset.unit w = unitAtReset := by cases w <;> rfl

theorem link_reset (q : Station) : State.reset.link q = linkAtReset 0x03FF := by cases q <;> rfl

theorem drives_reset (a : Axis) : State.reset.drives a = zeroDrives := by cases a <;> rfl

/-- At a reset no input has a filtered value or a count (R172). -/
theorem mem_inputs_reset {x : DicInput} (h : x ∈ State.reset.dic.inputs) : x.filtered = none ∧ x.run = 0 := by
  obtain ⟨i, -, rfl⟩ := List.mem_map.1 h
  exact ⟨rfl, rfl⟩

/-- Settles O1: by block, from the value each takes at a reset. -/
theorem resetValues : Obligations.ResetValues := by
  unfold Obligations.ResetValues
  refine ⟨fun s => ⟨_, rfl, powerOn_eq s⟩, ⟨rfl, rfl, rfl, rfl, rfl⟩,
    ⟨rfl, rfl, rfl, rfl, rfl, rfl, rfl, rfl, rfl, rfl, rfl, rfl, rfl⟩, fun a => ?axes, fun g => ?locks, fun w => ?units,
    ⟨rfl, rfl, rfl⟩, ⟨rfl, rfl, rfl, rfl, rfl, rfl, rfl, rfl, rfl⟩, ⟨rfl, rfl, rfl, rfl, rfl, rfl⟩,
    ⟨rfl, fun x => mem_inputs_reset, rfl⟩, fun q => ?links, rfl, rfl, rfl⟩
  case axes => rw [axis_reset, drives_reset]; exact ⟨rfl, rfl, rfl, rfl, rfl, rfl, rfl, rfl, rfl, rfl, rfl, rfl, rfl⟩
  case locks => rw [lock_reset]; exact ⟨rfl, rfl, rfl, rfl, rfl, rfl, rfl, rfl⟩
  case units => rw [unit_reset]; exact ⟨rfl, rfl, rfl, rfl⟩
  case links => rw [link_reset]; exact ⟨rfl, rfl, by cases q <;> rfl, rfl, rfl, rfl, rfl⟩

/-! ## The step on an empty queue (log 4, log 5) -/

theorem step_nil (h : s.pending = []) : step s = idle s := by simp only [step, h]

/-- With nothing due a millisecond passes. -/
theorem idle_none (h : s.due = []) : idle s = .next (advance s) := by
  simp [idle, State.nextEvent, h, chosen]

/-- What is due alone is taken. -/
theorem idle_one {c : Instr} (h : s.due = [c]) : idle s = exec c (s.taken c false) := by
  simp [idle, State.nextEvent, h, chosen]

/-- Of several due events one is taken, and the free order is used. -/
theorem idle_several (h : 2 ≤ s.due.length) : ∃ c ∈ s.due, idle s = exec c (s.taken c true) := by
  have hn : s.due ≠ [] := by rintro hn; simp [hn] at h
  obtain ⟨c, hc⟩ := chosen_isSome hn (Config.freeOrder s.fresh)
  have h1 : 1 < s.due.length := h
  exact ⟨c, chosen_mem hc, by simp [idle, State.nextEvent, h1, hc]⟩

/-! ## Sampling (R171 to R173) -/

theorem sample_waiting {x : DicInput} {n k : Nat} (h : x.filtered = none) (hk : k < n) : x.sample n k = x := by
  simp [DicInput.sample, h, hk]

theorem sample_first {x : DicInput} {n k : Nat} (h : x.filtered = none) (hk : n ≤ k) :
    x.sample n k = { x with filtered := some x.level } := by
  simp [DicInput.sample, h, hk]

theorem sample_same {x : DicInput} {v : Bool} (n k : Nat) (h : x.filtered = some v) (hl : x.level = v) :
    x.sample n k = { x with run := 0 } := by
  simp [DicInput.sample, h, hl]

theorem sample_counted {x : DicInput} {n : Nat} {v : Bool} (k : Nat) (h : x.filtered = some v) (hl : x.level ≠ v)
    (hr : x.run + 1 < n) : x.sample n k = { x with run := x.run + 1 } := by
  simp [DicInput.sample, h, hl, hr]

theorem sample_changed {x : DicInput} {n : Nat} {v : Bool} (k : Nat) (h : x.filtered = some v) (hl : x.level ≠ v)
    (hr : n ≤ x.run + 1) : x.sample n k = { x with filtered := some x.level, run := 0 } := by
  simp [DicInput.sample, h, hl, hr]

/-! ## Deliveries (R173) -/

theorem mem_allAxes (a : Axis) : a ∈ allAxes := by cases a <;> decide

theorem mem_allGroups (g : Group) : g ∈ allGroups := by cases g <;> decide

/-- A group's deliveries are those of its pins. -/
theorem mem_groupDelivery {d e : Dic} {g : Group} {c : Instr} :
    c ∈ groupDelivery d e g ↔ ∃ n, 1 ≤ n ∧ n ≤ g.pinCount ∧ c ∈ pinDelivery d e g n := by
  simp only [groupDelivery, List.mem_flatMap, List.mem_range]
  constructor
  · rintro ⟨i, hi, hc⟩
    exact ⟨i + 1, Nat.le_add_left _ _, hi, hc⟩
  · rintro ⟨n, h1, hn, hc⟩
    obtain ⟨i, rfl⟩ := Nat.exists_eq_add_of_le' h1
    exact ⟨i, hn, hc⟩

/-- The deliveries of a sample are those of its pins, end switches, unit inputs, loops and key. -/
theorem mem_deliveries {d e : Dic} {c : Instr} : c ∈ deliveries d e ↔
    (∃ g n, 1 ≤ n ∧ n ≤ g.pinCount ∧ c ∈ pinDelivery d e g n) ∨ (∃ a, c ∈ switchDelivery d e a) ∨
    (∃ u, c ∈ oneDelivery d e (.pressure u) (.pressureOkEdge u) (.unitInputFirstValue u .pressureOk)) ∨
    (∃ u, c ∈ oneDelivery d e (.motorTrip u) (.motorTripEdge u) (.unitInputFirstValue u .motorTrip)) ∨
    (∃ st, c ∈ oneDelivery d e (.loop st) (.loopEdge st) (.loopFirstValue st)) ∨
    c ∈ oneDelivery d e .key .keyEdge .keyFirstValue := by
  have units : ∀ p : UnitId → Prop, (∃ u, p u) ↔ p .u1 ∨ p .u2 := fun p =>
    ⟨fun ⟨u, h⟩ => by cases u <;> [exact .inl h; exact .inr h], fun h => h.elim (⟨_, ·⟩) (⟨_, ·⟩)⟩
  have stations : ∀ p : Station → Prop, (∃ u, p u) ↔ p .bridge ∨ p .deck := fun p =>
    ⟨fun ⟨u, h⟩ => by cases u <;> [exact .inl h; exact .inr h], fun h => h.elim (⟨_, ·⟩) (⟨_, ·⟩)⟩
  simp only [deliveries, unitDelivery, List.mem_append, List.mem_flatMap, mem_groupDelivery, mem_allAxes, mem_allGroups,
    true_and, units, stations]
  refine iff_of_eq ?_
  ac_rfl

/-- The new value of an input at a sample from `d` to `e`, where there is one. -/
def Dic.newValue (d e : Dic) (i : Input) : Option Bool :=
  if (d.find i).filtered = (e.find i).filtered then none else (e.find i).filtered

/-- Two inputs of one owner: nothing where neither has a new value, else one event, of first values where the first of
those that are new is one (R173). -/
def Dic.pairEvent (d e : Dic) (i j : Input) (edge first : Option Bool → Option Bool → Instr) : List Instr :=
  if d.newValue e i = none ∧ d.newValue e j = none then []
  else if (if d.newValue e i ≠ none then (d.find i).filtered = none else (d.find j).filtered = none) then
    [first (d.newValue e i) (d.newValue e j)]
  else [edge (d.newValue e i) (d.newValue e j)]

theorem pairNews_eq (d e : Dic) (i j : Input) : pairNews d e i j =
    if d.newValue e i = none ∧ d.newValue e j = none then none
    else some (decide (if d.newValue e i ≠ none then (d.find i).filtered = none else (d.find j).filtered = none),
      d.newValue e i, d.newValue e j) := by
  have hn : ∀ i, (d.find i).news (e.find i) = d.newValue e i := fun _ => rfl
  have hf : ∀ x : DicInput, x.isFirst = decide (x.filtered = none) := fun x => by
    unfold DicInput.isFirst; cases x.filtered <;> rfl
  simp only [pairNews, hn, hf]
  cases hi : d.newValue e i <;> cases hj : d.newValue e j <;> simp

theorem pinDelivery_eq (d e : Dic) (g : Group) (n : Nat) : pinDelivery d e g n =
    d.pairEvent e (.pinEngaged g n) (.pinWithdrawn g n) (.pinSensorEdge g n) (.pinSensorFirstValue g n) := by
  simp only [pinDelivery, pairNews_eq, Dic.pairEvent]
  split_ifs <;> simp_all

theorem switchDelivery_eq (d e : Dic) (a : Axis) : switchDelivery d e a =
    d.pairEvent e (.endClosed a) (.endOpen a) (.endSwitchEdge a) (.endSwitchFirstValue a) := by
  simp only [switchDelivery, pairNews_eq, Dic.pairEvent]
  split_ifs <;> simp_all

theorem oneDelivery_none {d e : Dic} {i : Input} (edge first : Bool → Instr) (h : d.newValue e i = none) :
    oneDelivery d e i edge first = [] := by
  have hn : (d.find i).news (e.find i) = none := h
  simp only [oneDelivery, hn]

theorem oneDelivery_some {d e : Dic} {i : Input} {v : Bool} (edge first : Bool → Instr) (h : d.newValue e i = some v) :
    oneDelivery d e i edge first = [if (d.find i).filtered = none then first v else edge v] := by
  have hn : (d.find i).news (e.find i) = some v := h
  simp only [oneDelivery, hn, DicInput.isFirst, Option.isNone_iff_eq_none]

/-! ## One millisecond -/

@[simp] theorem axis_advance (s : State) (a : Axis) : (advance s).axis a = (s.axis a).tick (s.drives a) := by
  cases a <;> rfl
@[simp] theorem lock_advance (s : State) (g : Group) : (advance s).lock g = (s.lock g).tick := by cases g <;> rfl
@[simp] theorem channels_advance (s : State) (a : Axis) : (advance s).channels a = s.channels a := by cases a <;> rfl

/-- Settles O3: the three outcomes of the step, the branches of a sample, the deliveries by owner, and the millisecond
block by block. -/
theorem stepOnEmptyQueue : Obligations.StepOnEmptyQueue := by
  unfold Obligations.StepOnEmptyQueue
  refine ⟨fun s hs => ?step, fun x n k => ?sample, fun d => ⟨rfl, rfl, rfl, rfl⟩, fun d e c => mem_deliveries,
    fun d e => ?forms, fun s => ?millisecond⟩
  case step =>
    rw [step_nil hs]
    exact ⟨idle_none, fun _ => idle_one, idle_several⟩
  case sample =>
    exact ⟨sample_waiting, sample_first, fun v h => ⟨sample_same n k h, sample_counted k h, sample_changed k h⟩⟩
  case forms =>
    exact ⟨pinDelivery_eq d e, switchDelivery_eq d e, fun i edge first =>
      ⟨oneDelivery_none edge first, fun v => oneDelivery_some edge first⟩⟩
  case millisecond =>
    exact ⟨axis_advance s, lock_advance s, unit_advance s, link_advance s, rfl, rfl, rfl, rfl, rfl, rfl, rfl, rfl, rfl, rfl,
      channels_advance s, rfl, rfl, rfl⟩

/-! ## The start of a PWM period (R175) -/

theorem adoptAxis_vis (s : State) : adoptAxis .vis s = { s with
    vod := { s.vod with vis := s.vod.vis.adopted }
    vis := { s.vis with zero := s.vis.zero.after s.vod.vis s.vod.vis.adopted } } := rfl

theorem adoptAxis_rmp (s : State) : adoptAxis .rmp s = { s with
    vod := { s.vod with rmp := s.vod.rmp.adopted }
    rmp := { s.rmp with zero := s.rmp.zero.after s.vod.rmp s.vod.rmp.adopted } } := rfl

theorem adoptAxis_inr (s : State) : adoptAxis .inr s = { s with
    vod := { s.vod with inr := s.vod.inr.adopted }
    inr := { s.inr with zero := s.inr.zero.after s.vod.inr s.vod.inr.adopted } } := rfl

/-- Settles O53: each axis's outputs adopt what is pending, and its zero times follow. -/
theorem pwmStartAdoptsCompares : Obligations.PwmStartAdoptsCompares := fun s =>
  ⟨pwmStart s, rfl, by simp only [pwmStart, adoptAxis_vis, adoptAxis_rmp, adoptAxis_inr]⟩

end Sys2Proof.Machine
end

