-- ==== Sys2Proof/Proofs/Read.lean ====
section
/-! PROOFS. What a link interface answers itself (O14), what a READ is answered with (O15), and the READ and SET requests
that are refused (O16). -/

namespace Sys2Proof.Machine

variable {s f : State} {c : Instr} {st : Station} {kind tag : Byte} {p : List Byte}

/-! ## The steps of a request (R183) -/

/-- A full reply queue discards any request but a PERMIT. -/
theorem takeRequest_full (tag : Byte) (h7 : kind ≠ 0x07 ∨ p ≠ []) (h : 4 ≤ (s.link st).replies.length) :
    takeRequest st kind tag p s = s :=
  (if_neg fun hn => h7.elim (· hn.1) (· hn.2)).trans (if_pos h)

theorem takeRequest_unknown (tag : Byte) (h7 : kind ≠ 0x07 ∨ p ≠ []) (h : (s.link st).replies.length < 4)
    (hk : lengthOf kind = none) : takeRequest st kind tag p s = s.emit [.reply st (unknownFrame kind tag)] := by
  unfold takeRequest
  rw [if_neg fun hn => h7.elim (· hn.1) (· hn.2), if_neg (Nat.not_le.2 h), hk]

theorem takeRequest_badLength {n : Nat} (tag : Byte) (h7 : kind ≠ 0x07 ∨ p ≠ []) (h : (s.link st).replies.length < 4)
    (hk : lengthOf kind = some n) (hp : p.length ≠ n) :
    takeRequest st kind tag p s = answer st kind tag .badLength [] s := by
  unfold takeRequest
  rw [if_neg fun hn => h7.elim (· hn.1) (· hn.2), if_neg (Nat.not_le.2 h), hk]
  exact if_neg hp

/-- A request that has sent nothing but a frame to its link ends with the frame enqueued. -/
theorem settle_reply (st : Station) (r : Frame) (h : s.agenda = []) :
    settle (s.emit [.reply st r]) = enqueueReply st r s :=
  settle_emit_one (.reply st r) h ((agenda_enqueueReply st r s).trans h)

/-- Settles O14: by the first step of R183 that ends the request. -/
theorem requestGateAnswersItself : Obligations.RequestGateAnswersItself := by
  unfold Obligations.RequestGateAnswersItself
  rintro c st kind tag p s f hc ha rfl h7
  have hf : (frameDone st s).agenda = [] := (agenda_frameDone st s).trans ha
  rw [exec_of_requestOf hc]
  generalize frameDone st s = f at hf ⊢
  refine ⟨fun h => ?full, fun h hk => ?unknown, fun n h hk hp => ?length⟩
  case full => rw [takeRequest_full tag h7 h, settle_nil hf]
  case unknown => rw [takeRequest_unknown tag h7 h hk, settle_reply st _ hf]; rfl
  case length => rw [takeRequest_badLength tag h7 h hk hp, settle_answer _ _ _ _ _ hf]

/-! ## READ (R186) -/

/-- A three-byte READ with room for its reply is handled at the link's owner of the item. -/
theorem exec_read {type a b : Byte} (hc : requestOf c = some (st, 0x0F, tag, [type, a, b])) (hr : s.hasRoom st) :
    exec c s = .next (settle ((readRequest st type a b (frameDone st s)).reply st 0x0F tag)) :=
  exec_dispatch hc hr (by decide) rfl

/-- A READ whose operands name an item is answered with its content and changes nothing else. -/
theorem exec_read_item {type a b : Byte} {bs : List Byte} (hc : requestOf c = some (st, 0x0F, tag, [type, a, b]))
    (hr : s.hasRoom st) (ha : (frameDone st s).agenda = [])
    (hi : (frameDone st s).item st type.toNat a.toNat b.toNat = some bs) :
    exec c s = .next (replied st 0x0F tag .ok ([type, a, b] ++ bs) (frameDone st s)) := by
  rw [exec_read hc hr, readRequest, hi]
  exact congrArg _ (settle_result ⟨_, .ok, _⟩ st 0x0F tag ha)

/-- A READ whose operands name no item is refused and changes nothing. -/
theorem exec_read_refused {type a b : Byte} (hc : requestOf c = some (st, 0x0F, tag, [type, a, b]))
    (hr : s.hasRoom st) (ha : (frameDone st s).agenda = [])
    (hi : (frameDone st s).item st type.toNat a.toNat b.toNat = none) :
    exec c s = .next (replied st 0x0F tag .badValue [] (frameDone st s)) := by
  rw [exec_read hc hr, readRequest, hi]
  exact congrArg _ (settle_result (refuse _ .badValue) st 0x0F tag ha)

theorem toNat_ne_zero {b : Byte} (h : b ≠ 0) : b.toNat ≠ 0 := fun hn => h (BitVec.eq_of_toNat_eq hn)

/-- Settles O15: by item type, the content of the item. -/
theorem readAnswersItems : Obligations.ReadAnswersItems := by
  unfold Obligations.ReadAnswersItems
  rintro st tag b s _ ha hr rfl
  have hf : (frameDone st s).agenda = [] := (agenda_frameDone st s).trans ha
  refine ⟨fun a sub h => ?subject, fun a q h => ?parameter, fun a ax h => ?profile, fun a ax w h hb hw => ?window,
    fun a q h hq => ?step, fun a q h => ?length, exec_read_item rfl hr hf rfl⟩
  case subject => exact exec_read_item rfl hr hf (congrArg (Option.map _) h)
  case parameter => exact exec_read_item rfl hr hf (congrArg (Option.map _) h)
  case profile => exact exec_read_item rfl hr hf (congrArg (Option.bind · _) h)
  case window =>
    refine exec_read_item rfl hr hf ((congrArg (Option.bind · _) h).trans ?_)
    show ((frameDone st s).axis ax).readWindow b.toNat = _
    rw [AxisState.readWindow, if_neg (toNat_ne_zero hb), hw]
    rfl
  case step => exact exec_read_item rfl hr hf ((congrArg (Option.bind · _) h).trans (if_pos hq))
  case length => exact exec_read_item rfl hr hf (congrArg (Option.map _) h)

/-! ## Operands that name no item (R186) -/

theorem subjectOfCode_of_lt {n : Nat} (h : 9 < n) : subjectOfCode n = none := by
  obtain ⟨k, rfl⟩ := Nat.exists_eq_add_of_le' h
  rfl

theorem axisOfCode_of_lt {n : Nat} (h : 2 < n) : axisOfCode n = none := by
  obtain ⟨k, rfl⟩ := Nat.exists_eq_add_of_le' h
  rfl

theorem planOfCode_of_lt {n : Nat} (h : 4 < n) : planOfCode n = none := by
  obtain ⟨k, rfl⟩ := Nat.exists_eq_add_of_le' h
  rfl

theorem item_of_lt {type : Nat} (a b : Nat) (h : 5 < type) : f.item st type a b = none := by
  obtain ⟨k, rfl⟩ := Nat.exists_eq_add_of_le' h
  rfl

theorem item_subject_none {a b : Nat} (h : 9 < a ∨ b ≠ 0) : f.item st 0 a b = none := by
  show (if b = 0 then (subjectOfCode a).map f.report else none) = none
  rcases h with h | h
  · rw [subjectOfCode_of_lt h]; exact ite_self none
  · exact if_neg h

theorem item_parameter_none {a b : Nat} (h : paramOfId a = none ∨ b ≠ 0) : f.item st 1 a b = none := by
  show (if b = 0 then (paramOfId a).map fun p => wordOf (f.param p) else none) = none
  rcases h with h | h
  · rw [h]; exact ite_self none
  · exact if_neg h

theorem item_window_none {a b : Nat} (h : ∀ ax, axisOfCode a = some ax → (f.axis ax).readWindow b = none) :
    f.item st 2 a b = none :=
  Option.bind_eq_none_iff.2 h

theorem readWindow_of_length_lt {ax : AxisState} {n : Nat} (h : ax.windows.length < n) : ax.readWindow n = none := by
  have hn : n ≠ 0 := by omega
  simp only [AxisState.readWindow, hn, if_false, Option.map_eq_none_iff, List.getElem?_eq_none_iff]
  omega

/-- Step positions outside 1 to 12, and outside 1 for J, are not read. -/
theorem readsStep_eq_false {q : PlanId} {n : Nat} (h : n = 0 ∨ 12 < n ∨ (q = .j ∧ n ≠ 1)) : readsStep q n = false := by
  unfold readsStep
  rcases h with rfl | h | ⟨rfl, h⟩
  · rfl
  · split_ifs <;> simp <;> omega
  · simp [h]

theorem item_step_none {a b : Nat} (h : ∀ q, planOfCode a = some q → readsStep q b = false) :
    f.item st 3 a b = none :=
  Option.bind_eq_none_iff.2 fun q hq => if_neg (by simp [h q hq])

theorem item_length_none {a b : Nat} (h : 4 < a ∨ b ≠ 0) : f.item st 4 a b = none := by
  show (if b = 0 then (planOfCode a).map fun q => [byteOf (f.rne.plan q).len] else none) = none
  rcases h with h | h
  · rw [planOfCode_of_lt h]; exact ite_self none
  · exact if_neg h

theorem item_mask_none {a b : Nat} (h : a ≠ 0 ∨ b ≠ 0) : f.item st 5 a b = none :=
  if_neg fun hn => h.elim (· hn.1) (· hn.2)

/-! ## SET refused (R185) -/

theorem exec_setRequest {id lo hi : Byte} (hc : requestOf c = some (st, 0x0B, tag, [id, lo, hi])) (hr : s.hasRoom st) :
    exec c s = .next (settle ((setRequest st id lo hi (frameDone st s)).reply st 0x0B tag)) :=
  exec_dispatch hc hr (by decide) rfl

theorem setRequest_unknown (st : Station) {id : Byte} (lo hi : Byte) (h : paramOfId id.toNat = none) :
    setRequest st id lo hi s = refuse s .badValue := by
  unfold setRequest; rw [h]

theorem setRequest_notHolder {id : Byte} (lo hi : Byte) {q : Param} (h : paramOfId id.toNat = some q)
    (hh : s.cau.holder ≠ some st) : setRequest st id lo hi s = refuse s .noAuthority := by
  unfold setRequest
  rw [h]
  exact if_neg (by simpa [State.holds] using hh)

/-- Settles O16: a READ by the operand that names nothing, a SET by its identifier and then by the holder. -/
theorem requestRefusedUnchanged : Obligations.RequestRefusedUnchanged := by
  unfold Obligations.RequestRefusedUnchanged
  refine ⟨?read, ?set⟩
  case read =>
    rintro c st tag type a b s _ hc ha hr rfl h
    refine exec_read_refused hc hr ((agenda_frameDone st s).trans ha) ?_
    generalize frameDone st s = f at h
    rcases h with h | ⟨ht, h⟩ | ⟨ht, h⟩ | ⟨ht, h⟩ | ⟨ht, h, hw⟩ | ⟨ht, h⟩ | ⟨ht, h⟩ | ⟨ht, h⟩
    · exact item_of_lt _ _ h
    · rw [ht]; exact item_subject_none (h.imp_right toNat_ne_zero)
    · rw [ht]; exact item_parameter_none (h.imp_right toNat_ne_zero)
    · rw [ht]; exact item_window_none fun ax hax => by rw [axisOfCode_of_lt h] at hax; cases hax
    · rw [ht]; exact item_window_none fun ax hax => readWindow_of_length_lt (by rw [hw ax hax]; exact h)
    · rw [ht]
      refine item_step_none fun q hq => ?_
      rcases h with h | rfl | h | ⟨h, hb⟩
      · rw [planOfCode_of_lt h] at hq; cases hq
      · exact readsStep_eq_false (.inl rfl)
      · exact readsStep_eq_false (.inr (.inl h))
      · rw [h] at hq
        cases hq
        exact readsStep_eq_false (.inr (.inr ⟨rfl, fun hn => hb (BitVec.eq_of_toNat_eq hn)⟩))
    · rw [ht]; exact item_length_none (h.imp_right toNat_ne_zero)
    · rw [ht]; exact item_mask_none (h.imp toNat_ne_zero toNat_ne_zero)
  case set =>
    rintro c st tag id lo hi s _ hc ha hr rfl
    have hf : (frameDone st s).agenda = [] := (agenda_frameDone st s).trans ha
    rw [exec_setRequest hc hr]
    refine ⟨fun h => ?unknown, fun q h hh => ?notHolder⟩
    case unknown =>
      rw [setRequest_unknown st lo hi h]
      exact congrArg _ (settle_result (refuse _ .badValue) st 0x0B tag hf)
    case notHolder =>
      rw [setRequest_notHolder lo hi h (by simpa using hh)]
      exact congrArg _ (settle_result (refuse _ .noAuthority) st 0x0B tag hf)

end Sys2Proof.Machine
end

