-- ==== Sys2Proof/Proofs/Set.lean ====
section
/-! PROOFS. The holder's SET (R185): each parameter's write by its owner (O17 to O20). -/

namespace Sys2Proof.Machine

variable {s f : State}

/-! ## Writes of one value -/

/-- A write that holds its value to a range and sends nothing ends with the stored value and its reply. -/
theorem exec_set_clamped {c : Instr} {st : Station} {tag id lo hi : Byte} {p : Param} {l h : Nat} {store : Nat → State}
    (hc : requestOf c = some (st, 0x0B, tag, [id, lo, hi])) (hr : s.hasRoom st) (hh : s.cau.holder = some st)
    (hp : paramOfId id.toNat = some p)
    (hset : setParam p (wordVal lo hi) (frameDone st s) = setClamped l h (wordVal lo hi) store)
    (ha : ∀ w, (store w).agenda = []) :
    exec c s = .next (setReplied st tag (wordVal lo hi) (max l (min h (wordVal lo hi)))
      (store (max l (min h (wordVal lo hi))))) := by
  rw [exec_set hc hr hh rfl hp, hset]
  exact congrArg _ (settle_clamped st tag l h _ store ha)

/-- A write that is refused changes nothing. -/
theorem exec_set_refused {c : Instr} {st : Station} {tag id lo hi : Byte} {p : Param} {code : ReplyCode}
    (hc : requestOf c = some (st, 0x0B, tag, [id, lo, hi])) (hr : s.hasRoom st) (hh : s.cau.holder = some st)
    (hp : paramOfId id.toNat = some p) (ha : (frameDone st s).agenda = [])
    (hset : setParam p (wordVal lo hi) (frameDone st s) = refuse (frameDone st s) code) :
    exec c s = .next (replied st 0x0B tag code [] (frameDone st s)) := by
  rw [exec_set hc hr hh rfl hp, hset]
  exact congrArg _ (settle_result (refuse _ code) st 0x0B tag ha)

/-! ## Global and supply parameters (R15, R16, R137) -/

/-- A write of SPEED_LIMIT, reports apart and before its reply (R15). -/
theorem exec_set_speedLimit {st : Station} (tag lo hi : Byte) (hr : s.hasRoom st) (hh : s.cau.holder = some st) :
    exec (.setGlobalParameter st tag [0x01, lo, hi]) s =
      .next (settle (answer st 0x0B tag
        (if wordVal lo hi = max 0 (min 100 (wordVal lo hi)) then .ok else .clamped)
        (if wordVal lo hi = max 0 (min 100 (wordVal lo hi)) then [] else wordOf (max 0 (min 100 (wordVal lo hi))))
        ({ frameDone st s with
          ilk := { (frameDone st s).ilk with speedLimit := max 0 (min 100 (wordVal lo hi)) } }.emit [.reeval]))) := by
  rw [exec_set (p := .speedLimit) rfl hr hh rfl rfl]
  exact congrArg (fun x => Host.Outcome.next (settle x)) (reply_storedResult _ _ _ _ _ _)

/-- Settles O17: four writes that send nothing, and that of SPEED_LIMIT, which sends the re-evaluation. -/
theorem setStoresGlobalAndSupply : Obligations.SetStoresGlobalAndSupply := by
  unfold Obligations.SetStoresGlobalAndSupply
  refine ⟨?supply, ?globals⟩
  case supply =>
    rintro st tag lo hi s _ _ w ha hr hh rfl rfl
    have hf : (frameDone st s).agenda = [] := (agenda_frameDone st s).trans ha
    constructor <;> rintro rfl
    · exact exec_set_clamped (id := 0x60) (p := .startLimit)
        (store := fun w => { frameDone st s with hsa := { (frameDone st s).hsa with startLimit := w } })
        rfl hr hh rfl rfl fun _ => hf
    · exact exec_set_clamped (id := 0x61) (p := .runOn)
        (store := fun w => { frameDone st s with hsa := { (frameDone st s).hsa with runOn := w } })
        rfl hr hh rfl rfl fun _ => hf
  case globals =>
    rintro st tag lo hi s _ _ w ha hr hh rfl rfl
    have hf : (frameDone st s).agenda = [] := (agenda_frameDone st s).trans ha
    refine ⟨?stale, ?warn, ?limit⟩ <;> rintro rfl
    case stale =>
      exact exec_set_clamped (id := 0x02) (p := .speedStale)
        (store := fun w => { frameDone st s with ilk := { (frameDone st s).ilk with speedStale := w } })
        rfl hr hh rfl rfl fun _ => hf
    case warn =>
      exact exec_set_clamped (id := 0x03) (p := .warnTime)
        (store := fun w => { frameDone st s with ilk := { (frameDone st s).ilk with warnTime := w } })
        rfl hr hh rfl rfl fun _ => hf
    case limit =>
      rw [exec_set_speedLimit tag lo hi hr hh]
      exact ⟨⟨_, rfl, rfl, by simp [answer, ha]⟩, _, rfl, settle_steady _⟩

/-! ## Filter counts (R174) -/

theorem roundCount_eq {v w : Nat}
    (h : (v ≤ 2 ∧ w = 2) ∨ (3 ≤ v ∧ v ≤ 4 ∧ w = 4) ∨ (5 ≤ v ∧ v ≤ 8 ∧ w = 8) ∨ (9 ≤ v ∧ w = 16)) : roundCount v = w := by
  unfold roundCount
  split_ifs <;> omega

/-- Settles O18. -/
theorem setRoundsFilterCounts : Obligations.SetRoundsFilterCounts := by
  unfold Obligations.SetRoundsFilterCounts
  rintro st tag id lo hi s _ c _ w ha hr hh rfl hp rfl hw
  have hf : (frameDone st s).agenda = [] := (agenda_frameDone st s).trans ha
  rw [exec_set rfl hr hh rfl hp, setParam, roundCount_eq hw]
  exact congrArg _ (settle_stored _ _ _ st tag hf)

/-! ## Axis parameters (R57, R64, R65) -/

theorem atRest_iff (ph : AxisPhase) : ph.atRest = true ↔ ph = .idle ∨ ph = .halted := by
  cases ph <;> simp [AxisPhase.atRest]

/-- Settles O19: by the phase, then the BREAKAWAY codes, then the range. -/
theorem setStoresAxisParameters : Obligations.SetStoresAxisParameters := by
  unfold Obligations.SetStoresAxisParameters
  rintro st tag id lo hi s _ a i _ w ha hr hh rfl hp rfl
  have hf : (frameDone st s).agenda = [] := (agenda_frameDone st s).trans ha
  rw [← axis_frameDone st s a]
  refine ⟨fun ⟨h1, h2⟩ => ?moving, fun hrest => ?resting⟩
  case moving =>
    have hn : ((frameDone st s).axis a).phase.atRest = false := by
      rw [Bool.eq_false_iff, Ne, atRest_iff]
      exact fun h => h.elim h1 h2
    exact exec_set_refused rfl hr hh hp hf (if_pos hn)
  case resting =>
    have hn : ¬((frameDone st s).axis a).phase.atRest = false := by
      rw [(atRest_iff _).2 hrest]; decide
    refine ⟨fun hb => exec_set_refused rfl hr hh hp hf ((if_neg hn).trans (if_pos hb)), ?_⟩
    rintro hb rfl
    refine exec_set_clamped rfl hr hh hp ((if_neg hn).trans (if_neg hb)) fun w => ?_
    simpa using hf

/-! ## Lock parameters (R115, R121) -/

/-- A write of any lock parameter but TOPUP_INTERVAL leaves the periodic timer. -/
theorem setParam_lock_of_ne (l : LockState) {i : Nat} (w : Nat) (h : i ≠ 3) :
    l.setParam i w = { l with par := l.par.set i w } :=
  if_neg fun hn => h hn.1

/-- A write of TOPUP_INTERVAL stops the periodic timer at 0, and else starts it afresh where the group stands ENGAGED
with no top-up in hand. -/
theorem setParam_lock_interval (l : LockState) (w : Nat) : l.setParam 3 w = { l with
    par := { l.par with topupInterval := w }
    periodic := if w = 0 then none
      else if l.gstate = .engaged ∧ l.top.status = .none then some (w * 60000) else l.periodic } := by
  unfold LockState.setParam LockState.fullPeriod
  by_cases hw : w = 0
  · simp [hw, LockParams.set]
  · by_cases hg : l.gstate = .engaged ∧ l.top.status = .none
    · simp [hw, hg, LockParams.set]
    · simp [hw, hg, LockParams.set]

/-- Settles O20: refused with an operation in hand, else the write with or without the periodic timer. -/
theorem setStoresLockParameters : Obligations.SetStoresLockParameters := by
  unfold Obligations.SetStoresLockParameters
  rintro st tag id lo hi s _ g i _ _ ha hr hh rfl hp rfl rfl
  have hf : (frameDone st s).agenda = [] := (agenda_frameDone st s).trans ha
  rw [← lock_frameDone st s g]
  have stored : ((frameDone st s).lock g).op = none →
      exec (.setLockParameter st tag [id, lo, hi]) s = .next (setReplied st tag (wordVal lo hi)
        (max (lockParamRange i).1 (min (lockParamRange i).2 (wordVal lo hi)))
        ((frameDone st s).setLock g (((frameDone st s).lock g).setParam i
          (max (lockParamRange i).1 (min (lockParamRange i).2 (wordVal lo hi)))))) := fun ho =>
    exec_set_clamped rfl hr hh hp (if_neg (by rw [ho]; decide)) fun w => by simpa using hf
  refine ⟨fun ho => ?busy, fun ho hi => ?other, fun ho hi => ?interval⟩
  case busy => exact exec_set_refused rfl hr hh hp hf (if_pos (Option.isSome_iff_ne_none.2 ho))
  case other => rw [stored ho, setParam_lock_of_ne _ _ hi]
  case interval => subst hi; rw [stored ho, setParam_lock_interval]

end Sys2Proof.Machine
end

