-- ==== Sys2Proof/Proofs/Stores.lean ====
section
/-! PROOFS. SETWIN (R63) and SETSTEP (R26, R27): the first test that fails, and what a request that passes all of them
stores. -/

namespace Sys2Proof.Machine

variable {s : State} {st : Station}

theorem holds_iff (s : State) (st : Station) : s.holds st = true ↔ s.cau.holder = some st := by simp [State.holds]

theorem not_holds (h : s.cau.holder ≠ some st) : ¬s.holds st = true := fun hn => h ((holds_iff s st).1 hn)

/-! ## SETWIN -/

/-- A SETWIN of the right length with room for its reply is handled by the axis controllers (R183). -/
theorem exec_setwin (st : Station) (tag ax n : Byte) {bs : List Byte} (hb : bs.length = 11) (hr : s.hasRoom st) :
    exec (.setwin st tag (ax :: n :: bs)) s =
      .next (settle ((setwinRequest st (ax :: n :: bs) (frameDone st s)).reply st 0x0C tag)) :=
  exec_dispatch (kind := 0x0C) (tag := tag) (p := ax :: n :: bs) rfl hr (by decide)
    (by rw [List.length_cons, List.length_cons, hb]; rfl)

theorem setwinRequest_notHolder (ax n : Byte) (bs : List Byte) (h : s.cau.holder ≠ some st) :
    setwinRequest st (ax :: n :: bs) s = refuse s .noAuthority :=
  if_neg (not_holds h)

theorem setwinRequest_noAxis {ax : Byte} (n : Byte) (bs : List Byte) (h : s.cau.holder = some st)
    (ha : axisOfCode ax.toNat = none) : setwinRequest st (ax :: n :: bs) s = refuse s .badValue := by
  rw [setwinRequest, if_pos ((holds_iff s st).2 h), ha]

/-- From the holder, for an axis: the phase, then the window number (R63, log 17). -/
theorem setwinRequest_axis {ax : Byte} {a : Axis} (n : Byte) (bs : List Byte) (h : s.cau.holder = some st)
    (ha : axisOfCode ax.toNat = some a) : setwinRequest st (ax :: n :: bs) s =
      if (s.axis a).phase.atRest = false then refuse s .wrongState
      else if n.toNat = 0 then storeProfile a bs s
      else if n.toNat ≤ 6 then storeWindow a n.toNat bs s
      else refuse s .badValue := by
  rw [setwinRequest, if_pos ((holds_iff s st).2 h), ha]

/-- A window whose low is below its high is stored as clamped, and the reply gives it where a clamp changed it. -/
theorem storeWindow_stored (a : Axis) (n : Nat) {bs : List Byte} {w : Window} (hw : windowOf bs = some w)
    (hlt : w.low < w.high) : storeWindow a n bs s =
      ⟨s.setAxis a { s.axis a with windows := (s.axis a).windows.set (n - 1) w },
        if windowBytes w = bs then .ok else .clamped, if windowBytes w = bs then [] else windowBytes w⟩ := by
  simp only [storeWindow, hw, if_pos hlt, modAxis_eq]
  split <;> rfl

theorem storeWindow_refused (a : Axis) (n : Nat) {bs : List Byte} {w : Window} (hw : windowOf bs = some w)
    (hle : w.high ≤ w.low) : storeWindow a n bs s = refuse s .badValue := by
  simp only [storeWindow, hw, if_neg (Nat.not_lt.2 hle)]

/-- W0 takes the clamped speed and ramp, and the reply gives it where a clamp changed one (log 17). -/
theorem storeProfile_stored (a : Axis) {bs : List Byte} {p : Profile} (hp : profileOf bs = some p) :
    ∃ code data, storeProfile a bs s = ⟨s.setAxis a { s.axis a with w0 := p }, code, data⟩ ∧
      ((code = .ok ∧ data = []) ∨ (code = .clamped ∧ data = profileBytes p)) := by
  simp only [storeProfile, hp, modAxis_eq]
  split
  · exact ⟨_, _, rfl, .inl ⟨rfl, rfl⟩⟩
  · exact ⟨_, _, rfl, .inr ⟨rfl, rfl⟩⟩

/-- Settles O22: by the first test that fails, and by the window number where none does. -/
theorem setwinStoresWindows : Obligations.SetwinStoresWindows := by
  unfold Obligations.SetwinStoresWindows
  rintro st tag ax n bs s _ hb ha hr rfl
  have hf : (frameDone st s).agenda = [] := (agenda_frameDone st s).trans ha
  have axes : ∀ a, (s.axis a).phase = ((frameDone st s).axis a).phase := fun a => by rw [axis_frameDone]
  simp only [axes]
  rw [exec_setwin st tag ax n hb hr, ← holder_frameDone st s]
  generalize frameDone st s = f at hf ⊢
  have refused : ∀ code, Host.Outcome.next (φ := Fault) (ρ := Refusal) (settle ((refuse f code).reply st 0x0C tag)) =
      .next (replied st 0x0C tag code [] f) := fun code => congrArg _ (settle_result (refuse f code) st 0x0C tag hf)
  have stored : ∀ a v code data, settle (Result.reply ⟨f.setAxis a v, code, data⟩ st 0x0C tag) =
      replied st 0x0C tag code data (f.setAxis a v) := fun a v code data =>
    settle_result ⟨f.setAxis a v, code, data⟩ st 0x0C tag ((agenda_setAxis f a v).trans hf)
  refine ⟨fun hh => ?notHolder, fun hh hx => ?noAxis, fun a hh hx => ⟨fun ⟨h1, h2⟩ => ?moving, fun hrest => ?resting⟩⟩
  case notHolder => rw [setwinRequest_notHolder ax n bs hh]; exact refused _
  case noAxis => rw [setwinRequest_noAxis n bs hh (axisOfCode_of_lt hx)]; exact refused _
  case moving =>
    have hn : (f.axis a).phase.atRest = false := by
      rw [Bool.eq_false_iff, Ne, atRest_iff]
      exact fun h => h.elim h1 h2
    rw [setwinRequest_axis n bs hh hx, if_pos hn]
    exact refused _
  case resting =>
    have hn : ¬(f.axis a).phase.atRest = false := by rw [(atRest_iff _).2 hrest]; decide
    rw [setwinRequest_axis n bs hh hx, if_neg hn]
    refine ⟨fun h6 => ?number, fun w h1 h6 hw hlt => ?window, fun w h1 h6 hw hle => ?empty, fun p h0 hp => ?profile⟩
    case number =>
      rw [if_neg (by omega), if_neg (by omega)]
      exact refused _
    case window => rw [if_neg (by omega), if_pos h6, storeWindow_stored a _ hw hlt, stored]
    case empty =>
      rw [if_neg (by omega), if_pos h6, storeWindow_refused a _ hw hle]
      exact refused _
    case profile =>
      obtain ⟨code, data, hs, hc⟩ := storeProfile_stored (s := f) a hp
      exact ⟨code, data, by rw [if_pos h0, hs, stored], hc⟩

/-! ## SETSTEP -/

/-- A SETSTEP of the right length with room for its reply is handled by RNE (R183). -/
theorem exec_setstep (st : Station) (tag plan flags num len : Byte) {bs : List Byte} (hb : bs.length = 8)
    (hr : s.hasRoom st) : exec (.setstep st tag (plan :: flags :: num :: len :: bs)) s =
      .next (settle ((setstepRequest st (plan :: flags :: num :: len :: bs) (frameDone st s)).reply st 0x0D tag)) :=
  exec_dispatch (kind := 0x0D) (tag := tag) (p := plan :: flags :: num :: len :: bs) rfl hr (by decide)
    (by simp only [List.length_cons, hb]; rfl)

theorem storedPlanOfCode_of_lt {n : Nat} (h : 3 < n) : storedPlanOfCode n = none := by
  obtain ⟨k, rfl⟩ := Nat.exists_eq_add_of_le' h
  rfl

section
variable {plan flags num len : Byte} {bs : List Byte}

theorem setstepRequest_notHolder (h : s.cau.holder ≠ some st) :
    setstepRequest st (plan :: flags :: num :: len :: bs) s = refuse s .noAuthority :=
  if_pos (by simpa using not_holds h)

theorem setstepRequest_wrongState (h : s.cau.holder = some st) (h1 : s.rne.engine ≠ .idle)
    (h2 : s.rne.engine ≠ .tripped) :
    setstepRequest st (plan :: flags :: num :: len :: bs) s = refuse s .wrongState :=
  (if_neg (by simp [State.holds, h])).trans (if_pos ⟨h1, h2⟩)

/-- From the holder in IDLE or TRIPPED: the flags, then the plan, the step and the length together (R26). -/
theorem setstepRequest_taken (h : s.cau.holder = some st) (he : s.rne.engine = .idle ∨ s.rne.engine = .tripped) :
    setstepRequest st (plan :: flags :: num :: len :: bs) s =
      if flags.toNat = 0 ∨ 3 < flags.toNat then refuse s .badValue
      else match storedPlanOfCode plan.toNat, s.stepField (flags.getLsbD 0) num bs, lenField (flags.getLsbD 1) len with
        | some p, some (step, clamped), some l => stepResult (storeStep p step l s) step clamped
        | _, _, _ => refuse s .badValue :=
  (if_neg (by simp [State.holds, h])).trans (if_neg fun hn => he.elim hn.1 hn.2)

/-- A field that the checks of R26 refuse refuses the request. -/
theorem setstepRequest_badValue (h : s.cau.holder = some st) (he : s.rne.engine = .idle ∨ s.rne.engine = .tripped)
    (hb : flags.toNat = 0 ∨ 3 < flags.toNat ∨ storedPlanOfCode plan.toNat = none ∨
      s.stepField (flags.getLsbD 0) num bs = none ∨ lenField (flags.getLsbD 1) len = none) :
    setstepRequest st (plan :: flags :: num :: len :: bs) s = refuse s .badValue := by
  rw [setstepRequest_taken h he]
  split_ifs with hz
  · rfl
  · split
    · next hp hs hl =>
      rw [hp, hs, hl] at hb
      simp only [reduceCtorEq, or_false] at hb
      exact absurd hb hz
    · rfl

/-- A request whose fields all pass is written (R27). -/
theorem setstepRequest_stored {p : PlanId} {step : Option (Nat × Step)} {clamped : Bool} {l : Option Nat}
    (h : s.cau.holder = some st) (he : s.rne.engine = .idle ∨ s.rne.engine = .tripped)
    (hz : 1 ≤ flags.toNat ∧ flags.toNat ≤ 3) (hp : storedPlanOfCode plan.toNat = some p)
    (hs : s.stepField (flags.getLsbD 0) num bs = some (step, clamped)) (hl : lenField (flags.getLsbD 1) len = some l) :
    setstepRequest st (plan :: flags :: num :: len :: bs) s = stepResult (storeStep p step l s) step clamped := by
  rw [setstepRequest_taken h he, if_neg (by omega), hp, hs, hl]

theorem stepField_none (h : num.toNat = 0 ∨ 12 < num.toNat ∨ s.stepOf bs = none) : s.stepField true num bs = none := by
  unfold State.stepField
  rw [if_pos rfl]
  split_ifs with hn
  · have hs : s.stepOf bs = none := (h.resolve_left (by omega)).resolve_left (by omega)
    rw [hs]; rfl
  · rfl

theorem stepField_some {rec : Step} {clamped : Bool} (h1 : 1 ≤ num.toNat) (h12 : num.toNat ≤ 12)
    (hs : s.stepOf bs = some (rec, clamped)) : s.stepField true num bs = some (some (num.toNat, rec), clamped) := by
  unfold State.stepField
  rw [if_pos rfl, if_pos ⟨h1, h12⟩, hs]
  rfl

theorem lenField_none (h : 12 < len.toNat) : lenField true len = none :=
  (if_pos rfl).trans (if_neg (Nat.not_le.2 h))

theorem lenField_some (h : len.toNat ≤ 12) : lenField true len = some (some len.toNat) :=
  (if_pos rfl).trans (if_pos h)

end

/-- The reply to a written step record gives it where a clamp changed it (R27). -/
theorem stepResult_step (t : State) (n : Nat) (rec : Step) (clamped : Bool) : stepResult t (some (n, rec)) clamped =
    ⟨t, if clamped then .clamped else .ok, if clamped then stepBytes rec else []⟩ := by
  cases clamped <;> rfl

theorem stepResult_none (t : State) (clamped : Bool) : stepResult t none clamped = ⟨t, .ok, []⟩ := rfl

/-- Settles O23: by the first check that fails, and by the flags where none does. -/
theorem setstepStoresSteps : Obligations.SetstepStoresSteps := by
  unfold Obligations.SetstepStoresSteps
  rintro st tag plan flags num len bs s _ hb ha hr rfl
  have hf : (frameDone st s).agenda = [] := (agenda_frameDone st s).trans ha
  rw [exec_setstep st tag plan flags num len hb hr, ← rne_frameDone st s, ← holder_frameDone st s]
  generalize frameDone st s = f at hf ⊢
  have refused : ∀ code, settle ((refuse f code).reply st 0x0D tag) = replied st 0x0D tag code [] f := fun code =>
    settle_result (refuse f code) st 0x0D tag hf
  have written : ∀ p step l code data, settle (Result.reply ⟨storeStep p step l f, code, data⟩ st 0x0D tag) =
      replied st 0x0D tag code data (storeStep p step l f) := fun p step l code data =>
    settle_result ⟨storeStep p step l f, code, data⟩ st 0x0D tag hf
  refine ⟨fun hh => ?notHolder, fun hh h1 h2 => ?wrongState, fun hh he => ⟨fun hbad => ?badValue, fun p hp => ?stored⟩⟩
  case notHolder => rw [setstepRequest_notHolder hh, refused]
  case wrongState => rw [setstepRequest_wrongState hh h1 h2, refused]
  case badValue =>
    rw [setstepRequest_badValue hh he, refused]
    rcases hbad with h | h | h | ⟨hl, h⟩ | ⟨hs, h⟩
    · exact .inl h
    · exact .inr (.inl h)
    · exact .inr (.inr (.inl (storedPlanOfCode_of_lt h)))
    · exact .inr (.inr (.inr (.inr (by rw [hl]; exact lenField_none h))))
    · exact .inr (.inr (.inr (.inl (by rw [hs]; exact stepField_none h))))
  case stored =>
    refine ⟨?length, fun rec clamped h1 h12 hs => ⟨?step, ?both⟩⟩
    case length =>
      rintro rfl hl
      rw [setstepRequest_stored (flags := 2) hh he (by decide) hp rfl (lenField_some hl), stepResult_none,
        written]
      rfl
    case step =>
      rintro rfl
      rw [setstepRequest_stored (flags := 1) hh he (by decide) hp (stepField_some h1 h12 hs) rfl, stepResult_step,
        written]
      rfl
    case both =>
      rintro rfl hl
      rw [setstepRequest_stored (flags := 3) hh he (by decide) hp (stepField_some h1 h12 hs) (lenField_some hl), stepResult_step,
        written]
      rfl

end Sys2Proof.Machine
end

