-- ==== Sys2Proof/Proofs/Roles.lean ====
section
/-! PROOFS. The roles of the stations (R140 to R146): CLAIM (O26), YIELD (O27), the loss of a link (O44), the key switch
(O52), and with the loss of a link the SET of PERMIT_WINDOW, PERMIT_ACTION and LINK_TIMEOUT (O21). -/

namespace Sys2Proof.Machine

variable {s t u f : State} {st : Station}

/-! ## What a change of the roles leaves -/

theorem inner_withCau (s : State) (c : Cau) : ({ s with cau := c } : State).inner = { s.inner with cau := c } := rfl

/-- A change of the roles: beside reports and messages it changes CAU alone, and there neither the alive flags nor
LINK_TIMEOUT; the links keep their ages. -/
structure RolesMoved (s t : State) : Prop where
  inner : t.inner = ({ s with cau := t.cau } : State).inner
  alive : ∀ q, t.cau.alive q = s.cau.alive q
  timeout : t.cau.linkTimeout = s.cau.linkTimeout
  age : ∀ q, (t.link q).age = (s.link q).age

namespace RolesMoved

theorem refl (s : State) : RolesMoved s s := ⟨rfl, fun _ => rfl, rfl, fun _ => rfl⟩

theorem trans (h : RolesMoved s t) (h' : RolesMoved t u) : RolesMoved s u where
  inner := h'.inner.trans (by
    rw [inner_withCau, h.inner]
    rfl)
  alive q := (h'.alive q).trans (h.alive q)
  timeout := h'.timeout.trans h.timeout
  age q := (h'.age q).trans (h.age q)

theorem mark (sub : Subject) (s : State) : RolesMoved s (mark sub s) where
  inner := by rw [inner_mark, cau_mark]
  alive q := by rw [cau_mark]
  timeout := by rw [cau_mark]
  age q := (link_mark q sub s).2.1

theorem markIf (c : Bool) (sub : Subject) (s : State) : RolesMoved s (markIf c sub s) := by
  unfold Machine.markIf
  split <;> [exact mark sub s; exact refl s]

theorem emit (l : List Msg) (s : State) : RolesMoved s (s.emit l) :=
  ⟨rfl, fun _ => rfl, rfl, fun q => by cases q <;> rfl⟩

theorem modCau {g : Cau → Cau} (s : State) (ha : ∀ q, (g s.cau).alive q = s.cau.alive q)
    (ht : (g s.cau).linkTimeout = s.cau.linkTimeout) : RolesMoved s (s.modCau g) :=
  ⟨rfl, ha, ht, fun q => by cases q <;> rfl⟩

/-- The blocks that a change of the roles leaves. -/
theorem axis (h : RolesMoved s t) (a : Axis) : t.axis a = s.axis a :=
  (axis_of_inner h.inner a).trans (by cases a <;> rfl)

theorem lock (h : RolesMoved s t) (g : Group) : t.lock g = s.lock g :=
  (lock_of_inner h.inner g).trans (by cases g <;> rfl)

theorem rne (h : RolesMoved s t) : t.rne = s.rne := (rne_of_inner h.inner :)

theorem pmt (h : RolesMoved s t) : t.pmt = s.pmt := (pmt_of_inner h.inner :)

end RolesMoved

theorem alive_roles (c : Cau) (h e : Option Station) (y d : Bool) (q : Station) :
    ({ c with holder := h, elect := e, yielded := y, deferred := d } : Cau).alive q = c.alive q := by cases q <;> rfl

theorem setHolder_roles (h : Option Station) (s : State) : RolesMoved s (setHolder h s) :=
  ((RolesMoved.modCau s (fun _ => alive_roles _ _ _ _ _ _) rfl).trans (.mark _ _)).trans (.emit _ _)

theorem handoverTest_roles (s : State) : RolesMoved s (handoverTest s) := by
  unfold handoverTest
  split
  · exact ((RolesMoved.modCau s (fun _ => alive_roles _ _ _ _ _ _) rfl).trans (.mark _ _)).trans (.emit _ _)
  · exact (RolesMoved.modCau s (fun _ => alive_roles _ _ _ _ _ _) rfl).trans (.markIf _ _ _)

theorem dropElect_roles (s : State) : RolesMoved s (dropElect s) := by
  unfold dropElect
  split
  · exact setHolder_roles none s
  · exact (RolesMoved.modCau s (fun _ => alive_roles _ _ _ _ _ _) rfl).trans (.mark _ _)

theorem dropHolder_roles (s : State) : RolesMoved s (dropHolder s) := by
  unfold dropHolder
  split
  · exact setHolder_roles none s
  · split
    · exact .refl s
    · exact ((RolesMoved.modCau s (fun _ => alive_roles _ _ _ _ _ _) rfl).trans (.mark _ _)).trans (handoverTest_roles _)

theorem letGo_roles (st : Station) (s : State) : RolesMoved s (letGo st s) := by
  unfold letGo
  split_ifs <;> [exact dropHolder_roles s; exact dropElect_roles s; exact .refl s]

/-! ## The handover test (R144, R145) -/

theorem handoverTest_made (h : s.cau.due = true ∧ s.cau.busyEmpty = true) :
    handoverTest s = (mark .authority { s with cau := s.cau.handover }).emit [.holderChanged] :=
  if_pos (by simp [h.1, h.2])

theorem handoverTest_noted (h : ¬(s.cau.due = true ∧ s.cau.busyEmpty = true)) : handoverTest s =
    markIf (s.cau.deferred != s.cau.due) .authority { s with cau := { s.cau with deferred := s.cau.due } } :=
  if_neg (by simpa using h)

theorem agenda_handoverTest_noted (h : ¬(s.cau.due = true ∧ s.cau.busyEmpty = true)) :
    (handoverTest s).agenda = s.agenda := by rw [handoverTest_noted h, agenda_markIf]

theorem inner_handoverTest_noted (h : ¬(s.cau.due = true ∧ s.cau.busyEmpty = true)) :
    (handoverTest s).inner = ({ s with cau := { s.cau with deferred := s.cau.due } } : State).inner := by
  rw [handoverTest_noted h, inner_markIf]

/-- What the messages of a handover, and what follows them, leave: the elect is holder, there is no elect and no
permit, and all else but what messages may change is as it was (R145, R152). -/
theorem settle_handover {m : Msg} (h : s.cau.due = true ∧ s.cau.busyEmpty = true) (ha : s.agenda = []) :
    let t := settle ((handoverTest s).emit [m])
    t.cau.holder = s.cau.elect ∧ t.cau.elect = none ∧ t.pmt.live = false ∧ t.steady = s.steady :=
  settle_handed (c := s.cau.handover) (handoverTest_made h) ha rfl rfl

/-- As `settle_handover`, where nothing follows the handover. -/
theorem settle_handover_alone (h : s.cau.due = true ∧ s.cau.busyEmpty = true) (ha : s.agenda = []) :
    let t := settle (handoverTest s)
    t.cau.holder = s.cau.elect ∧ t.cau.elect = none ∧ t.pmt.live = false ∧ t.steady = s.steady := by
  obtain ⟨h1, h2, h3⟩ := settle_handed_alone (c := s.cau.handover) (handoverTest_made h) ha rfl
  exact ⟨h1, h2, h3, (settle_steady _).trans ((handoverTest_moves (k := 0) s).steady rfl)⟩

/-- What the messages of a new holder, and what follows them, leave (R142, R143). -/
theorem settle_setHolder {m : Msg} (h : Option Station) (ha : s.agenda = []) :
    let t := settle ((setHolder h s).emit [m])
    t.cau.holder = h ∧ t.cau.elect = none ∧ t.pmt.live = false ∧ t.steady = s.steady :=
  settle_handed (c := { s.cau with holder := h, elect := none, yielded := false, deferred := false }) rfl ha rfl rfl

theorem settle_setHolder_alone (h : Option Station) (ha : s.agenda = []) :
    let t := settle (setHolder h s)
    t.cau.holder = h ∧ t.cau.elect = none ∧ t.pmt.live = false :=
  settle_handed_alone (c := { s.cau with holder := h, elect := none, yielded := false, deferred := false }) rfl ha rfl

/-! ## CLAIM (R142) -/

theorem exec_claim (st : Station) (tag : Byte) (hr : s.hasRoom st) : exec (.claim st tag []) s =
    .next (settle ((claim st (frameDone st s)).1.emit [.replyRoles st 0x01 tag (claim st (frameDone st s)).2])) :=
  exec_dispatch (kind := 0x01) (tag := tag) (p := []) rfl hr (by decide) rfl

theorem claim_holder (h : s.cau.holder = some st) : claim st s = (s, .ok) := if_pos ((holds_iff s st).2 h)

theorem claim_free (h : s.cau.holder = none) : claim st s = (setHolder (some st) s, .ok) := by
  rw [claim, if_neg (not_holds (by simp [h])), h]

/-- The elect beside a holder is the other station (R140). -/
theorem elect_of_ok {h e : Station} (hok : s.cau.ok) (hh : s.cau.holder = some h) (hn : h ≠ st)
    (he : s.cau.elect = some e) : e = st := by
  have hne : e ≠ h := fun hx => hok.2.2 e he (by rw [hh, hx])
  cases e <;> cases h <;> cases st <;> first | rfl | exact absurd rfl hne | exact absurd rfl hn

/-- A CLAIM beside another holder comes to the handover test of a state where the station is elect, which but for its
marks is the state it found. -/
theorem claim_beside {h : Station} (hok : s.cau.ok) (hh : s.cau.holder = some h) (hn : h ≠ st) :
    ∃ x, claim st s = (handoverTest x, .pending) ∧ x.agenda = s.agenda ∧
      x.inner = ({ s with cau := { s.cau with elect := some st } } : State).inner ∧ x.steady = s.steady := by
  have hn' : ¬s.holds st = true := not_holds (by rw [hh]; simpa using hn)
  cases he : s.cau.elect with
  | none =>
    refine ⟨mark .authority { s with cau := { s.cau with elect := some st } }, ?_, agenda_mark _ _, inner_mark _ _,
      (steady_mark _ _).trans rfl⟩
    rw [claim, if_neg hn', hh, he]
    rfl
  | some e =>
    obtain rfl := elect_of_ok hok hh hn he
    refine ⟨s, ?_, rfl, by rw [← he], rfl⟩
    rw [claim, if_neg hn', hh, he]

/-- Settles O26: by the role that the station has. -/
theorem claimByRole : Obligations.ClaimByRole := by
  unfold Obligations.ClaimByRole
  rintro st tag s _ hok ha hr rfl
  have hf : (frameDone st s).agenda = [] := (agenda_frameDone st s).trans ha
  have hokf : (frameDone st s).cau.ok := (frameDone_moves (k := 1) st s le_rfl).cauOk hok
  rw [exec_claim st tag hr, ← holder_frameDone st s]
  generalize frameDone st s = f at hf hokf ⊢
  refine ⟨fun hh => ?holder, fun hh => ?free, ?beside⟩
  case holder => rw [claim_holder hh, settle_roles _ _ _ _ hf]
  case free => rw [claim_free hh]; exact ⟨_, rfl, settle_setHolder (some st) hf⟩
  case beside =>
    rintro h _ hh hn rfl
    obtain ⟨x, hx, hxa, hxi, hxs⟩ := claim_beside hokf hh hn
    have hc : x.cau = { f.cau with elect := some st } := cau_of_inner hxi
    rw [hx, ← hc]
    refine ⟨fun hd => ?made, fun hd => ?noted⟩
    case made =>
      have ht := settle_handover (m := .replyRoles st 0x01 tag .pending) hd (hxa.trans hf)
      rw [hc, hxs] at ht
      exact ⟨_, rfl, ht⟩
    case noted =>
      refine ⟨handoverTest x, ?_, ?_⟩
      · rw [settle_roles _ _ _ _ ((agenda_handoverTest_noted hd).trans (hxa.trans hf))]
      · rw [inner_handoverTest_noted hd, inner_withCau, inner_withCau, hxi]
        rfl

/-! ## YIELD and the loss of a role (R143, R146) -/

theorem exec_yield (st : Station) (tag : Byte) (hr : s.hasRoom st) : exec (.yieldAuthority st tag []) s =
    .next (settle ((letGo st (frameDone st s)).emit [.replyRoles st 0x02 tag .ok])) :=
  exec_dispatch (kind := 0x02) (tag := tag) (p := []) rfl hr (by decide) rfl

theorem letGo_holder_alone (h : s.cau.holder = some st) (he : s.cau.elect = none) : letGo st s = setHolder none s := by
  rw [letGo, if_pos ((holds_iff s st).2 h), dropHolder, he]

/-- A holder beside an elect counts as having yielded, and the handover test follows. -/
theorem letGo_holder_beside {e : Station} (h : s.cau.holder = some st) (he : s.cau.elect = some e)
    (hy : s.cau.yielded = false) :
    letGo st s = handoverTest (mark .authority { s with cau := { s.cau with yielded := true } }) := by
  rw [letGo, if_pos ((holds_iff s st).2 h), dropHolder, he]
  exact if_neg (by simp [hy])

theorem letGo_holder_yielded (h : s.cau.holder = some st) (he : s.cau.elect ≠ none) (hy : s.cau.yielded = true) :
    letGo st s = s := by
  rw [letGo, if_pos ((holds_iff s st).2 h), dropHolder]
  cases hx : s.cau.elect with
  | none => exact absurd hx he
  | some e => exact if_pos hy

/-- An elect is not the holder (R140). -/
theorem not_holds_elect (hok : s.cau.ok) (he : s.cau.elect = some st) : ¬s.holds st = true := not_holds (hok.2.2 st he)

theorem letGo_elect_yielded (hok : s.cau.ok) (he : s.cau.elect = some st) (hy : s.cau.yielded = true) :
    letGo st s = setHolder none s := by
  rw [letGo, if_neg (not_holds_elect hok he), if_pos he, dropElect, if_pos hy]

theorem letGo_elect (hok : s.cau.ok) (he : s.cau.elect = some st) (hy : s.cau.yielded = false) :
    letGo st s = mark .authority { s with cau := { s.cau with elect := none, deferred := false } } := by
  rw [letGo, if_neg (not_holds_elect hok he), if_pos he, dropElect, if_neg (by simp [hy])]
  rfl

theorem letGo_none (h : s.cau.holder ≠ some st) (he : s.cau.elect ≠ some st) : letGo st s = s :=
  (if_neg (not_holds h)).trans (if_neg he)

/-- A handover is due beside an elect where the holder has yielded (R144). -/
theorem due_yielded {c : Cau} {e : Station} (he : c.elect = some e) : ({ c with yielded := true } : Cau).due = true := by
  simp [Cau.due, he]

/-- Settles O27: by the role that the station has. -/
theorem yieldByRole : Obligations.YieldByRole := by
  unfold Obligations.YieldByRole
  rintro st tag s _ hok ha hr rfl
  have hf : (frameDone st s).agenda = [] := (agenda_frameDone st s).trans ha
  have hokf : (frameDone st s).cau.ok := (frameDone_moves (k := 1) st s le_rfl).cauOk hok
  have hb : s.cau.busyEmpty = (frameDone st s).cau.busyEmpty := by simp [Cau.busyEmpty]
  rw [exec_yield st tag hr, ← holder_frameDone st s, ← elect_frameDone st s, ← yielded_frameDone st s, hb]
  generalize frameDone st s = f at hf hokf ⊢
  refine ⟨fun hh he => ?alone, fun e hh he hy => ?beside, fun he hy => ?electYielded, fun he hy => ?elect,
    fun hh he => ?none, fun hh he hy => ?again⟩
  case alone => rw [letGo_holder_alone hh he]; exact ⟨_, rfl, settle_setHolder none hf⟩
  case beside =>
    rw [letGo_holder_beside hh he hy]
    have hd : ∀ b, f.cau.busyEmpty = b → (mark .authority { f with cau := { f.cau with yielded := true } }).cau.busyEmpty = b := by
      rintro b rfl; rw [cau_mark]; rfl
    have hdue : (mark .authority { f with cau := { f.cau with yielded := true } }).cau.due = true := by
      rw [cau_mark]; exact due_yielded he
    refine ⟨fun hb => ?made, fun hb => ?busy⟩
    case made =>
      have ht := settle_handover (m := .replyRoles st 0x02 tag .ok) ⟨hdue, hd _ hb⟩ ((agenda_mark _ _).trans hf)
      rw [steady_mark] at ht
      exact ⟨_, rfl, ht.1.trans (by rw [cau_mark]; exact he), ht.2⟩
    case busy =>
      have hn : ¬((mark .authority { f with cau := { f.cau with yielded := true } }).cau.due = true ∧
          (mark .authority { f with cau := { f.cau with yielded := true } }).cau.busyEmpty = true) := by
        rw [hd _ hb]; simp
      refine ⟨_, congrArg _ (settle_roles _ _ _ _ ((agenda_handoverTest_noted hn).trans ((agenda_mark _ _).trans hf))), ?_⟩
      rw [inner_handoverTest_noted hn, inner_withCau, inner_mark, hdue, cau_mark]
      rfl
  case electYielded => rw [letGo_elect_yielded hokf he hy]; exact ⟨_, rfl, settle_setHolder none hf⟩
  case elect =>
    rw [letGo_elect hokf he hy]
    exact ⟨_, congrArg _ (settle_roles _ _ _ _ ((agenda_mark _ _).trans hf)), inner_mark _ _⟩
  case none => rw [letGo_none hh he, settle_roles _ _ _ _ hf]
  case again => rw [letGo_holder_yielded hh he hy, settle_roles _ _ _ _ hf]

/-! ## The loss of a link (R146) -/

@[simp] theorem alive_setAlive_self (c : Cau) (st : Station) (v : Bool) : (c.setAlive st v).alive st = v := by
  cases st <;> rfl

@[simp] theorem alive_setAlive_of_ne {q : Station} (c : Cau) (v : Bool) (h : q ≠ st) :
    (c.setAlive st v).alive q = c.alive q := by
  cases st <;> cases q <;> first | rfl | exact absurd rfl h

theorem otherStation_ne (st : Station) : otherStation st ≠ st := by cases st <;> decide

@[simp] theorem linkTimeout_setAlive (c : Cau) (st : Station) (v : Bool) :
    (c.setAlive st v).linkTimeout = c.linkTimeout := by cases st <;> rfl

theorem roles_setAlive (c : Cau) (st : Station) (v : Bool) : (c.setAlive st v).holder = c.holder ∧
    (c.setAlive st v).elect = c.elect ∧ (c.setAlive st v).yielded = c.yielded ∧
    (c.setAlive st v).busyEmpty = c.busyEmpty := by cases st <;> exact ⟨rfl, rfl, rfl, rfl⟩

theorem ok_setAlive {c : Cau} (v : Bool) (h : c.ok) : (c.setAlive st v).ok := by cases st <;> exact h

/-- Messages change neither the alive flags nor LINK_TIMEOUT. -/
theorem links_of_steady (h : t.steady = s.steady) :
    (∀ q, t.cau.alive q = s.cau.alive q) ∧ t.cau.linkTimeout = s.cau.linkTimeout := by
  have hc : t.cau.steady = s.cau.steady := congrArg State.cau h
  refine ⟨fun q => ?_, (congrArg Cau.linkTimeout hc :)⟩
  cases q
  · exact (congrArg Cau.aliveBridge hc :)
  · exact (congrArg Cau.aliveDeck hc :)

/-- The part with a link lost, before the role of its station ends. -/
def unlinked (st : Station) (s : State) : State := mark .authority { s with cau := s.cau.setAlive st false }

@[simp] theorem cau_unlinked (st : Station) (s : State) : (unlinked st s).cau = s.cau.setAlive st false := cau_mark _ _
@[simp] theorem agenda_unlinked (st : Station) (s : State) : (unlinked st s).agenda = s.agenda := agenda_mark _ _
@[simp] theorem rne_unlinked (st : Station) (s : State) : (unlinked st s).rne = s.rne := rne_mark _ _
@[simp] theorem pmt_unlinked (st : Station) (s : State) : (unlinked st s).pmt = s.pmt := pmt_mark _ _

theorem linkLost_alive (h : s.cau.alive st = true) : linkLost st s = letGo st (unlinked st s) := if_pos h

theorem linkLost_lost (h : s.cau.alive st = false) : linkLost st s = s := if_neg (by simp [h])

/-- The loss of a link clears its alive flag and leaves the other and LINK_TIMEOUT, whatever the roles. -/
theorem links_linkLost (st : Station) (s : State) : (∀ q, (linkLost st s).cau.alive q = (s.cau.alive q && q != st)) ∧
    (linkLost st s).cau.linkTimeout = s.cau.linkTimeout := by
  cases h : s.cau.alive st with
  | false =>
    rw [linkLost_lost h]
    refine ⟨fun q => ?_, rfl⟩
    by_cases hq : q = st
    · subst hq; simp [h]
    · simp [hq]
  | true =>
    have hr := letGo_roles st (unlinked st s)
    rw [linkLost_alive h]
    refine ⟨fun q => ?_, by rw [hr.timeout]; simp⟩
    rw [hr.alive, cau_unlinked]
    by_cases hq : q = st
    · subst hq; simp
    · simp [hq]

/-- Settles O44: by the role that the lost station has. -/
theorem linkLossEndsRole : Obligations.LinkLossEndsRole := by
  unfold Obligations.LinkLossEndsRole
  intro st s hok ha
  have hx : exec (.linkLoss st) s = .next (settle (linkLost st
      (s.setLink st { s.link st with age := max (s.link st).age (s.cau.linkTimeout * 1000 + 1) }))) := rfl
  rw [hx]
  generalize hd : s.setLink st { s.link st with age := max (s.link st).age (s.cau.linkTimeout * 1000 + 1) } = d
  have hc : d.cau = s.cau := by rw [← hd, cau_setLink]
  have hda : d.agenda = [] := by rw [← hd, agenda_setLink, ha]
  have hlost : s.cau.alive st = true → linkLost st d = letGo st (unlinked st d) := fun h =>
    linkLost_alive (by rw [hc]; exact h)
  obtain ⟨hholder, helect, hyielded, hbusy⟩ := roles_setAlive s.cau st false
  have huc : (unlinked st d).cau = s.cau.setAlive st false := by rw [cau_unlinked, hc]
  have hua : (unlinked st d).agenda = [] := (agenda_unlinked st d).trans hda
  have huok : (unlinked st d).cau.ok := by rw [huc]; exact ok_setAlive false hok
  refine ⟨?flags, fun hl hh he => ?alone, fun e hl hh he hb hy => ?handed, ?beside, fun hl he hy => ?electYielded,
    fun hl he hy => ?elect, fun hl => ?lost⟩
  case flags =>
    obtain ⟨ha1, ht1⟩ := links_of_steady (settle_steady (linkLost st d))
    obtain ⟨ha2, ht2⟩ := links_linkLost st d
    refine ⟨_, rfl, ?_, ?_, ?_⟩
    · rw [ha1, ha2]; simp
    · rw [ha1, ha2, hc]; simp [otherStation_ne]
    · rw [ht1, ht2, hc]
  case alone =>
    rw [hlost hl, letGo_holder_alone (by rw [huc, hholder, hh]) (by rw [huc, helect, he])]
    exact ⟨_, rfl, settle_setHolder_alone none hua⟩
  case handed =>
    rw [hlost hl, letGo_holder_beside (by rw [huc, hholder, hh]) (e := e) (by rw [huc, helect, he])
      (by rw [huc, hyielded, hy])]
    have he' : (unlinked st d).cau.elect = some e := by rw [huc, helect, he]
    have hdue : (mark .authority { unlinked st d with cau := { (unlinked st d).cau with yielded := true } }).cau.due = true ∧
        (mark .authority { unlinked st d with cau := { (unlinked st d).cau with yielded := true } }).cau.busyEmpty = true := by
      rw [cau_mark]
      exact ⟨due_yielded he', by rw [← hb, ← hbusy, ← huc]; rfl⟩
    obtain ⟨h1, h2, h3, -⟩ := settle_handover_alone hdue ((agenda_mark _ _).trans hua)
    exact ⟨_, rfl, h1.trans (by rw [cau_mark]; exact he'), h2, h3⟩
  case beside =>
    intro e d' hl hh he hd'
    subst d'
    have he' : (unlinked st d).cau.elect = some e := by rw [huc, helect, he]
    have hui : (unlinked st d).inner = ({ d with cau := s.cau.setAlive st false } : State).inner := by
      rw [unlinked, inner_mark, hc]
    refine ⟨fun hb hy => ?busy, fun hy => ?again⟩
    case busy =>
      rw [hlost hl, letGo_holder_beside (by rw [huc, hholder, hh]) he' (by rw [huc, hyielded, hy])]
      have hdue : (mark .authority { unlinked st d with cau := { (unlinked st d).cau with yielded := true } }).cau.due = true := by
        rw [cau_mark]; exact due_yielded he'
      have hn : (mark .authority { unlinked st d with cau := { (unlinked st d).cau with yielded := true } }).cau.busyEmpty = false := by
        rw [cau_mark, ← hb, ← hbusy, ← huc]; rfl
      have hn' : ¬((mark .authority { unlinked st d with cau := { (unlinked st d).cau with yielded := true } }).cau.due = true ∧
          (mark .authority { unlinked st d with cau := { (unlinked st d).cau with yielded := true } }).cau.busyEmpty = true) := by
        rw [hn]; simp
      refine ⟨_, congrArg _ (settle_nil ((agenda_handoverTest_noted hn').trans ((agenda_mark _ _).trans hua))), ?_⟩
      rw [inner_handoverTest_noted hn', inner_withCau, inner_mark, hdue, cau_mark, inner_withCau, hui, huc]
      rfl
    case again =>
      rw [hlost hl, letGo_holder_yielded (by rw [huc, hholder, hh]) (by rw [he']; nofun) (by rw [huc, hyielded, hy])]
      exact ⟨_, congrArg _ (settle_nil hua), hui⟩
  case electYielded =>
    rw [hlost hl, letGo_elect_yielded huok (by rw [huc, helect, he]) (by rw [huc, hyielded, hy])]
    obtain ⟨h1, h2, h3⟩ := settle_setHolder_alone none hua
    exact ⟨_, rfl, h1, h2, ((settle_moves (k := 1) _).cauOk ((setHolder_moves' (k := 1) none _ one_ne_zero).cauOk huok)).2.1 h2, h3⟩
  case elect =>
    rw [hlost hl, letGo_elect huok (by rw [huc, helect, he]) (by rw [huc, hyielded, hy])]
    refine ⟨_, congrArg _ (settle_nil ((agenda_mark _ _).trans hua)), by rw [cau_mark], ?_, ?_, ?_⟩
    · rw [cau_mark]; exact (congrArg Cau.holder huc).trans hholder
    · rw [rne_mark]; exact (rne_unlinked st d).trans (by rw [← hd, rne_setLink])
    · rw [pmt_mark]; exact (pmt_unlinked st d).trans (by rw [← hd, pmt_setLink])
  case lost => rw [linkLost_lost (by rw [hc]; exact hl), settle_nil hda]

/-! ## The key switch (R141) -/

/-- Settles O52: a change of key position is the handover test with the position recorded. -/
theorem keyMovesHandover : Obligations.KeyMovesHandover := by
  unfold Obligations.KeyMovesHandover
  rintro b s d ha hd c hc
  have hx : exec c s = .next (settle (handoverTest (mark .authority d))) := by
    subst hd
    simp only [List.mem_cons, List.not_mem_nil, or_false] at hc
    rcases hc with rfl | rfl <;> rfl
  have hda : (mark .authority d).agenda = [] := by rw [agenda_mark, hd]; exact ha
  have he : d.cau.elect = s.cau.elect := by rw [hd]
  rw [hx]
  refine ⟨fun e hse hdue hb => ?made, fun hn => ?noted⟩
  case made =>
    obtain ⟨h1, h2, h3, h4⟩ := settle_handover_alone (s := mark .authority d) (by rw [cau_mark]; exact ⟨hdue, hb⟩) hda
    exact ⟨_, rfl, h1.trans (by rw [cau_mark, he, hse]), h2, h3, h4.trans (steady_mark _ _)⟩
  case noted =>
    rw [← cau_mark .authority d] at hn
    refine ⟨_, congrArg _ (settle_nil ((agenda_handoverTest_noted hn).trans hda)), ?_⟩
    rw [inner_handoverTest_noted hn, inner_withCau, inner_mark, cau_mark]
    rfl

/-! ## SET of the permit and authority parameters (R153) -/

/-- At a write of LINK_TIMEOUT a link is lost where its age exceeds the value (R182): the roles move, and the alive flag
follows the age. -/
theorem loseOld_links (st : Station) (s : State) : (loseOld st s).inner = ({ s with cau := (loseOld st s).cau } : State).inner ∧
    (∀ q, (loseOld st s).cau.alive q =
      (s.cau.alive q && (q != st || decide ((s.link st).age ≤ s.cau.linkTimeout * 1000)))) ∧
    (loseOld st s).cau.linkTimeout = s.cau.linkTimeout ∧ ∀ q, ((loseOld st s).link q).age = (s.link q).age := by
  unfold loseOld
  split
  · next h =>
    have h' : ¬(s.link st).age ≤ s.cau.linkTimeout * 1000 := by omega
    obtain ⟨h1, h2⟩ := links_linkLost st s
    refine ⟨?_, fun q => by rw [h1]; simp [h'], h2, ?_⟩
    · unfold linkLost
      split
      · rw [(letGo_roles st _).inner, inner_withCau, inner_mark]; rfl
      · rfl
    · intro q
      unfold linkLost
      split
      · rw [(letGo_roles st _).age, (link_mark q _ _).2.1]; cases q <;> rfl
      · rfl
  · next h =>
    have h' : (s.link st).age ≤ s.cau.linkTimeout * 1000 := by omega
    exact ⟨rfl, fun q => by simp [h'], rfl, fun _ => rfl⟩

/-- Two states of one steady view agree on the steady views of the members. -/
theorem members_of_steady (h : t.steady = s.steady) :
    (∀ a, (t.axis a).steady = (s.axis a).steady) ∧ ∀ g, (t.lock g).steady = (s.lock g).steady :=
  ⟨fun a => by cases a <;> [exact (congrArg State.vis h :); exact (congrArg State.rmp h :); exact (congrArg State.inr h :)],
    fun g => by cases g <;> [exact (congrArg State.vlk h :); exact (congrArg State.rlk h :); exact (congrArg State.icl h :)]⟩

/-- Settles O21: two writes that send nothing, and that of LINK_TIMEOUT, which loses the links that are too old. -/
theorem setStoresPermitParameters : Obligations.SetStoresPermitParameters := by
  unfold Obligations.SetStoresPermitParameters
  rintro st tag lo hi s _ _ w ha hr hh rfl rfl
  have hf : (frameDone st s).agenda = [] := (agenda_frameDone st s).trans ha
  refine ⟨?window, fun hv => ?action, fun hv => ?refused, ?timeout⟩
  case window =>
    rintro rfl
    exact exec_set_clamped (id := 0x68) (p := .permitWindow)
      (store := fun w => (frameDone st s).modPmt fun q => { q with window := w }) rfl hr hh rfl rfl fun _ => hf
  case action =>
    rw [exec_set (p := .permitAction) rfl hr hh rfl rfl, setParam, if_neg (Nat.not_lt.2 hv)]
    exact congrArg _ (settle_stored _ _ _ st tag hf)
  case refused => exact exec_set_refused (id := 0x69) (p := .permitAction) rfl hr hh rfl hf (if_pos hv)
  case timeout =>
    intro hw
    rw [exec_set (p := .linkTimeout) rfl hr hh rfl rfl]
    generalize frameDone st s = f at hf ⊢
    generalize hx : f.modCau (fun c => { c with linkTimeout := w }) = x
    obtain ⟨hi1, ha1, ht1, hg1⟩ := loseOld_links .bridge x
    obtain ⟨hi2, ha2, ht2, hg2⟩ := loseOld_links .deck (loseOld .bridge x)
    generalize hu : loseOld .deck (loseOld .bridge x) = u at hi2 ha2 ht2 hg2
    have hst : (settle ((setParam .linkTimeout (wordVal lo hi) f).reply st 0x0B tag)).steady = u.steady := by
      have hp : (setParam .linkTimeout (wordVal lo hi) f).reply st 0x0B tag =
          answer st 0x0B tag (if wordVal lo hi = w then .ok else .clamped)
            (if wordVal lo hi = w then [] else wordOf w) u := by
        rw [← hu, ← hx, hw]
        exact reply_storedResult _ _ _ _ _ _
      rw [settle_steady, hp]
      rfl
    have hui : u.inner = ({ f with cau := u.cau } : State).inner := by
      rw [hi2, inner_withCau, hi1, ← hx]; rfl
    obtain ⟨hal, htl⟩ := links_of_steady hst
    obtain ⟨hax, hlk⟩ := members_of_steady hst
    have hxt : x.cau.linkTimeout = w := by rw [← hx]; rfl
    have hxa : ∀ q, x.cau.alive q = f.cau.alive q := fun q => by rw [← hx]; cases q <;> rfl
    have hxg : ∀ q, (x.link q).age = (f.link q).age := fun q => by rw [← hx]; cases q <;> rfl
    refine ⟨_, rfl, by rw [htl, ht2, ht1, hxt], fun q => ?alive, ?plan, fun a => ?axes, fun g => ?locks⟩
    case alive =>
      have hne : (Station.deck != Station.bridge) = true := rfl
      rw [hal, ha2, ha1, hg1, ht1, hxt, hxa, hxg, hxg]
      cases q <;> simp [hne]
    case plan =>
      obtain ⟨hp, -, -, -⟩ := run_of_steady hst
      rw [hp, (rne_of_inner hui :)]
    case axes =>
      have hxa : u.axis a = f.axis a := (axis_of_inner hui a).trans (by cases a <;> rfl)
      rw [hax, hxa]
    case locks =>
      have hxl : u.lock g = f.lock g := (lock_of_inner hui g).trans (by cases g <;> rfl)
      rw [hlk, hxl]

end Sys2Proof.Machine
end

