-- ==== Sys2Proof/Proofs/Delivery.lean ====
section
/-! PROOFS. How a command with a few messages ends: they are delivered one by one, in the order that they are sent in
(log 2). -/

namespace Sys2Proof.Machine

variable {n : Nat} {s t x y : State}

/-- Delivering at most `n` messages brings a state to one with none under way. -/
def Settles (n : Nat) (s t : State) : Prop := drain n s = t ∧ t.agenda = []

namespace Settles

theorem nil (h : s.agenda = []) : Settles 0 s s := ⟨rfl, h⟩

/-- The message at the front is handled, and what its handler sends goes before the rest. -/
theorem cons {m : Msg} {rest : List Msg} (hx : x.agenda = []) (h : Settles n ((handle m x).emit rest) t) :
    Settles (n + 1) (x.emit (m :: rest)) t := by
  have ha : (x.emit (m :: rest)).agenda = m :: rest := by simp [hx]
  have hd : deliver m rest (x.emit (m :: rest)) = (handle m x).emit rest := by
    have he : ({ x.emit (m :: rest) with agenda := [] } : State) = x := emptied (s := x) hx
    unfold deliver
    rw [he]
    rfl
  refine ⟨?_, h.2⟩
  rw [← h.1, ← hd]
  simp only [drain, ha]

/-- As `cons`, for the message alone. -/
theorem last {m : Msg} (hx : x.agenda = []) (h : Settles n (handle m x) t) : Settles (n + 1) (x.emit [m]) t :=
  cons hx (by rw [Machine.emit_nil]; exact h)

/-- A command ends in the state that its messages bring it to. -/
theorem settle_eq (h : Settles n s t) (hn : n ≤ Config.cascadeBound) : settle s = t := by
  rw [settle_of_drain hn (by rw [h.1]; exact h.2), h.1]

end Settles

theorem emit_emit (s : State) (l m : List Msg) : (s.emit l).emit m = s.emit (l ++ m) := by
  simp [State.emit]

/-! ## Timers (log 6) -/

/-- The expiry of a running timer ends with what it brings. -/
theorem ends_running {o : Option Nat} (h : o ≠ none) : ends (if o.isSome then t else s) = .next (settle t) := by
  rw [if_pos (Option.isSome_iff_ne_none.2 h), ends]

/-- The expiry of a timer that does not run changes nothing. -/
theorem ends_stopped {o : Option Nat} (ha : s.agenda = []) (h : o = none) :
    ends (if o.isSome then t else s) = .next s := by
  rw [h, ends, settle_nil]
  · rfl
  · exact ha

end Sys2Proof.Machine
end

