-- ==== Sys2Proof/Proofs/Start.lean ====
section
/-! PROOFS. START (R29): its tests (O28), and a START whose first group has to wait (O29), of which a group start with no
group at work and the permit LAPSED (R32, R35) is the main part. -/

namespace Sys2Proof.Machine

variable {s t x y f : State} {st : Station} {n : Nat}

/-! ## The tests (R29) -/

/-- A one-byte START with room for its reply is handled by RNE (R183). -/
theorem exec_startPlan (st : Station) (tag code : Byte) (hr : s.hasRoom st) :
    exec (.startPlan st tag [code]) s = .next (settle (startBody st tag code (frameDone st s))) :=
  exec_dispatch (kind := 0x03) (tag := tag) (p := [code]) rfl hr (by decide) rfl

theorem settle_startBody_error {tag code : Byte} {c : ReplyCode} (ha : s.agenda = [])
    (h : s.startCheck st code = .error c) : settle (startBody st tag code s) = replied st 0x03 tag c [] s := by
  rw [startBody, h]
  exact settle_answer _ _ _ _ _ ha

theorem startBody_ok {tag code : Byte} {p : PlanId} (h : s.startCheck st code = .ok p) :
    startBody st tag code s = answer st 0x03 tag .ok [] (startRun p st s) := by
  rw [startBody, h]

theorem startCheck_notHolder (code : Byte) (h : s.cau.holder ≠ some st) :
    s.startCheck st code = .error .noAuthority :=
  if_pos (by simpa using not_holds h)

theorem startCheck_engine (code : Byte) (h : s.cau.holder = some st) (he : s.rne.engine ≠ .idle) :
    s.startCheck st code = .error .wrongState :=
  (if_neg (by simp [State.holds, h])).trans (if_pos he)

theorem startCheck_noPlan {code : Byte} (h : s.cau.holder = some st) (he : s.rne.engine = .idle)
    (hp : storedPlanOfCode code.toNat = none) : s.startCheck st code = .error .badValue := by
  rw [State.startCheck, if_neg (by simp [State.holds, h]), if_neg (by simp [he]), hp]

/-- From the holder in IDLE, for a stored plan: its length, then its groups. -/
theorem startCheck_plan {code : Byte} {p : PlanId} (h : s.cau.holder = some st) (he : s.rne.engine = .idle)
    (hp : storedPlanOfCode code.toNat = some p) : s.startCheck st code =
      if (s.rne.plan p).len = 0 then .error .emptyPlan
      else if (s.rne.plan p).groupsFit then .ok p else .error .badPlan := by
  rw [State.startCheck, if_neg (by simp [State.holds, h]), if_neg (by simp [he]), hp]

/-- An accepted START leaves the run context of the plan, but for what the engine and its messages change of it. -/
theorem steady_startRun (p : PlanId) (st : Station) (s : State) :
    (startRun p st s).steady = ({ s with rne := s.rne.begin p st } : State).steady :=
  (groupStart_moves (k := 0) 1 _).steady rfl

/-- Settles O28: by the first test that fails, and by the steady view where none does. -/
theorem startByItsTests : Obligations.StartByItsTests := by
  unfold Obligations.StartByItsTests
  rintro st tag code s _ ha hr rfl
  have hf : (frameDone st s).agenda = [] := (agenda_frameDone st s).trans ha
  rw [exec_startPlan st tag code hr, ← rne_frameDone st s, ← holder_frameDone st s]
  generalize frameDone st s = f at hf ⊢
  refine ⟨fun hh => ?notHolder, fun hh he => ?engine, fun hh he hc => ?noPlan,
    fun p hh he hp => ⟨fun hl => ?empty, fun hl hg => ?bad, fun hl hg => ?accepted⟩⟩
  case notHolder => rw [settle_startBody_error hf (startCheck_notHolder code hh)]
  case engine => rw [settle_startBody_error hf (startCheck_engine code hh he)]
  case noPlan => rw [settle_startBody_error hf (startCheck_noPlan hh he (storedPlanOfCode_of_lt hc))]
  case empty => rw [settle_startBody_error hf ((startCheck_plan hh he hp).trans (if_pos hl))]
  case bad =>
    rw [settle_startBody_error hf ((startCheck_plan hh he hp).trans ((if_neg hl).trans (if_neg (by simp [hg]))))]
  case accepted =>
    rw [startBody_ok ((startCheck_plan hh he hp).trans ((if_neg hl).trans (if_pos hg)))]
    have hs : (settle (answer st 0x03 tag .ok [] (startRun p st f))).steady =
        ({ f with rne := f.rne.begin p st } : State).steady := (settle_steady _).trans (steady_startRun p st f)
    obtain ⟨hid, hby, hlen, -⟩ := run_of_steady hs
    exact ⟨_, rfl, hid, hby, hlen.trans List.length_replicate, hs⟩

/-! ## A group start with no group at work (R32) -/

/-- No lock group has an operation or a top-up in hand. -/
def State.locksFree (s : State) : Prop := ∀ g, (s.lock g).op = none ∧ (s.lock g).top.status = .none

theorem closeForStep_free (h : s.locksFree) (m : Member) : closeForStep m s = s := by
  cases m with
  | axis a => rfl
  | lock g => exact if_neg (by simp [LockState.inPhase, (h g).1])

theorem cancelForStep_free (h : s.locksFree) (m : Member) : cancelForStep m s = s := by
  cases m with
  | axis a => rfl
  | lock g => exact if_pos (h g).2

/-- What the placing of steps comes to where no group is at work: the member controllers, the supply, the permit, the
outputs and the messages are as they were; the run engine has the steps that are not satisfied in its set, each in
WAIT_GUARD. -/
structure Placed (ns : List Nat) (x y : State) : Prop where
  axis : ∀ a, y.axis a = x.axis a
  lock : ∀ g, y.lock g = x.lock g
  hsa : y.hsa = x.hsa
  pmt : y.pmt = x.pmt
  vod : y.vod = x.vod
  agenda : y.agenda = x.agenda
  set : ∃ o l, y.rne = { x.rne with outcomes := o, inflight := x.rne.inflight ++ l } ∧
    (∀ e ∈ l, e.phase = .waitGuard ∧ e.num ∈ ns) ∧
    ((∃ n ∈ ns, x.satisfied (x.rne.current.step n) = false) → l ≠ [])

namespace Placed

variable {ns ms : List Nat}

theorem nil (s : State) : Placed [] s s :=
  ⟨fun _ => rfl, fun _ => rfl, rfl, rfl, rfl, rfl, s.rne.outcomes, [], by rw [List.append_nil], by simp, by simp⟩

/-- The plan being run stays. -/
theorem current (h : Placed ns x y) : y.rne.current = x.rne.current := by
  obtain ⟨o, l, hr, -⟩ := h.set
  rw [hr]
  unfold Rne.current
  dsimp only
  split <;> [rename_i p _; rfl]
  cases p <;> rfl

/-- A satisfaction test reads the member controllers alone (R32). -/
theorem satisfied (h : Placed ns x y) (st : Step) : y.satisfied st = x.satisfied st := by
  unfold State.satisfied
  split
  · rw [h.axis]
  · rw [h.lock]

theorem locksFree (h : Placed ns x y) (hx : x.locksFree) : y.locksFree := fun g => by rw [h.lock]; exact hx g

theorem trans (h : Placed ns x y) (h' : Placed ms y t) : Placed (ns ++ ms) x t := by
  obtain ⟨o, l, hr, hl, hne⟩ := h.set
  obtain ⟨o', l', hr', hl', hne'⟩ := h'.set
  refine ⟨fun a => (h'.axis a).trans (h.axis a), fun g => (h'.lock g).trans (h.lock g), h'.hsa.trans h.hsa,
    h'.pmt.trans h.pmt, h'.vod.trans h.vod, h'.agenda.trans h.agenda, o', l ++ l', ?_, fun e he => ?_, ?_⟩
  · rw [hr', hr, List.append_assoc]
  · rcases List.mem_append.1 he with he | he
    · exact ⟨(hl e he).1, List.mem_append_left _ (hl e he).2⟩
    · exact ⟨(hl' e he).1, List.mem_append_right _ (hl' e he).2⟩
  · rintro ⟨n, hn, hs⟩ hnil
    obtain ⟨rfl, rfl⟩ := List.append_eq_nil_iff.1 hnil
    rcases List.mem_append.1 hn with hn | hn
    · exact hne ⟨n, hn, hs⟩ rfl
    · exact hne' ⟨n, hn, by rw [h.satisfied, h.current]; exact hs⟩ rfl

end Placed

/-- One step of a group start with no group at work. -/
theorem placed_placeStep (hl : s.locksFree) (n : Nat) : Placed [n] s (placeStep s n) := by
  unfold placeStep
  dsimp only
  rw [closeForStep_free hl]
  split
  next hs =>
    exact ⟨fun _ => rfl, fun _ => rfl, rfl, rfl, rfl, rfl, _, [], by rw [List.append_nil]; rfl, by simp,
      by simp [hs]⟩
  next =>
    unfold enterSet
    dsimp only
    rw [cancelForStep_free hl]
    exact ⟨fun _ => rfl, fun _ => rfl, rfl, rfl, rfl, rfl, _, [_], rfl, by simp [State.withWait], by simp⟩

theorem placed_foldl (ns : List Nat) : ∀ s : State, s.locksFree → Placed ns s (ns.foldl placeStep s) := by
  induction ns with
  | nil => exact fun s _ => .nil s
  | cons n ns ih =>
    exact fun s hl => (placed_placeStep hl n).trans (ih _ ((placed_placeStep hl n).locksFree hl))

/-! ## A START that has to wait (R29, R32, R35) -/

/-- A group start with no group at work: one event at members that changes no member, and one message behind it. -/
theorem groupStart_free (hl : s.locksFree) (first : Nat) : ∃ y,
    Placed (s.rne.current.group first)
      (s.modRne fun r => { r with groupFirst := first, elapsed := some 0, blocked := none }) y ∧
    groupStart first s = (mark .run y).emit (if y.rne.inflight.isEmpty then [.groupDone] else [.handTest]) := by
  have hx : (s.modRne fun r => { r with groupFirst := first, elapsed := some 0, blocked := none }).locksFree := hl
  have hc : (s.modRne fun r => { r with groupFirst := first, elapsed := some 0, blocked := none }).rne.current =
      s.rne.current := rfl
  refine ⟨_, placed_foldl _ _ hx, ?_⟩
  unfold groupStart
  dsimp only
  rw [memberEvent_same (placed_foldl _ _ hx).axis (placed_foldl _ _ hx).lock, hc, rne_mark]
  split <;> rfl

/-- With the permit LAPSED the hand-over test hands nothing over (R35). -/
theorem handOverNext_lapsed (h : s.pmt.live = false) : s.handOverNext = none := by
  have he : s.eligible = fun _ => false := funext fun e => by simp [State.eligible, h]
  unfold State.handOverNext
  rw [he]
  split <;> simp

theorem handTest_lapsed (h : s.pmt.live = false) : ∃ l, handTest s = (s.setWatch l).emit [.refreshBlocked] := by
  obtain ⟨l, hl, -⟩ := refreshAxes_eq s
  refine ⟨l, ?_⟩
  unfold handTest handTestAs
  dsimp only
  rw [hl, handOverNext_lapsed (s := s.setWatch l) h]

/-- The hand-over test and the reply behind it, with the permit LAPSED. -/
theorem settle_handTest_lapsed {fr : Frame} (ha : s.agenda = []) (h : s.pmt.live = false) :
    ∃ l, settle (s.emit [.handTest, .reply st fr]) = enqueueReply st fr (refreshBlocked (s.setWatch l)) := by
  obtain ⟨l, hl⟩ := handTest_lapsed h
  refine ⟨l, Settles.settle_eq (n := 3) (.cons ha ?_) (by decide)⟩
  have hw : (s.setWatch l).agenda = [] := ha
  have hb : (refreshBlocked (s.setWatch l)).agenda = [] := by
    unfold refreshBlocked
    simpa [State.modRne] using hw
  show Settles 2 ((handTest s).emit _) _
  rw [hl, emit_emit]
  refine .cons hw (.last hb (.nil ?_))
  show (enqueueReply st fr (refreshBlocked (s.setWatch l))).agenda = []
  rw [agenda_enqueueReply, hb]

/-- The blocked indication computed afresh changes the wait reasons and the indication alone. -/
theorem inner_refreshBlocked (s : State) : (refreshBlocked s).inner = ({ s with rne := { s.rne with
    inflight := s.rne.inflight.map s.withWait, blocked := blockedOf (s.rne.inflight.map s.withWait) } } : State).inner :=
  inner_markIf _ _ _

/-- The plan being run is the one begun. -/
theorem current_begin (r : Rne) (p : PlanId) (st : Station) : (r.begin p st).current = r.plan p := by
  cases p <;> rfl

/-- A START with no group at work and the permit LAPSED, whose first group is not satisfied throughout: its messages
change the wait reasons of the steps placed, and nothing else. -/
theorem inner_startRun_lapsed {p : PlanId} {fr : Frame} (ha : s.agenda = []) (hlk : s.locksFree)
    (hl : s.pmt.live = false)
    (hun : ∃ n ∈ (s.rne.plan p).group 1, s.satisfied ((s.rne.plan p).step n) = false) :
    ∃ y, Placed ((s.rne.plan p).group 1)
        (s.modRne fun r => { r.begin p st with groupFirst := 1, elapsed := some 0, blocked := none }) y ∧
      y.rne.inflight ≠ [] ∧
      ∃ w x, (settle ((startRun p st s).emit [.reply st fr])).inner =
        ({ y.setWatch w with rne := { y.rne with
            inflight := y.rne.inflight.map x, blocked := blockedOf (y.rne.inflight.map x) } } : State).inner ∧
          ∀ e, (x e).phase = e.phase ∧ (x e).num = e.num := by
  obtain ⟨y, hy, hg⟩ := groupStart_free (s := s.modRne fun r => r.begin p st) hlk 1
  have hcur : (s.rne.begin p st).current = s.rne.plan p := current_begin _ _ _
  have hne : y.rne.inflight ≠ [] := by
    obtain ⟨o, l, hrne, -, hl⟩ := hy.set
    obtain ⟨n, hn, hs⟩ := hun
    rw [hrne]
    exact fun h => hl ⟨n, hcur ▸ hn, hcur ▸ hs⟩ (List.append_eq_nil_iff.1 h).2
  have hya : (mark .run y).agenda = [] := (agenda_mark _ _).trans (hy.agenda.trans ha)
  have hyl : (mark .run y).pmt.live = false := by rw [pmt_mark, hy.pmt]; exact hl
  obtain ⟨w, hw⟩ := settle_handTest_lapsed (st := st) (fr := fr) hya hyl
  refine ⟨y, hcur ▸ hy, hne, w, ((mark .run y).setWatch w).withWait, ?_, fun e => ⟨rfl, rfl⟩⟩
  have hs : (startRun p st s).emit [.reply st fr] = (mark .run y).emit [.handTest, .reply st fr] := by
    rw [startRun, hg, if_neg (by simp [hne]), emit_emit]
    rfl
  rw [hs, hw]
  refine (inner_enqueueReply _ _ _).trans ((inner_refreshBlocked _).trans ?_)
  have hm := inner_mark .run y
  have hr : ((mark .run y).setWatch w).rne = y.rne := rne_mark _ _
  rw [hr]
  exact congrArg (fun z : State => ({ z.setWatch w with rne := _ } : State)) hm

/-- Settles O29: the group start fills the set, and the messages behind it change the wait reasons alone. -/
theorem startWaitsForGuardOrPermit : Obligations.StartWaitsForGuardOrPermit := by
  unfold Obligations.StartWaitsForGuardOrPermit
  rintro st tag code s _ p ha hr rfl hh he hin hlive hlk hp hlen hfit hun
  rw [exec_startPlan st tag code hr, startBody_ok (p := p) ?check]
  case check => rw [startCheck_plan (by simpa using hh) (by simpa using he) hp, rne_frameDone, if_neg hlen, if_pos hfit]
  have hlk : (frameDone st s).locksFree := fun g => by rw [lock_frameDone]; exact hlk g
  obtain ⟨y, hy, hne, w, x, hi, hx⟩ := inner_startRun_lapsed (s := frameDone st s) (st := st) (p := p)
    (fr := replyFrame 0x03 tag .ok []) ((agenda_frameDone st s).trans ha) hlk (by simpa using hlive)
    (by simpa [State.satisfied] using hun)
  obtain ⟨o, l, hrne, hall, -⟩ := hy.set
  have hr := (rne_of_inner hi :)
  have hin : (frameDone st s).rne.inflight = [] := by rw [rne_frameDone]; exact hin
  have hl : y.rne.inflight = l := by rw [hrne]; exact congrArg (· ++ l) hin
  refine ⟨_, rfl, ?engine, ?result, ?first, ?elapsed, ?some, ?all, fun a => ?axis, fun g => ?lock, ?hsa, ?vod⟩
  case engine => exact (congrArg Rne.engine hr).trans (congrArg Rne.engine hrne)
  case result => exact (congrArg Rne.result hr).trans (congrArg Rne.result hrne)
  case first => exact (congrArg Rne.groupFirst hr).trans (congrArg Rne.groupFirst hrne)
  case elapsed => exact (congrArg Rne.elapsed hr).trans (congrArg Rne.elapsed hrne)
  case some => exact (congrArg Rne.inflight hr).trans_ne (by simp [hne])
  case all =>
    intro e he
    obtain ⟨e', he', rfl⟩ := List.mem_map.1 ((congrArg Rne.inflight hr :) ▸ he)
    rw [(hx e').1, (hx e').2]
    simpa using hall e' (hl ▸ he')
  case axis => exact (axis_of_inner hi a).trans (hy.axis a)
  case lock => exact (lock_of_inner hi g).trans (hy.lock g)
  case hsa => exact (hsa_of_inner hi).trans hy.hsa
  case vod => exact (vod_of_inner hi).trans hy.vod

end Sys2Proof.Machine
end

