-- ==== Sys2Proof/Proofs/Abort.lean ====
section
/-! PROOFS. ABORT (R46, R47): a running plan enters ABORTING, and its run is over at once where no step is DELEGATED
(O31). -/

namespace Sys2Proof.Machine

variable {s t f : State} {st : Station} {tag : Byte}

/-! ## The steps that leave together -/

/-- A state but for its links, its messages, ILK's items and the lock groups: what the removal of steps from the set
touches outside RNE. -/
def State.sansWatch (s : State) : State :=
  { s.inner with ilk := State.reset.ilk, vlk := State.reset.vlk, rlk := State.reset.rlk, icl := State.reset.icl }

theorem sansWatch_of_inner (h : t.inner = s.inner) : t.sansWatch = s.sansWatch :=
  congrArg (fun x : State => ({ x with
    ilk := State.reset.ilk, vlk := State.reset.vlk, rlk := State.reset.rlk, icl := State.reset.icl } : State)) h

theorem sansWatch_modLock (g : Group) (h : LockState → LockState) (s : State) :
    (s.modLock g h).sansWatch = s.sansWatch := by cases g <;> rfl

theorem sansWatch_unwatchWaiting (l : List Entry) : ∀ s, (unwatchWaiting l s).sansWatch = s.sansWatch := by
  induction l with
  | nil => exact fun s => rfl
  | cons e l ih =>
    intro s
    refine (ih _).trans ?_
    beta_reduce
    split <;> rfl

theorem sansWatch_stepsGone (l : List Entry) : ∀ s, (stepsGone l s).sansWatch = s.sansWatch := by
  induction l with
  | nil => exact fun s => rfl
  | cons e l ih =>
    intro s
    refine (ih (stepGone e.member s)).trans ?_
    unfold stepGone
    split
    · exact sansWatch_modLock _ _ s
    · rfl

theorem axis_of_sansWatch (h : t.sansWatch = s.sansWatch) (a : Axis) : t.axis a = s.axis a := by
  have := congrArg (fun x : State => x.axis a) h
  cases a <;> exact this

theorem agenda_unwatchWaiting (l : List Entry) : ∀ s, (unwatchWaiting l s).agenda = s.agenda := by
  induction l with
  | nil => exact fun s => rfl
  | cons e l ih =>
    intro s
    refine (ih _).trans ?_
    beta_reduce
    split <;> rfl

theorem agenda_stepsGone (l : List Entry) : ∀ s, (stepsGone l s).agenda = s.agenda := by
  induction l with
  | nil => exact fun s => rfl
  | cons e l ih =>
    intro s
    refine (ih (stepGone e.member s)).trans ?_
    unfold stepGone
    split
    · exact agenda_setLock _ _ _
    · rfl

/-- An entry is in the set after others have left where no other of its number has. -/
theorem mem_inflight_dropAll {e : Entry} (l : List Entry) :
    ∀ r : Rne, e ∈ (r.dropAll l).inflight ↔ e ∈ r.inflight ∧ ∀ x ∈ l, e.num ≠ x.num := by
  induction l with
  | nil => exact fun r => by simp [Rne.dropAll]
  | cons x l ih =>
    intro r
    refine (ih (r.leave x .dropped)).trans ?_
    simp only [Rne.leave, Rne.setOutcome, List.mem_filter, List.mem_cons, forall_eq_or_imp, bne_iff_ne]
    tauto

/-- The steps that leave have not changed the plan being run. -/
theorem planId_dropAll (l : List Entry) : ∀ r : Rne, (r.dropAll l).planId = r.planId := by
  induction l with
  | nil => exact fun r => rfl
  | cons x l ih => exact fun r => ih (r.leave x .dropped)

/-! ## The engine enters ABORTING (R46) -/

/-- The entries that ABORT takes from the set: all but the DELEGATED ones. -/
def Rne.gone (r : Rne) : List Entry := r.inflight.filter fun e => !e.stays

/-- The run context as ABORT leaves it. -/
def Rne.abort (r : Rne) : Rne := { r.dropAll r.gone with engine := .aborting, lapse := false, operator := false }

/-- What is left in the set is DELEGATED, and was in the set. -/
theorem inflight_abort {r : Rne} {e : Entry} (h : e ∈ r.abort.inflight) : e.phase = .delegated ∧ e ∈ r.inflight := by
  obtain ⟨he, hx⟩ := (mem_inflight_dropAll r.gone r).1 h
  refine ⟨?_, he⟩
  by_contra hp
  exact hx e (List.mem_filter.2 ⟨he, by simp [Entry.stays, hp]⟩) rfl

theorem inflight_abort_nil {r : Rne} (h : ∀ e ∈ r.inflight, e.phase ≠ .delegated) : r.abort.inflight = [] :=
  List.eq_nil_iff_forall_not_mem.2 fun e he => h e (inflight_abort he).2 (inflight_abort he).1

/-- Where no step is DELEGATED no axis is told. -/
theorem axisMsgs_nil {r : Rne} (m : Axis → Msg) (h : ∀ e ∈ r.inflight, e.phase ≠ .delegated) : r.axisMsgs m = [] := by
  have hd : ∀ a, r.delegates a = false := by
    intro a
    unfold Rne.delegates
    cases he : r.entry? (.axis a) with
    | none => rfl
    | some e => simpa using h e (List.mem_of_find?_eq_some he)
  simp [Rne.axisMsgs, hd]

/-- The state with a run aborted, its messages apart. -/
def State.aborted (s : State) : State :=
  runEvent (fun r => { r.dropAll s.rne.gone with engine := .aborting, lapse := false, operator := false })
    (stepsGone s.rne.gone (unwatchWaiting s.rne.gone s))

theorem enterAborting_eq (s : State) : enterAborting s = s.aborted.emit (s.rne.axisMsgs .axisEnd ++ [.abortCheck]) :=
  rfl

theorem sansWatch_aborted (s : State) : s.aborted.sansWatch = ({ s with rne := s.rne.abort } : State).sansWatch := by
  have hw := (sansWatch_stepsGone s.rne.gone (unwatchWaiting s.rne.gone s)).trans (sansWatch_unwatchWaiting _ s)
  exact (sansWatch_of_inner (inner_mark _ _)).trans
    (congrArg (fun x : State => ({ x with rne := { x.rne.dropAll s.rne.gone with
      engine := .aborting, lapse := false, operator := false } } : State)) hw)

theorem agenda_aborted (s : State) : s.aborted.agenda = s.agenda :=
  (agenda_mark _ _).trans ((agenda_stepsGone _ _).trans (agenda_unwatchWaiting _ _))

theorem rne_aborted (s : State) : s.aborted.rne = s.rne.abort := by
  have := congrArg State.rne (sansWatch_aborted s)
  exact this

theorem steady_aborted (s : State) : s.aborted.steady = s.steady := by
  have := (enterAborting_moves (k := 0) s).steady rfl
  exact this

/-! ## The run is over (R46, R47) -/

/-- The state with its run over, ABORTED. -/
def State.abortDone (s : State) : State := runEvent (fun r => r.finish .aborted) s.aborted

theorem sansWatch_abortDone (s : State) :
    s.abortDone.sansWatch = ({ s with rne := s.rne.abort.finish .aborted } : State).sansWatch :=
  (sansWatch_of_inner (inner_mark _ _)).trans
    (congrArg (fun x : State => ({ x with rne := x.rne.finish .aborted } : State)) (sansWatch_aborted s))

/-- With no DELEGATED step the check of the set ends the run, and the reply follows. -/
theorem settle_abort_over (hf : f.agenda = []) (h : ∀ e ∈ f.rne.inflight, e.phase ≠ .delegated) :
    settle (answer st 0x06 tag .ok [] (enterAborting f)) = replied st 0x06 tag .ok [] f.abortDone := by
  have ha : f.aborted.agenda = [] := (agenda_aborted f).trans hf
  have hc : handle .abortCheck f.aborted = f.abortDone := if_pos (by
    rw [rne_aborted]
    exact ⟨rfl, inflight_abort_nil h⟩)
  have hd : f.abortDone.agenda = [] := (agenda_mark _ _).trans ha
  rw [enterAborting_eq, axisMsgs_nil _ h, answer, emit_emit]
  refine Settles.settle_eq (n := 2) (.cons ha ?_) (by decide)
  rw [hc]
  exact .last hd (.nil ((agenda_enqueueReply _ _ _).trans hd))

/-! ## ABORT -/

/-- ABORT with room for its reply is handled by RNE (R183). -/
theorem exec_abortRun (st : Station) (tag : Byte) (hr : s.hasRoom st) :
    exec (.abortRun st tag []) s = .next (settle (abortBody st tag (frameDone st s))) :=
  exec_dispatch (kind := 0x06) (tag := tag) (p := []) rfl hr (by decide) rfl

theorem abortBody_active (st : Station) (tag : Byte) (h : s.rne.engine = .running ∨ s.rne.engine = .paused) :
    abortBody st tag s = answer st 0x06 tag .ok [] (enterAborting s) :=
  if_pos (s.rne.active_iff.2 h)

theorem abortBody_inactive (st : Station) (tag : Byte) (h1 : s.rne.engine ≠ .running) (h2 : s.rne.engine ≠ .paused) :
    abortBody st tag s = answer st 0x06 tag (if s.rne.engine = .aborting then .ok else .wrongState) [] s := by
  unfold abortBody
  rw [if_neg fun ha => (s.rne.active_iff.1 ha).elim h1 h2]
  split <;> rfl

/-- Settles O31: what the engine's entry into ABORTING leaves, and what the check of an empty set then ends. -/
theorem abortEndsTheRun : Obligations.AbortEndsTheRun := by
  unfold Obligations.AbortEndsTheRun
  rintro st tag s _ ha hr rfl
  have hf : (frameDone st s).agenda = [] := (agenda_frameDone st s).trans ha
  rw [exec_abortRun st tag hr, ← rne_frameDone st s]
  generalize frameDone st s = f at hf ⊢
  refine ⟨fun he => ⟨?enters, fun hd => ?ends⟩, fun he => ?again, fun he => ?refused⟩
  case enters =>
    rw [abortBody_active st tag he, enterAborting_eq, answer, emit_emit]
    refine ⟨_, rfl, ?engine, ?lapse, ?operator, fun e he => ?left, ?agenda, steady_aborted f⟩
    case engine => exact congrArg Rne.engine (rne_aborted f)
    case lapse => exact congrArg Rne.lapse (rne_aborted f)
    case operator => exact congrArg Rne.operator (rne_aborted f)
    case left => exact inflight_abort ((congrArg Rne.inflight (rne_aborted f) :) ▸ he)
    case agenda => simp [agenda_aborted, hf]
  case ends =>
    rw [abortBody_active st tag he, settle_abort_over hf hd]
    have hi := sansWatch_abortDone f
    have hr : f.abortDone.rne = f.rne.abort.finish .aborted := by
      have := congrArg State.rne hi
      exact this
    refine ⟨_, rfl, congrArg Rne.engine hr, congrArg Rne.result hr, ?none, congrArg Rne.elapsed hr, ?plan,
      fun a => (axis_of_sansWatch hi a).trans (by cases a <;> rfl), ?_⟩
    case none => rw [hr]; exact inflight_abort_nil hd
    case plan => rw [hr]; exact planId_dropAll _ _
    exact ⟨(congrArg State.hsa hi :), (congrArg State.cau hi :), (congrArg State.pmt hi :), (congrArg State.tru hi :),
      (congrArg State.vod hi :), (congrArg State.dic hi :)⟩
  case again =>
    rw [abortBody_inactive st tag (by simp [he]) (by simp [he]), if_pos he, settle_answer _ _ _ _ _ hf]
  case refused =>
    rw [abortBody_inactive st tag (by rcases he with he | he <;> simp [he]) (by rcases he with he | he <;> simp [he]),
      if_neg (by rcases he with he | he <;> simp [he]), settle_answer _ _ _ _ _ hf]

end Sys2Proof.Machine
end

