-- ==== Sys2Proof/Proofs/Jog.lean ====
section
/-! PROOFS. JOG (R52): the step that it builds (O33), and its tests with the run context of one that passes (O32). -/

namespace Sys2Proof.Machine

variable {s t f : State} {st : Station} {tag : Byte}

/-! ## The step of a JOG (R52) -/

theorem memberOfCode_of_axisOfCode {n : Nat} {a : Axis} (h : axisOfCode n = some a) :
    memberOfCode n = some (.axis a) := by
  unfold axisOfCode at h
  split at h <;> cases h <;> rfl

theorem memberOfCode_of_groupOfCode {n : Nat} {g : Group} (h : groupOfCode n = some g) :
    memberOfCode n = some (.lock g) := by
  unfold groupOfCode at h
  split at h
  · next hm => rw [hm, Option.some.inj h]
  · cases h

theorem memberOfCode_of_lt {n : Nat} (h : 5 < n) : memberOfCode n = none := by
  obtain ⟨k, rfl⟩ := Nat.exists_eq_add_of_le' h
  rfl

/-- A jog's target is the coordinate moved by the held distance and held to the stroke; it is clamped where either
hold changed a value. -/
theorem jogTarget_eq (ax : AxisState) (x : Nat) (dist : Int) :
    ((ax.jogTarget x dist).1 : Int) = max 0 (min (ax.par.stroke : Int) (x + max (-2000) (min 2000 dist))) ∧
    ((ax.jogTarget x dist).2 = false ↔ ((ax.jogTarget x dist).1 : Int) = x + dist ∧ -2000 ≤ dist ∧ dist ≤ 2000) := by
  unfold AxisState.jogTarget
  dsimp only
  constructor
  · omega
  · simp only [Bool.or_eq_false_iff, decide_eq_false_iff_not, not_not]
    omega

/-- Settles O33: by what the member code names. -/
theorem jogBuildsItsStep : Obligations.JogBuildsItsStep := by
  unfold Obligations.JogBuildsItsStep
  intro m dist s
  unfold State.jogStep
  refine ⟨fun a x ha hx => ?axis, fun a ha hx => ?lost, fun g hg => ?lock, fun hm => ?none⟩
  case axis =>
    rw [memberOfCode_of_axisOfCode ha]
    dsimp only
    rw [hx]
    exact ⟨_, _, rfl, jogTarget_eq _ x dist⟩
  case lost =>
    rw [memberOfCode_of_axisOfCode ha]
    dsimp only
    rw [hx]
  case lock =>
    rw [memberOfCode_of_groupOfCode hg]
    refine ⟨fun h => if_pos h, fun h => ?_, fun h => (if_neg h.1).trans (if_neg h.2)⟩
    subst h
    rfl
  case none => rw [memberOfCode_of_lt hm]

/-! ## The tests (R52) -/

/-- A JOG of three bytes with room for its reply is handled by RNE (R183). -/
theorem exec_jog (st : Station) (tag m lo hi : Byte) (hr : s.hasRoom st) :
    exec (.jog st tag [m, lo, hi]) s = .next (settle (jogBody st tag m (signedVal lo hi) (frameDone st s))) :=
  exec_dispatch (kind := 0x08) (tag := tag) (p := [m, lo, hi]) rfl hr (by decide) rfl

theorem settle_jogBody_error {m : Byte} {dist : Int} {c : ReplyCode} (ha : s.agenda = [])
    (h : s.jogCheck st m dist = .error c) : settle (jogBody st tag m dist s) = replied st 0x08 tag c [] s := by
  rw [jogBody, h]
  exact settle_answer _ _ _ _ _ ha

theorem jogCheck_notHolder (m : Byte) (dist : Int) (h : s.cau.holder ≠ some st) :
    s.jogCheck st m dist = .error .noAuthority :=
  if_pos (by simpa using not_holds h)

theorem jogCheck_bridge (m : Byte) (dist : Int) (h : s.cau.holder = some st) (hs : st = .bridge) :
    s.jogCheck st m dist = .error .wrongStation := by
  subst hs
  exact if_neg (by simp [State.holds, h])

theorem jogCheck_state (m : Byte) (dist : Int) (h : s.cau.holder = some .deck)
    (hs : s.rne.engine ≠ .idle ∨ s.cau.key ≠ .isLocal) : s.jogCheck .deck m dist = .error .wrongState := by
  unfold State.jogCheck
  rw [if_neg (by simp [State.holds, h]), if_neg (by simp)]
  split
  · rfl
  · next he => exact if_pos (hs.resolve_left he)

/-- From the deck station holding, in IDLE with the key at LOCAL: the step, where the command names none. -/
theorem jogCheck_noStep {m : Byte} {dist : Int} {c : ReplyCode} (h : s.cau.holder = some .deck)
    (he : s.rne.engine = .idle) (hk : s.cau.key = .isLocal) (hc : s.jogStep m dist = .error c) :
    s.jogCheck .deck m dist = .error c := by
  unfold State.jogCheck
  rw [if_neg (by simp [State.holds, h]), if_neg (by simp), if_neg (by simp [he]), if_neg (by simp [hk]), hc]

/-- With a step the permit decides. -/
theorem jogCheck_step {m : Byte} {dist : Int} {r : Step × Bool} (h : s.cau.holder = some .deck)
    (he : s.rne.engine = .idle) (hk : s.cau.key = .isLocal) (hc : s.jogStep m dist = .ok r) :
    s.jogCheck .deck m dist = if s.pmt.live then .ok r else .error .wrongState := by
  unfold State.jogCheck
  rw [if_neg (by simp [State.holds, h]), if_neg (by simp), if_neg (by simp [he]), if_neg (by simp [hk]), hc]

/-! ## A JOG that passes its tests (R21, R52) -/

/-- All that a guard reads beside the conditions of its own member: member states, the emergency-stop latch and the
speed (R9, R10). -/
def State.guardView (s : State) : (Axis → AxisMember) × (Group → GroupState) × Bool × Bool × Nat × Nat :=
  (fun a => (s.axis a).member, fun g => (s.lock g).gstate, s.tru.latch, s.ilk.known, s.ilk.speed, s.ilk.speedLimit)

theorem guardView_of_inner (h : s.inner = t.inner) : s.guardView = t.guardView := by
  unfold State.guardView
  simp only [axis_of_inner h, lock_of_inner h, tru_of_inner h, ilk_of_inner h]

theorem axisGuard_of_view (h : s.guardView = t.guardView) (a : Axis) (d : Dir) : s.axisGuard a d = t.axisGuard a d := by
  simp only [State.guardView, Prod.mk.injEq, funext_iff] at h
  obtain ⟨ha, hl, ht, hk, hv, hm⟩ := h
  unfold State.axisGuard State.axisRow State.speedConds State.notFault State.lockNotBusy State.axisIs State.lockIs
  simp only [ha, hl, ht, hk, hv, hm]

theorem lockGuard_of_view (h : s.guardView = t.guardView) (g : Group) (w : Bool) :
    s.lockGuard g w = t.lockGuard g w := by
  simp only [State.guardView, Prod.mk.injEq, funext_iff] at h
  obtain ⟨ha, hl, ht, hk, hv, hm⟩ := h
  unfold State.lockGuard State.lockRow State.speedConds State.notFault State.axisIs State.lockIs
  simp only [ha, hl, ht, hk, hv, hm]

theorem satisfied_of_inner (h : s.inner = t.inner) (p : Step) : s.satisfied p = t.satisfied p := by
  unfold State.satisfied
  simp only [axis_of_inner h, lock_of_inner h]

theorem jogGuard_of_inner (h : s.inner = t.inner) (p : Step) (dist : Int) : s.jogGuard p dist = t.jogGuard p dist := by
  unfold State.jogGuard
  simp only [axisGuard_of_view (guardView_of_inner h), lockGuard_of_view (guardView_of_inner h)]

/-- The run context of a jog accepted: plan J with the step, started by the station. -/
def Rne.jogs (r : Rne) (p : Step) (b : Station) : Rne := { r with jog := jogPlan p }.begin .j b

theorem steady_jogSatisfied (p : Step) (b : Station) (s : State) :
    (jogSatisfied p b s).steady = ({ s with rne := s.rne.jogs p b } : State).steady :=
  steady_mark _ _

theorem steady_jogStart (p : Step) (b : Station) (s : State) :
    (jogStart p b s).steady = ({ s with rne := s.rne.jogs p b } : State).steady := by
  have hm : ∀ x : State, (memberEvent (enterSet 1 p .delegated) x).steady = x.steady := fun x =>
    (memberEvent_moves (k := 0) x (enterSet_moves 1 p _ x)).steady rfl
  unfold jogStart
  dsimp only
  split
  · next e _ =>
    refine (steady_emit _ _).trans ((Moves.steady (k := 0) (memberEvent_moves _ (handOver_moves e _)) rfl).trans ?_)
    exact hm _
  · exact hm _

/-- An accepted JOG leaves plan J with its one step, whatever its messages do. -/
theorem settle_jogs {p : Step} {b st : Station} {tag : Byte} {c : ReplyCode} {d : List Byte}
    (h : t.steady = ({ s with rne := s.rne.jogs p b } : State).steady) :
    (settle (answer st 0x08 tag c d t)).rne.planId = some .j ∧
      (settle (answer st 0x08 tag c d t)).rne.startedBy = some b ∧
      (settle (answer st 0x08 tag c d t)).rne.jog = ⟨1, [p]⟩ ∧
      (settle (answer st 0x08 tag c d t)).rne.outcomes.length = 1 := by
  obtain ⟨hid, hby, hlen, hj⟩ := run_of_steady (((settle_steady _).trans (steady_emit _ _)).trans h)
  exact ⟨hid, hby, hj, hlen.trans List.length_replicate⟩

/-- A JOG past its tests whose step stands satisfied, in the state that has closed a HOLDING group for it. -/
theorem jogBody_satisfied {m : Byte} {dist : Int} {p : Step} {cl : Bool} (h : s.jogCheck st m dist = .ok (p, cl))
    (hs : (closeForStep p.member s).satisfied p = true) : jogBody st tag m dist s =
      answer st 0x08 tag (jogCode cl) (jogData p none) (jogSatisfied p st (memberEvent (closeForStep p.member) s)) := by
  rw [jogBody, h]
  exact if_pos ((satisfied_of_inner (inner_memberEvent _ _) p).trans hs)

/-- One whose step has a guard that is not TRUE. -/
theorem jogBody_interlocked {m : Byte} {dist : Int} {p : Step} {cl : Bool} {r : Reason}
    (h : s.jogCheck st m dist = .ok (p, cl)) (hs : (closeForStep p.member s).satisfied p = false)
    (hg : (closeForStep p.member s).jogGuard p dist = some r) : jogBody st tag m dist s =
      answer st 0x08 tag .interlocked (jogData p (some r)) (memberEvent (closeForStep p.member) s) := by
  have hi := inner_memberEvent (closeForStep p.member) s
  rw [jogBody, h]
  dsimp only
  rw [if_neg (by rw [satisfied_of_inner hi, hs]; decide), jogGuard_of_inner hi, hg]

/-- One whose step may be driven. -/
theorem jogBody_starts {m : Byte} {dist : Int} {p : Step} {cl : Bool} (h : s.jogCheck st m dist = .ok (p, cl))
    (hs : (closeForStep p.member s).satisfied p = false) (hg : (closeForStep p.member s).jogGuard p dist = none) :
    jogBody st tag m dist s =
      answer st 0x08 tag (jogCode cl) (jogData p none) (jogStart p st (memberEvent (closeForStep p.member) s)) := by
  have hi := inner_memberEvent (closeForStep p.member) s
  rw [jogBody, h]
  dsimp only
  rw [if_neg (by rw [satisfied_of_inner hi, hs]; decide), jogGuard_of_inner hi, hg]

/-- Settles O32: by the first test that fails, and where none does by the step's satisfaction and its guard. -/
theorem jogByItsTests : Obligations.JogByItsTests := by
  unfold Obligations.JogByItsTests
  rintro st tag m lo hi s _ ha hr rfl
  have hf : (frameDone st s).agenda = [] := (agenda_frameDone st s).trans ha
  have hkey : s.cau.key = (frameDone st s).cau.key := by simp
  rw [exec_jog st tag m lo hi hr, ← rne_frameDone st s, ← holder_frameDone st s, ← pmt_frameDone st s, hkey]
  clear hkey
  generalize frameDone st s = f at hf ⊢
  refine ⟨fun hh => ?notHolder, fun hh hs => ?bridge, fun hh hs h => ?state, fun c hh hs he hk hc => ?step, ?passes⟩
  case notHolder => rw [settle_jogBody_error hf (jogCheck_notHolder m _ hh)]
  case bridge => rw [settle_jogBody_error hf (jogCheck_bridge m _ hh hs)]
  case state => subst hs; rw [settle_jogBody_error hf (jogCheck_state m _ hh h)]
  case step =>
    subst hs
    rw [settle_jogBody_error hf (jogCheck_noStep hh he hk hc)]
  case passes =>
    rintro p cl _ hh rfl he hk hc rfl
    have hstep := jogCheck_step hh he hk hc
    refine ⟨fun hl => ?lapsed, fun hl => ⟨fun hg => ?accepted, fun r hs hg hsame => ?interlocked⟩⟩
    case lapsed => rw [settle_jogBody_error hf (hstep.trans (if_neg (by simp [hl])))]
    case accepted =>
      cases hs : (closeForStep p.member f).satisfied p with
      | true =>
        rw [jogBody_satisfied (hstep.trans (if_pos hl)) hs]
        exact ⟨_, rfl, settle_jogs (steady_jogSatisfied _ _ _)⟩
      | false =>
        rw [jogBody_starts (hstep.trans (if_pos hl)) hs (hg.resolve_left (by simp [hs]))]
        exact ⟨_, rfl, settle_jogs (steady_jogStart _ _ _)⟩
    case interlocked =>
      have hm : memberEvent (closeForStep p.member) f = f :=
        (memberEvent_same (fun a => by rw [hsame]) fun g => by rw [hsame]).trans hsame
      rw [jogBody_interlocked (hstep.trans (if_pos hl)) hs hg, hm]
      exact congrArg _ (settle_answer _ _ _ _ _ hf)

end Sys2Proof.Machine
end

