-- ==== Sys2Proof/Proofs/Topup.lean ====
section
/-! PROOFS. TOPUP (R114, R115, R117): its tests, and the top-up that it starts or joins (O34). -/

namespace Sys2Proof.Machine

variable {s t f : State} {st : Station} {tag : Byte} {g : Group}

/-! ## The start of a top-up (R114, R115) -/

/-- An entry put in its place is the entry of its member. -/
theorem find?_putEntry (e : WatchEntry) (l : List WatchEntry) :
    (putEntry e l).find? (fun x => x.member == e.member) = some e := by
  unfold putEntry
  rw [List.find?_append, List.find?_eq_none.2, Option.none_or]
  · simp
  · intro x hx hm
    have hlt : memberIndex x.member < memberIndex e.member := by simpa using (List.mem_filter.1 hx).2
    rw [eq_of_beq hm] at hlt
    exact lt_irrefl _ hlt

/-- A change of a lock group that keeps its state is seen by no guard. -/
theorem guardView_modLock (h : LockState → LockState) (hg : ∀ l, (h l).gstate = l.gstate) (s : State) :
    (s.modLock g h).guardView = s.guardView := by
  unfold State.guardView
  have hx : ∀ k, ((s.modLock g h).lock k).gstate = (s.lock k).gstate := by
    intro k
    by_cases hk : k = g
    · subst hk; simp [State.modLock, hg]
    · simp [State.modLock, hk]
  simp only [hx]
  cases g <;> rfl

/-- A top-up of this source that has just become pending. -/
def freshTopUp (src : TopSource) : TopUp := TopUp.add { noTopUp with status := .pendingGuard } src

/-- The start of a top-up: its record and the periodic timer at the group, its entry in ILK's list, and its request for
supply where its guard is TRUE. -/
theorem startTopUp_eq (g : Group) (src : TopSource) (s : State) : ∃ w,
    startTopUp g src s = (mark (.member (.lock g)) ((s.modLock g fun l =>
      { l with top := freshTopUp src, periodic := none }).setWatch w)).emit
        (if s.lockGuard g false = none then [.topupGo g] else []) := by
  have hg : (s.modLock g fun l => { l with top := freshTopUp src, periodic := none }).guardOf
      ⟨.lock g, .topUp, none, .topUp, .waiting, none⟩ = s.lockGuard g false :=
    lockGuard_of_view (guardView_modLock (fun l => { l with top := freshTopUp src, periodic := none }) (fun _ => rfl) s) g
      false
  let e : WatchEntry := ⟨.lock g, .topUp, none, .topUp, .waiting, s.lockGuard g false⟩
  refine ⟨putEntry e s.ilk.watch, ?_⟩
  have he : ∀ x : State, x.ilk.watch = putEntry e s.ilk.watch → x.ilk.entry? (.lock g) = some e := fun x hx => by
    unfold Ilk.entry?
    rw [hx]
    exact find?_putEntry e _
  have hw : (mark (.member (.lock g)) ((s.modLock g fun l =>
      { l with top := freshTopUp src, periodic := none }).setWatch (putEntry e s.ilk.watch))).ilk.watch = _ :=
    congrArg Ilk.watch (ilk_mark _ _)
  have hs : (s.modLock g fun l => { l with top := freshTopUp src, periodic := none }).ilk = s.ilk := by cases g <;> rfl
  unfold startTopUp watchAdd
  unfold freshTopUp at hg hw hs
  dsimp only
  rw [hg, hs, he _ hw]
  cases hr : s.lockGuard g false <;> simp [e, hr, freshTopUp]

theorem lock_startTopUp (g : Group) (src : TopSource) (s : State) :
    (startTopUp g src s).lock g = { s.lock g with top := freshTopUp src, periodic := none } := by
  obtain ⟨w, hw⟩ := startTopUp_eq g src s
  rw [hw, lock_emit, lock_mark]
  exact lock_setLock_self _ _ _

theorem rne_startTopUp (g : Group) (src : TopSource) (s : State) : (startTopUp g src s).rne = s.rne := by
  obtain ⟨w, hw⟩ := startTopUp_eq g src s
  rw [hw, rne_emit, rne_mark]
  exact rne_setLock _ _ _

theorem hsa_startTopUp (g : Group) (src : TopSource) (s : State) : (startTopUp g src s).hsa = s.hsa := by
  obtain ⟨w, hw⟩ := startTopUp_eq g src s
  rw [hw, hsa_emit, hsa_mark]
  exact hsa_setLock _ _ _

theorem agenda_startTopUp (g : Group) (src : TopSource) (s : State) :
    (startTopUp g src s).agenda = s.agenda ++ if s.lockGuard g false = none then [.topupGo g] else [] := by
  obtain ⟨w, hw⟩ := startTopUp_eq g src s
  rw [hw, agenda_emit, agenda_mark]
  exact congrArg (· ++ _) (agenda_setLock _ _ _)

/-! ## TOPUP (R117) -/

/-- A TOPUP of one byte with room for its reply is handled by the lock control (R183). -/
theorem exec_topup (st : Station) (tag code : Byte) (hr : s.hasRoom st) :
    exec (.topup st tag [code]) s = .next (settle (topupBody st tag code (frameDone st s))) :=
  exec_dispatch (kind := 0x09) (tag := tag) (p := [code]) rfl hr (by decide) rfl

theorem settle_topupBody_error {code : Byte} {c : ReplyCode} (ha : s.agenda = []) (h : s.topupCheck st code = .error c) :
    settle (topupBody st tag code s) = replied st 0x09 tag c [] s := by
  rw [topupBody, h]
  exact settle_answer _ _ _ _ _ ha

theorem topupCheck_notHolder (code : Byte) (h : s.cau.holder ≠ some st) : s.topupCheck st code = .error .noAuthority :=
  if_pos (by simpa using not_holds h)

/-- From the holder: the group that the code names, then the three conditions that bar a TOPUP. -/
theorem topupCheck_holder {code : Byte} (h : s.cau.holder = some st) : s.topupCheck st code =
    match groupOfCode code.toNat with
    | none => .error .badValue
    | some g =>
      if s.tru.record.isSome || s.rne.stepFor (.lock g) || (s.lock g).gstate != .engaged then .error .wrongState
      else .ok g :=
  if_neg (by simp [State.holds, h])

/-- A station's trigger is dropped in no case. -/
theorem topupTrigger_station (g : Group) (s : State) : topupTrigger g .station s =
    if (s.lock g).top.status = .none then startTopUp g .station s
    else markIf (decide ((s.lock g).top ≠ (s.lock g).top.add .station)) (.member (.lock g))
      (s.modLock g fun l => { l with top := l.top.add .station }) :=
  rfl

/-- Settles O34: by the first test that fails, and by whether a top-up is in hand where none does. -/
theorem topupStartsOrJoins : Obligations.TopupStartsOrJoins := by
  unfold Obligations.TopupStartsOrJoins
  rintro st tag code s _ ha hr rfl
  have hf : (frameDone st s).agenda = [] := (agenda_frameDone st s).trans ha
  have hl : ∀ g, s.lock g = (frameDone st s).lock g := fun g => (lock_frameDone st s g).symm
  have hg : ∀ g, s.lockGuard g false = (frameDone st s).lockGuard g false := fun g =>
    lockGuard_of_view (by simp [State.guardView]) g false
  rw [exec_topup st tag code hr, ← rne_frameDone st s, ← holder_frameDone st s, ← tru_frameDone st s]
  simp only [hl, hg]
  clear hl hg
  generalize frameDone st s = f at hf ⊢
  refine ⟨fun hh => ?notHolder, fun hh hc => ?noGroup, fun g hh hc => ⟨fun h => ?barred, fun ht hs he => ?passes⟩⟩
  case notHolder => rw [settle_topupBody_error hf (topupCheck_notHolder code hh)]
  case noGroup => rw [settle_topupBody_error hf ((topupCheck_holder hh).trans (by rw [hc]))]
  case barred =>
    have hb : (f.tru.record.isSome || f.rne.stepFor (.lock g) || (f.lock g).gstate != .engaged) = true := by
      rcases h with h | h | h <;> simp [h, Option.isSome_iff_ne_none]
    rw [settle_topupBody_error hf ((topupCheck_holder hh).trans (by rw [hc]; exact if_pos hb))]
  case passes =>
    have hok : f.topupCheck st code = .ok g := by
      rw [topupCheck_holder hh, hc]
      exact if_neg (by simp [ht, hs, he])
    have hb : topupBody st tag code f = answer st 0x09 tag .ok [] (topupTrigger g .station f) := by rw [topupBody, hok]
    rw [hb, topupTrigger_station]
    refine ⟨fun hj => ?joins, fun hn => ?starts⟩
    case joins =>
      rw [if_neg hj, settle_answer _ _ _ _ _ (by rw [agenda_markIf]; exact (agenda_setLock _ _ _).trans hf)]
      exact ⟨_, rfl, inner_markIf _ _ _⟩
    case starts =>
      rw [if_pos hn]
      refine ⟨_, rfl, ?top, ?periodic, ?steady, ?agenda⟩
      case top => exact congrArg LockState.top (lock_startTopUp g .station f)
      case periodic => exact congrArg LockState.periodic (lock_startTopUp g .station f)
      case steady =>
        have := (topupTrigger_moves (k := 0) g .station f).steady rfl
        rw [topupTrigger_station, if_pos hn] at this
        exact this
      case agenda => rw [answer, agenda_emit, agenda_startTopUp, hf, List.nil_append]

end Sys2Proof.Machine
end

