-- ==== Sys2Proof/Proofs/Permit.lean ====
section
/-! PROOFS. PERMIT (R149) and the notice of its arrival at the run engine (R34, R43) (O35), and the two timers that take
the speed (R14) and the permit (R151) away (O59). -/

namespace Sys2Proof.Machine

variable {s t f : State} {st : Station} {tag : Byte}

/-! ## PERMIT (R149) -/

theorem exec_permit (st : Station) (tag : Byte) (s : State) :
    exec (.permit st tag []) s = .next (settle (permitArrival st (frameDone st s))) := by
  rw [exec_of_requestOf (kind := 0x07) (tag := tag) (p := []) rfl, takeRequest, if_pos ⟨rfl, rfl⟩]

theorem permitArrival_other (h : s.cau.holder ≠ some st) : permitArrival st s = s := if_neg (not_holds h)

/-- The permit just renewed (R149). -/
def Pmt.renewed (p : Pmt) : Pmt := { p with live := true, timer := some p.window, lapsed := false }

/-- The state with the permit renewed, its marks made and its messages apart. -/
def State.renewed (s : State) : State :=
  markIf s.pmt.lapsed .run (markIf (!s.pmt.live) .authority (s.modPmt Pmt.renewed))

theorem permitArrival_holder (h : s.cau.holder = some st) :
    permitArrival st s = s.renewed.emit (if s.pmt.live then [.permitNotice] else [.permitNotice, .refreshBlocked]) := by
  have hm : s.permitMsgs = if s.pmt.live then [.permitNotice] else [.permitNotice, .refreshBlocked] := by
    cases hl : s.pmt.live <;> simp [State.permitMsgs, hl]
  rw [← hm]
  exact if_pos ((holds_iff s st).2 h)

theorem inner_renewed (s : State) : s.renewed.inner = ({ s with pmt := s.pmt.renewed } : State).inner :=
  (inner_markIf _ _ _).trans (inner_markIf _ _ _)

theorem agenda_renewed (s : State) : s.renewed.agenda = s.agenda :=
  (agenda_markIf _ _ _).trans (agenda_markIf _ _ _)

/-- Outside RUNNING and PAUSED the notice changes nothing (R43). -/
theorem permitNotice_inactive (h1 : s.rne.engine ≠ .running) (h2 : s.rne.engine ≠ .paused) : permitNotice s = s :=
  if_neg fun h => (s.rne.active_iff.1 h).elim h1 h2

/-- A wait reason reads the inside of the part alone. -/
theorem withWait_of_inner (h : s.inner = t.inner) : s.withWait = t.withWait := by
  funext e
  unfold State.withWait State.waitReason
  simp only [axis_of_inner h, ilk_of_inner h, pmt_of_inner h]

theorem inner_refreshBlocked_of_inner (h : s.inner = t.inner) : (refreshBlocked s).inner =
    ({ t with rne := { t.rne with inflight := t.rne.inflight.map t.withWait,
                                  blocked := blockedOf (t.rne.inflight.map t.withWait) } } : State).inner := by
  rw [inner_refreshBlocked, withWait_of_inner h, rne_of_inner h]
  exact congrArg (fun x : State => ({ x with rne := _ } : State)) h

theorem agenda_refreshBlocked (s : State) : (refreshBlocked s).agenda = s.agenda := agenda_markIf _ _ _

theorem settle_permitArrival_inactive (ha : s.agenda = []) (h1 : s.rne.engine ≠ .running) (h2 : s.rne.engine ≠ .paused)
    (h : s.cau.holder = some st) :
    settle (permitArrival st s) = if s.pmt.live then s.renewed else refreshBlocked s.renewed := by
  have hr : s.renewed.rne = s.rne := (rne_of_inner (inner_renewed s) :)
  have hn : handle .permitNotice s.renewed = s.renewed :=
    permitNotice_inactive (by rw [hr]; exact h1) (by rw [hr]; exact h2)
  have ha' : s.renewed.agenda = [] := (agenda_renewed s).trans ha
  rw [permitArrival_holder h]
  split
  · exact Settles.settle_eq (n := 1) (.last ha' (by rw [hn]; exact .nil ha')) (by decide)
  · refine Settles.settle_eq (n := 2) (.cons ha' ?_) (by decide)
    rw [hn]
    exact .last ha' (.nil ((agenda_refreshBlocked _).trans ha'))

/-- Settles O35: the arrival and its messages, and what the messages come to where no plan runs. -/
theorem permitRenewsForHolder : Obligations.PermitRenewsForHolder := by
  unfold Obligations.PermitRenewsForHolder
  rintro st tag s _ ha rfl
  have hf : (frameDone st s).agenda = [] := (agenda_frameDone st s).trans ha
  rw [exec_permit st tag, ← rne_frameDone st s, ← holder_frameDone st s, ← pmt_frameDone st s]
  generalize frameDone st s = f at hf ⊢
  refine ⟨fun hh => ⟨⟨_, rfl, ?inner, ?agenda⟩, fun h1 h2 g l hg hl => ?inactive⟩, fun hh => ?other⟩
  case inner => rw [permitArrival_holder hh]; exact inner_renewed f
  case agenda => rw [permitArrival_holder hh, agenda_emit, agenda_renewed, hf, List.nil_append]
  case inactive =>
    refine ⟨_, rfl, ?_⟩
    rw [settle_permitArrival_inactive hf h1 h2 hh]
    have hi : f.renewed.inner = g.inner := hg ▸ inner_renewed f
    split
    · exact hi
    · rw [hl]; exact inner_refreshBlocked_of_inner hi
  case other => rw [permitArrival_other hh, settle_nil hf]

/-! ## The staleness timer (R14) and the permit timer (R151) -/

/-- The ship's speed lost (R14). -/
def Ilk.stales (i : Ilk) : Ilk := { i with known := false, stale := true, expiry := none }

theorem exec_speedStaleExpiry (h : s.ilk.expiry ≠ none) :
    exec .speedStaleExpiry s = .next (settle ((mark .run { s with ilk := s.ilk.stales }).emit [.reeval])) :=
  ends_running h

/-- The permit lapsed (R151). -/
def Pmt.lapse (p : Pmt) : Pmt := { p with live := false, timer := none, lapsed := true }

/-- The state with the permit lapsed, its marks made and its messages apart. -/
def State.lapsed (s : State) : State :=
  markIf (!s.pmt.lapsed) .run (markIf s.pmt.live .authority (s.modPmt Pmt.lapse))

theorem permitLapse_eq (s : State) : permitLapse s = s.lapsed.emit [s.lapseMsg, .refreshBlocked] := rfl

theorem inner_lapsed (s : State) : s.lapsed.inner = ({ s with pmt := s.pmt.lapse } : State).inner :=
  (inner_markIf _ _ _).trans (inner_markIf _ _ _)

theorem agenda_lapsed (s : State) : s.lapsed.agenda = s.agenda :=
  (agenda_markIf _ _ _).trans (agenda_markIf _ _ _)

theorem exec_permitExpiry (h : s.pmt.timer ≠ none) : exec .permitExpiry s = .next (settle (permitLapse s)) :=
  ends_running h

theorem pmt_settle_permitLapse (s : State) : (settle (permitLapse s)).pmt = s.pmt.lapse := by
  have hl : (permitLapse s).pmt = s.pmt.lapse := (pmt_of_inner (inner_lapsed s) :)
  exact ((settle_moves (k := 0) _).lapsedHeld rfl (by rw [hl]; rfl)).trans hl

/-- Under PERMIT_ACTION TRIP with an axis driving the lapse goes to the trip unit (R151). -/
theorem lapseMsg_trip {a : Axis} (h : s.pmt.tripAction = true) (hd : s.firstDriving = some a) :
    s.lapseMsg = .tripReport .permitLapse (some (.axis a)) .none := by
  unfold State.lapseMsg
  rw [h, hd]

theorem lapseMsg_event (h : s.pmt.tripAction = false ∨ s.firstDriving = none) : s.lapseMsg = .lapseEvent := by
  unfold State.lapseMsg
  rcases h with h | h <;> rw [h]
  cases s.pmt.tripAction <;> rfl

/-- Settles O59: the change each timer brings, and the message that follows it. -/
theorem speedAndPermitLapse : Obligations.SpeedAndPermitLapse := by
  unfold Obligations.SpeedAndPermitLapse
  intro s ha
  refine ⟨fun h => ?stale, fun h => ?noStale, fun h => ⟨?lapsed, fun a ht hd hr => ?trip, fun hn => ?event⟩,
    fun h => ?noLapse⟩
  case stale =>
    rw [exec_speedStaleExpiry h]
    refine ⟨⟨_, rfl, ?_, inner_mark _ _⟩, _, rfl, ?_⟩
    · rw [agenda_emit, agenda_mark]
      exact congrArg (· ++ _) ha
    · have hs := (settle_steady ((mark .run { s with ilk := s.ilk.stales }).emit [.reeval])).trans
        ((steady_emit _ _).trans (steady_mark _ _))
      have hi := congrArg State.ilk hs
      exact ⟨(congrArg Ilk.known hi :), (congrArg Ilk.stale hi :), (congrArg Ilk.expiry hi :), (congrArg Ilk.speed hi :)⟩
  case noStale => exact ends_stopped ha h
  case lapsed => exact ⟨_, exec_permitExpiry h, pmt_settle_permitLapse s⟩
  case trip =>
    refine ⟨_, exec_permitExpiry h, settle_report [.refreshBlocked] ?_ ?_⟩
    · rw [permitLapse_eq, agenda_emit, agenda_lapsed, ha, lapseMsg_trip ht hd]
      rfl
    · exact (congrArg Tru.record (tru_of_inner (inner_lapsed s))).trans hr
  case event =>
    refine ⟨_, exec_permitExpiry h, ?_, inner_lapsed s⟩
    rw [permitLapse_eq, agenda_emit, agenda_lapsed, ha, lapseMsg_event hn]
    rfl
  case noLapse => exact ends_stopped ha h

end Sys2Proof.Machine
end

