-- ==== Sys2Proof/Proofs/Ack.lean ====
section
/-! PROOFS. ACKNOWLEDGE with no trip latched (R164) (O36) and with one (R162, R163) (O37). -/

namespace Sys2Proof.Machine

variable {s t f : State} {st : Station} {tag : Byte}

theorem exec_acknowledge (st : Station) (tag : Byte) (hr : s.hasRoom st) :
    exec (.acknowledge st tag []) s = .next (settle (ackBody st tag (frameDone st s))) :=
  exec_dispatch (kind := 0x10) (tag := tag) (p := []) rfl hr (by decide) rfl

/-- A station may acknowledge where it holds the authority or none does (R162). -/
theorem mayAck_iff (s : State) (st : Station) : s.mayAck st = true ↔ s.cau.holder = some st ∨ s.cau.holder = none := by
  simp [State.mayAck, holds_iff]

/-! ## The pump units (R127, R164) -/

/-- The state with the pump units recovered, its messages apart. -/
def State.recovered (s : State) : State :=
  supplyEvent (fun s => (s.modUnit .u1 PumpUnit.recover).modUnit .u2 PumpUnit.recover) s

theorem hsaRecover_eq (s : State) : hsaRecover s = s.recovered.emit [.allocate] := rfl

theorem inner_recovered (s : State) : s.recovered.inner =
    ({ s with hsa := { s.hsa with u1 := s.hsa.u1.recover, u2 := s.hsa.u2.recover } } : State).inner :=
  inner_supplyEvent _ _

theorem agenda_recovered (s : State) : s.recovered.agenda = s.agenda := agenda_supplyEvent _ _

theorem unit_recovered (w : UnitId) (s : State) : s.recovered.unit w = (s.unit w).recover := by
  cases w <;> exact unit_of_inner (inner_recovered s) _

theorem recover_failed {u : PumpUnit} (h : u.state = .failed ∧ u.motorTrip ≠ some true) :
    u.recover.state = .stopped ∧ u.recover.failure = none := by
  rw [PumpUnit.recover, if_pos h]
  exact ⟨rfl, rfl⟩

theorem recover_other {u : PumpUnit} (h : ¬(u.state = .failed ∧ u.motorTrip ≠ some true)) : u.recover = u := if_neg h

/-- With nothing asked for, an allocation event grants nothing (R130). -/
theorem serve_noWants (h : s.hsa.wants = []) : serve s = s := by
  have hg : grantOne s = s := by rw [grantOne, h]
  rw [serve, hg, hg, preempt, h]

theorem hsaAllocate_noWants (h : s.hsa.wants = []) : hsaAllocate s = s := by
  unfold hsaAllocate supplyEvent
  rw [serve_noWants h]
  exact if_neg (by simp)

/-- Settles O36: the units recover, and with an empty list the allocation behind them changes nothing. -/
theorem acknowledgeRecoversUnits : Obligations.AcknowledgeRecoversUnits := by
  unfold Obligations.AcknowledgeRecoversUnits
  rintro st tag s _ ha hr rfl hh ht
  have hf : (frameDone st s).agenda = [] := (agenda_frameDone st s).trans ha
  have hu : ∀ w, s.unit w = (frameDone st s).unit w := fun w => (unit_frameDone st s w).symm
  rw [exec_acknowledge st tag hr]
  simp only [hu]
  rw [← holder_frameDone st s] at hh
  rw [← tru_frameDone st s] at ht
  rw [← hsa_frameDone st s]
  clear hu
  generalize frameDone st s = f at hf hh ht ⊢
  have hb : ackBody st tag f = answer st 0x10 tag .ok [] (f.recovered.emit [.allocate]) := by
    unfold ackBody
    rw [if_neg (by simp [(mayAck_iff f st).2 hh]), if_pos (by simp [ht]), hsaRecover_eq]
  have hra : f.recovered.agenda = [] := (agenda_recovered f).trans hf
  rw [hb, answer, emit_emit]
  refine ⟨⟨_, rfl, inner_recovered f, ?_⟩, fun w => recover_failed, fun w => recover_other, fun hw => ?_⟩
  · rw [agenda_emit, hra]
    rfl
  · have hn : handle .allocate f.recovered = f.recovered :=
      hsaAllocate_noWants ((congrArg Hsa.wants (hsa_of_inner (inner_recovered f))).trans hw)
    refine ⟨_, congrArg _ (Settles.settle_eq (n := 2) (.cons hra ?_) (by decide)), inner_recovered f⟩
    rw [hn]
    exact .last hra (.nil ((agenda_enqueueReply _ _ _).trans hra))

/-! ## An accepted ACKNOWLEDGE at the members (R163) -/

theorem phase_toPhase (ax : AxisState) (ph : AxisPhase) : (ax.toPhase ph).phase = ph := by
  unfold AxisState.toPhase
  split <;> rfl

/-- What an accepted ACKNOWLEDGE does at an axis: its latches are gone, and it has left HALTED. -/
theorem axis_ackAxis_self (a : Axis) (s : State) :
    ((ackAxis a s).axis a).phase = (if (s.axis a).phase = .halted then .idle else (s.axis a).phase) ∧
      ((ackAxis a s).axis a).steady = (s.axis a).acknowledged.steady := by
  have hm : (s.modAxis a AxisState.acknowledged).axis a = (s.axis a).acknowledged := by simp
  have hp : (s.axis a).acknowledged.phase = (s.axis a).phase := rfl
  unfold ackAxis
  dsimp only
  rw [hm, hp]
  split
  · obtain ⟨z, hz, -⟩ := axis_passTo_self a .idle id (s.modAxis a AxisState.acknowledged)
    rw [hz, hm]
    exact ⟨phase_toPhase _ _, steady_toPhase _ _⟩
  · rw [deriveAxis_eq, axis_setAxis_self, hm]
    exact ⟨hp, rfl⟩

theorem axis_ackAxis_of_ne {a b : Axis} (h : b ≠ a) (s : State) : (ackAxis a s).axis b = s.axis b := by
  unfold ackAxis
  dsimp only
  split
  · rw [axis_passTo_of_ne _ _ _ _ _ h]; simp [h]
  · simp [h]

/-- What an accepted ACKNOWLEDGE does at a group: its latches are gone. -/
theorem lock_ackLock_self (g : Group) (s : State) : ((ackLock g s).lock g).conflictPins = [] ∧
    ((ackLock g s).lock g).creep = false ∧ ((ackLock g s).lock g).top = (s.lock g).top := by
  unfold ackLock
  simp

theorem lock_ackLock_of_ne {g h : Group} (hn : h ≠ g) (s : State) : (ackLock g s).lock h = s.lock h := by
  unfold ackLock
  simp [hn]

/-- What an accepted ACKNOWLEDGE comes to at the six members. -/
structure Acked (s t : State) : Prop where
  phase : ∀ a, (t.axis a).phase = if (s.axis a).phase = .halted then .idle else (s.axis a).phase
  steady : ∀ a, (t.axis a).steady = (s.axis a).acknowledged.steady
  lock : ∀ g, (t.lock g).conflictPins = [] ∧ (t.lock g).creep = false ∧ (t.lock g).top = (s.lock g).top
  rne : t.rne = s.rne
  hsa : t.hsa = s.hsa
  tru : t.tru = s.tru
  forced : t.vod.forced = s.vod.forced

/-- A view that no step of a fold changes. -/
theorem foldl_keeps {ι α : Type} {f : State → ι → State} {v : State → α} (h : ∀ s i, v (f s i) = v s) (l : List ι) :
    ∀ s, v (l.foldl f s) = v s := by
  induction l with
  | nil => exact fun s => rfl
  | cons i l ih => exact fun s => (ih (f s i)).trans (h s i)

/-- A fold leaves a controller that none of its steps is about. -/
theorem foldl_misses {ι α : Type} {f : State → ι → State} {v : State → ι → α}
    (hne : ∀ s i j, j ≠ i → v (f s i) j = v s j) {j : ι} (l : List ι) (hj : j ∉ l) : ∀ s, v (l.foldl f s) j = v s j := by
  induction l with
  | nil => exact fun s => rfl
  | cons i l ih =>
    obtain ⟨hi, hl⟩ := not_or.1 (mt List.mem_cons.2 hj)
    exact fun s => (ih hl (f s i)).trans (hne s i j hi)

/-- A fold over distinct controllers, whose steps change each their own controller alone, does at each what its step
does. -/
theorem foldl_each {ι α : Type} {f : State → ι → State} {v : State → ι → α} {P : α → α → Prop}
    (hself : ∀ s i, P (v s i) (v (f s i) i)) (hne : ∀ s i j, j ≠ i → v (f s i) j = v s j) (l : List ι) :
    l.Nodup → ∀ j ∈ l, ∀ s, P (v s j) (v (l.foldl f s) j) := by
  induction l with
  | nil => exact fun _ j hj => absurd hj List.not_mem_nil
  | cons i l ih =>
    intro hl j hj s
    obtain ⟨hi, hl⟩ := List.nodup_cons.1 hl
    rcases List.mem_cons.1 hj with rfl | hj
    · rw [List.foldl_cons, foldl_misses hne l hi]
      exact hself s j
    · have h := ih hl j hj (f s i)
      rwa [hne s i j fun h => hi (h ▸ hj)] at h

/-- Everything but the axes that an acknowledged axis leaves. -/
def State.besideAxes (s : State) : (Group → LockState) × Rne × Hsa × Tru × Bool :=
  (s.lock, s.rne, s.hsa, s.tru, s.vod.forced)

/-- Everything but the groups that an acknowledged group leaves. -/
def State.besideLocks (s : State) : (Axis → AxisState) × Rne × Hsa × Tru × Bool :=
  (s.axis, s.rne, s.hsa, s.tru, s.vod.forced)

theorem besideAxes_ackAxis (s : State) (a : Axis) : (ackAxis a s).besideAxes = s.besideAxes := by
  unfold State.besideAxes ackAxis
  dsimp only
  split <;> simp [forced_passTo, funext_iff]

theorem besideLocks_ackLock (s : State) (g : Group) : (ackLock g s).besideLocks = s.besideLocks := by
  unfold State.besideLocks ackLock
  simp [funext_iff]

theorem acked_ackMembers (s : State) : Acked s (ackMembers s) := by
  have hi := inner_memberEvent
    (fun s => allGroups.foldl (fun s g => ackLock g s) (allAxes.foldl (fun s a => ackAxis a s) s)) s
  have hx := foldl_keeps besideAxes_ackAxis allAxes s
  have hg := foldl_keeps besideLocks_ackLock allGroups (allAxes.foldl (fun s a => ackAxis a s) s)
  simp only [State.besideAxes, State.besideLocks, Prod.mk.injEq, funext_iff] at hx hg
  obtain ⟨hxl, hxr, hxh, hxt, hxf⟩ := hx
  obtain ⟨hga, hgr, hgh, hgt, hgf⟩ := hg
  have ha : ∀ a, _ := fun a => foldl_each (v := State.axis) (P := fun x y =>
      y.phase = (if x.phase = .halted then .idle else x.phase) ∧ y.steady = x.acknowledged.steady)
    (fun s a => axis_ackAxis_self a s) (fun s a b h => axis_ackAxis_of_ne h s) allAxes (by decide) a (mem_allAxes a) s
  have hl : ∀ g, _ := fun g => foldl_each (v := State.lock) (P := fun x y =>
      y.conflictPins = [] ∧ y.creep = false ∧ y.top = x.top)
    (fun s g => lock_ackLock_self g s) (fun s g h hn => lock_ackLock_of_ne hn s) allGroups (by decide) g
    (mem_allGroups g) (allAxes.foldl (fun s a => ackAxis a s) s)
  refine ⟨fun a => ?_, fun a => ?_, fun g => ?_, (rne_of_inner hi).trans (hgr.trans hxr),
    (hsa_of_inner hi).trans (hgh.trans hxh), (tru_of_inner hi).trans (hgt.trans hxt),
    (congrArg Vod.forced (vod_of_inner hi)).trans (hgf.trans hxf)⟩
  · exact (congrArg AxisState.phase ((axis_of_inner hi a).trans (hga a))).trans (ha a).1
  · exact (congrArg AxisState.steady ((axis_of_inner hi a).trans (hga a))).trans (ha a).2
  · rw [← hxl g]
    unfold ackMembers
    rw [lock_of_inner hi g]
    exact hl g

/-! ## ACKNOWLEDGE with a trip latched (R162, R163) -/

theorem ackBody_refused (st : Station) (tag : Byte) (h : ¬(s.cau.holder = some st ∨ s.cau.holder = none)) :
    ackBody st tag s = answer st 0x10 tag .noAuthority [] s :=
  if_pos (by simpa [← mayAck_iff] using h)

/-- From a station that may acknowledge, a trip latched: by whether a cause is still present. -/
theorem ackBody_trip (st : Station) (tag : Byte) (h : s.cau.holder = some st ∨ s.cau.holder = none)
    (hr : s.tru.record ≠ none) : ackBody st tag s =
      if s.stillPresent.isEmpty then answer st 0x10 tag .ok [] (acceptAck s)
      else answer st 0x10 tag .stillActive s.stillActiveData s := by
  unfold ackBody
  rw [if_neg (by simp [(mayAck_iff s st).2 h]), if_neg (by simp [hr])]

/-- TRU as an accepted ACKNOWLEDGE leaves it. -/
def Tru.cleared (t : Tru) : Tru := { t with record := none, causes := [], latch := false }

/-- An accepted ACKNOWLEDGE: the trip unit's part, then the members', the units' and the engine's. -/
theorem acceptAck_eq (s : State) : ∃ y, acceptAck s = runEvent (fun r => { r with engine := .idle }) (hsaRecover (ackMembers y)) ∧
    y.inner = ({ s with tru := s.tru.cleared, vod := { s.vod with forced := false } } : State).inner := by
  have hi : (clearTrip s).inner = ({ s with tru := s.tru.cleared, vod := { s.vod with forced := false } } : State).inner :=
    inner_mark _ _
  refine ⟨if s.tru.latch then (clearTrip s).emit [.reeval] else clearTrip s, rfl, ?_⟩
  split <;> exact hi

/-- What an accepted ACKNOWLEDGE does at the trip unit, the outputs, the engine, the members and the units, its messages
apart (R163). -/
theorem acceptAck_does (s : State) : (acceptAck s).tru = s.tru.cleared ∧ (acceptAck s).vod.forced = false ∧
    (acceptAck s).rne = { s.rne with engine := .idle } ∧
    (∀ a, ((acceptAck s).axis a).phase = (if (s.axis a).phase = .halted then .idle else (s.axis a).phase) ∧
      ((acceptAck s).axis a).steady = (s.axis a).acknowledged.steady) ∧
    (∀ g, ((acceptAck s).lock g).conflictPins = [] ∧ ((acceptAck s).lock g).creep = false ∧
      ((acceptAck s).lock g).top = (s.lock g).top) ∧
    ∀ w, (acceptAck s).unit w = (s.unit w).recover := by
  obtain ⟨y, hy, hi⟩ := acceptAck_eq s
  have hk := acked_ackMembers y
  have hf : (acceptAck s).inner = ({ ackMembers y with
      rne := { (ackMembers y).rne with engine := .idle }
      hsa := { (ackMembers y).hsa with
        u1 := (ackMembers y).hsa.u1.recover, u2 := (ackMembers y).hsa.u2.recover } } : State).inner := by
    rw [hy]
    exact (inner_mark _ _).trans (congrArg (fun z : State => ({ z with rne := { z.rne with engine := .idle } } : State))
      (inner_recovered (ackMembers y)))
  generalize ackMembers y = m at hk hf
  have hx : ∀ a, y.axis a = s.axis a := fun a => by rw [axis_of_inner hi]; cases a <;> rfl
  have hl : ∀ g, y.lock g = s.lock g := fun g => by rw [lock_of_inner hi]; cases g <;> rfl
  have hh : m.hsa = s.hsa := hk.hsa.trans (hsa_of_inner hi :)
  refine ⟨?_, ?_, ?_, fun a => ?_, fun g => ?_, fun w => ?_⟩
  · exact ((tru_of_inner hf).trans hk.tru).trans (tru_of_inner hi)
  · exact ((congrArg Vod.forced (vod_of_inner hf)).trans hk.forced).trans (congrArg Vod.forced (vod_of_inner hi))
  · exact (rne_of_inner hf).trans (congrArg (fun r : Rne => { r with engine := .idle }) (hk.rne.trans (rne_of_inner hi)))
  · have ha : (acceptAck s).axis a = m.axis a := (axis_of_inner hf a).trans (by cases a <;> rfl)
    rw [ha, ← hx a]
    exact ⟨hk.phase a, hk.steady a⟩
  · have hg : (acceptAck s).lock g = m.lock g := (lock_of_inner hf g).trans (by cases g <;> rfl)
    rw [hg, ← hl g]
    exact hk.lock g
  · refine (unit_of_inner hf w).trans ?_
    cases w <;> simp [State.unit, hh]

/-- Settles O37: the two refusals, what an accepted ACKNOWLEDGE does, and what its messages cannot change of it. -/
theorem acknowledgeClearsTrip : Obligations.AcknowledgeClearsTrip := by
  unfold Obligations.AcknowledgeClearsTrip
  constructor
  · rintro st tag s _ ha hr rfl
    have hf : (frameDone st s).agenda = [] := (agenda_frameDone st s).trans ha
    rw [exec_acknowledge st tag hr, ← holder_frameDone st s, ← tru_frameDone st s]
    generalize frameDone st s = f at hf ⊢
    refine ⟨fun h hh hn => ?_, fun hh ht hp => ?_⟩
    · rw [ackBody_refused st tag (by simp [hh, hn]), settle_answer _ _ _ _ _ hf]
    · rw [ackBody_trip st tag hh ht, if_neg (by simpa using hp), settle_answer _ _ _ _ _ hf]
      rfl
  · rintro st tag s _ ha hr rfl hh ht hp
    rw [exec_acknowledge st tag hr]
    rw [← holder_frameDone st s] at hh
    rw [← tru_frameDone st s] at ht
    generalize frameDone st s = f at hh ht hp ⊢
    rw [ackBody_trip st tag hh ht, if_pos (by simp [hp])]
    obtain ⟨htru, hv, hrn, hx, hl, hu⟩ := acceptAck_does f
    have hs : (settle (answer st 0x10 tag .ok [] (acceptAck f))).steady = (acceptAck f).steady :=
      (settle_steady _).trans (steady_emit _ _)
    obtain ⟨hsx, hsl⟩ := members_of_steady hs
    refine ⟨⟨_, rfl, (congrArg Tru.record htru :), (congrArg Tru.causes htru :), (congrArg Tru.latch htru :), hv, hrn,
      fun a => ?phase, fun g => ?creep, fun g => ?top, fun w => ?unit⟩, _, rfl, ?latch, fun a => ?fault, fun g => ?pins⟩
    case phase => exact (congrArg AxisState.phase (axis_emit _ _ a)).trans (hx a).1
    case creep => exact (congrArg LockState.creep (lock_emit _ _ g)).trans (hl g).2.1
    case top => exact (congrArg LockState.top (lock_emit _ _ g)).trans (hl g).2.2
    case unit => exact (unit_emit _ _ w).trans (hu w)
    case latch =>
      have h1 : (settle (answer st 0x10 tag .ok [] (acceptAck f))).tru.latch = (acceptAck f).tru.latch :=
        (congrArg (fun x : State => x.tru.latch) hs :)
      rw [h1, htru]
      rfl
    case fault =>
      have h1 := (hsx a).trans (hx a).2
      have hsw := congrArg (fun x : AxisState => x.latchClosed || x.latchOpen) h1
      exact ⟨(congrArg AxisState.posFault h1 :), hsw, (congrArg AxisState.pos h1 :), (congrArg AxisState.jumpSuspP h1 :),
        (congrArg AxisState.jumpSuspS h1 :)⟩
    case pins => exact (congrArg LockState.conflictPins (hsl g) :).trans (hl g).1

end Sys2Proof.Machine
end

