-- ==== Sys2Proof/Proofs/Links.lean ====
section
/-! PROOFS. The station link interfaces: the frame assembler (R181) (O40), frames sent (R179, R180) (O41), the link's
timers (R181, R189) (O42) and the pending report set (R188) (O43). -/

namespace Sys2Proof.Machine

variable {s t : State} {st : Station}

/-! ## The frame assembler (R181) -/

/-- One raw byte is one byte at the assembler. -/
theorem exec_oneByte (st : Station) (b : Byte) (s : State) :
    exec (.frameDiscard st [b]) s = .next (settle (rxByte st s b)) := rfl

theorem setAsm_eq (st : Station) (asm : Option (List Byte)) (s : State) :
    setAsm st asm s = s.setLink st { s.link st with asm := asm, gap := asm.map fun _ => 11 } := rfl

theorem settle_setAsm (asm : Option (List Byte)) (ha : s.agenda = []) : settle (setAsm st asm s) = setAsm st asm s :=
  settle_nil ((agenda_setLink _ _ _).trans ha)

theorem rxByte_hunting {b : Byte} (h : (s.link st).asm = none) :
    rxByte st s b = if b = 0xC3 then setAsm st (some []) s else s := by
  unfold rxByte
  rw [h]

/-- The first byte of a frame is its LEN. -/
theorem rxByte_len {b : Byte} (h : (s.link st).asm = some []) :
    rxByte st s b = if b.toNat < 2 ∨ 64 < b.toNat then setAsm st none s else setAsm st (some [b]) s := by
  unfold rxByte
  rw [h]
  have hs : [b].length < frameSize b := by simp [frameSize]
  exact congrArg (ite _ _) (if_pos hs)

/-- A later byte of a frame is stored, until it completes the frame. -/
theorem rxByte_inside {b len : Byte} {rest : List Byte} (h : (s.link st).asm = some (len :: rest)) (h2 : 2 ≤ len.toNat)
    (h64 : len.toNat ≤ 64) : rxByte st s b =
      if rest.length + 2 < len.toNat + 3 then setAsm st (some (len :: rest ++ [b])) s
      else
        match frameOf (len :: rest ++ [b]) with
        | some (kind, tag, payload) => settle (arrive st kind tag payload s)
        | none => setAsm st none s := by
  unfold rxByte
  rw [h]
  have hl : ((len :: rest) ++ [b]).length = rest.length + 2 := by simp
  dsimp only
  rw [hl]
  exact if_neg (by simp; omega)

/-- Settles O40: by the state of the assembler and the place of the byte in its frame. -/
theorem receivedByteAssembles : Obligations.ReceivedByteAssembles := by
  unfold Obligations.ReceivedByteAssembles
  intro st b s ha
  rw [exec_oneByte]
  refine ⟨fun h hb => ?noise, fun h hb => ?sync, fun h hb => ?badLen, fun h h2 h64 => ?len,
    fun len rest h h2 h64 => ⟨fun hl => ?inside, fun hl => ⟨fun hf => ?badCrc, fun kind tag p hf => ?complete⟩⟩⟩
  case noise => rw [rxByte_hunting h, if_neg hb, settle_nil ha]
  case sync => rw [rxByte_hunting h, if_pos hb, settle_setAsm _ ha]; rfl
  case badLen => rw [rxByte_len h, if_pos hb, settle_setAsm _ ha]; rfl
  case len => rw [rxByte_len h, if_neg (by omega), settle_setAsm _ ha]; rfl
  case inside => rw [rxByte_inside h h2 h64, if_pos hl, settle_setAsm _ ha]; rfl
  case badCrc => rw [rxByte_inside h h2 h64, if_neg (by omega), hf, settle_setAsm _ ha]; rfl
  case complete =>
    rw [rxByte_inside h h2 h64, if_neg (by omega), hf, settle_nil (settle_agenda _)]
    rfl

/-! ## Frames sent (R179, R180) -/

theorem toNat_byteOf {n : Nat} (h : n < 256) : (byteOf n).toNat = n := by
  simp [byteOf, Nat.mod_eq_of_lt h]

/-- A frame whose LEN counts its payload and whose last two bytes are its CRC passes the check. -/
theorem frameOf_append {len kind tag : Byte} {p : List Byte} (hn : len.toNat - 2 = p.length) :
    frameOf (len :: kind :: tag :: (p ++ [byteOf ((crc16 (len :: kind :: tag :: p)).toNat / 256),
      byteOf (crc16 (len :: kind :: tag :: p)).toNat])) = some (kind, tag, p) := by
  unfold frameOf
  dsimp only
  rw [hn, List.take_left, List.drop_left, if_pos rfl]

/-- Settles O41: LEN counts the payload back, and the CRC is that of the same bytes. -/
theorem sentFramesAreWellFormed : Obligations.SentFramesAreWellFormed := by
  unfold Obligations.SentFramesAreWellFormed
  intro fr hp
  refine ⟨_, rfl, frameOf_append ?_⟩
  rw [toNat_byteOf (by omega), Nat.add_sub_cancel]

/-! ## The link's timers (R181, R189) -/

theorem link_txNone (st : Station) (s : State) :
    (s.modLink st fun l => { l with tx := none }).link st = { s.link st with tx := none } := by simp

/-- A report is built from the inside of the part alone. -/
theorem report_setLink (l : Link) (sub : Subject) (s : State) : (s.setLink st l).report sub = s.report sub := by
  cases st <;> rcases sub with (_ | _) | _ | _ | _ | _ <;> rfl

/-- The end of a frame: the transmitter chooses afresh. -/
theorem exec_frameSent (h : (s.link st).tx ≠ none) :
    exec (.frameSent st) s = .next (txChoose st (s.setLink st { s.link st with tx := none })) :=
  congrArg _ (if_pos (Option.isSome_iff_ne_none.2 h))

theorem txChoose_nothing (h : (s.link st).tx = none) (hr : (s.link st).replies = []) (hp : (s.link st).reports = []) :
    txChoose st s = s := by
  rw [txChoose, h, hr, hp]

theorem txChoose_reply {r : Frame} {rest : List Frame} (h : (s.link st).tx = none)
    (hr : (s.link st).replies = r :: rest) :
    txChoose st s = s.setLink st { s.link st with replies := rest, tx := some ⟨r, r.lineTime⟩ } := by
  rw [txChoose, h, hr]

theorem txChoose_report {sub : Subject} {rest : List Subject} (h : (s.link st).tx = none)
    (hr : (s.link st).replies = []) (hp : (s.link st).reports = sub :: rest) :
    txChoose st s = s.setLink st { s.link st with
      reports := rest, tx := some ⟨s.reportFrame sub, (s.reportFrame sub).lineTime⟩ } := by
  simp only [txChoose, h, hr, hp]

/-- Two records for one link: the later one stands. -/
theorem setLink_setLink (l m : Link) (s : State) : (s.setLink st l).setLink st m = s.setLink st m := by cases st <;> rfl

/-- Settles O42: the gap timer, and the transmitter by what waits for it. -/
theorem linkTimersExpire : Obligations.LinkTimersExpire := by
  unfold Obligations.LinkTimersExpire
  intro st s
  refine ⟨fun h => ?gap, fun h => ?noGap, fun h => ?idle, fun h hr hp => ?nothing, fun r rest h hr => ?reply,
    fun sub rest h hr hp => ?report⟩
  case gap => exact congrArg _ (if_pos (Option.isSome_iff_ne_none.2 h))
  case noGap => exact congrArg _ (if_neg (by simp [h]))
  case idle => exact congrArg _ (if_neg (by simp [h]))
  case nothing => rw [exec_frameSent h, txChoose_nothing] <;> simp [hr, hp]
  case reply => rw [exec_frameSent h, txChoose_reply (r := r) (rest := rest)] <;> simp [hr, setLink_setLink]
  case report =>
    rw [exec_frameSent h, txChoose_report (sub := sub) (rest := rest)]
    · refine ⟨(s.reportFrame sub).lineTime, ?_⟩
      simp [State.reportFrame, report_setLink, reportKind, setLink_setLink]
    all_goals simp [hr, hp]

/-! ## Marking (R188) -/

theorem link_txChoose_of_ne {p q : Station} (h : q ≠ p) (s : State) : (txChoose p s).link q = s.link q := by
  unfold txChoose
  dsimp only
  split <;> simp [h]

/-- A mark that finds its subject masked, or pending already, leaves the link. -/
theorem link_markAt_idle {q : Station} {sub : Subject}
    (h : (s.link q).unmasked sub = false ∨ sub ∈ (s.link q).reports) (p : Station) :
    (markAt p sub s).link q = s.link q := by
  unfold markAt
  dsimp only
  split
  · next hc =>
    have hne : q ≠ p := by
      rintro rfl
      rcases h with h | h <;> simp [h] at hc
    rw [link_txChoose_of_ne hne, link_setLink_of_ne _ _ _ _ hne]
  · rfl

/-- Settles O43: a subject let through that is not pending is put in the set, or sent from it at once. -/
theorem markingShowsSubject : Obligations.MarkingShowsSubject := by
  unfold Obligations.MarkingShowsSubject
  intro sub st s
  have hm : ∀ h, (mark sub s).link st = s.link st := fun h =>
    have h1 := link_markAt_idle (s := s) (q := st) h .bridge
    (link_markAt_idle (by rw [h1]; exact h) .deck).trans h1
  exact ⟨shows_mark_self, fun h => hm (.inl h), fun h => hm (.inr h), inner_mark sub s⟩

end Sys2Proof.Machine
end

