-- ==== Sys2Proof/Proofs/AxisTimers.lean ====
section
/-! PROOFS. The timers of an axis (R68, R69, R76) (O58). -/

namespace Sys2Proof.Machine

variable {s t : State} {a : Axis}

/-! ## Phases entered (section 3.5) -/

/-- A change of an axis that its steady view does not show. -/
theorem steady_modAxis {h : AxisState → AxisState} (hh : (h (s.axis a)).steady = (s.axis a).steady) :
    (s.modAxis a h).steady = s.steady := by
  rw [modAxis_eq, Moves.steady_setAxis _ _ hh]

/-- An axis that enters MOVING: Vc 0, its dead time over, a fresh stall reference (R69, R94). -/
theorem axis_enterMoving (a : Axis) (s : State) : ((enterMoving a s).axis a).phase = .moving ∧
    ((enterMoving a s).axis a).vc = 0 ∧ ((enterMoving a s).axis a).reversal = none ∧
    ((enterMoving a s).axis a).stallRef = (s.axis a).x?.map (fun x => (x, 0)) ∧
    ((enterMoving a s).axis a).stallLeft = some 25 := by
  have hp : (s.axis a).toPhase .moving = { s.axis a with phase := .moving } := if_neg (by simp [AxisPhase.sampled])
  obtain ⟨z, hz, -⟩ := axis_setPhase_self a .moving (fun ax =>
    { ax with reversal := none, vc := 0, stallRef := ax.x?.map fun x => (x, 0), stallLeft := some 25 }) s
  rw [hp] at hz
  unfold enterMoving
  rw [hz]
  exact ⟨rfl, rfl, rfl, rfl, rfl⟩

theorem enterMoving_leaves (a : Axis) (s : State) : (enterMoving a s).drives a = s.drives a ∧
    (enterMoving a s).rne = s.rne ∧ (enterMoving a s).hsa = s.hsa ∧ (enterMoving a s).steady = s.steady := by
  refine ⟨?_, rne_setPhase _ _ _ _, hsa_setPhase _ _ _ _, (enterMoving_moves (k := 0) a s).steady rfl⟩
  unfold enterMoving
  rw [drives_setPhase, if_neg (by simp [AxisPhase.driving])]

/-- Out of ANNOUNCE an axis reverses for what is left of its dead time (R68, R69). -/
theorem enterReversing_waits (h : (s.axis a).phase = .announce) (hr : (s.axis a).reversalLeft ≠ 0) :
    ((enterReversing a s).axis a).phase = .reversing ∧ ((enterReversing a s).axis a).announce = none ∧
      ((enterReversing a s).axis a).reversal = some (s.axis a).reversalLeft ∧
      (enterReversing a s).drives a = s.drives a ∧ (enterReversing a s).rne = s.rne ∧
      (enterReversing a s).hsa = s.hsa := by
  have hp : (s.axis a).toPhase .reversing = { s.axis a with phase := .reversing } :=
    if_neg (by simp [h, AxisPhase.sampled])
  have he : enterReversing a s = setPhase a .reversing (fun ax =>
      { ax with announce := none, reversal := some (s.axis a).reversalLeft }) s := if_neg hr
  obtain ⟨z, hz, -⟩ := axis_setPhase_self a .reversing (fun ax =>
    { ax with announce := none, reversal := some (s.axis a).reversalLeft }) s
  rw [hp] at hz
  rw [he, hz]
  refine ⟨rfl, rfl, rfl, ?_, rne_setPhase _ _ _ _, hsa_setPhase _ _ _ _⟩
  rw [drives_setPhase, if_neg (by simp [h, AxisPhase.driving])]

/-- With no dead time left it moves on at once. -/
theorem enterReversing_over (h : (s.axis a).phase = .announce) (hr : (s.axis a).reversalLeft = 0) :
    ((enterReversing a s).axis a).phase = .moving ∧ ((enterReversing a s).axis a).vc = 0 ∧
      (enterReversing a s).drives a = s.drives a := by
  have he : enterReversing a s = enterMoving a (setPhase a .reversing (fun ax => { ax with announce := none }) s) :=
    if_pos hr
  obtain ⟨hp, hv, -⟩ := axis_enterMoving a (setPhase a .reversing (fun ax => { ax with announce := none }) s)
  rw [he]
  refine ⟨hp, hv, (enterMoving_leaves _ _).1.trans ?_⟩
  rw [drives_setPhase, if_neg (by simp [h, AxisPhase.driving])]

/-! ## The timers (R68, R69, R76) -/

/-- The state with an axis's announce timer stopped. -/
def State.announceOver (s : State) (a : Axis) : State := s.modAxis a fun ax => { ax with announce := none }

/-- The state with an axis's reversal timer stopped. -/
def State.reversalOver (s : State) (a : Axis) : State := s.modAxis a fun ax => { ax with reversal := none }

theorem axis_announceOver (s : State) (a : Axis) : (s.announceOver a).axis a = { s.axis a with announce := none } := by
  simp [State.announceOver]

theorem axis_reversalOver (s : State) (a : Axis) : (s.reversalOver a).axis a = { s.axis a with reversal := none } := by
  simp [State.reversalOver]

theorem exec_announceExpiry (h : (s.axis a).announce ≠ none) (hp : (s.axis a).phase = .announce) :
    exec (.announceExpiry a) s = .next (settle (enterReversing a (s.announceOver a))) :=
  (ends_running h).trans
    (congrArg (fun x => Host.Outcome.next (settle x)) (if_pos ((congrArg AxisState.phase (axis_announceOver s a)).trans hp)))

theorem exec_reversalExpiry (h : (s.axis a).reversal ≠ none) (hp : (s.axis a).phase = .reversing) :
    exec (.reversalExpiry a) s = .next (settle (enterMoving a (s.reversalOver a))) :=
  (ends_running h).trans
    (congrArg (fun x => Host.Outcome.next (settle x)) (if_pos ((congrArg AxisState.phase (axis_reversalOver s a)).trans hp)))

/-- A switch wait that runs out in SEEKING goes to the trip unit (R76). -/
theorem exec_switchWaitExpiry (h : (s.axis a).switchWait ≠ none) (hp : (s.axis a).phase = .seeking) :
    exec (.switchWaitExpiry a) s = .next (settle ((s.modAxis a fun ax => { ax with switchWait := none }).emit
      [.tripReport .endsw (some (.axis a)) .none])) :=
  (ends_running h).trans (congrArg (fun x => Host.Outcome.next (settle x)) (if_pos (by simp [hp])))

/-- Settles O58: each timer that runs is stopped, and its phase passes on. -/
theorem axisTimersMovePhase : Obligations.AxisTimersMovePhase := by
  unfold Obligations.AxisTimersMovePhase
  intro a s ha
  have hpa : (s.announceOver a).axis a = _ := axis_announceOver s a
  have hpr : (s.reversalOver a).axis a = _ := axis_reversalOver s a
  have hsa : (s.announceOver a).steady = s.steady := steady_modAxis rfl
  have hsr : (s.reversalOver a).steady = s.steady := steady_modAxis rfl
  have hsx : ∀ x, (enterReversing a x).steady = x.steady := fun x => (enterReversing_moves (k := 0) a x).steady rfl
  refine ⟨fun h hp hr => ?reversing, fun h hp hr => ?moving, fun h => ends_stopped ha h, fun h hp => ?reversed,
    fun h => ends_stopped ha h, fun h hp hr => ?switch, fun h => ends_stopped ha h⟩
  case reversing =>
    obtain ⟨h1, h2, h3, h4, h5, h6⟩ := enterReversing_waits (s := s.announceOver a) (a := a) (by rw [hpa]; exact hp)
      (by rw [hpa]; exact hr)
    exact ⟨_, exec_announceExpiry h hp, h1, h2, h3.trans (by rw [hpa]; rfl), h4.trans (drives_setAxis _ _ _ _),
      h5.trans (rne_setAxis _ _ _), h6.trans (hsa_setAxis _ _ _), (hsx _).trans hsa⟩
  case moving =>
    obtain ⟨h1, h2, h3⟩ := enterReversing_over (s := s.announceOver a) (a := a) (by rw [hpa]; exact hp)
      (by rw [hpa]; exact hr)
    exact ⟨_, exec_announceExpiry h hp, h1, h2, h3.trans (drives_setAxis _ _ _ _), (hsx _).trans hsa⟩
  case reversed =>
    obtain ⟨h1, h2, h3, h4, h5⟩ := axis_enterMoving a (s.reversalOver a)
    obtain ⟨k1, k2, k3, k4⟩ := enterMoving_leaves a (s.reversalOver a)
    exact ⟨_, exec_reversalExpiry h hp, h1, h2, h3, h4.trans (by rw [hpr]; rfl), h5, k1.trans (drives_setAxis _ _ _ _),
      k2.trans (rne_setAxis _ _ _), k3.trans (hsa_setAxis _ _ _), k4.trans hsr⟩
  case switch =>
    refine ⟨_, exec_switchWaitExpiry h hp, settle_report [] ?_ ?_⟩
    · simp [ha]
    · simpa using hr

end Sys2Proof.Machine
end

