-- ==== Sys2Proof/Proofs/LockTimers.lean ====
section
/-! PROOFS. The timers of a lock group (R112, R114, R115, R120) (O60). -/

namespace Sys2Proof.Machine

variable {s t : State} {g : Group}

/-! ## How operations and top-ups end (R112, R120) -/

/-- A member whose entry is removed is on the list no more. -/
theorem not_watched_watchRemove (m : Member) (s : State) : ∀ e ∈ (watchRemove m s).ilk.watch, e.member ≠ m := by
  intro e he
  simpa using (List.mem_filter.1 he).2

/-- HOLDING closes: the operation and its timers are gone, the unit is released, the entry is removed. -/
theorem closeHolding_does (g : Group) (s : State) : ((closeHolding g s).lock g).op = none ∧
    ((closeHolding g s).lock g).holdT = none ∧ (∀ e ∈ (closeHolding g s).ilk.watch, e.member ≠ .lock g) ∧
    (closeHolding g s).agenda = s.agenda ++ [.release (.lockOp g)] ∧ (closeHolding g s).rne = s.rne ∧
    (closeHolding g s).hsa = s.hsa ∧ (closeHolding g s).tru = s.tru := by
  unfold closeHolding
  dsimp only
  refine ⟨by simp [LockState.ended], by simp [LockState.ended], ?_, by simp, by simp, by simp, by simp⟩
  rw [deriveGroup_eq, ilk_setLock]
  exact not_watched_watchRemove _ _

/-- A top-up ends: its record and timer are gone, the unit is released, the entry is removed, and where the LOCK_CREEP
test fails that is latched and reported. -/
theorem endTopUp_does (g : Group) (s : State) : ((endTopUp g s).lock g).top = noTopUp ∧
    ((endTopUp g s).lock g).topupT = none ∧ (∀ e ∈ (endTopUp g s).ilk.watch, e.member ≠ .lock g) ∧
    (endTopUp g s).agenda = s.agenda ++ .release (.topUp g) ::
      (if (s.lock g).creepFails then [.tripReport .lockCreep (some (.lock g)) .none] else []) ∧
    ((s.lock g).creepFails = true → ((endTopUp g s).lock g).creep = true) ∧
    (endTopUp g s).rne = s.rne ∧ (endTopUp g s).hsa = s.hsa ∧ (endTopUp g s).tru = s.tru := by
  unfold endTopUp
  dsimp only
  have hw := not_watched_watchRemove (.lock g) (s.emit [.release (.topUp g)])
  split
  next h =>
    refine ⟨by simp, by simp, ?_, by simp, fun _ => by simp, by simp, by simp, by simp⟩
    rw [deriveGroup_eq, ilk_setLock]
    simpa using hw
  next h =>
    refine ⟨by simp, by simp, ?_, by simp, fun h' => absurd h' h, by simp, by simp, by simp⟩
    simpa using hw

/-- SETTLING ends in HOLDING with its hold timer, the completion and the exit from the busy pair are told. -/
theorem settleDone_does {o : LockOp} (h : (s.lock g).op = some o) :
    ((settleDone g s).lock g).op = some { o with phase := .holding } ∧ ((settleDone g s).lock g).settleT = none ∧
    ((settleDone g s).lock g).holdT =
      (if (s.lock g).par.holdTime = 0 then none else some ((s.lock g).par.holdTime * 1000)) ∧
    .completion (.lock g) ∈ (settleDone g s).agenda ∧ .busyExit g ∈ (settleDone g s).agenda ∧
    (settleDone g s).rne = s.rne ∧ (settleDone g s).hsa = s.hsa := by
  have ht : (s.lock g).par.holdTime * 1000 = 0 ↔ (s.lock g).par.holdTime = 0 := by omega
  unfold settleDone
  simp only [lock_emit, rne_emit, hsa_emit, agenda_emit, rne_setOpPhase, hsa_setOpPhase, lock_setOpPhase_self]
  refine ⟨by simp [LockState.toOp, h], trivial, ?_, by simp [completionOf], by simp [completionOf], trivial, trivial⟩
  exact if_congr ht rfl rfl

/-! ## The timers (R112, R114, R115, R120) -/

/-- A change of a lock group that its steady view does not show. -/
theorem steady_modLock {h : LockState → LockState} (hh : (h (s.lock g)).steady = (s.lock g).steady) :
    (s.modLock g h).steady = s.steady := by
  rw [modLock_eq, Moves.steady_setLock _ _ hh]

theorem inPhase_of_op {l : LockState} {o : LockOp} {ph : OpPhase} (h : l.op = some o) (hp : o.phase = ph) :
    l.inPhase ph = true := by
  unfold LockState.inPhase
  rw [h]
  simp [hp]

/-- The state with a group's settle timer stopped. -/
def State.settleOver (s : State) (g : Group) : State := s.modLock g fun l => { l with settleT := none }

/-- The state with a group's hold timer stopped. -/
def State.holdOver (s : State) (g : Group) : State := s.modLock g fun l => { l with holdT := none }

/-- The state with a group's periodic timer stopped. -/
def State.periodicOver (s : State) (g : Group) : State := s.modLock g fun l => { l with periodic := none }

/-- The state with a group's top-up timer stopped. -/
def State.topupOver (s : State) (g : Group) : State := s.modLock g fun l => { l with topupT := none }

theorem lock_settleOver (s : State) (g : Group) : (s.settleOver g).lock g = { s.lock g with settleT := none } := by
  simp [State.settleOver]

theorem lock_holdOver (s : State) (g : Group) : (s.holdOver g).lock g = { s.lock g with holdT := none } := by
  simp [State.holdOver]

theorem lock_periodicOver (s : State) (g : Group) : (s.periodicOver g).lock g = { s.lock g with periodic := none } := by
  simp [State.periodicOver]

theorem lock_topupOver (s : State) (g : Group) : (s.topupOver g).lock g = { s.lock g with topupT := none } := by
  simp [State.topupOver]

theorem exec_settleExpiry {o : LockOp} (h : (s.lock g).settleT ≠ none) (ho : (s.lock g).op = some o)
    (hp : o.phase = .settling) : exec (.settleExpiry g) s = .next (settle (settleDone g (s.settleOver g))) :=
  (ends_running h).trans (congrArg (fun x => Host.Outcome.next (settle x)) (if_pos (by
    show ((s.settleOver g).lock g).inPhase .settling = true
    exact inPhase_of_op ((congrArg LockState.op (lock_settleOver s g)).trans ho) hp)))

theorem exec_holdExpiry (h : (s.lock g).holdT ≠ none) :
    exec (.holdExpiry g) s = .next (settle (holdDone g (s.holdOver g))) := ends_running h

theorem exec_periodicTopupExpiry (h : (s.lock g).periodic ≠ none) :
    exec (.periodicTopupExpiry g) s = .next (settle (topupTrigger g .periodic (s.periodicOver g))) := ends_running h

theorem exec_topupTimerExpiry (h : (s.lock g).topupT ≠ none) :
    exec (.topupTimerExpiry g) s = .next (settle (topupTimerDone g (s.topupOver g))) := ends_running h

/-- A periodic trigger is dropped where a trip or a lock step bars it, and its timer starts again. -/
theorem topupTrigger_barred (h : s.topupBarred g = true) :
    topupTrigger g .periodic s = s.modLock g fun l => { l with periodic := l.fullPeriod } :=
  (if_pos (by simp [h])).trans (if_pos rfl)

theorem topupTrigger_starts (h : s.topupBarred g = false) (ht : (s.lock g).top.status = .none) :
    topupTrigger g .periodic s = startTopUp g .periodic s :=
  (if_neg (by simp [h])).trans (if_pos ht)

theorem topupBarred_periodicOver (s : State) (g : Group) : (s.periodicOver g).topupBarred g = s.topupBarred g := by
  simp [State.topupBarred, State.periodicOver]

/-- Settles O60: each timer that runs is stopped, and what it timed passes on or ends. -/
theorem lockTimersMovePhase : Obligations.LockTimersMovePhase := by
  unfold Obligations.LockTimersMovePhase
  intro g s ha
  refine ⟨fun o h ho hp => ?settled, fun h => ends_stopped ha h, fun o h ho hp => ?held, fun h => ends_stopped ha h,
    fun h hb => ?dropped, fun h hb ht => ?triggered, fun h => ends_stopped ha h, fun h ht => ?toppedUp,
    fun h => ends_stopped ha h⟩
  case settled =>
    have hl := lock_settleOver s g
    obtain ⟨h1, h2, h3, h4, h5, h6, h7⟩ := settleDone_does (s := s.settleOver g) (g := g) (o := o) (by rw [hl]; exact ho)
    rw [hl] at h3
    exact ⟨_, exec_settleExpiry h ho hp, h1, h2, h3, h4, h5, h6.trans (rne_setLock _ _ _), h7.trans (hsa_setLock _ _ _),
      ((settleDone_moves (k := 0) g _).steady rfl).trans (steady_modLock rfl)⟩
  case held =>
    have hc : closeEarly g (s.holdOver g) = closeHolding g (s.holdOver g) :=
      if_pos (inPhase_of_op ((congrArg LockState.op (lock_holdOver s g)).trans ho) hp)
    obtain ⟨h1, h2, h3, h4, h5, h6, -⟩ := closeHolding_does g (s.holdOver g)
    refine ⟨_, exec_holdExpiry h, ?_⟩
    unfold holdDone
    simp only [lock_memberEvent, ilk_memberEvent, rne_memberEvent, hsa_memberEvent, agenda_memberEvent, hc]
    exact ⟨h1, h2, h3, by simp [h4], h5.trans (rne_setLock _ _ _), h6.trans (hsa_setLock _ _ _),
      ((holdDone_moves (k := 0) g _).steady rfl).trans (steady_modLock rfl)⟩
  case dropped =>
    rw [exec_periodicTopupExpiry h, topupTrigger_barred (by rw [topupBarred_periodicOver, hb]), settle_nil]
    · cases g <;> rfl
    · simp [State.periodicOver, ha]
  case triggered =>
    have ht : ((s.periodicOver g).lock g).top.status = .none := by rw [lock_periodicOver]; exact ht
    have hl := lock_startTopUp g .periodic (s.periodicOver g)
    rw [exec_periodicTopupExpiry h, topupTrigger_starts (by rw [topupBarred_periodicOver, hb]) ht]
    exact ⟨_, rfl, congrArg LockState.top hl, congrArg LockState.periodic hl,
      (rne_startTopUp _ _ _).trans (rne_setLock _ _ _), (hsa_startTopUp _ _ _).trans (hsa_setLock _ _ _),
      ((startTopUp_moves (k := 0) g .periodic _).steady rfl).trans (steady_modLock rfl)⟩
  case toppedUp =>
    have hd : topupTimerDone g (s.topupOver g) = memberEvent (endTopUp g) (s.topupOver g) :=
      if_pos (by rw [lock_topupOver]; exact ht)
    obtain ⟨h1, h2, h3, h4, h5, h6, h7, -⟩ := endTopUp_does g (s.topupOver g)
    rw [exec_topupTimerExpiry h, hd]
    refine ⟨_, rfl, ?_⟩
    simp only [lock_memberEvent, ilk_memberEvent, rne_memberEvent, hsa_memberEvent, agenda_memberEvent]
    refine ⟨h1, h2, by simp [h4], h3, h6.trans (rne_setLock _ _ _), h7.trans (hsa_setLock _ _ _), ?_, fun hs hp => ?_⟩
    · exact ((memberEvent_moves (k := 0) _ (endTopUp_moves g _)).steady rfl).trans (steady_modLock rfl)
    · have hcr : ((s.topupOver g).lock g).creepFails = true := by
        rw [lock_topupOver]
        have hq : ({ s.lock g with topupT := none } : LockState).allPins .engaged = false := hp
        simp [LockState.creepFails, hs, hq]
      exact ⟨h5 hcr, by simp [h4, hcr]⟩

end Sys2Proof.Machine
end

