-- ==== Sys2Proof/Proofs/Sample.lean ====
section
/-! PROOFS. The sample of a control period (R55 to R57, R59, R100) (O54). -/

namespace Sys2Proof.Machine

variable {s t d : State} {a : Axis} {p q : ChannelSample}

/-- The marks of an event at members, and its re-evaluation, show nothing in the steady view. -/
theorem steady_memberEvent (h : State → State) (s : State) : (memberEvent h s).steady = (h s).steady :=
  (steady_emit _ _).trans ((markMembers_moves (k := 0) s (h s)).steady rfl)

/-- Two records for one axis: the later one stands. -/
theorem setAxis_setAxis (u v : AxisState) (s : State) : (s.setAxis a u).setAxis a v = s.setAxis a v := by
  cases a <;> rfl

/-- Two changes of one axis are one. -/
theorem modAxis_modAxis (h k : AxisState → AxisState) (s : State) :
    (s.modAxis a h).modAxis a k = s.setAxis a (k (h (s.axis a))) := by
  rw [modAxis_eq, modAxis_eq, axis_setAxis_self, setAxis_setAxis]

theorem steady_deriveAxis (a : Axis) (s : State) : (deriveAxis a s).steady = s.steady :=
  (deriveAxis_moves (k := 0) a s).steady rfl

/-! ## A sample that fails (R57, R100) -/

/-- The axis with its condition flag set by the failure kinds of a sample (R57). -/
def AxisState.failed (ax : AxisState) (k : Option SampleFail × Option SampleFail) : AxisState :=
  { ax with posCond := condFail k.1 || condFail k.2 }

/-- The axis with a position fault latched (R57, R100). -/
def AxisState.faulting (ax : AxisState) (p q : ChannelSample) (k : Option SampleFail × Option SampleFail) : AxisState :=
  { ax.failed k with posFault := some ⟨k.1, k.2, p.raw, q.raw⟩, jumpSuspP := true, jumpSuspS := true }

theorem failSample_latched {k : Option SampleFail × Option SampleFail} (h : (s.axis a).posFault ≠ none) :
    (failSample a p q k s).steady = (s.setAxis a ((s.axis a).failed k)).steady := by
  refine (steady_memberEvent _ _).trans ?_
  dsimp only
  rw [if_pos (by simpa [Option.isSome_iff_ne_none] using h)]
  rfl

/-- A first fault is latched, and reported to the trip unit first. -/
theorem failSample_latches {k : Option SampleFail × Option SampleFail} (h : (s.axis a).posFault = none) :
    (failSample a p q k s).steady = (s.setAxis a ((s.axis a).faulting p q k)).steady ∧
      (failSample a p q k s).tru = s.tru ∧
      ∃ rest, (failSample a p q k s).agenda = s.agenda ++ .tripReport .sensor (some (.axis a)) .none :: rest := by
  unfold failSample
  rw [steady_memberEvent, tru_memberEvent, agenda_memberEvent]
  dsimp only
  rw [if_neg (by simp [h])]
  refine ⟨?_, ?_, ?_⟩
  · rw [steady_deriveAxis, steady_emit, modAxis_modAxis]
    rfl
  · simp
  · exact ⟨_, by simp; rfl⟩

/-! ## A sample that is accepted (R57 to R59) -/

/-- The axis with an accepted sample stored and tested against the switches. -/
def AxisState.accepted (ax : AxisState) (c : CylPos) : AxisState :=
  ({ ax with pos := some c, jumpSuspP := false, jumpSuspS := false, posCond := false } : AxisState).testSwitches c.x

theorem steady_testDisagreement (a : Axis) (x : Nat) (s : State) :
    (testDisagreement a x s).steady = (s.modAxis a fun ax => ax.testSwitches x).steady := by
  unfold testDisagreement
  dsimp only
  rw [steady_deriveAxis]
  split <;> simp [steady_emit]

theorem steady_acceptSample (c : CylPos) (s : State) :
    (acceptSample a c s).steady = (s.setAxis a ((s.axis a).accepted c)).steady := by
  have hp : ∀ x, (phaseWork a c x).steady = x.steady := fun x => (phaseWork_moves (k := 0) a c x).steady rfl
  have he : ∀ (b : Bool) (x : State), (if b then x.emit [.firstSample a] else x).steady = x.steady := fun b x => by
    cases b
    · rfl
    · exact steady_emit _ _
  unfold acceptSample
  dsimp only
  rw [hp, he, steady_memberEvent, steady_testDisagreement, modAxis_modAxis]
  rfl

/-! ## The control period (R55) -/

/-- The state with the samples of a control period in its channels and the next period 20 ms away. -/
def State.sampled (s : State) (a : Axis) (p q : ChannelSample) : State :=
  (s.setChannels a ⟨p, q⟩).setAxis a { s.axis a with control := 20 }

theorem axis_sampled (s : State) (a : Axis) (p q : ChannelSample) :
    (s.sampled a p q).axis a = { s.axis a with control := 20 } := axis_setAxis_self _ _ _

theorem exec_controlPeriod (s : State) (a : Axis) (p q : ChannelSample) :
    exec (.controlPeriodExpiry a p q) s = .next (settle
      (if (s.axis a).sampleKinds p q = (none, none) then acceptSample a ((s.axis a).offeredPos p q) (s.sampled a p q)
      else failSample a p q ((s.axis a).sampleKinds p q) (s.sampled a p q))) := by
  have hs : ((s.setChannels a ⟨p, q⟩).modAxis a fun ax => { ax with control := 20 }) = s.sampled a p q := by
    simp [State.sampled]
  have hc : controlPeriod a p q s = if (s.axis a).sampleKinds p q = (none, none)
      then acceptSample a ((s.axis a).offeredPos p q) (s.sampled a p q)
      else failSample a p q ((s.axis a).sampleKinds p q) (s.sampled a p q) := by
    unfold controlPeriod
    dsimp only
    rw [hs, axis_sampled]
    exact if_congr (by simp [Prod.ext_iff]; rfl) rfl rfl
  rw [← hc]
  rfl

/-- Settles O54: by whether the sample passes, and for one that fails by whether a fault is latched. -/
theorem sampleAcceptedOrFault : Obligations.SampleAcceptedOrFault := by
  unfold Obligations.SampleAcceptedOrFault
  constructor
  · rintro a p q s _ _ rfl rfl hk
    refine ⟨_, exec_controlPeriod s a p q, ?_⟩
    rw [if_neg hk]
    have hd : (s.sampled a p q).axis a = _ := axis_sampled s a p q
    refine ⟨fun h => ?_, fun h => ⟨?_, fun ha ht => ?_⟩⟩
    · exact (settle_steady _).trans (failSample_latched (by rw [hd]; exact h))
    · exact (settle_steady _).trans (failSample_latches (by rw [hd]; exact h)).1
    · obtain ⟨-, htru, rest, hrest⟩ := failSample_latches (p := p) (q := q) (k := (s.axis a).sampleKinds p q)
        (s := s.sampled a p q) (a := a) (by rw [hd]; exact h)
      have hsa : (s.sampled a p q).agenda = [] := by simp [State.sampled, ha]
      have hst : (s.sampled a p q).tru = s.tru := by simp [State.sampled]
      rw [hsa] at hrest
      exact settle_report rest hrest (by rw [htru, hst, ht])
  · rintro a p q s _ _ rfl hk rfl
    refine ⟨_, exec_controlPeriod s a p q, ?_⟩
    rw [if_pos hk]
    refine (settle_steady _).trans ((steady_acceptSample _ _).trans ?_)
    show _ = ((s.sampled a p q).setAxis a _).steady
    rw [axis_sampled, axis_setAxis_self]
    rfl

end Sys2Proof.Machine
end

