-- ==== Sys2Proof/Proofs/Drives.lean ====
section
/-! PROOFS. The drive (R79 to R91): its arithmetic, one computation in MOVING, and a completed step (O55). -/

namespace Sys2Proof.Machine

variable {s t : State} {a : Axis}

/-! ## The arithmetic (R83, R85, R88, R89, R91) -/

theorem rampSpeed_rises {vt vc r : Nat} (h : vc ≤ vt) :
    vc ≤ rampSpeed vt vc r ∧ rampSpeed vt vc r ≤ vt ∧ rampSpeed vt vc r ≤ vc + r := by
  rw [rampSpeed, if_pos h]
  omega

theorem rampSpeed_falls {vt vc r : Nat} (h : vt < vc) :
    vt ≤ rampSpeed vt vc r ∧ rampSpeed vt vc r ≤ vc ∧ vc ≤ rampSpeed vt vc r + 2 * r := by
  rw [rampSpeed, if_neg (by omega)]
  omega

theorem skewCorrection_bounds (e : Int) (gain : Nat) : -250 ≤ skewCorrection e gain ∧ skewCorrection e gain ≤ 250 := by
  unfold skewCorrection clampInt
  omega

/-- The correction is truncated toward 0, so it has no preferred side. -/
theorem skewCorrection_neg (e : Int) (gain : Nat) : skewCorrection (-e) gain = -skewCorrection e gain := by
  unfold skewCorrection clampInt
  rw [Int.neg_mul, Int.neg_tdiv]
  omega

theorem approachLimit_bounds (d : Int) (gain : Nat) :
    approachLimit d gain ≤ 1000 ∧ (0 ≤ d → 0 ≤ approachLimit d gain) := by
  unfold approachLimit
  refine ⟨min_le_left _ _, fun hd => ?_⟩
  have h := Int.tdiv_nonneg (Int.mul_nonneg hd (Int.natCast_nonneg gain)) (by decide : (0 : Int) ≤ 16)
  omega

theorem demand_opening (vc : Nat) (e : Int) (gain : Nat) : demand vc e gain .opening =
    ⟨(max 0 (min 1000 (vc - skewCorrection e gain))).toNat * 5, 0,
     (max 0 (min 1000 (vc + skewCorrection e gain))).toNat * 5, 0⟩ := by
  simp [demand, compares, portDuty, stbdDuty, clampInt, Dir.sign]

theorem demand_closing (vc : Nat) (e : Int) (gain : Nat) : demand vc e gain .closing =
    ⟨0, (max 0 (min 1000 (vc + skewCorrection e gain))).toNat * 5, 0,
     (max 0 (min 1000 (vc - skewCorrection e gain))).toNat * 5⟩ := by
  simp [demand, compares, portDuty, stbdDuty, clampInt, Dir.sign, Int.sub_eq_add_neg]

/-! ## One computation in MOVING (R79 to R91) -/

theorem newSpeed_moving {st : AxisStep} {x u : Nat} (h : (s.axis a).phase = .moving) :
    (s.axis a).newSpeed st x u = rampSpeed (targetSpeed .moving (s.axis a).breakaway st.jog (s.axis a).par.creep
      (cappedSpeed ((s.axis a).profileAt x st.dir).speed u) (approachLimit (distance st.target x st.dir)
        (s.axis a).par.approachGain)) (s.axis a).vc ((s.axis a).profileAt x st.dir).ramp := by
  unfold AxisState.newSpeed
  rw [h]

/-- The state with the commanded speed and the unit count of a computation stored. -/
def State.speeded (s : State) (a : Axis) (vc u : Nat) : State := s.modAxis a fun ax => { ax with vc := vc, u := u }

theorem axis_speeded (s : State) (a : Axis) (vc u : Nat) :
    (s.speeded a vc u).axis a = { s.axis a with vc := vc, u := u } := by simp [State.speeded]

theorem driveCompute_moving {st : AxisStep} {x u vc : Nat} {e : Int} (h : (s.axis a).phase = .moving)
    (hv : (s.axis a).newSpeed st x u = vc) : driveCompute a st x u e s =
      if (s.axis a).skewed e then s.speeded a vc u
      else handCompares a (demand vc e (s.axis a).par.skewGain st.dir) (s.speeded a vc u) := by
  have hp : ((s.modAxis a fun ax => { ax with vc := vc, u := u }).axis a).phase = .moving :=
    (congrArg AxisState.phase (axis_speeded s a vc u)).trans h
  have hd : (s.modAxis a fun ax => { ax with vc := vc, u := u }).axis a = { s.axis a with vc := vc, u := u } :=
    axis_speeded s a vc u
  unfold driveCompute
  dsimp only
  rw [hv, hp, hd]
  rfl

theorem axis_handCompares (c : Sides) (b : Axis) (s : State) : (handCompares a c s).axis b = s.axis b := by
  unfold handCompares
  split <;> simp

theorem agenda_handCompares (c : Sides) (s : State) : (handCompares a c s).agenda = s.agenda := by
  unfold handCompares
  split <;> simp

theorem drives_handCompares {c : Sides} (h : s.vod.forced = false) :
    ((handCompares a c s).drives a).portOpen.pending = c.portOpen ∧
    ((handCompares a c s).drives a).portClose.pending = c.portClose ∧
    ((handCompares a c s).drives a).stbdOpen.pending = c.stbdOpen ∧
    ((handCompares a c s).drives a).stbdClose.pending = c.stbdClose := by
  unfold handCompares
  rw [if_neg (by simp [h])]
  simp [Drive.hand]

theorem axis_completeStep (a : Axis) (s : State) : ((completeStep a s).axis a).phase = .idle ∧
    ((completeStep a s).axis a).step = none ∧ ((completeStep a s).axis a).vc = 0 := by
  obtain ⟨z, hz, -⟩ := axis_setPhase_self a .idle AxisState.cleared (s.emit [.release (.axisStep a)])
  unfold completeStep
  rw [axis_emit, axis_watchRemove, hz]
  exact ⟨phase_toPhase _ _, rfl, rfl⟩

/-- Settles O55: the computation, the completion, and the arithmetic. -/
theorem driveComputesCompares : Obligations.DriveComputesCompares := by
  unfold Obligations.DriveComputesCompares
  refine ⟨fun a st x u e s vc hp hv => ?computation, axis_completeStep, fun vt vc r gain e d =>
    ⟨rampSpeed_rises, rampSpeed_falls, skewCorrection_bounds e gain, skewCorrection_neg e gain,
      approachLimit_bounds d gain, fun c hc => ?demand⟩⟩
  case computation =>
    rw [driveCompute_moving hp ((newSpeed_moving hp).trans hv.symm)]
    have ha := axis_speeded s a vc u
    have hd : (s.speeded a vc u).drives a = s.drives a := drives_setAxis _ _ _ _
    by_cases hs : (s.axis a).skewed e = true
    · rw [if_pos hs, ha, hd]
      have hl : (s.axis a).par.skewLimit < e.natAbs := by simpa [AxisState.skewed] using hs
      exact ⟨rfl, rfl, agenda_setAxis _ _ _, fun _ => rfl, fun _ hn => absurd hl hn⟩
    · rw [if_neg hs, axis_handCompares, agenda_handCompares, ha]
      have hl : ¬(s.axis a).par.skewLimit < e.natAbs := by simpa [AxisState.skewed] using hs
      refine ⟨rfl, rfl, agenda_setAxis _ _ _, fun h => absurd h hl, fun hf _ => ?_⟩
      exact drives_handCompares (by simpa [State.speeded] using hf)
  case demand =>
    have hk : skewCorrection e gain = c := hc.symm
    rw [demand_opening, demand_closing, hk]
    exact ⟨rfl, rfl⟩

end Sys2Proof.Machine
end

