-- ==== Sys2Proof/Proofs/Stall.lean ====
section
/-! PROOFS. The stall sample and the breakaway (R95 to R97, R99) (O56), and the step clock with what it brings (R30, R38,
R39) (O57). -/

namespace Sys2Proof.Machine

variable {s t : State} {a : Axis}

/-! ## The stall sample (R95, R96, R99) -/

/-- The state with a new stall reference taken, MEMBER marked (R95). -/
def State.restalled (s : State) (a : Axis) (x : Nat) : State :=
  mark (.member (.axis a)) (s.modAxis a fun ax => { ax with stallRef := some (x, ax.vc), stallLeft := some 25 })

theorem inner_restalled (s : State) (a : Axis) (x : Nat) : (s.restalled a x).inner =
    (s.setAxis a { s.axis a with stallRef := some (x, (s.axis a).vc), stallLeft := some 25 }).inner :=
  inner_mark _ _

theorem axis_restalled (s : State) (a : Axis) (x : Nat) : (s.restalled a x).axis a =
    { s.axis a with stallRef := some (x, (s.axis a).vc), stallLeft := some 25 } :=
  (axis_of_inner (inner_restalled s a x) a).trans (axis_setAxis_self _ _ _)

theorem agenda_restalled (s : State) (a : Axis) (x : Nat) : (s.restalled a x).agenda = s.agenda :=
  (agenda_mark _ _).trans (agenda_setAxis _ _ _)

theorem stallSample_eq {x : Nat} {st : AxisStep} (hx : (s.axis a).x? = some x) (hst : (s.axis a).step = some st) :
    stallSample a s = if (s.axis a).stalled x st.dir then stallEvent a (s.restalled a x) else s.restalled a x := by
  unfold stallSample
  dsimp only
  rw [hx, hst]
  rfl

/-- A breakaway may be given (R96). -/
def State.breakaway? (s : State) (a : Axis) : Bool :=
  (s.axis a).par.breakaway && decide ((s.axis a).bkCount < 2) && s.hsa.running (.axisStep a) == 2

theorem stallEvent_breakaway (h : s.breakaway? a = true) : stallEvent a s =
    mark (.member (.axis a)) (s.modAxis a fun ax =>
      { ax with breakaway := true, bkLeft := some 75, bkCount := ax.bkCount + 1 }) := if_pos h

theorem stallEvent_trip (h : s.breakaway? a = false) : stallEvent a s =
    mark (.member (.axis a)) (s.emit [.tripReport .stall (some (.axis a)) .none]) :=
  if_neg (by rw [Bool.not_eq_true]; exact h)

/-- A new reference bears on no breakaway. -/
theorem breakaway?_restalled (s : State) (a : Axis) (x : Nat) : (s.restalled a x).breakaway? a = s.breakaway? a := by
  have hh : (s.restalled a x).hsa = s.hsa := (hsa_of_inner (inner_restalled s a x)).trans (hsa_setAxis _ _ _)
  simp only [State.breakaway?, axis_restalled, hh]

theorem exec_stallSample (hd : (s.axis a).sampleDue = true) :
    exec (.stallSample a) s = .next (settle (stallSample a s)) :=
  congrArg (fun x => Host.Outcome.next (settle x)) (if_pos hd)

/-- Two states that agree inside agree there after a change of one axis. -/
theorem inner_setAxis_congr (h : s.inner = t.inner) (v : AxisState) : (s.setAxis a v).inner = (t.setAxis a v).inner := by
  have := congrArg (fun x : State => x.setAxis a v) h
  cases a <;> exact this

/-- The end of a breakaway (R97). -/
theorem exec_breakawayEnd (a : Axis) (s : State) : exec (.breakawayEnd a) s = .next
    (if (s.axis a).breakaway then
      mark (.member (.axis a)) (s.modAxis a fun ax => { ax with breakaway := false, bkLeft := none })
    else s) := rfl

/-- Settles O56: by whether the sample finds a stall, and whether a breakaway may be given. -/
theorem stallGivesBreakawayOrTrip : Obligations.StallGivesBreakawayOrTrip := by
  unfold Obligations.StallGivesBreakawayOrTrip
  intro a x st s ha hx hst
  have hra : (s.restalled a x).agenda = [] := (agenda_restalled s a x).trans ha
  rw [exec_breakawayEnd]
  refine ⟨fun hd => ?_, fun hb => ⟨_, rfl, by rw [if_pos hb]; exact inner_mark _ _⟩, fun hb => by simp [hb]⟩
  rw [exec_stallSample hd, stallSample_eq hx hst]
  refine ⟨fun h => ?free, fun h hb hc hu => ?breakaway, fun h hb ht => ?trip⟩
  case free =>
    rw [if_neg (by simp [h]), settle_nil hra]
    exact ⟨_, rfl, inner_restalled s a x⟩
  case breakaway =>
    have hbk : (s.restalled a x).breakaway? a = true := by
      rw [breakaway?_restalled]
      simp [State.breakaway?, hb, hc, hu]
    rw [if_pos h, stallEvent_breakaway hbk, settle_nil (by rw [agenda_mark, modAxis_eq, agenda_setAxis]; exact hra)]
    refine ⟨_, rfl, (inner_mark _ _).trans ?_⟩
    rw [modAxis_eq, axis_restalled, inner_setAxis_congr (inner_restalled s a x), setAxis_setAxis]
  case trip =>
    have hbk : (s.restalled a x).breakaway? a = false := by
      rw [breakaway?_restalled]
      unfold State.breakaway?
      rcases hb with hb | hb | hb
      · simp [hb]
      · simp [show ¬(s.axis a).bkCount < 2 by omega]
      · simp [show ¬s.hsa.running (.axisStep a) = 2 by omega]
    rw [if_pos h, stallEvent_trip hbk]
    refine ⟨_, rfl, settle_report [] ?_ ?_⟩
    · rw [agenda_mark, agenda_emit, hra]
      rfl
    · rw [tru_mark, tru_emit, tru_of_inner (inner_restalled s a x), tru_setAxis]
      exact ht

/-! ## The step clock (R30, R38, R39) -/

theorem exec_stepTimeoutExpiry (m : Member) (s : State) :
    exec (.stepTimeoutExpiry m) s = .next (settle (stepTimeout m s)) := rfl

theorem exec_dwellExpiry (m : Member) (s : State) : exec (.dwellExpiry m) s = .next (settle (dwellDone m s)) := rfl

/-- A timeout of an entry that counts goes to the trip unit (R38). -/
theorem stepTimeout_counts {m : Member} {e : Entry} (h : s.rne.entry? m = some e) (hc : s.rne.counts e = true) :
    stepTimeout m s = (s.modRne fun r => r.modEntry m fun e => { e with timeout := 0 }).emit
      [.tripReport (timeoutCause m) (some m) .none] := by
  rw [stepTimeout, h]
  exact if_pos hc

theorem stepTimeout_idle {m : Member} {e : Entry} (h : s.rne.entry? m = some e) (hc : s.rne.counts e = false) :
    stepTimeout m s = s := by
  rw [stepTimeout, h]
  exact if_neg (by simp [hc])

/-- A dwell that is over takes its step out of the set (R39). -/
theorem dwellDone_dwells {m : Member} {e : Entry} (h : s.rne.entry? m = some e) (hd : s.rne.dwells e = true) :
    dwellDone m s = (leaveSet e .done s).emit [.groupDone] := by
  rw [dwellDone, h]
  exact if_pos hd

theorem dwellDone_idle {m : Member} {e : Entry} (h : s.rne.entry? m = some e) (hd : s.rne.dwells e = false) :
    dwellDone m s = s := by
  rw [dwellDone, h]
  exact if_neg (by simp [hd])

/-- The entry of a member is its own. -/
theorem member_of_entry? {r : Rne} {m : Member} {e : Entry} (h : r.entry? m = some e) : e.member = m := by
  simpa using List.find?_some h

/-- An axis step leaves the set: the run engine's part alone. -/
theorem inner_leaveSet_axis {e : Entry} (h : e.member = .axis a) (o : StepOutcome) (s : State) :
    (leaveSet e o s).inner = ({ s with rne := s.rne.leave e o } : State).inner := by
  unfold leaveSet
  rw [h]
  exact inner_mark _ _

/-- A lock step leaves the set: beside the run engine only its group's periodic timer can change. -/
theorem leaveSet_leaves (e : Entry) (o : StepOutcome) (s : State) : (leaveSet e o s).rne = s.rne.leave e o ∧
    (leaveSet e o s).hsa = s.hsa ∧ (leaveSet e o s).vod = s.vod ∧ (∀ b, (leaveSet e o s).axis b = s.axis b) ∧
    (leaveSet e o s).agenda = s.agenda := by
  have hx : ∀ b, (s.modRne fun r => r.leave e o).axis b = s.axis b := fun b => by cases b <;> rfl
  unfold leaveSet stepGone
  split <;> simp [restartPeriodic, runEvent, hx]

/-- A clock expiry (R30): what counts advances, and what has reached 0 is sent on. -/
theorem stepClock_eq (ha : s.agenda = []) : stepClock s =
    { s with
      rne := { s.rne with
        clock := 100, elapsed := s.rne.elapsed.map (fun n => min 65535 (n + 1)),
        inflight := s.rne.inflight.map s.rne.tickEntry },
      agenda := (s.rne.inflight.map s.rne.tickEntry).flatMap s.rne.tickMsg } := by
  unfold stepClock State.emit State.modRne
  dsimp only
  rw [ha, List.nil_append]

theorem exec_stepClockExpiry (s : State) : exec .stepClockExpiry s = .next (settle (stepClock s)) := rfl

/-- Settles O57: the clock, and the two commands that stand for what has counted down. -/
theorem stepClockCountsDown : Obligations.StepClockCountsDown := by
  unfold Obligations.StepClockCountsDown
  intro s ha
  rw [exec_stepClockExpiry, stepClock_eq ha]
  refine ⟨⟨_, rfl, rfl⟩, ⟨_, rfl, ?clock⟩, fun m e h hc ht => ?timeout, fun m e h hc => ?noTimeout,
    fun a e h hd => ?axis, fun g e h hd => ?lock, fun m e h hd => ?noDwell⟩
  case clock => exact (congrArg (fun x : State => x.rne.clock) (settle_steady _) :)
  case timeout =>
    rw [exec_stepTimeoutExpiry, stepTimeout_counts h hc]
    exact ⟨_, rfl, settle_report [] (congrArg (· ++ _) ha) ht⟩
  case noTimeout => rw [exec_stepTimeoutExpiry, stepTimeout_idle h hc, settle_nil ha]
  case axis =>
    rw [exec_dwellExpiry, dwellDone_dwells h hd]
    obtain ⟨-, -, -, -, hl⟩ := leaveSet_leaves e .done s
    exact ⟨_, rfl, by rw [agenda_emit, hl, ha]; rfl, inner_leaveSet_axis (member_of_entry? h) .done s⟩
  case lock =>
    rw [exec_dwellExpiry, dwellDone_dwells h hd]
    obtain ⟨hr, hh, hv, hx, hl⟩ := leaveSet_leaves e .done s
    exact ⟨_, rfl, by rw [agenda_emit, hl, ha]; rfl, hr, hh, hv, fun b => (axis_emit _ _ b).trans (hx b)⟩
  case noDwell => rw [exec_dwellExpiry, dwellDone_idle h hd, settle_nil ha]

end Sys2Proof.Machine
end

