-- ==== Sys2Proof/Proofs/Pins.lean ====
section
/-! PROOFS. The pins of a lock group: their sensors (R5, R105, R106) (O45), and their conflict and transit timers (R106,
R107) (O46). -/

namespace Sys2Proof.Machine

variable {s t d : State} {g : Group} {n : Nat} {e w : Option Bool} {p q : Pin}

/-! ## One pin of a group -/

theorem pin?_modPin (l : LockState) (n : Nat) (h : Pin → Pin) : (l.modPin n h).pin? n = (l.pin? n).map h :=
  List.getElem?_modify_eq h (n - 1) l.pins

/-- A pin that the group has not got is changed by nothing. -/
theorem modPin_none {l : LockState} (h : l.pin? n = none) (k : Pin → Pin) : l.modPin n k = l := by
  have hp : l.pins.modify (n - 1) k = l.pins := by
    refine List.ext_getElem? fun i => ?_
    rw [List.getElem?_modify]
    by_cases hi : n - 1 = i
    · subst hi
      have hn : l.pins[n - 1]? = none := h
      simp [hn]
    · simp [hi]
  unfold LockState.modPin
  rw [hp]

/-- A change of a pin shows only what it does to that pin. -/
theorem modPin_congr {l : LockState} (h : l.pin? n = some p) {k m : Pin → Pin} (hk : k p = m p) :
    l.modPin n k = l.modPin n m := by
  have hp : l.pins.modify (n - 1) k = l.pins.modify (n - 1) m := by
    refine List.ext_getElem? fun i => ?_
    rw [List.getElem?_modify, List.getElem?_modify]
    by_cases hi : n - 1 = i
    · subst hi
      have hn : l.pins[n - 1]? = some p := h
      simp [hn, hk]
    · simp [hi]
  unfold LockState.modPin
  rw [hp]

/-- A change of a pin that its steady view does not show. -/
theorem steady_modPin_congr {l : LockState} {k m : Pin → Pin} (hk : ∀ x, (k x).steady = (m x).steady) :
    (l.modPin n k).steady = (l.modPin n m).steady := by
  have hp : (l.pins.modify (n - 1) k).map Pin.steady = (l.pins.modify (n - 1) m).map Pin.steady := by
    refine List.ext_getElem? fun i => ?_
    rw [List.getElem?_map, List.getElem?_map, List.getElem?_modify, List.getElem?_modify]
    by_cases hi : n - 1 = i
    · subst hi
      cases l.pins[n - 1]? <;> simp [hk]
    · simp [hi]
  unfold LockState.steady LockState.modPin
  dsimp only
  rw [hp]

/-- Two groups with one steady view have one steady view of each pin. -/
theorem pin?_of_steady {l m : LockState} (h : l.steady = m.steady) (n : Nat) :
    (l.pin? n).map Pin.steady = (m.pin? n).map Pin.steady := by
  have hp := congrArg (fun x : LockState => x.pins[n - 1]?) h
  simpa [LockState.steady, LockState.pin?] using hp

/-! ## Filtered values (R5, R105, R106) -/

/-- The transit timer is no part of the steady view. -/
theorem steady_sense (p : Pin) (e w : Option Bool) (x y : Option Nat) : (p.sense e w x).steady = (p.sense e w y).steady := by
  unfold Pin.sense
  dsimp only
  split <;> rfl

/-- New values of a pin: its state follows from them, and with a new state its conflict timer. -/
theorem sense_does (p : Pin) (e w : Option Bool) (x : Option Nat) :
    (p.sense e w x).engaged = e.or p.engaged ∧ (p.sense e w x).withdrawn = w.or p.withdrawn ∧
    (p.sense e w x).state = pinStateOf (e.or p.engaged) (w.or p.withdrawn) ∧
    ((p.sense e w x).state ≠ p.state →
      (p.sense e w x).conflict = if (p.sense e w x).state = .conflict then some 100 else none) := by
  unfold Pin.sense
  dsimp only
  split
  next h => exact ⟨rfl, rfl, h.symm, fun hn => absurd rfl hn⟩
  next => exact ⟨rfl, rfl, rfl, fun _ => rfl⟩

/-- Two records for one group: the later one stands. -/
theorem setLock_setLock (u v : LockState) (s : State) : (s.setLock g u).setLock g v = s.setLock g v := by
  cases g <;> rfl

theorem setLock_lock (g : Group) (s : State) : s.setLock g (s.lock g) = s := by cases g <;> rfl

theorem steady_setLock_congr {u v : LockState} (h : u.steady = v.steady) (s : State) :
    (s.setLock g u).steady = (s.setLock g v).steady := by
  rw [← Moves.steady_setLock (s := s.setLock g v) g u (by rw [lock_setLock_self, h]), setLock_setLock]

theorem steady_deriveGroup (g : Group) (s : State) : (deriveGroup g s).steady = s.steady :=
  (deriveGroup_moves (k := 0) g s).steady rfl

/-- Whatever the group and its operation make of a pin's new values, the steady view shows the pin alone. -/
theorem steady_pinSense (g : Group) (n : Nat) (e w : Option Bool) (s : State) : (pinSense g n e w s).steady =
    (s.setLock g ((s.lock g).modPin n fun p => p.sense e w none)).steady := by
  have hq : ∀ p, (s.lock g).pin? n = some p →
      (s.modLock g fun l => l.modPin n fun _ => p.sense e w (s.lock g).transitStart).steady =
        (s.setLock g ((s.lock g).modPin n fun p => p.sense e w none)).steady := by
    intro p hp
    rw [modLock_eq, modPin_congr (m := fun p => p.sense e w (s.lock g).transitStart) hp rfl]
    exact steady_setLock_congr (steady_modPin_congr fun x => steady_sense x e w _ _) s
  have ho : ∀ x, (opOnPin g x).steady = x.steady := fun x => (opOnPin_moves (k := 0) g x).steady rfl
  unfold pinSense
  dsimp only
  split
  next h => rw [modPin_none h, setLock_lock]
  next p h =>
    split
    · exact hq p h
    · rw [ho]
      split
      · exact (steady_emit _ _).trans ((steady_memberEvent _ _).trans ((steady_deriveGroup _ _).trans (hq p h)))
      · exact (steady_memberEvent _ _).trans ((steady_deriveGroup _ _).trans (hq p h))

/-- Settles O45: both commands hand the values to the group, and a pin it has not got is a fault. -/
theorem pinEventsGivePinState : Obligations.PinEventsGivePinState := by
  unfold Obligations.PinEventsGivePinState
  rintro g pin e w s _ rfl c hc
  have hx : exec c s = pinEvent g pin (pinValues g pin e w) s := by
    simp only [List.mem_cons, List.not_mem_nil, or_false] at hc
    rcases hc with rfl | rfl <;> rfl
  rw [hx]
  refine ⟨fun h => ?_, fun h => if_neg h⟩
  have hs := (settle_steady (pinValues g pin e w s)).trans (steady_pinSense g pin e w _)
  refine ⟨_, if_pos h, hs, fun p q hp hq => ?_⟩
  obtain ⟨-, hl⟩ := members_of_steady hs
  have hpin := pin?_of_steady (hl g) pin
  have hd : (s.modDic fun d => (d.deliver? (.pinEngaged g pin) e).deliver? (.pinWithdrawn g pin) w).lock g =
      s.lock g := by cases g <;> rfl
  rw [lock_setLock_self, pin?_modPin, hd, hp, hq] at hpin
  have hst : q.steady = (p.sense e w none).steady := Option.some.inj hpin
  have he : q.engaged = (p.sense e w none).engaged := (congrArg Pin.engaged hst :)
  have hw : q.withdrawn = (p.sense e w none).withdrawn := (congrArg Pin.withdrawn hst :)
  have hv : q.state = (p.sense e w none).state := (congrArg Pin.state hst :)
  have hk : q.conflict = (p.sense e w none).conflict := (congrArg Pin.conflict hst :)
  obtain ⟨h1, h2, h3, h4⟩ := sense_does p e w none
  rw [he, hw, hv, hk, h1, h2]
  exact ⟨rfl, rfl, h3, h4⟩

/-! ## The timers of a pin (R106, R107) -/

theorem pinTimer_eq (hp : (s.lock g).pin? n = some p) (f : Pin → Option Nat) :
    (s.lock g).pinTimer n f = (f p).isSome := by
  unfold LockState.pinTimer
  rw [hp]

theorem exec_conflictTimerExpiry (h : 1 ≤ n ∧ n ≤ g.pinCount) (hp : (s.lock g).pin? n = some p) :
    exec (.conflictTimerExpiry g n) s = ends (if p.conflict.isSome then conflictDone g n s else s) := by
  rw [← pinTimer_eq hp (·.conflict)]
  exact if_pos h

theorem exec_transitLimitExpiry (h : 1 ≤ n ∧ n ≤ g.pinCount) (hp : (s.lock g).pin? n = some p) :
    exec (.transitLimitExpiry g n) s = ends (if p.transit.isSome then transitDone g n s else s) := by
  rw [← pinTimer_eq hp (·.transit)]
  exact if_pos h

/-- A first conflict: the latch names the pin, whose timer has stopped, and the trip unit is told first. -/
theorem conflictDone_first (h : (s.lock g).conflictPins = []) :
    (conflictDone g n s).steady = (s.setLock g { (s.lock g).stopConflict n with conflictPins := [n] }).steady ∧
    (conflictDone g n s).tru = s.tru ∧
    ∃ rest, (conflictDone g n s).agenda = s.agenda ++ .tripReport .pinConflict (some (.lock g)) .none :: rest := by
  have hd : conflictDone g n s = memberEvent (latchConflict g n) s := if_pos (by simp [h])
  rw [hd, steady_memberEvent, tru_memberEvent, agenda_memberEvent]
  unfold latchConflict
  refine ⟨?_, by simp, _, by simp; rfl⟩
  rw [steady_deriveGroup, steady_emit, modLock_eq]

/-- A further conflict joins the latch, where the latch does not name it. -/
theorem conflictDone_joins (h : (s.lock g).conflictPins ≠ []) : conflictDone g n s =
    mark (.member (.lock g)) (s.setLock g { (s.lock g).modPin n fun q => { q with conflict := none } with
      conflictPins := if n ∈ (s.lock g).conflictPins then (s.lock g).conflictPins
        else (s.lock g).conflictPins ++ [n] }) := by
  have hd : conflictDone g n s =
      mark (.member (.lock g)) (s.modLock g fun l => (l.stopConflict n).addConflict n) := if_neg (by simpa using h)
  have hc : ((s.lock g).stopConflict n).addConflict n = { (s.lock g).modPin n fun q => { q with conflict := none } with
      conflictPins := if n ∈ (s.lock g).conflictPins then (s.lock g).conflictPins
        else (s.lock g).conflictPins ++ [n] } := by
    unfold LockState.addConflict LockState.stopConflict LockState.modPin
    by_cases hn : n ∈ (s.lock g).conflictPins <;> simp [hn]
  rw [hd, modLock_eq, hc]

/-- Settles O46: by which timer runs, and for the conflict timer by whether a conflict is latched. -/
theorem pinTimersLatchAndStick : Obligations.PinTimersLatchAndStick := by
  unfold Obligations.PinTimersLatchAndStick
  intro g pin p s ha h1 h2 hp
  have hpin : 1 ≤ pin ∧ pin ≤ g.pinCount := ⟨h1, h2⟩
  rw [exec_conflictTimerExpiry hpin hp, exec_transitLimitExpiry hpin hp]
  refine ⟨fun hc hl => ?first, fun hc hl => ?joins, ends_stopped ha, fun hc => ?stuck, ends_stopped ha⟩
  case first =>
    obtain ⟨hs, ht, rest, hr⟩ := conflictDone_first (s := s) (g := g) (n := pin) hl
    rw [ha] at hr
    have hst := (settle_steady _).trans hs
    obtain ⟨-, hlk⟩ := members_of_steady hst
    have hg := hlk g
    rw [lock_setLock_self] at hg
    have hq := pin?_of_steady hg pin
    refine ⟨_, ends_running hc, (congrArg LockState.conflictPins hg :), ?_,
      fun hn => settle_report rest hr (by rw [ht]; exact hn)⟩
    have hsp : ({ (s.lock g).stopConflict pin with conflictPins := [pin] } : LockState).pin? pin =
        some { p with conflict := none } := by
      have := pin?_modPin (s.lock g) pin fun p => { p with conflict := none }
      rw [hp] at this
      exact this
    rw [hsp] at hq
    have hm := congrArg (fun o : Option Pin => o.map (·.conflict)) hq
    simpa [Option.map_map, Function.comp_def, Pin.steady] using hm
  case joins =>
    rw [ends_running hc, conflictDone_joins hl, settle_nil (by rw [agenda_mark, agenda_setLock, ha])]
  case stuck =>
    rw [ends_running hc, settle_nil]
    · rfl
    · exact (agenda_mark _ _).trans ((agenda_setLock _ _ _).trans ha)

end Sys2Proof.Machine
end

