-- ==== Sys2Proof/Proofs/Switches.lean ====
section
/-! PROOFS. The end switches of an axis: their values and the disagreement test (R59, R101, R172) (O47). -/

namespace Sys2Proof.Machine

variable {s t d : State} {a : Axis} {c o : Option Bool} {x : Nat}

/-- The state with new filtered values of an axis's end switches, at the conditioner and at the axis. -/
def State.switched (s : State) (a : Axis) (c o : Option Bool) : State :=
  ({ s with dic := (s.dic.deliver? (.endClosed a) c).deliver? (.endOpen a) o } : State).setAxis a
    { s.axis a with endClosed := c.or (s.axis a).endClosed, endOpen := o.or (s.axis a).endOpen }

theorem storeSwitches_eq (a : Axis) (c o : Option Bool) (s : State) :
    storeSwitches a c o (switchValues a c o s) = s.switched a c o := by
  unfold storeSwitches switchValues State.switched
  rw [modAxis_eq]
  cases a <;> rfl

theorem x?_switched (s : State) (a : Axis) (c o : Option Bool) : ((s.switched a c o).axis a).x? = (s.axis a).x? := by
  rw [State.switched, axis_setAxis_self]
  rfl

/-- An edge: the member event that the axis makes of it, and then the completion of a step that the edge ends. -/
def State.edgeDone (s : State) (a : Axis) (c o : Option Bool) : State :=
  if (s.axis a).phase.driving && edgeToActive c o (s.axis a).stepSwitch && !(s.axis a).disagree then completeStep a s
  else s

theorem steady_edgeDone (s : State) : (s.edgeDone a c o).steady = s.steady := by
  unfold State.edgeDone
  split
  · exact (completeStep_moves (k := 0) a s).steady rfl
  · rfl

theorem exec_endSwitchEdge_lost (h : (s.axis a).x? = none) : exec (.endSwitchEdge a c o) s =
    .next (settle ((memberEvent (deriveAxis a) (s.switched a c o)).edgeDone a c o)) := by
  have he : switchEdge a c o (switchValues a c o s) =
      (memberEvent (deriveAxis a) (s.switched a c o)).edgeDone a c o := by
    unfold switchEdge
    dsimp only
    rw [storeSwitches_eq, x?_switched, h]
    rfl
  rw [← he]
  rfl

theorem exec_endSwitchEdge_at (h : (s.axis a).x? = some x) : exec (.endSwitchEdge a c o) s =
    .next (settle ((memberEvent (testDisagreement a x) (s.switched a c o)).edgeDone a c o)) := by
  have he : switchEdge a c o (switchValues a c o s) =
      (memberEvent (testDisagreement a x) (s.switched a c o)).edgeDone a c o := by
    unfold switchEdge
    dsimp only
    rw [storeSwitches_eq, x?_switched, h]
    rfl
  rw [← he]
  rfl

/-- A first disagreement: the axis disagrees, and the trip unit is told first. -/
theorem testDisagreement_latches (hl : (s.axis a).switchLatched = false)
    (hd : ((s.axis a).closedDisagrees x || (s.axis a).openDisagrees x) = true) :
    ((testDisagreement a x s).axis a).disagree = true ∧ (testDisagreement a x s).tru = s.tru ∧
      (testDisagreement a x s).agenda = s.agenda ++ [.tripReport .sensor (some (.axis a)) .none] := by
  have hx : (s.modAxis a fun ax => ax.testSwitches x).axis a = (s.axis a).testSwitches x := by simp
  have hs : ((s.axis a).testSwitches x).switchLatched = true := by
    unfold AxisState.switchLatched AxisState.testSwitches at *
    simp only [Bool.or_eq_true, Bool.or_eq_false_iff] at *
    tauto
  unfold testDisagreement
  dsimp only
  rw [hl, hx, hs]
  refine ⟨?_, by simp, by simp⟩
  simpa [AxisState.testSwitches] using hd

/-- Settles O47: the values are stored, and an edge is tested where the axis knows its coordinate. -/
theorem endSwitchesDisagree : Obligations.EndSwitchesDisagree := by
  unfold Obligations.EndSwitchesDisagree
  rintro a c o s _ rfl
  refine ⟨congrArg Host.Outcome.next (storeSwitches_eq a c o s), fun h => ?lost, fun x h => ?tested⟩
  case lost =>
    refine ⟨_, exec_endSwitchEdge_lost h, ?_⟩
    exact (settle_steady _).trans ((steady_edgeDone _).trans ((steady_memberEvent _ _).trans (steady_deriveAxis _ _)))
  case tested =>
    refine ⟨_, exec_endSwitchEdge_at h, ?_, fun ha ht hl hd => ?_⟩
    · refine (settle_steady _).trans ((steady_edgeDone _).trans ((steady_memberEvent _ _).trans ?_))
      exact (steady_testDisagreement a x _).trans (by rw [modAxis_eq]; rfl)
    · have hsl : ((s.switched a c o).axis a).switchLatched = false := by
        rw [State.switched, axis_setAxis_self]
        exact hl
      obtain ⟨hx, htr, hag⟩ := testDisagreement_latches (s := s.switched a c o) hsl hd
      have hsa : (s.switched a c o).agenda = [] := (agenda_setAxis _ _ _).trans ha
      have hst : (s.switched a c o).tru = s.tru := tru_setAxis _ _ _
      have he : (memberEvent (testDisagreement a x) (s.switched a c o)).edgeDone a c o =
          memberEvent (testDisagreement a x) (s.switched a c o) := if_neg (by simp [hx])
      have hr := agenda_memberEvent (testDisagreement a x) (s.switched a c o)
      rw [hag, hsa] at hr
      rw [he]
      exact settle_report _ hr (by rw [tru_memberEvent, htr, hst, ht])

end Sys2Proof.Machine
end

