-- ==== Sys2Proof/Proofs/Loops.lean ====
section
/-! PROOFS. The emergency-stop loops (R160, R161, R167) (O51). -/

namespace Sys2Proof.Machine

variable {s t d : State} {st : Station} {isClosed : Bool}

/-- The state with a loop's value recorded and, where it is open, the latch set. -/
def State.looped (s : State) (st : Station) (isClosed : Bool) : State :=
  mark .trip (s.modTru fun t => { t.setLoop st isClosed with latch := t.latch || !isClosed })

theorem inner_looped (s : State) : (s.looped st isClosed).inner =
    ({ s with tru := { s.tru.setLoop st isClosed with latch := s.tru.latch || !isClosed } } : State).inner :=
  inner_mark _ _

theorem tru_looped (s : State) :
    (s.looped st isClosed).tru = { s.tru.setLoop st isClosed with latch := s.tru.latch || !isClosed } :=
  (tru_of_inner (inner_looped s) :)

theorem agenda_looped (s : State) : (s.looped st isClosed).agenda = s.agenda := agenda_mark _ _

theorem loopValue_quiet (h : isClosed = true ∨ s.tru.latch = true) : loopValue st isClosed s = s.looped st isClosed :=
  if_pos (by simpa using h)

/-- An open loop that finds the latch clear is a trip, a notice and a change for ILK, in this order. -/
theorem loopValue_trips (h : isClosed = false) (hl : s.tru.latch = false) : loopValue st isClosed s =
    (s.looped st isClosed).emit [.tripReport .estop none (.loops ((s.looped st isClosed).tru.loopBridge == .opened)
      ((s.looped st isClosed).tru.loopDeck == .opened)), .estopNotice, .reeval] :=
  if_neg (by simp [h, hl])

theorem setLoop_latch (t : Tru) (st : Station) (isClosed : Bool) :
    (t.setLoop st isClosed).latch = t.latch ∧ (t.setLoop st isClosed).record = t.record := by
  cases st <;> exact ⟨rfl, rfl⟩

/-- Settles O51: the loop's value is recorded, and an open loop that finds the latch clear is an ESTOP trip. -/
theorem openLoopSetsLatch : Obligations.OpenLoopSetsLatch := by
  unfold Obligations.OpenLoopSetsLatch
  rintro st isClosed s _ ha rfl c hc
  have hx : exec c s = .next (settle (loopValue st isClosed (s.modDic fun d => d.deliver (.loop st) isClosed))) := by
    simp only [List.mem_cons, List.not_mem_nil, or_false] at hc
    rcases hc with rfl | rfl <;> rfl
  rw [hx]
  generalize hy : s.modDic (fun d => d.deliver (.loop st) isClosed) = y
  have hya : y.agenda = [] := by rw [← hy]; exact ha
  have hyt : y.tru = s.tru := by rw [← hy]; rfl
  refine ⟨fun h => ?quiet, fun hc hl => ?trips⟩
  case quiet =>
    rw [loopValue_quiet (by rw [hyt]; exact h), settle_nil (by rw [agenda_looped, hya])]
    refine ⟨_, rfl, (inner_looped y).trans ?_⟩
    rw [← hy]
    dsimp only
    rw [(setLoop_latch s.tru st isClosed).1]
    rfl
  case trips =>
    rw [loopValue_trips hc (by rw [hyt]; exact hl)]
    have hs := (settle_steady ((y.looped st isClosed).emit [.tripReport .estop none
      (.loops ((y.looped st isClosed).tru.loopBridge == .opened) ((y.looped st isClosed).tru.loopDeck == .opened)),
      .estopNotice, .reeval])).trans (steady_emit _ _)
    have htr := tru_looped (st := st) (isClosed := isClosed) y
    rw [hyt] at htr
    refine ⟨_, rfl, ?latch, ?bridge, ?deck, fun hr => ?report⟩
    case latch =>
      refine (congrArg (fun x : State => x.tru.latch) hs :).trans ((congrArg Tru.latch htr :).trans ?_)
      simp [hc]
    case bridge => exact (congrArg (fun x : State => x.tru.loopBridge) hs :).trans (congrArg Tru.loopBridge htr :)
    case deck => exact (congrArg (fun x : State => x.tru.loopDeck) hs :).trans (congrArg Tru.loopDeck htr :)
    case report =>
      rw [htr]
      refine settle_report [.estopNotice, .reeval] ?_ ?_
      · rw [agenda_emit, agenda_looped, hya]
        rfl
      · rw [tru_emit, htr]
        exact (setLoop_latch s.tru st isClosed).2.trans hr

end Sys2Proof.Machine
end

