-- ==== Sys2Proof/Proofs/Pressure.lean ====
section
/-! PROOFS. The pressure-ok input of a pump unit (R125, R126, R130) (O48). -/

namespace Sys2Proof.Machine

variable {s t x y : State} {w : UnitId} {active : Bool} {c : Consumer} {r : PumpUnit} {ro : Nat}

/-! ## The unit (R125, R126) -/

theorem pressEdge_running (h : r.state = .running) :
    r.pressEdge active ro = { r with pressOk := some active, lossT := if active then none else some 500 } := by
  unfold PumpUnit.pressEdge
  dsimp only
  rw [h]
  cases active <;> rfl

theorem pressEdge_other (h : r.state ≠ .running) (hs : ¬(r.state = .starting ∧ active = true)) :
    r.pressEdge active ro = { r with pressOk := some active } := by
  unfold PumpUnit.pressEdge
  dsimp only
  cases hr : r.state <;> cases active <;> simp_all

theorem pressEdge_held (h : r.state = .starting) (hc : r.holder = some c) :
    r.pressEdge true ro = { r with pressOk := some true, state := .running, startT := none } := by
  unfold PumpUnit.pressEdge
  dsimp only
  rw [h]
  exact if_neg (by simp [hc])

theorem pressEdge_parked (h : r.state = .starting) (hc : r.holder = none) :
    r.pressEdge true ro = if ro = 0 then
        { r with pressOk := some true, state := .stopped, startT := none, lossT := none, runOnT := none }
      else { r with pressOk := some true, state := .running, startT := none, runOnT := some (ro * 1000) } := by
  unfold PumpUnit.pressEdge
  dsimp only
  rw [h]
  exact if_pos (by simp [hc])

/-! ## The edge at the allocator (R130) -/

/-- An edge that leaves the unit's state changes the unit alone. -/
theorem pressureEdge_same (h : ((y.unit w).pressEdge active y.hsa.runOn).state = (y.unit w).state) :
    (pressureEdge w active y).inner = (y.setUnit w ((y.unit w).pressEdge active y.hsa.runOn)).inner ∧
      (pressureEdge w active y).agenda = y.agenda := by
  unfold pressureEdge
  rw [inner_supplyEvent, agenda_supplyEvent]
  dsimp only
  rw [if_pos (by simp [h])]
  exact ⟨rfl, agenda_setUnit _ _ _⟩

/-- An edge that changes it tells the unit's holder, and the list is served. -/
theorem pressureEdge_moved (h : ((y.unit w).pressEdge active y.hsa.runOn).state ≠ (y.unit w).state) :
    (pressureEdge w active y).inner =
        (serve (tellRunning w (y.setUnit w ((y.unit w).pressEdge active y.hsa.runOn)))).inner ∧
      (pressureEdge w active y).agenda =
        (serve (tellRunning w (y.setUnit w ((y.unit w).pressEdge active y.hsa.runOn)))).agenda := by
  unfold pressureEdge
  rw [inner_supplyEvent, agenda_supplyEvent]
  dsimp only
  rw [if_neg (by simpa using Ne.symm h)]
  exact ⟨rfl, rfl⟩

/-- A RUNNING unit with a holder: the holder is told. -/
theorem tellRunning_held (h : (s.unit w).state = .running) (hc : (s.unit w).holder = some c) :
    tellRunning w s = s.emit [.unitReady c] := by
  rw [tellRunning, h, hc]

theorem tellRunning_free (hc : (s.unit w).holder = none) : tellRunning w s = s := by
  rw [tellRunning, hc]
  cases (s.unit w).state <;> rfl

theorem exec_pressureOkEdge (w : UnitId) (active : Bool) (s : State) : exec (.pressureOkEdge w active) s =
    .next (settle (pressureEdge w active (s.modDic fun d => d.deliver (.pressure w) active))) := rfl

/-- A STARTING unit `v` that an edge to active has taken on, and the state `x` that then serves the list: a holder is
told, a unit without one is parked, or stops at once (R125, R126, log 24). -/
def Pressed (y : State) (w : UnitId) (v : PumpUnit) (x : State) : Prop :=
  (∀ c, (y.unit w).holder = some c →
    v = { y.unit w with pressOk := some true, state := .running, startT := none } ∧
      x = (y.setUnit w v).emit [.unitReady c]) ∧
  ((y.unit w).holder = none →
    v = (if y.hsa.runOn = 0 then
        { y.unit w with pressOk := some true, state := .stopped, startT := none, lossT := none, runOnT := none }
      else { y.unit w with
        pressOk := some true, state := .running, startT := none, runOnT := some (y.hsa.runOn * 1000) }) ∧
      x = y.setUnit w v)

theorem pressureEdge_starting {v : PumpUnit} (h : (y.unit w).state = .starting) (hp : Pressed y w v x) :
    (pressureEdge w true y).inner = (serve x).inner ∧ (pressureEdge w true y).agenda = (serve x).agenda := by
  obtain ⟨hc, hn⟩ := hp
  have hv : (y.unit w).pressEdge true y.hsa.runOn = v ∧ v.state ≠ .starting ∧ tellRunning w (y.setUnit w v) = x := by
    cases hh : (y.unit w).holder with
    | some c =>
      obtain ⟨rfl, rfl⟩ := hc c hh
      refine ⟨pressEdge_held h hh, by simp, tellRunning_held ?_ ?_⟩
      · simp
      · simp [hh]
    | none =>
      obtain ⟨hv, rfl⟩ := hn hh
      have hvh : v.holder = none := by rw [hv]; split <;> exact hh
      refine ⟨(pressEdge_parked h hh).trans hv.symm, by rw [hv]; split <;> simp, tellRunning_free ?_⟩
      rw [unit_setUnit_self, hvh]
  obtain ⟨h1, h2, h3⟩ := hv
  have hm := pressureEdge_moved (y := y) (w := w) (active := true) (by rw [h1, h]; exact h2)
  rwa [h1, h3] at hm

/-- Settles O48: by the unit's state and the edge, and in STARTING by the unit's holder. -/
theorem pressureOkMovesUnit : Obligations.PressureOkMovesUnit := by
  unfold Obligations.PressureOkMovesUnit
  intro w active s d ha hd
  have hx : exec (.pressureOkEdge w active) s = .next (settle (pressureEdge w active d)) := by rw [hd]; rfl
  have hu : s.unit w = d.unit w := by rw [hd]; cases w <;> rfl
  have hh : s.hsa = d.hsa := by rw [hd]
  have hda : d.agenda = [] := by rw [hd]; exact ha
  rw [hx, hu, hh]
  clear hx hu hh hd ha
  have hsame : ∀ v, (d.unit w).pressEdge active d.hsa.runOn = v → v.state = (d.unit w).state →
      ∃ t, Host.Outcome.next (settle (pressureEdge w active d)) = (.next t : Host.Outcome State Fault Refusal) ∧
        t.inner = (d.setUnit w v).inner := by
    rintro v rfl hv
    obtain ⟨hi, hag⟩ := pressureEdge_same (y := d) hv
    exact ⟨_, by rw [settle_nil (hag.trans hda)], hi⟩
  have hidle : ∀ v x, (d.unit w).state = .starting → active = true → Pressed d w v x → x.hsa.wants = [] →
      (pressureEdge w active d).inner = x.inner ∧ (pressureEdge w active d).agenda = x.agenda := by
    rintro v x h rfl hv hx
    have hp := pressureEdge_starting h hv
    rwa [serve_noWants hx] at hp
  have hw : ∀ v, d.hsa.wants = [] → (d.setUnit w v).hsa.wants = [] := fun v h => by cases w <;> exact h
  refine ⟨fun h => hsame _ (pressEdge_running h) rfl, fun h hs => hsame _ (pressEdge_other h hs) rfl,
    fun c h hact hl hc => ?held, fun h hact hl hn hr => ?parks, fun h hact hl hn hr => ?stops,
    fun v x h hact hc hn => ?served⟩
  case held =>
    have hv : Pressed d w { d.unit w with pressOk := some true, state := .running, startT := none }
        ((d.setUnit w { d.unit w with pressOk := some true, state := .running, startT := none }).emit [.unitReady c]) :=
      ⟨fun c' hc' => by rw [hc] at hc'; rw [Option.some.inj hc']; exact ⟨rfl, rfl⟩, fun hn => by simp [hn] at hc⟩
    obtain ⟨hi, hag⟩ := hidle _ _ h hact hv (hw _ hl)
    exact ⟨_, rfl, by rw [hag, agenda_emit, agenda_setUnit, hda]; rfl, hi⟩
  case parks =>
    have hv : Pressed d w _ _ := ⟨fun c' hc' => by simp [hn] at hc', fun _ => ⟨(if_neg hr).symm, rfl⟩⟩
    obtain ⟨hi, hag⟩ := hidle _ _ h hact hv (hw _ hl)
    exact ⟨_, by rw [settle_nil (by rw [hag, agenda_setUnit, hda])], hi⟩
  case stops =>
    have hv : Pressed d w _ _ := ⟨fun c' hc' => by simp [hn] at hc', fun _ => ⟨(if_pos hr).symm, rfl⟩⟩
    obtain ⟨hi, hag⟩ := hidle _ _ h hact hv (hw _ hl)
    exact ⟨_, by rw [settle_nil (by rw [hag, agenda_setUnit, hda])], hi⟩
  case served =>
    subst hact
    exact ⟨_, rfl, pressureEdge_starting h ⟨hc, hn⟩⟩

end Sys2Proof.Machine
end

