-- ==== Sys2Proof/Proofs/Units.lean ====
section
/-! PROOFS. The pump units that fail: by their motor-trip input (R124, R127) (O49) and by their timers (R125, R126, R134)
(O50). -/

namespace Sys2Proof.Machine

variable {s t x y : State} {w : UnitId} {active : Bool} {c : Consumer} {k : UnitFail}

/-! ## A unit goes down (R127, R134) -/

/-- What the loss of a unit does to an axis is the axis's own. -/
theorem axisSupplyLess_leaves (a : Axis) (s : State) : (∀ w, (axisSupplyLess a s).unit w = s.unit w) ∧
    (axisSupplyLess a s).agenda = s.agenda ∧ (axisSupplyLess a s).tru = s.tru := by
  unfold axisSupplyLess
  dsimp only
  split <;> split <;> simp [zeroAxis, State.putDrives]

theorem holderLost_leaves (c : Consumer) (u : UnitId) (k : UnitFail) (s : State) :
    (∀ w, (holderLost c u k s).unit w = s.unit w) ∧ (holderLost c u k s).tru = s.tru := by
  cases c with
  | axisStep a =>
    unfold holderLost
    dsimp only
    split
    · obtain ⟨h1, -, h3⟩ := axisSupplyLess_leaves a
        (s.emit [.tripReport .supplyLost (some (Consumer.axisStep a).member) (.supply u k)])
      exact ⟨fun w => (h1 w).trans (unit_emit _ _ _), h3⟩
    · obtain ⟨h1, -, h3⟩ := axisSupplyLess_leaves a (addSecond a s)
      exact ⟨fun w => (h1 w).trans (unit_setWants _ _ _), h3⟩
  | lockOp g => exact ⟨fun w => unit_emit _ _ _, rfl⟩
  | topUp g => exact ⟨fun w => unit_emit _ _ _, rfl⟩

/-- A consumer that needs the unit is stopped by SUPPLY_LOST. -/
theorem agenda_holderLost (h : ∀ a, c = .axisStep a → s.hsa.held c = 0) :
    (holderLost c w k s).agenda = s.agenda ++ [.tripReport .supplyLost (some c.member) (.supply w k)] := by
  cases c with
  | axisStep a =>
    unfold holderLost
    dsimp only
    rw [if_pos (h a rfl)]
    exact (axisSupplyLess_leaves a _).2.1
  | lockOp g => rfl
  | topUp g => rfl

/-- A unit that goes down is FAILED with its kind, without holder and timers. -/
theorem unit_unitDown (w : UnitId) (k : UnitFail) (s : State) : (unitDown w k s).unit w = (s.unit w).fail k := by
  unfold unitDown
  dsimp only
  rw [unit_emit]
  split
  · rw [(holderLost_leaves _ _ _ _).1, modUnit_eq, unit_setUnit_self]
  · rw [modUnit_eq, unit_setUnit_self]

theorem tru_unitDown (w : UnitId) (k : UnitFail) (s : State) : (unitDown w k s).tru = s.tru := by
  unfold unitDown
  dsimp only
  rw [tru_emit]
  split
  · rw [(holderLost_leaves _ _ _ _).2, modUnit_eq, tru_setUnit]
  · rw [modUnit_eq, tru_setUnit]

/-- A consumer that loses a unit holds one less. -/
theorem held_setUnit {v : PumpUnit} (hh : (s.unit w).holder = some c) (hv : v.holder = none) :
    (s.setUnit w v).hsa.held c + 1 = s.hsa.held c := by
  cases w with
  | u1 =>
    have hu : s.hsa.u1.holder = some c := hh
    simp [Hsa.held, State.setUnit, hu, hv, Nat.add_comm]
  | u2 =>
    have hu : s.hsa.u2.holder = some c := hh
    simp [Hsa.held, State.setUnit, hu, hv]

/-- A holder that needs the unit is stopped before the list is served. -/
theorem agenda_unitDown (hh : (s.unit w).holder = some c) (hn : s.needsUnit c = true) : (unitDown w k s).agenda =
    s.agenda ++ [.tripReport .supplyLost (some c.member) (.supply w k), .allocate] := by
  have hz : ∀ a, c = .axisStep a → (s.modUnit w fun r => r.fail k).hsa.held c = 0 := by
    rintro a rfl
    have h1 : s.hsa.held (.axisStep a) = 1 := by simpa [State.needsUnit] using hn
    have h2 := held_setUnit (v := (s.unit w).fail k) hh rfl
    rw [modUnit_eq]
    omega
  unfold unitDown
  dsimp only
  rw [hh]
  dsimp only
  rw [agenda_emit, agenda_holderLost hz, modUnit_eq, agenda_setUnit, List.append_assoc]
  rfl

/-- What a unit's FAILED state comes to when a command ends: its messages do not recover it, and give it no holder. -/
theorem failed_settle (hok : s.supplyOk) (h : (s.unit w).state = .failed) (hk : (s.unit w).failure = some k) :
    ((settle s).unit w).state = .failed ∧ ((settle s).unit w).failure = some k ∧ ((settle s).unit w).holder = none := by
  have hm := settle_moves (k := 0) s
  obtain ⟨h1, h2⟩ := hm.failedHeld (by decide) hok w h
  obtain ⟨ok1, ok2, -⟩ := hm.supplyOk hok
  refine ⟨h1, h2.trans hk, ?_⟩
  cases w with
  | u1 => exact ok1.2.2.2.2 h1
  | u2 => exact ok2.2.2.2.2 h1

/-! ## The motor-trip input (R124, R127) -/

/-- The state with a unit's motor-trip value stored. -/
def State.motored (s : State) (w : UnitId) (active : Bool) : State :=
  s.setUnit w { s.unit w with motorTrip := some active }

theorem unit_motored (s : State) (w : UnitId) (active : Bool) :
    (s.motored w active).unit w = { s.unit w with motorTrip := some active } := unit_setUnit_self _ _ _

theorem motorValue_eq (w : UnitId) (active : Bool) (s : State) : motorValue w active s = supplyEvent (fun s =>
    if active ∧ ((s.motored w active).unit w).state ≠ .failed then unitDown w .motorTrip (s.motored w active)
    else s.motored w active) s := rfl

/-- A value that is inactive, or finds the unit FAILED, is stored alone. -/
theorem motorValue_stores (h : active = false ∨ (s.unit w).state = .failed) :
    (motorValue w active s).inner = (s.motored w active).inner ∧ (motorValue w active s).agenda = s.agenda := by
  have hn : ¬(active = true ∧ ((s.motored w active).unit w).state ≠ .failed) := by
    rw [unit_motored]
    rintro ⟨h1, h2⟩
    rcases h with h | h
    · simp [h] at h1
    · exact h2 h
  rw [motorValue_eq, inner_supplyEvent, agenda_supplyEvent, if_neg hn]
  exact ⟨rfl, agenda_setUnit _ _ _⟩

/-- An active value takes a unit that is not FAILED to FAILED. -/
theorem motorValue_fails (h : (s.unit w).state ≠ .failed) :
    (motorValue w true s).unit w = ({ s.unit w with motorTrip := some true } : PumpUnit).fail .motorTrip := by
  have hn : (true = true ∧ ((s.motored w true).unit w).state ≠ .failed) := ⟨rfl, by rw [unit_motored]; exact h⟩
  rw [motorValue_eq, unit_of_inner (inner_supplyEvent _ _), if_pos hn, unit_unitDown, unit_motored]

/-- The first value of an input is stored as an edge is, and the list is served by a message of its own. -/
theorem exec_firstMotor (w : UnitId) (active : Bool) (s : State) : exec (.unitInputFirstValue w .motorTrip active) s =
    .next (settle ((motorValue w active (s.modDic fun d => d.deliver (.motorTrip w) active)).emit [.allocate])) := rfl

theorem exec_motorEdge (w : UnitId) (active : Bool) (s : State) : exec (.motorTripEdge w active) s =
    .next (settle (motorValue w active (s.modDic fun d => d.deliver (.motorTrip w) active))) := rfl

theorem exec_firstPressure (w : UnitId) (active : Bool) (s : State) :
    exec (.unitInputFirstValue w .pressureOk active) s =
      .next (settle ((supplyEvent (fun s => s.setUnit w { s.unit w with pressOk := some active })
        (s.modDic fun d => d.deliver (.pressure w) active)).emit [.allocate])) := rfl

/-- The list served with nothing asked for. -/
theorem settle_allocate (ha : s.agenda = []) (hw : s.hsa.wants = []) : settle (s.emit [.allocate]) = s :=
  Settles.settle_eq (n := 1) (.last ha (by
    have h : handle .allocate s = s := hsaAllocate_noWants hw
    rw [h]
    exact .nil ha)) (by decide)

theorem unit_steady_motorTrip (h : t.steady = s.steady) (w : UnitId) : (t.unit w).motorTrip = (s.unit w).motorTrip := by
  cases w with
  | u1 => exact (congrArg (fun x : State => x.hsa.u1.motorTrip) h :)
  | u2 => exact (congrArg (fun x : State => x.hsa.u2.motorTrip) h :)

/-- Settles O49: an active value of a unit in service fails it; any other is stored. -/
theorem motorTripFailsUnit : Obligations.MotorTripFailsUnit := by
  unfold Obligations.MotorTripFailsUnit
  intro w s hok ha
  refine ⟨fun c hc hs => ?fails, fun active h => ?stored, fun active d h hd => ?first, fun active d hd => ?pressure⟩
  case fails =>
    have hd : (s.modDic fun d => d.deliver (.motorTrip w) true).unit w = s.unit w := by cases w <;> rfl
    have hdok : (s.modDic fun d => d.deliver (.motorTrip w) true).supplyOk := hok
    obtain ⟨z, hz, hzu, hzok⟩ : ∃ z, exec c s = .next (settle z) ∧
        z.unit w = ({ s.unit w with motorTrip := some true } : PumpUnit).fail .motorTrip ∧ z.supplyOk := by
      have hu := motorValue_fails (w := w) (s := s.modDic fun d => d.deliver (.motorTrip w) true) (by rw [hd]; exact hs)
      have ho := (motorValue_moves (k := 1) w true _ (by decide)).supplyOk hdok
      rw [hd] at hu
      simp only [List.mem_cons, List.not_mem_nil, or_false] at hc
      rcases hc with rfl | rfl
      · exact ⟨_, exec_motorEdge w true s, hu, ho⟩
      · exact ⟨_, exec_firstMotor w true s, (unit_emit _ _ _).trans hu, ho⟩
    have hf := failed_settle (w := w) (k := .motorTrip) hzok (by rw [hzu]; rfl) (by rw [hzu]; rfl)
    refine ⟨_, hz, hf.1, hf.2.1, ?_, hf.2.2⟩
    rw [unit_steady_motorTrip (settle_steady z), hzu]
    rfl
  case stored =>
    have hd : (s.modDic fun d => d.deliver (.motorTrip w) active).unit w = s.unit w := by cases w <;> rfl
    obtain ⟨hi, hag⟩ := motorValue_stores (w := w) (s := s.modDic fun d => d.deliver (.motorTrip w) active)
      (by rw [hd]; exact h)
    refine ⟨_, exec_motorEdge w active s, ?_⟩
    rw [settle_nil (hag.trans ha), hi, State.motored, hd]
    rfl
  case first =>
    have hy : (s.modDic fun d => d.deliver (.motorTrip w) active).unit w = s.unit w := by cases w <;> rfl
    obtain ⟨hi, hag⟩ := motorValue_stores (w := w) (s := s.modDic fun d => d.deliver (.motorTrip w) active)
      (by rw [hy]; exact h)
    rw [State.motored, hy] at hi
    have hid : (motorValue w active (s.modDic fun d => d.deliver (.motorTrip w) active)).inner = d.inner := hd ▸ hi
    refine ⟨⟨_, exec_firstMotor w active s, hid, ?_⟩, ?_, fun hw => ?_⟩
    · rw [agenda_emit, hag]
      exact congrArg (· ++ _) ha
    · rw [hd, unit_setUnit_self]
      simp [PumpUnit.ready]
    · refine ⟨_, exec_firstMotor w active s, ?_⟩
      rw [settle_allocate (hag.trans ha)]
      · exact hid
      · rw [hsa_of_inner hid, hd]
        cases w <;> exact hw
  case pressure =>
    have hy : (s.modDic fun d => d.deliver (.pressure w) active).unit w = s.unit w := by cases w <;> rfl
    have hi := inner_supplyEvent (fun s => s.setUnit w { s.unit w with pressOk := some active })
      (s.modDic fun d => d.deliver (.pressure w) active)
    dsimp only at hi
    rw [hy] at hi
    have hid : (supplyEvent (fun s => s.setUnit w { s.unit w with pressOk := some active })
      (s.modDic fun d => d.deliver (.pressure w) active)).inner = d.inner := hd ▸ hi
    refine ⟨⟨_, exec_firstPressure w active s, hid, ?_⟩, ?_, _, exec_firstPressure w active s, ?_⟩
    · rw [agenda_emit, agenda_supplyEvent, agenda_setUnit]
      exact congrArg (· ++ _) ha
    · rw [hd, unit_setUnit_self]
      simp [PumpUnit.ready]
    · refine (settle_steady _).trans ((steady_emit _ _).trans ((steady_markIf _ _ _).trans ?_))
      beta_reduce
      rw [hd, hy]
      rfl

/-! ## The timers of a unit (R125, R126, R134) -/

theorem exec_startLimitExpiry (w : UnitId) (s : State) :
    exec (.startLimitExpiry w) s = ends (if (s.unit w).startT.isSome then unitFail w .startFail s else s) := rfl

theorem exec_pressureLossExpiry (w : UnitId) (s : State) :
    exec (.pressureLossExpiry w) s = ends (if (s.unit w).lossT.isSome then unitFail w .pressureLoss s else s) := rfl

theorem exec_runOnExpiry (w : UnitId) (s : State) :
    exec (.runOnExpiry w) s = ends (if (s.unit w).runOnT.isSome then runOnDone w s else s) := rfl

/-- A unit whose start or pressure-loss timer runs is not FAILED. -/
theorem not_failed_of_timer (hok : s.supplyOk) (h : (s.unit w).startT ≠ none ∨ (s.unit w).lossT ≠ none) :
    (s.unit w).state ≠ .failed := by
  obtain ⟨ok1, ok2, -⟩ := hok
  have hu : (s.unit w).ok := by cases w <;> [exact ok1; exact ok2]
  obtain ⟨hst, hlo, -⟩ := hu
  rcases h with h | h
  · rw [hst.1 (Option.isSome_iff_ne_none.2 h)]; decide
  · rw [hlo (Option.isSome_iff_ne_none.2 h)]; decide

/-- The failure of a unit in service, with the loss of a holder that needs it. -/
theorem settle_unitFail (hok : s.supplyOk) (ha : s.agenda = []) (hs : (s.unit w).state ≠ .failed) :
    ((settle (unitFail w k s)).unit w).state = .failed ∧ ((settle (unitFail w k s)).unit w).failure = some k ∧
    ((settle (unitFail w k s)).unit w).holder = none ∧
    ∀ h, (s.unit w).holder = some h → s.needsUnit h = true → s.tru.record = none →
      (settle (unitFail w k s)).latched .supplyLost (some h.member) (.supply w k) := by
  have hi := inner_supplyEvent (unitDown w k) s
  have hu : (unitFail w k s).unit w = (s.unit w).fail k := (unit_of_inner hi w).trans (unit_unitDown w k s)
  have ho : (unitFail w k s).supplyOk := (unitFail_moves (k := 0) w k s fun _ => hs).supplyOk hok
  obtain ⟨h1, h2, h3⟩ := failed_settle (w := w) (k := k) ho (by rw [hu]; rfl) (by rw [hu]; rfl)
  refine ⟨h1, h2, h3, fun h hh hn hr => settle_report [.allocate] ?_ ?_⟩
  · unfold unitFail
    rw [agenda_supplyEvent, agenda_unitDown hh hn, ha]
    rfl
  · exact (congrArg Tru.record ((tru_of_inner hi).trans (tru_unitDown w k s))).trans hr

/-- Settles O50: a timer that runs finds its unit in service; the end of the run-on stops the unit. -/
theorem unitTimersFailOrStop : Obligations.UnitTimersFailOrStop := by
  unfold Obligations.UnitTimersFailOrStop
  intro w s hok ha
  rw [exec_startLimitExpiry, exec_pressureLossExpiry, exec_runOnExpiry]
  refine ⟨fun c k hc => ?fails, ends_stopped ha, ends_stopped ha, ends_stopped ha, fun h hw => ?stops⟩
  case fails =>
    rcases hc with ⟨rfl, rfl, h⟩ | ⟨rfl, rfl, h⟩
    · exact ⟨_, ends_running h, settle_unitFail hok ha (not_failed_of_timer hok (.inl h))⟩
    · exact ⟨_, ends_running h, settle_unitFail hok ha (not_failed_of_timer hok (.inr h))⟩
  case stops =>
    have hw' : (s.modUnit w fun r => { r with state := .stopped, lossT := none, runOnT := none }).hsa.wants = [] := by
      cases w <;> exact hw
    have hag : (runOnDone w s).agenda = [] := by
      unfold runOnDone
      rw [agenda_supplyEvent, serve_noWants hw', modUnit_eq, agenda_setUnit, ha]
    refine ⟨_, ends_running h, ?_⟩
    rw [settle_nil hag]
    unfold runOnDone
    rw [inner_supplyEvent]
    dsimp only
    rw [serve_noWants hw', modUnit_eq]

end Sys2Proof.Machine
end

