-- ==== Sys2Proof/Proofs/Guards.lean ====
section
/-! PROOFS. The guards (R9 to R11), a re-evaluation (R17) and what each of its results brings (R18 to R20, R35, R118)
(O39). -/

namespace Sys2Proof.Machine

variable {s t d : State} {e : WatchEntry} {r : Reason} {a : Axis} {g : Group}

/-! ## The first failing condition (R10) -/

theorem firstFailing_none (l : List (Reason × Bool)) : firstFailing l = none ↔ ∀ c ∈ l, c.2 = true := by
  simp [firstFailing]

theorem firstFailing_some (l : List (Reason × Bool)) (r : Reason) :
    firstFailing l = some r ↔ ∃ l1 l2, l = l1 ++ (r, false) :: l2 ∧ ∀ c ∈ l1, c.2 = true := by
  unfold firstFailing
  rw [Option.map_eq_some_iff]
  constructor
  · rintro ⟨⟨q, b⟩, hf, rfl⟩
    obtain ⟨hb, l1, l2, hl, h1⟩ := List.find?_eq_some_iff_append.1 hf
    refine ⟨l1, l2, ?_, fun c hc => by simpa using h1 c hc⟩
    rw [hl, show b = false by simpa using hb]
  · rintro ⟨l1, l2, rfl, h1⟩
    refine ⟨(r, false), List.find?_eq_some_iff_append.2 ⟨rfl, l1, l2, rfl, fun c hc => by simp [h1 c hc]⟩, rfl⟩

/-! ## The direction and the guard of an entry (R9, R11) -/

theorem guardOf_lock (h : e.member = .lock g) : s.guardOf e = s.lockGuard g (decide (e.action = .withdraw)) := by
  unfold State.guardOf
  rw [h]
  cases e.action <;> rfl

theorem guardOf_axis (h : e.member = .axis a) : s.guardOf e = s.axisGuard a (s.entryDir a e) := by
  unfold State.guardOf
  rw [h]

/-- Of an action handed over, the direction fixed at its hand-over. -/
theorem entryDir_fixed {st : AxisStep} (hs : e.stage ≠ .waiting) (h : (s.axis a).step = some st) :
    s.entryDir a e = st.dir := by
  unfold State.entryDir
  rw [h]
  cases hst : e.stage with
  | waiting => exact absurd hst hs
  | preparing => rfl
  | driving => rfl
  | holding => rfl

/-- Of a waiting action, the direction to its target held to the stroke; closing where the coordinate is not known. -/
theorem entryDir_waiting (hs : e.stage = .waiting) :
    s.entryDir a e = (s.axis a).dirOf ((s.axis a).hold (e.target.getD 0)) := by
  unfold State.entryDir
  rw [hs]

/-! ## The rows of the guards (R9, R10) -/

/-- The direction to a target held to the stroke (R11, R36). -/
theorem dirOf_hold {ax : AxisState} {x target : Nat} (h : ax.x? = some x) :
    ax.dirOf (ax.hold target) = if x < min target ax.par.stroke then .opening else .closing := by
  unfold AxisState.dirOf
  rw [h]
  rfl

theorem dirOf_unknown {ax : AxisState} (h : ax.x? = none) (target : Nat) : ax.dirOf target = .closing := by
  unfold AxisState.dirOf
  rw [h]

/-! ## A TRUE result (R18, R35, R118) -/

theorem handOn_true (h : e.result = none) : handOn s e = handTrue e s := by
  unfold handOn
  rw [h]

/-- A TRUE guard of an action that does not wait brings nothing. -/
theorem handTrue_underWay (h : e.stage ≠ .waiting) : handTrue e s = s := by
  unfold handTrue
  cases hs : e.stage with
  | waiting => exact absurd hs h
  | preparing => rfl
  | driving => rfl
  | holding => rfl

theorem handTrue_topUp (hs : e.stage = .waiting) (hr : e.source = .topUp) (hm : e.member = .lock g) :
    handTrue e s = topupAsk g s := by
  unfold handTrue
  rw [hs, hr, hm]

theorem handTrue_step (hs : e.stage = .waiting) (hr : e.source ≠ .topUp) : handTrue e s = handTestAs false s := by
  unfold handTrue
  rw [hs]
  cases hc : e.source with
  | topUp => exact absurd hc hr
  | planStep => rfl
  | jogStep => rfl

/-! ## A false result (R18 to R20) -/

theorem handOn_false (h : e.result = some r) (hd : ¬(e.stage = .driving ∧ e.source ≠ .topUp)) :
    handOn s e = takeBack s e := by
  unfold handOn handFalse
  rw [h]
  exact if_neg hd

theorem handOn_trip (h : e.result = some r) (hs : e.stage = .driving) (hr : e.source ≠ .topUp) :
    handOn s e = tripReport .interlock (some e.member) (.guard r) s := by
  unfold handOn handFalse
  rw [h]
  exact if_pos ⟨hs, hr⟩

theorem takeBack_waiting (hs : e.stage = .waiting) : takeBack s e = s := by
  unfold takeBack
  rw [hs]
  cases e.result <;> rfl

theorem takeBack_planStep (h : e.result = some r) (hs : e.stage = .preparing) (hr : e.source = .planStep) :
    takeBack s e = planReturn e.member (memberReturn e.member s) := by
  unfold takeBack
  rw [h, hs, hr]

theorem takeBack_jogStep (h : e.result = some r) (hs : e.stage = .preparing) (hr : e.source = .jogStep) :
    takeBack s e = jogReturn e.member (memberReturn e.member s) := by
  unfold takeBack
  rw [h, hs, hr]

theorem takeBack_pendingTopUp (h : e.result = some r) (hs : e.stage = .preparing) (hr : e.source = .topUp)
    (hm : e.member = .lock g) : takeBack s e = topupReturn g s := by
  unfold takeBack
  rw [h, hs, hr, hm]

theorem takeBack_activeTopUp (h : e.result = some r) (hs : e.stage = .driving) (hr : e.source = .topUp)
    (hm : e.member = .lock g) : takeBack s e = endTopUp g s := by
  unfold takeBack
  rw [h, hs, hr, hm]

theorem takeBack_holding (h : e.result = some r) (hs : e.stage = .holding) (hm : e.member = .lock g) :
    takeBack s e = closeHolding g s := by
  unfold takeBack
  rw [h, hs, hm]

/-! ## What each owner does -/

/-- The watched entry of the member is in the stage that its owner sets. -/
theorem stage_watchStage (m : Member) (st : Stage) (s : State) :
    ∀ x ∈ (watchStage m st s).ilk.watch, x.member = m → x.stage = st := by
  intro x hx hm
  obtain ⟨y, -, rfl⟩ := List.mem_map.1 hx
  split at hm
  next h => rw [if_pos h]
  next h => exact absurd hm h

/-- A new status of a top-up. -/
theorem top_setTopStatus (g : Group) (st : TopStatus) (sg : Stage) (s : State) :
    ((setTopStatus g st sg s).lock g).top = { (s.lock g).top with status := st } := by
  unfold setTopStatus
  simp

theorem agenda_setTopStatus (g : Group) (st : TopStatus) (sg : Stage) (s : State) :
    (setTopStatus g st sg s).agenda = s.agenda := by
  unfold setTopStatus
  simp

/-- An axis step returns to IDLE. -/
theorem axisReturn_does (a : Axis) (s : State) : ((axisReturn a s).axis a).phase = .idle ∧
    ((axisReturn a s).axis a).step = none ∧ ((axisReturn a s).axis a).announce = none ∧
    (axisReturn a s).agenda = s.agenda ++ [.release (.axisStep a)] := by
  unfold axisReturn
  obtain ⟨z, hz, -⟩ := axis_passTo_self a .idle AxisState.cleared (s.emit [.release (.axisStep a)])
  rw [hz]
  exact ⟨phase_toPhase _ _, rfl, rfl, by simp⟩

/-- A lock step returns: its operation is over. -/
theorem opReturn_does (g : Group) (s : State) : ((opReturn g s).lock g).op = none ∧
    ((opReturn g s).lock g).gstate = (s.lock g).ended.derive ∧ (opReturn g s).vod = s.vod ∧
    (opReturn g s).agenda = s.agenda ++ [.release (.lockOp g)] := by
  unfold opReturn
  refine ⟨by simp [LockState.ended], by simp, by simp, by simp⟩

/-- RNE takes a plan step back: members, VOD and the messages of the member's own return are untouched. -/
theorem planReturn_eq (m : Member) (s : State) : (planReturn m s).axis = s.axis ∧ (planReturn m s).lock = s.lock ∧
    (planReturn m s).vod = s.vod ∧ (planReturn m s).agenda = s.agenda ++ [.handTest] := by
  unfold planReturn runEvent
  refine ⟨funext fun a => ?_, funext fun g => ?_, ?_, ?_⟩ <;> simp

/-- RNE's part of a plan step's return (R37). -/
theorem planReturn_does (m : Member) (s : State) : (planReturn m s).rne.engine = s.rne.engine ∧
    (planReturn m s).rne.outcomes = s.rne.outcomes ∧
    (∀ x ∈ (planReturn m s).rne.inflight, x.member = m → x.phase = .waitGuard) ∧
    (planReturn m s).rne.inflight.map (fun x => (x.num, x.member, x.timeout)) =
      s.rne.inflight.map (fun x => (x.num, x.member, x.timeout)) ∧
    ∀ x ∈ (planReturn m s).ilk.watch, x.member = m → x.stage = .waiting := by
  have hr : (planReturn m s).rne = s.rne.modEntry m
      fun e => (watchStage m .waiting s).withWait { e with phase := .waitGuard } := by
    unfold planReturn runEvent
    simp [State.modRne]
  have hi : (planReturn m s).ilk = (watchStage m .waiting s).ilk := by
    unfold planReturn runEvent
    simp [State.modRne]
  rw [hr, hi]
  refine ⟨rfl, rfl, ?_, ?_, stage_watchStage m .waiting s⟩
  · intro x hx hm
    obtain ⟨y, -, rfl⟩ := List.mem_map.1 hx
    split at hm
    next h => rw [if_pos h]; rfl
    next h => exact absurd hm h
  · show List.map _ (List.map _ _) = _
    rw [List.map_map]
    refine List.map_congr_left fun x _ => ?_
    show (fun x : Entry => (x.num, x.member, x.timeout)) (if x.member = m then _ else x) = _
    split <;> rfl

/-- RNE drops a jog step (R53). -/
theorem jogReturn_does {m : Member} {x : Entry} (h : s.rne.entry? m = some x) :
    (jogReturn m s).rne.engine = .idle ∧ (jogReturn m s).rne.result = .aborted ∧
    (∀ y ∈ (jogReturn m s).rne.inflight, y.num ≠ x.num) ∧
    ∀ y ∈ (jogReturn m s).ilk.watch, y.member ≠ m := by
  have ht : jogReturn m s =
      stepGone m (runEvent (fun r => (r.leave x .dropped).finish .aborted) (watchRemove m s)) := by
    unfold jogReturn
    dsimp only
    rw [show (watchRemove m s).rne.entry? m = some x from h]
  have hr : (jogReturn m s).rne = (s.rne.leave x .dropped).finish .aborted := by
    rw [ht, rne_stepGone]; unfold runEvent; simp [State.modRne]
  have hi : (jogReturn m s).ilk = (watchRemove m s).ilk := by
    rw [ht, ilk_stepGone]; unfold runEvent; simp [State.modRne]
  rw [hr, hi]
  refine ⟨rfl, rfl, fun y hy => ?_, not_watched_watchRemove m s⟩
  simpa using (List.mem_filter.1 hy).2

/-! ## The hand-over test (R35, R36) -/

/-- The hand-over test that finds no entry to hand over. -/
theorem handTestAs_none (own : Bool) (h : (refreshAxes s).handOverNext = none) :
    handTestAs own s = (refreshAxes s).emit [.refreshBlocked] := by
  unfold handTestAs
  dsimp only
  rw [h]

/-- The hand-over test that hands an entry over: RNE's entry is DELEGATED. -/
theorem rne_handTestAs_some (own : Bool) {x : Entry} (h : (refreshAxes s).handOverNext = some x) :
    (handTestAs own s).rne =
      (refreshAxes s).rne.modEntry x.member fun y => { y with phase := .delegated, wait := none } := by
  unfold handTestAs
  dsimp only
  rw [h]
  cases own
  · simp [rne_handOver]
  · simp [rne_handOver, rne_memberEvent]

theorem handOverNext_idle (h : s.rne.engine ≠ .running) : s.handOverNext = none := if_neg h

theorem handOverNext_running (h : s.rne.engine = .running) : s.handOverNext = s.rne.inflight.find? s.eligible := if_pos h

/-- The hand-over test (R35, R36): the waiting axis guards are evaluated afresh, and in RUNNING the first entry that
meets the conditions is handed over. -/
theorem handTestAs_does (own : Bool) (s : State) :
    (∀ e ∈ (refreshAxes s).ilk.watch, ∀ a x, e.member = .axis a → x ∈ s.rne.inflight → x.member = .axis a →
      x.phase = .waitGuard → e.result = s.guardOf e) ∧
    (s.rne.engine ≠ .running → handTestAs own s = (refreshAxes s).emit [.refreshBlocked]) ∧
    (s.rne.engine = .running → s.rne.inflight.find? (refreshAxes s).eligible = none →
      handTestAs own s = (refreshAxes s).emit [.refreshBlocked]) ∧
    ∀ x, s.rne.engine = .running → s.rne.inflight.find? (refreshAxes s).eligible = some x →
      (handTestAs own s).rne =
        (refreshAxes s).rne.modEntry x.member fun y => { y with phase := .delegated, wait := none } := by
  have hr : (refreshAxes s).rne = s.rne := rne_refreshAxes s
  refine ⟨?fresh, ?idle, ?blocked, ?handed⟩
  case fresh =>
    intro e he a x hm hx hxm hxp
    obtain ⟨l, hl, hres⟩ := refreshAxes_eq s
    rw [hl] at he
    exact hres a ⟨x, hx, hxm, hxp⟩ e he hm
  case idle => exact fun h => handTestAs_none own (handOverNext_idle (hr ▸ h))
  case blocked =>
    intro h hn
    exact handTestAs_none own ((handOverNext_running (hr ▸ h)).trans (hr ▸ hn))
  case handed =>
    intro x h hf
    exact rne_handTestAs_some own ((handOverNext_running (hr ▸ h)).trans (hr ▸ hf))

/-! ## A re-evaluation (R17) -/

/-- ILK's list is nothing of a member's state. -/
theorem moved_setWatch (l : List WatchEntry) (s t : State) : (s.setWatch l).moved t = s.moved t := by
  have ha : (s.setWatch l).axis = s.axis := funext fun a => by cases a <;> rfl
  have hl : (s.setWatch l).lock = s.lock := funext fun g => by cases g <;> rfl
  unfold State.moved
  rw [ha, hl]

/-- A re-evaluation hands its results on in turn; what they send is delivered after the last of them. -/
theorem reevaluate_does (s : State) {l : List WatchEntry}
    (hl : l = s.ilk.watch.map (fun e => { e with result := s.guardOf e })) :
    (reevaluate s).inner = (l.foldl handOn (s.setWatch l)).inner ∧
    (reevaluate s).agenda = (l.foldl handOn (s.setWatch l)).agenda ++
      (if s.moved (l.foldl handOn (s.setWatch l)) then [.reeval] else []) ++ [.refreshBlocked] := by
  subst hl
  unfold reevaluate
  dsimp only
  constructor
  · rw [inner_emit, inner_memberEvent]
  · rw [agenda_emit, agenda_memberEvent, moved_setWatch]

/-! ## The staleness timer finds a guard lost (R14, R19) -/

/-- The first guard that the loss of the ship's speed makes false in DRIVING is latched as an INTERLOCK trip. -/
theorem speedStaleExpiry_latches {l1 l2 : List WatchEntry} (ha : s.agenda = []) (hr : s.tru.record = none)
    (hx : s.ilk.expiry ≠ none) (hd : d = { s with ilk := s.ilk.stales })
    (hl : d.ilk.watch.map (fun e => { e with result := d.guardOf e }) = l1 ++ e :: l2)
    (h1 : ∀ x ∈ l1, x.stage = .driving → x.source ≠ .topUp → x.result = none)
    (hs : e.stage = .driving) (ht : e.source ≠ .topUp) (he : e.result = some r) :
    ∃ t, exec .speedStaleExpiry s = .next t ∧ t.latched .interlock (some e.member) (.guard r) := by
  have hi : ((mark .run d).emit [.reeval]).inner = d.inner := inner_mark .run d
  have hexec : exec .speedStaleExpiry s = .next (settle ((mark .run d).emit [.reeval])) := hd ▸ exec_speedStaleExpiry hx
  refine ⟨_, hexec, settle_guardLoss (l2 := l2) [] ?agenda ?record ?watch h1 hs ht he⟩
  case agenda => rw [agenda_emit, agenda_mark, show d.agenda = [] from hd ▸ ha]; rfl
  case record => rw [tru_of_inner hi, show d.tru = s.tru from hd ▸ rfl]; exact hr
  case watch =>
    rw [← hl, ilk_of_inner hi]
    exact List.map_congr_left fun x _ => by rw [guardOf_of_inner hi]

/-! ## What a result brings, put together -/

/-- What a TRUE result brings (R18, R35, R118). -/
theorem handOn_none_does (s : State) (e : WatchEntry) (h : e.result = none) :
    (e.stage ≠ .waiting → handOn s e = s) ∧
    (∀ g, e.stage = .waiting → e.source = .topUp → e.member = .lock g → (s.lock g).top.status = .pendingGuard →
      ((handOn s e).lock g).top.status = .pendingSupply ∧ (handOn s e).agenda = s.agenda ++ [.request (.topUp g)] ∧
      ∀ x ∈ (handOn s e).ilk.watch, x.member = .lock g → x.stage = .preparing) ∧
    (e.stage = .waiting → e.source ≠ .topUp → handOn s e = handTestAs false s) := by
  rw [handOn_true h]
  refine ⟨handTrue_underWay, ?topUp, handTrue_step⟩
  case topUp =>
    intro g hs hr hm hg
    have ht : handTrue e s = (setTopStatus g .pendingSupply .preparing s).emit [.request (.topUp g)] :=
      (handTrue_topUp hs hr hm).trans (if_pos hg)
    rw [ht]
    refine ⟨?_, ?_, stage_watchStage (.lock g) .preparing _⟩
    · rw [lock_emit, top_setTopStatus]
    · rw [agenda_emit, agenda_setTopStatus]

/-- What a false result brings to a plan step in PREPARING (R18, R37). -/
theorem takeBack_planStep_does (h : e.result = some r) (hs : e.stage = .preparing) (hr : e.source = .planStep) :
    (∀ a, e.member = .axis a → ((takeBack s e).axis a).phase = .idle ∧ ((takeBack s e).axis a).step = none ∧
      ((takeBack s e).axis a).announce = none ∧
      (takeBack s e).agenda = s.agenda ++ [.release (.axisStep a), .handTest]) ∧
    (∀ g, e.member = .lock g → ((takeBack s e).lock g).op = none ∧
      ((takeBack s e).lock g).gstate = (s.lock g).ended.derive ∧ (takeBack s e).vod = s.vod ∧
      (takeBack s e).agenda = s.agenda ++ [.release (.lockOp g), .handTest]) ∧
    (takeBack s e).rne.engine = s.rne.engine ∧ (takeBack s e).rne.outcomes = s.rne.outcomes ∧
    (∀ x ∈ (takeBack s e).rne.inflight, x.member = e.member → x.phase = .waitGuard) ∧
    (takeBack s e).rne.inflight.map (fun x => (x.num, x.member, x.timeout)) =
      s.rne.inflight.map (fun x => (x.num, x.member, x.timeout)) ∧
    ∀ x ∈ (takeBack s e).ilk.watch, x.member = e.member → x.stage = .waiting := by
  rw [takeBack_planStep h hs hr]
  obtain ⟨hax, hlk, hv, hag⟩ := planReturn_eq e.member (memberReturn e.member s)
  refine ⟨fun a hm => ?_, fun g hm => ?_, ?_⟩
  · obtain ⟨hp, hst, han, hg⟩ := axisReturn_does a s
    rw [hm] at hax hag ⊢
    rw [hax, hag, show (memberReturn (.axis a) s) = axisReturn a s from rfl, hg, List.append_assoc]
    exact ⟨hp, hst, han, rfl⟩
  · obtain ⟨ho, hgs, hvo, hg⟩ := opReturn_does g s
    rw [hm] at hlk hv hag ⊢
    rw [hlk, hv, hag, show (memberReturn (.lock g) s) = opReturn g s from rfl, hg, List.append_assoc]
    exact ⟨ho, hgs, hvo, rfl⟩
  · have hd := planReturn_does e.member (memberReturn e.member s)
    rwa [rne_memberReturn] at hd

/-- What a false result brings to a top-up (R18, R20, R118). -/
theorem takeBack_topUp_does (h : e.result = some r) (hr : e.source = .topUp) (hm : e.member = .lock g) :
    (e.stage = .preparing → ((takeBack s e).lock g).top = { (s.lock g).top with status := .pendingGuard } ∧
      (takeBack s e).agenda = s.agenda ++ [.release (.topUp g)] ∧
      ∀ x ∈ (takeBack s e).ilk.watch, x.member = .lock g → x.stage = .waiting) ∧
    (e.stage = .driving → ((takeBack s e).lock g).top = noTopUp ∧ (takeBack s e).tru = s.tru ∧
      .release (.topUp g) ∈ (takeBack s e).agenda ∧ ∀ x ∈ (takeBack s e).ilk.watch, x.member ≠ .lock g) := by
  constructor
  · intro hs
    rw [takeBack_pendingTopUp h hs hr hm]
    unfold topupReturn
    refine ⟨?_, ?_, stage_watchStage (.lock g) .waiting _⟩
    · rw [top_setTopStatus, lock_emit]
    · rw [agenda_setTopStatus, agenda_emit]
  · intro hs
    rw [takeBack_activeTopUp h hs hr hm]
    obtain ⟨htop, -, hw, hag, -, -, -, htru⟩ := endTopUp_does g s
    exact ⟨htop, htru, by rw [hag]; simp, hw⟩

/-- What a false result brings in HOLDING (R20). -/
theorem takeBack_holding_does (h : e.result = some r) (hs : e.stage = .holding) (hm : e.member = .lock g) :
    ((takeBack s e).lock g).op = none ∧ ((takeBack s e).lock g).holdT = none ∧ (takeBack s e).tru = s.tru ∧
    .release (.lockOp g) ∈ (takeBack s e).agenda ∧ ∀ x ∈ (takeBack s e).ilk.watch, x.member ≠ .lock g := by
  rw [takeBack_holding h hs hm]
  obtain ⟨hop, hh, hw, hag, -, -, htru⟩ := closeHolding_does g s
  exact ⟨hop, hh, htru, by rw [hag]; simp, hw⟩

/-- Settles O39: each row of the guards and the direction of an entry by the definitions, each result by what its owner
does, the evaluation by its fold, the trip by the first guard lost in DRIVING. -/
theorem guardsActByStage : Obligations.GuardsActByStage := by
  unfold Obligations.GuardsActByStage
  refine ⟨fun l => ⟨firstFailing_none l, firstFailing_some l⟩, ?rows, ?guard, ?result, ?handTest, ?evaluation, ?trip⟩
  case rows =>
    intro s
    exact ⟨rfl, rfl, fun d => by cases d <;> rfl, rfl, rfl, rfl, rfl, rfl, rfl, rfl, rfl⟩
  case guard =>
    intro s e
    refine ⟨fun g hm => guardOf_lock hm, fun a hm => ?_⟩
    rw [guardOf_axis hm]
    refine ⟨fun st hs h => ?_, fun hs h => ?_, fun x target hs h ht => ?_⟩
    · rw [entryDir_fixed hs h]
    · rw [entryDir_waiting hs, dirOf_unknown h]
    · rw [entryDir_waiting hs, ht]
      exact congrArg (s.axisGuard a) (dirOf_hold h)
  case result =>
    rintro s _ e rfl
    refine ⟨handOn_none_does s e, fun r h => ?_⟩
    have hback : ¬(e.stage = .driving ∧ e.source ≠ .topUp) → handOn s e = takeBack s e := handOn_false h
    have hplan : e.stage = .preparing → handOn s e = takeBack s e :=
      fun hs => hback fun hd => by simp [hs] at hd
    refine ⟨fun hs => ?waiting, fun hs hr => handOn_trip h hs hr, fun a hs hm hr => ?axisStep, fun g hs hm hr => ?lockStep,
      fun hs hr => ?planStep, fun x hs hr hx => ?jogStep, fun g hs hm hr => ?pending, fun g hs hm hr => ?active,
      fun g hs hm => ?holding⟩
    case waiting => rw [hback fun hd => by simp [hs] at hd, takeBack_waiting hs]
    case axisStep => rw [hplan hs]; exact (takeBack_planStep_does h hs hr).1 a hm
    case lockStep => rw [hplan hs]; exact (takeBack_planStep_does h hs hr).2.1 g hm
    case planStep => rw [hplan hs]; exact (takeBack_planStep_does h hs hr).2.2
    case jogStep =>
      rw [hplan hs, takeBack_jogStep h hs hr]
      exact jogReturn_does (by rwa [rne_memberReturn])
    case pending => rw [hplan hs]; exact (takeBack_topUp_does h hr hm).1 hs
    case active => rw [hback fun hd => hd.2 hr]; exact (takeBack_topUp_does h hr hm).2 hs
    case holding => rw [hback fun hd => by simp [hs] at hd]; exact takeBack_holding_does h hs hm
  case handTest =>
    rintro s _ _ own rfl rfl
    exact handTestAs_does own s
  case evaluation =>
    rintro s _ l hl rfl
    exact reevaluate_does s hl
  case trip =>
    intro s d l1 e l2 r ha hr hx hd hl h1 hs ht he
    exact speedStaleExpiry_latches ha hr hx hd hl h1 hs ht he

end Sys2Proof.Machine
end
